-- ==== Sys2Proof/Word.lean ====
section
/-! DEFINITION. The word types, the triples and sets of the correction arithmetic, and fixed-size tables. -/

namespace Sys2Proof

/-- One byte of the exchange area or of a tile link. -/
abbrev Byte := BitVec 8

/-- A 16-bit field. -/
abbrev Half := BitVec 16

/-- A 32-bit field or register. -/
abbrev Word := BitVec 32

/-- The part's tick: 100 us intervals since the last power-on reset, mod 2^32 (R61). -/
abbrev Tick := BitVec 32

/-- A timer: stopped, or running with so many microseconds left. -/
abbrev Timer := Option Nat

/-- The three primaries, in the order R, G, B. -/
inductive Primary where
  | red
  | green
  | blue
  deriving DecidableEq, Repr

/-- One value per primary. -/
structure Rgb (α : Type) where
  r : α
  g : α
  b : α
  deriving DecidableEq, Repr

namespace Rgb

variable {α β γ : Type}

/-- The value of one primary. -/
def get (v : Rgb α) : Primary → α
  | .red => v.r
  | .green => v.g
  | .blue => v.b

/-- A triple from a rule that gives each primary its value. -/
def ofPrimary (f : Primary → α) : Rgb α := ⟨f .red, f .green, f .blue⟩

/-- The same value for each primary. -/
def replicate (a : α) : Rgb α := ⟨a, a, a⟩

/-- A function applied to each primary's value. -/
def map (f : α → β) (v : Rgb α) : Rgb β := ⟨f v.r, f v.g, f v.b⟩

/-- A function applied to the two values of each primary. -/
def zipWith (f : α → β → γ) (v : Rgb α) (w : Rgb β) : Rgb γ := ⟨f v.r w.r, f v.g w.g, f v.b w.b⟩

/-- The three values in the order R, G, B. -/
def toList (v : Rgb α) : List α := [v.r, v.g, v.b]

end Rgb

/-- Nine terms: rows are output primaries, columns input primaries (file 00, section 3). -/
abbrev TermSet := Rgb (Rgb Int)

/-- A table of exactly `n` records, numbered from 0. -/
structure Table (α : Type) (n : Nat) where
  cells : List α
  size : cells.length = n
  deriving DecidableEq, Repr

namespace Table

variable {α : Type} {n : Nat}

/-- `n` copies of one record. -/
def replicate (n : Nat) (a : α) : Table α n := ⟨List.replicate n a, List.length_replicate⟩

/-- The record with number `i`. -/
def get (t : Table α n) (i : Fin n) : α := t.cells[i.val]'(t.size.symm ▸ i.isLt)

/-- The table with record `i` replaced. -/
def set (t : Table α n) (i : Fin n) (a : α) : Table α n :=
  ⟨t.cells.set i.val a, (List.length_set).trans t.size⟩

/-- The table with every record changed by one function. -/
def map (f : α → α) (t : Table α n) : Table α n := ⟨t.cells.map f, (List.length_map f).trans t.size⟩

/-- The records with their numbers, in ascending order of number. -/
def enum (t : Table α n) : List (Fin n × α) := (List.finRange n).zip t.cells

end Table

end Sys2Proof
end

