-- ==== Sys2Proof/Syntax.lean ====
section
/-! DEFINITION. The commands: one constructor per row of spec/opcode_table.json, in the table's order. -/

namespace Sys2Proof

/-- Bytes the host has written into its own memory, at an offset from the base of the exchange area.
The host's memory writes are no row of the table; they reach the part when a scan reads them, so they
are an operand of the commands that may start a scan (log 3). -/
structure HostWrite where
  offset : Nat
  bytes : List Byte
  deriving DecidableEq, Repr

/-- The commands of the part. Chains are numbered 0 to 3, groups 0 to 7. -/
inductive Instr where
  /-- RESET_N or power-up (R27 and the power-on rule of every block). -/
  | powerOnReset
  /-- The level of PERST_N: asserted or released (R173). -/
  | perstN (asserted : Bool)
  /-- A write of `v` to AREA_LO (R173). -/
  | areaLoWrite (v : Word)
  /-- A write of `v` to AREA_HI (R173). -/
  | areaHiWrite (v : Word)
  /-- A write of `v` to PART_ID (R173). -/
  | partIdWrite (v : Word)
  /-- A write to RUN_CTRL with RESTART 1; `run` and `scan` are its RUN and SCAN bits (R174, R175). -/
  | restart (run scan : Bool) (host : List HostWrite)
  /-- A write to RUN_CTRL with RESTART 0 and SCAN 0; `run` is its RUN bit (R174). -/
  | run (run : Bool) (host : List HostWrite)
  /-- A write to RUN_CTRL with RESTART 0 and SCAN 1; `run` is its RUN bit (R167, R174). -/
  | scan (run : Bool) (host : List HostWrite)
  /-- A write of `v` to NOTICE_RAW (R176). -/
  | noticeRawWrite (v : Word)
  /-- A write of `v` to NOTICE_MASK (R176). -/
  | noticeMaskWrite (v : Word)
  /-- The scan timer expires (R167). -/
  | scanTimerExpiry (host : List HostWrite)
  /-- A scan marked to follow starts (R167). -/
  | followingScan (host : List HostWrite)
  /-- The command `during` comes, and of the area accesses from then on number `n` (0 first) ends in a bus error (R172,
  log 7). -/
  | areaBusError (n : Nat) (during : Instr)
  /-- The card under way is an ADOPT and is dispatched (R32 to R37). -/
  | adopt
  /-- The card under way is a RETIRE and is dispatched (R44). -/
  | retire
  /-- The card under way is a SOLVE and is dispatched (R58). -/
  | solve
  /-- The card under way is a SET_GROUP and is dispatched (R59, R60). -/
  | setGroup
  /-- The card under way is a LOAD_CURVE and is dispatched (R71 to R76). -/
  | loadCurve
  /-- The card under way is a SET_MODE and is dispatched (R79). -/
  | setMode
  /-- The card under way is a FREEZE and is dispatched (R93). -/
  | freeze
  /-- The card under way is a THAW and is dispatched (R94). -/
  | thaw
  /-- The card under way is a SET_FRAME and is dispatched (R84). -/
  | setFrame
  /-- The card under way is a SET_CHAIN and is dispatched (R113). -/
  | setChain
  /-- The card under way is a START_CHAIN and is dispatched (R123). -/
  | startChain
  /-- The card under way is a STOP_CHAIN and is dispatched (R124). -/
  | stopChain
  /-- The card under way is a VERIFY and is dispatched (R140). -/
  | verify
  /-- The card under way is a ROLL_CALL and is dispatched (R151). -/
  | rollCall
  /-- The card under way is a SET_FILTER and is dispatched (R159). -/
  | setFilter
  /-- A rising edge on FRAME_IN (R80, R82). -/
  | frameEdge
  /-- The loss timer runs out (R81). -/
  | lossTimerExpiry
  /-- The substitute timer runs out (R81). -/
  | substituteTimerExpiry
  /-- The FREEZE_IN level becomes `asserted` (R95). -/
  | freezeInChange (asserted : Bool)
  /-- The solve timer of group `g` runs out (R50). -/
  | solveTimerExpiry (g : Fin 8)
  /-- The solver's 1 ms service (R52). -/
  | serviceTimerExpiry
  /-- The 100 ms staleness check (R66). -/
  | stalenessCheckExpiry
  /-- The last byte of a transaction's frame or of a ROLL frame has been sent on chain `ch` (R103, R144). -/
  | frameSent (ch : Fin 4)
  /-- The last byte of a LATCH frame has been sent on chain `ch` (R133). -/
  | latchSent (ch : Fin 4)
  /-- An answer that began in the answer window of chain `ch`; `quiet` says that it ended in two byte
  times of quiet and not after 12 byte times without one (R103, R104). -/
  | tileAnswer (ch : Fin 4) (bytes : List Byte) (quiet : Bool)
  /-- The answer window of chain `ch` closes with nothing received (R103). -/
  | answerWindowClose (ch : Fin 4)
  /-- The line of chain `ch`, with a frame to resend, has been quiet for `quiet` byte times, `waited`
  byte times after the attempt ended (R97, R104). -/
  | resend (ch : Fin 4) (quiet waited : Nat)
  /-- An answer that arrived during the hold of chain `ch`, `quiet` as for a tile answer (R105). -/
  | holdAnswer (ch : Fin 4) (bytes : List Byte) (quiet : Bool)
  /-- The hold timer of chain `ch` runs out (R105). -/
  | holdTimerExpiry (ch : Fin 4)
  /-- The poll round timer of chain `ch` expires (R119). -/
  | pollRoundTimerExpiry (ch : Fin 4)
  /-- The latch-pending age of chain `ch` passes the latch deadline (R131). -/
  | latchDeadlinePassed (ch : Fin 4)
  /-- The verify sweep timer of chain `ch` expires (R135). -/
  | verifySweepTimerExpiry (ch : Fin 4)
  /-- An answer that began in the open roll slot of chain `ch`, `quiet` as for a tile answer (R144). -/
  | rollSlotAnswer (ch : Fin 4) (bytes : List Byte) (quiet : Bool)
  /-- The open roll slot of chain `ch` closes empty (R144). -/
  | rollSlotClose (ch : Fin 4)
  /-- The line of chain `ch` after a garbled slot, in byte times as for a resend (R97, R146). -/
  | rollRetry (ch : Fin 4) (quiet waited : Nat)
  /-- The line of chain `ch` with chosen work to begin, in byte times as for a resend (R97). -/
  | frameBegin (ch : Fin 4) (quiet waited : Nat)
  deriving DecidableEq, Repr

end Sys2Proof
end

