-- ==== Sys2Proof/Decode.lean ====
section
/-! DEFINITION. Decoding: the rows of spec/opcode_table.json give no bits, so no word spells a command. -/

namespace Sys2Proof

/-- The command that a word spells by the table's bits. No row of the table has a field or a fixed bit: the
commands of this block are events and cards, not words. -/
def decodeTableWord (_nbits _w : Nat) : Option Instr := none

end Sys2Proof
end

