-- ==== Sys2Proof/Config.lean ====
section
/-! DEFINITION. What the manual leaves open (free choices without a body), and the fixed times of the part. -/

namespace Sys2Proof.Config

/-- DESIGN CHOICE (log 8). The order in which things that the manual leaves unordered are taken.
The n-th choice reads `freeOrder n`; nothing in the model gives it a value. -/
opaque freeOrder : Nat → Nat

/-- The list with `x` put at place `n`, or at its end if it is shorter. -/
def putAt {α : Type} (n : Nat) (x : α) : List α → List α
  | [] => [x]
  | y :: ys => if n = 0 then x :: y :: ys else y :: putAt (n - 1) x ys

/-- The permutation of a list that `code` names. Every permutation is named by some code. -/
def arrange {α : Type} (code : Nat) : List α → List α
  | [] => []
  | x :: xs => putAt (code % (xs.length + 1)) x (arrange (code / (xs.length + 1)) xs)

/-- One tick is 100 microseconds (R61). -/
def tickMicros : Nat := 100

/-- The period of the scan timer, 1 ms (R167). -/
def scanMicros : Nat := 1000

/-- The period of the solver's service timer, 1 ms (R52). -/
def serviceMicros : Nat := 1000

/-- The period of the staleness check timer, 100 ms (R66). -/
def stalenessMicros : Nat := 100000

/-- A time of n milliseconds, in microseconds. -/
def millis (n : Nat) : Nat := n * 1000

/-- A time of n seconds, in microseconds. -/
def seconds (n : Nat) : Nat := n * 1000000

/-- The unit of the nominal frame period and of edge spacings, 10 microseconds (section 5.2). -/
def frameUnitMicros : Nat := 10

/-- The three counts of the logs, the poll-overrun count and push_count stop at this value. -/
def countMax : Nat := 65535

end Sys2Proof.Config
end

