-- ==== Sys2Proof/Machine/State.lean ====
section
/-! DEFINITION. The state of the part: every record, register, queue, timer and pin of the manual, and the reset state. -/

namespace Sys2Proof.Machine

/-! ## Tile contexts (section 2.1) -/

/-- The life states of a context (section 2.2). -/
inductive Life where
  | absent
  | adopted
  | live
  | unmatched
  | faulted
  deriving DecidableEq, Repr

/-- The readback states of a context (section 7.4). -/
inductive Verify where
  | none
  | due
  | reading
  | matched
  | mismatched
  deriving DecidableEq, Repr

/-- Why a context is FAULTED (R40, R41, R43). -/
inductive FaultReason where
  | none
  | noAnswer
  | nak
  | holdTimeout
  | verify
  | missing
  deriving DecidableEq, Repr

/-- A tile context. A set that is unknown is `none`, and so is a temperature without a reading. -/
structure Context where
  life : Life
  generation : BitVec 8
  serial : Word
  chain : Fin 4
  address : Fin 64
  group : Fin 8
  page : Fin 16
  noVote : Bool
  luminance : Rgb Nat
  age : Rgb Nat
  mix : TermSet
  temp : Option Int
  tempTick : Tick
  stale : Bool
  effective : Rgb Nat
  gain : Rgb Nat
  target : TermSet
  applied : Option TermSet
  sent : Option TermSet
  latched : Option TermSet
  failCount : Nat
  mismatchCount : Nat
  verify : Verify
  faultReason : FaultReason
  short : Bool
  ageClamped : Bool
  curveFallback : Bool
  sensorSuspect : Bool
  pushCount : Nat
  dirty : Bool
  deriving DecidableEq, Repr

/-- A context after a power-on reset (R27). -/
def Context.reset : Context where
  life := .absent
  generation := 0
  serial := 0
  chain := 0
  address := 0
  group := 0
  page := 0
  noVote := false
  luminance := Rgb.replicate 0
  age := Rgb.replicate 0
  mix := Rgb.replicate (Rgb.replicate 0)
  temp := none
  tempTick := 0
  stale := false
  effective := Rgb.replicate 1
  gain := Rgb.replicate 32768
  target := Rgb.replicate (Rgb.replicate 0)
  applied := none
  sent := none
  latched := none
  failCount := 0
  mismatchCount := 0
  verify := .none
  faultReason := .none
  short := false
  ageClamped := false
  curveFallback := false
  sensorSuspect := false
  pushCount := 0
  dirty := true

/-! ## Match groups (section 3.1) and curve pages (section 4.4) -/

/-- A match group: its six settings, its targets (`none` is UNSET, for all three at once, R12), the
solver's pending flag and solve timer, and the ramp unit's beat counter (R86). -/
structure Group where
  headroom : Nat
  cap : Nat
  slew : Nat
  beat : Nat
  solveInterval : Nat
  staleLimit : Nat
  targets : Option (Rgb Nat)
  pending : Bool
  solveTimer : Timer
  beatCount : Nat
  deriving DecidableEq, Repr

/-- A group after a power-on reset (R47, R86). -/
def Group.reset : Group where
  headroom := 31457
  cap := 262143
  slew := 16
  beat := 4
  solveInterval := 10
  staleLimit := 10
  targets := none
  pending := false
  solveTimer := some (Config.seconds 10)
  beatCount := 0

/-- A curve page: 99 entries in the order R e[0..32], G e[0..32], B e[0..32], and its loaded flag. -/
structure Page where
  loaded : Bool
  entries : Table Nat 99
  deriving DecidableEq, Repr

/-- A page after a power-on reset (R69). -/
def Page.reset : Page where
  loaded := false
  entries := Table.replicate 99 0

/-! ## Solves under way (R17, R52) -/

/-- The result of a tile correction (R17), with the primaries in which the tile is short (R57) and
whether page 15 stood in for its own page (R77). -/
structure Correction where
  effective : Rgb Nat
  gain : Rgb Nat
  target : TermSet
  shorts : Rgb Bool
  fallback : Bool
  wallDefault : Bool
  deriving DecidableEq, Repr

/-- What a tile correction has formed once it has chosen and read its page (R5, R9, R18's first stage): the
effective luminances, whether the tile's own page was unloaded, and whether page 15 was loaded (R77). -/
structure PageReading where
  effective : Rgb Nat
  fallback : Bool
  wallDefault : Bool
  deriving DecidableEq, Repr

/-- A member of a solve under way (R52, R70): the context, its fields as they stood when the solve began, its
generation among them, and what its correction has read from its page, once it has. -/
structure SolveMember where
  ctx : Fin 256
  tile : Context
  reading : Option PageReading
  deriving DecidableEq, Repr

/-- A solve that has begun and not yet ended (R52): the group, its headroom and cap when the solve began, and its
members. -/
structure Solve where
  group : Fin 8
  headroom : Nat
  cap : Nat
  members : List SolveMember
  deriving DecidableEq, Repr

/-! ## Ramp unit (chapter 5) -/

/-- The modes of the part (R78). -/
inductive Mode where
  | setup
  | showing
  deriving DecidableEq, Repr

/-- Whether frame edges are arriving (section 5.2). -/
inductive FrameState where
  | regained
  | lost
  deriving DecidableEq, Repr

/-- The ramp unit. The candidate edge is the microsecond clock at that edge. The freeze set is kept in
ascending order of tag. -/
structure RampUnit where
  mode : Mode
  period : Nat
  frameState : FrameState
  lossTimer : Timer
  substituteTimer : Timer
  candidate : Option Nat
  freezeSet : List Nat
  freezeIn : Bool
  deriving DecidableEq, Repr

/-- The ramp unit after a power-on reset (R78, R83, R92); the FREEZE_IN level is log 4's. -/
def RampUnit.reset : RampUnit where
  mode := .setup
  period := 1667
  frameState := .regained
  lossTimer := some (3 * 1667 * Config.frameUnitMicros)
  substituteTimer := none
  candidate := none
  freezeSet := []
  freezeIn := false

/-! ## Tile chains (chapters 6 to 8) -/

/-- The bit rates of a link (R97). -/
inductive BitRate where
  | mbit1
  | mbit2
  | mbit4
  | mbit8
  deriving DecidableEq, Repr

/-- What a NAK leads to (R104). -/
inductive NakPolicy where
  | retry
  | skip
  deriving DecidableEq, Repr

/-- The eight settings of a chain (section 6.5). -/
structure ChainConfig where
  bitRate : BitRate
  answerWindow : Nat
  holdLimit : Nat
  retryLimit : Nat
  nakPolicy : NakPolicy
  pollPeriod : Nat
  verifyInterval : Nat
  latchDeadline : Nat
  deriving DecidableEq, Repr

/-- The settings of a chain after a power-on reset (section 6.5, R111). -/
def ChainConfig.reset : ChainConfig where
  bitRate := .mbit2
  answerWindow := 200
  holdLimit := 20
  retryLimit := 2
  nakPolicy := .retry
  pollPeriod := 500
  verifyInterval := 0
  latchDeadline := 50

/-- The states of a chain (section 6.4). -/
inductive ChainState where
  | stopped
  | idle
  | busy
  | holding
  | rolling
  | stopping
  deriving DecidableEq, Repr

/-- The four kinds of work carried by transactions (section 6.2). -/
inductive WorkKind where
  | probe
  | push
  | poll
  | readback
  deriving DecidableEq, Repr

/-- Where a transaction stands: its frame waits for the line, is being sent, its answer window is open,
it waits to resend, or it waits in a hold. -/
inductive Phase where
  | toBegin
  | sending
  | window
  | toResend
  | holding
  deriving DecidableEq, Repr

/-- The settings a transaction records when it starts (R102). -/
structure LinkSettings where
  bitRate : BitRate
  answerWindow : Nat
  holdLimit : Nat
  retryLimit : Nat
  nakPolicy : NakPolicy
  deriving DecidableEq, Repr

/-- A transaction and what it has recorded (R102). -/
structure Transaction where
  kind : WorkKind
  ctx : Fin 256
  generation : BitVec 8
  address : Fin 64
  payload : Option TermSet
  settings : LinkSettings
  attempts : Nat
  phase : Phase
  deriving DecidableEq, Repr

/-- The work in flight on a chain: nothing, one transaction, or a LATCH frame that waits for the line
or is being sent (R108, R109). -/
inductive Flight where
  | none
  | transaction (t : Transaction)
  | latch (sending : Bool)
  deriving DecidableEq, Repr

/-- An entry of a poll list (R119, R120). -/
structure PollEntry where
  ctx : Fin 256
  overdue : Bool
  inFlight : Bool
  deriving DecidableEq, Repr

/-- A pending latch: the tick at which it was set, and its overdue mark (R131). -/
structure LatchPending where
  setTick : Tick
  overdue : Bool
  deriving DecidableEq, Repr

/-- The sweep record of a VERIFY card (R140, R141). -/
structure SweepRecord where
  marked : Nat
  matched : Nat
  mismatched : Nat
  failed : Nat
  dropped : Nat
  deriving DecidableEq, Repr

/-- Where a roll stands on the line: its ROLL frame waits, is being sent, a slot is open, or a new
attempt waits for the line. -/
inductive RollPhase where
  | toBegin
  | sending
  | slot
  | toRetry
  deriving DecidableEq, Repr

/-- A roll in progress and its roll record (R145). The serial at index k was taken in slot k + 1, and the
open slot is the one after the last serial. `ending` says that a restart ends the roll with the step
under way (R155), and `again` that a further roll has been requested since (R151): it waits for this end. -/
structure Roll where
  begun : Bool
  attempts : Nat
  retryLimit : Nat
  serials : List Word
  phase : RollPhase
  ending : Bool
  again : Bool
  deriving DecidableEq, Repr

/-- A chain controller. -/
structure Chain where
  state : ChainState
  config : ChainConfig
  flight : Flight
  holdTimer : Timer
  probeQueue : List (Fin 256)
  pushQueue : List (Fin 256)
  pollList : List PollEntry
  pollTimer : Timer
  pollOverrun : Nat
  latchPending : Option LatchPending
  framesSinceLatch : Nat
  sweepTimer : Timer
  readbackPosition : Fin 64
  sweep : Option SweepRecord
  roll : Option Roll
  deriving DecidableEq, Repr

/-- A chain controller after a power-on reset (R111, R131, R132, R135, R136, R155). -/
def Chain.reset : Chain where
  state := .stopped
  config := ChainConfig.reset
  flight := .none
  holdTimer := none
  probeQueue := []
  pushQueue := []
  pollList := []
  pollTimer := none
  pollOverrun := 0
  latchPending := none
  framesSinceLatch := 0
  sweepTimer := none
  readbackPosition := 0
  sweep := none
  roll := none

/-! ## Filters and logs (chapter 9) -/

/-- The two logs. -/
inductive Destination where
  | general
  | alert
  deriving DecidableEq, Repr

/-- A report filter (section 9.2). `pattern` is the field that the manual calls match. -/
structure Filter where
  enable : Bool
  mask : BitVec 12
  pattern : BitVec 12
  destination : Destination
  deriving DecidableEq, Repr

/-- A filter after a power-on reset (section 9.2). -/
def Filter.reset : Filter where
  enable := false
  mask := 0
  pattern := 0
  destination := .general

/-- The indices and counts of the two logs (R160 to R165). `ready` says that a scan has read the host
words since the last reset (R160). -/
structure Logs where
  alertWrite : Fin 32
  generalWrite : Fin 512
  oldest : Fin 512
  alertCopy : Fin 32
  generalCopy : Fin 512
  released : Fin 512
  overwrites : Nat
  rollovers : Nat
  unlogged : Nat
  ready : Bool
  deriving DecidableEq, Repr

/-- The logs after a power-on reset or a restart (R165). -/
def Logs.reset : Logs where
  alertWrite := 0
  generalWrite := 0
  oldest := 0
  alertCopy := 0
  generalCopy := 0
  released := 0
  overwrites := 0
  rollovers := 0
  unlogged := 0
  ready := false

/-! ## Intake unit (chapter 10) -/

/-- The fifteen requests (section 10.2.2). -/
inductive Request where
  | adopt
  | retire
  | solve
  | setGroup
  | loadCurve
  | setMode
  | freeze
  | thaw
  | setFrame
  | setChain
  | startChain
  | stopChain
  | verify
  | rollCall
  | setFilter
  deriving DecidableEq, Repr

/-- The result codes of a card (section 10.2.2). -/
inductive ResultCode where
  | ok
  | badVersion
  | badKind
  | badField
  | locked
  | busy
  | notFound
  | addressTaken
  | full
  | notHeld
  | cancelled
  deriving DecidableEq, Repr

/-- A card as it was read: its index on the board, its first bytes, its tag and its parameters. -/
structure Card where
  index : Fin 32
  state : Byte
  version : Byte
  kind : Byte
  flags : Byte
  tag : Half
  params : List Byte
  deriving DecidableEq, Repr

/-- A card in the long-card table (R170), with the tag and the NOTIFY flag it was taken with (R169). -/
structure HeldCard where
  index : Fin 32
  kind : Request
  tag : Half
  notify : Bool
  deriving DecidableEq, Repr

/-- The long-card table entries of one chain (R170). -/
structure LongEntries where
  sweepOrRoll : Option HeldCard
  stop : Option HeldCard
  deriving DecidableEq, Repr

/-- A completion that waits to be written (R170). -/
structure Completion where
  index : Fin 32
  code : ResultCode
  data : List Byte
  doneTick : Tick
  tag : Half
  notify : Bool
  deriving DecidableEq, Repr

/-- A scan under way whose walk has read a card and not yet finished it (R167, R168): the card, the tick at which it
was taken, the pending flags of the groups (R58) and the long-card table (R170) as they stood then, how many more
cards the walk may take after it, and whether a card of a kind
that makes groups pending has been dispatched at this scan (R58, R71). `ending` says that RUN has
been cleared or a restart has come since, so that the scan ends with this card; `restart` that the intake unit's
restart waits for it; and `rescan` that the SCAN bit of the same write asks for a scan after that restart (R174). -/
structure Walk where
  card : Card
  request : Request
  takenTick : Tick
  flags : Table Bool 8
  longCards : Table LongEntries 4
  left : Nat
  solved : Bool
  ending : Bool
  restart : Bool
  rescan : Bool
  deriving DecidableEq, Repr

/-- A write into the exchange area: its offset and its bytes. -/
abbrev AreaWrite := Nat × List Byte

/-- Where a scan under way stands between two of its accesses, but while a card is under way (R167). -/
inductive ScanPhase where
  /-- Step 1: the host words are to be read. -/
  | hostWords
  /-- Step 2: the completions still to be written, and of the first the writes still to be made (R169, R170). -/
  | completions (rest : List Completion) (writes : List AreaWrite)
  /-- Step 3: the card at the cursor is to be read; how many cards the walk may still take, and whether a card of a kind
  that makes groups pending has been dispatched at this scan (R58, R71, R168). -/
  | board (left : Nat) (solved : Bool)
  /-- Step 4: the status block is to be copied (R171). -/
  | copy
  /-- Step 4: the writes of the copied status block still to be made (R171). -/
  | status (writes : List AreaWrite)
  /-- Step 4: the contexts whose mirror records, if they are dirty, are still to be written (R46, R171). -/
  | mirror (rest : List (Fin 256))
  deriving DecidableEq, Repr

/-- The intake unit. A scan is under way while `walk` holds a card or `scan` says where it stands. -/
structure Intake where
  cursor : Fin 32
  longCards : Table LongEntries 4
  completions : List Completion
  halted : Bool
  scanTimer : Timer
  walk : Option Walk
  scan : Option ScanPhase
  follow : Bool
  scanCount : Word
  deriving DecidableEq, Repr

/-- The intake unit after a power-on reset (R168, R170, R171, R174). -/
def Intake.reset : Intake where
  cursor := 0
  longCards := Table.replicate 4 ⟨none, none⟩
  completions := []
  halted := false
  scanTimer := none
  walk := none
  scan := none
  follow := false
  scanCount := 0

/-- The stored bits of the register window (section 10.6). `areaLo` is bits 31:16 of AREA_LO. -/
structure Registers where
  areaLo : Half
  areaHi : Word
  run : Bool
  noticeRaw : BitVec 7
  noticeMask : BitVec 7
  deriving DecidableEq, Repr

/-- The registers after a power-on reset (R173, R174, R176). -/
def Registers.reset : Registers where
  areaLo := 0
  areaHi := 0
  run := false
  noticeRaw := 0
  noticeMask := 0

/-! ## Around the part -/

/-- The host's memory: the bytes that are not 0, by address, addresses strictly rising (log 5). -/
abbrev Memory := List Host.Cell

/-- The PCIe link: up or down (R173), and, where an AREA_BUS_ERROR has named an access that has not yet been made, how
many more area accesses end well before it (log 7). -/
structure Link where
  up : Bool
  failAfter : Option Nat
  deriving DecidableEq, Repr

/-- The link in the reset state (log 6). -/
def Link.reset : Link where
  up := true
  failAfter := none

/-! ## The state -/

/-- The part, the host's memory beside it, and the queue of waiting commands. -/
structure State where
  pending : List Instr
  clock : Nat
  contexts : Table Context 256
  groups : Table Group 8
  serviceTimer : Timer
  stalenessTimer : Timer
  solves : List Solve
  pages : Table Page 16
  ramp : RampUnit
  chains : Table Chain 4
  filters : Table Filter 6
  logs : Logs
  intake : Intake
  regs : Registers
  area : Memory
  link : Link
  freeIndex : Nat
  deriving DecidableEq, Repr

/-- The machine right after a power-on reset: each block's record as its own rule gives it. -/
def State.reset : State where
  pending := []
  clock := 0
  contexts := Table.replicate 256 Context.reset
  groups := Table.replicate 8 Group.reset
  serviceTimer := some Config.serviceMicros
  stalenessTimer := some Config.stalenessMicros
  solves := []
  pages := Table.replicate 16 Page.reset
  ramp := RampUnit.reset
  chains := Table.replicate 4 Chain.reset
  filters := Table.replicate 6 Filter.reset
  logs := Logs.reset
  intake := Intake.reset
  regs := Registers.reset
  area := []
  link := Link.reset
  freeIndex := 0

/-! ## How a step can stop -/

/-- The manual gives the part no stop: an area error halts the intake unit alone and a tile's trouble
makes its context FAULTED, and both are next states. No meaning raises a fault. -/
inductive Fault where
  deriving DecidableEq, Repr

/-- Why a command has no meaning. -/
inductive Refusal where
  /-- Raised by an arm of exec whose command has no meaning yet; safe. No arm raises it. -/
  | notModelled (mnemonic : String)
  deriving DecidableEq, Repr

end Sys2Proof.Machine
end

