-- ==== Sys2Proof/Machine/Memory.lean ====
section
/-! DEFINITION. The host's memory as a canonical list of bytes: reading, writing, and the canonical form. -/

namespace Sys2Proof.Machine

/-- DESIGN CHOICE (log 5). What a byte that nothing has written reads as. -/
def Memory.unlisted : Byte := 0

/-- The byte at an address. -/
def Memory.read (m : Memory) (a : Nat) : Byte :=
  match m.find? (fun c => c.1 == a) with
  | some c => c.2
  | none => Memory.unlisted

/-- `n` bytes from an address on. -/
def Memory.readBytes (m : Memory) (a n : Nat) : List Byte :=
  (List.range n).map (fun i => m.read (a + i))

/-- The cells that bytes written from an address on make: an unlisted value makes none. -/
def Memory.cellsOf (a : Nat) : List Byte → List Host.Cell
  | [] => []
  | b :: bs =>
    if b = Memory.unlisted then Memory.cellsOf (a + 1) bs else (a, b) :: Memory.cellsOf (a + 1) bs

/-- The memory with bytes written from an address on. -/
def Memory.writeBytes (m : Memory) (a : Nat) (bs : List Byte) : Memory :=
  m.filter (fun c => decide (c.1 < a)) ++
    (Memory.cellsOf a bs ++ m.filter (fun c => decide (a + bs.length ≤ c.1)))

/-- The canonical form: addresses strictly rising, and no cell that reads as an unlisted byte does. -/
abbrev Memory.wf (m : Memory) : Prop :=
  m.Pairwise (fun c d => c.1 < d.1) ∧ ∀ c ∈ m, c.2 ≠ Memory.unlisted

end Sys2Proof.Machine
end

