-- ==== Sys2Proof/Machine/Operands.lean ====
section
/-! DEFINITION. What the part reads from bytes and writes as bytes: fields, cards, calibration sheets, staging
slots, tile link frames with their check, report records, and the codes of the exchange area (section 10.2). -/

namespace Sys2Proof.Machine

/-! ## Little-endian fields of the exchange area (section 10.2) -/

/-- The byte at an offset of a region that has been read. -/
def byteAt (bs : List Byte) (off : Nat) : Byte := bs.getD off 0

/-- A one-byte field. -/
def field8 (bs : List Byte) (off : Nat) : Nat := (byteAt bs off).toNat

/-- A two-byte field. -/
def field16 (bs : List Byte) (off : Nat) : Nat := field8 bs off + 256 * field8 bs (off + 1)

/-- A four-byte field. -/
def field32 (bs : List Byte) (off : Nat) : Nat := field16 bs off + 65536 * field16 bs (off + 2)

/-- A two-byte signed field. -/
def fieldInt16 (bs : List Byte) (off : Nat) : Int := (BitVec.ofNat 16 (field16 bs off)).toInt

/-- One byte. -/
def bytes8 (n : Nat) : List Byte := [BitVec.ofNat 8 n]

/-- Two bytes, the lower first. -/
def bytes16 (n : Nat) : List Byte := [BitVec.ofNat 8 n, BitVec.ofNat 8 (n / 256)]

/-- Four bytes, the lowest first. -/
def bytes32 (n : Nat) : List Byte := bytes16 n ++ bytes16 (n / 65536)

/-- A signed value in two bytes of two's complement, the lower first. -/
def bytesInt16 (i : Int) : List Byte := bytes16 (BitVec.ofInt 16 i).toNat

/-- A set in set order, 18 bytes. -/
def bytesSet (s : TermSet) : List Byte := s.toList.flatMap (fun row => row.toList.flatMap bytesInt16)

/-- A set as the mirror shows it: zeros where it is unknown (R45). -/
def bytesSetKnown (s : Option TermSet) : List Byte := bytesSet (s.getD (Rgb.replicate (Rgb.replicate 0)))

/-- Zero bytes. -/
def zeros (n : Nat) : List Byte := List.replicate n 0

/-- A region of exactly `n` bytes: the bytes given, zero-filled (section 10.2.2). -/
def padTo (n : Nat) (bs : List Byte) : List Byte := (bs ++ zeros n).take n

/-- One bit per flag, the first flag in bit 0. -/
def bitsOf : List Bool → Nat
  | [] => 0
  | b :: bs => b.toNat + 2 * bitsOf bs

/-! ## Codes (sections 10.2.1 to 10.2.5) -/

/-- The life field of the mirror record. -/
def Life.code : Life → Nat
  | .absent => 0
  | .adopted => 1
  | .live => 2
  | .unmatched => 3
  | .faulted => 4

/-- The verify field of the mirror record. -/
def Verify.code : Verify → Nat
  | .none => 0
  | .due => 1
  | .reading => 2
  | .matched => 3
  | .mismatched => 4

/-- The fault_reason field of the mirror record. -/
def FaultReason.code : FaultReason → Nat
  | .none => 0
  | .noAnswer => 1
  | .nak => 2
  | .holdTimeout => 3
  | .verify => 4
  | .missing => 5

/-- The chain state of the status block. -/
def ChainState.code : ChainState → Nat
  | .stopped => 0
  | .idle => 1
  | .busy => 2
  | .holding => 3
  | .rolling => 4
  | .stopping => 5

/-- The frame state of the status block. -/
def FrameState.code : FrameState → Nat
  | .regained => 0
  | .lost => 1

/-- The mode of the status block. -/
def Mode.code : Mode → Nat
  | .setup => 0
  | .showing => 1

/-- The result code of a card. -/
def ResultCode.code : ResultCode → Nat
  | .ok => 0
  | .badVersion => 1
  | .badKind => 2
  | .badField => 3
  | .locked => 4
  | .busy => 5
  | .notFound => 6
  | .addressTaken => 7
  | .full => 8
  | .notHeld => 9
  | .cancelled => 10

/-- The bit rate parameter of a SET_CHAIN card. -/
def BitRate.code : BitRate → Nat
  | .mbit1 => 1
  | .mbit2 => 2
  | .mbit4 => 4
  | .mbit8 => 8

/-- The NAK policy parameter of a SET_CHAIN card. -/
def NakPolicy.code : NakPolicy → Nat
  | .retry => 0
  | .skip => 1

/-- The destination parameter of a SET_FILTER card. -/
def Destination.code : Destination → Nat
  | .general => 0
  | .alert => 1

/-- The work-in-flight code of a STOP_CHAIN result; 0 is none and 5 a LATCH. -/
def WorkKind.code : WorkKind → Nat
  | .probe => 1
  | .push => 2
  | .poll => 3
  | .readback => 4

/-- The request a kind byte names (section 10.2.2). -/
def Request.ofCode : Nat → Option Request
  | 1 => some .adopt
  | 2 => some .retire
  | 3 => some .solve
  | 4 => some .setGroup
  | 5 => some .loadCurve
  | 6 => some .setMode
  | 7 => some .freeze
  | 8 => some .thaw
  | 9 => some .setFrame
  | 10 => some .setChain
  | 11 => some .startChain
  | 12 => some .stopChain
  | 13 => some .verify
  | 14 => some .rollCall
  | 15 => some .setFilter
  | _ => none

/-- The bit rate a SET_CHAIN parameter names. -/
def BitRate.ofCode : Nat → Option BitRate
  | 1 => some .mbit1
  | 2 => some .mbit2
  | 4 => some .mbit4
  | 8 => some .mbit8
  | _ => none

/-- The NAK policy a SET_CHAIN parameter names. -/
def NakPolicy.ofCode : Nat → Option NakPolicy
  | 0 => some .retry
  | 1 => some .skip
  | _ => none

/-- The destination a SET_FILTER parameter names. -/
def Destination.ofCode : Nat → Option Destination
  | 0 => some .general
  | 1 => some .alert
  | _ => none

/-- The mode a SET_MODE parameter names. -/
def Mode.ofCode : Nat → Option Mode
  | 0 => some .setup
  | 1 => some .showing
  | _ => none

/-- A number as an index below `n`, if it is one. -/
def indexBelow (n k : Nat) : Option (Fin n) := if h : k < n then some ⟨k, h⟩ else none

/-! ## Cards, sheets and staging slots (sections 10.2.2, 10.2.3, 4.5) -/

/-- A card from its 64 bytes. -/
def Card.ofBytes (index : Fin 32) (bs : List Byte) : Card where
  index := index
  state := byteAt bs 0
  version := byteAt bs 1
  kind := byteAt bs 2
  flags := byteAt bs 3
  tag := BitVec.ofNat 16 (field16 bs 4)
  params := (bs.drop 0x0C).take 36

/-- The NOTIFY flag of a card. -/
def Card.notify (c : Card) : Bool := c.flags.getLsbD 0

/-- A one-byte parameter of a card. -/
def Walk.param8 (w : Walk) (off : Nat) : Nat := field8 w.card.params off

/-- A two-byte parameter of a card. -/
def Walk.param16 (w : Walk) (off : Nat) : Nat := field16 w.card.params off

/-- A four-byte parameter of a card. -/
def Walk.param32 (w : Walk) (off : Nat) : Nat := field32 w.card.params off

/-- The entry a SET_FILTER card gives, if its fields are in range (R159). -/
def Walk.filterEntry (w : Walk) : Option Filter :=
  match indexBelow 2 (w.param8 1), Destination.ofCode (w.param8 2) with
  | some e, some d =>
    if w.param16 4 ≤ 4095 ∧ w.param16 6 ≤ 4095 then
      some { enable := decide (e = 1), mask := BitVec.ofNat 12 (w.param16 4),
             pattern := BitVec.ofNat 12 (w.param16 6), destination := d }
    else none
  | _, _ => none

/-- The filter that an accepted SET_FILTER card names, and the entry that it puts there (R159). -/
def Walk.replacedFilter (w : Walk) : Option (Fin 6 × Filter) :=
  match indexBelow 6 (w.param8 0), w.filterEntry with
  | some n, some f => some (n, f)
  | _, _ => none

/-- A calibration sheet as it was read, before any check. -/
structure Sheet where
  serial : Nat
  chain : Nat
  address : Nat
  group : Nat
  page : Nat
  noVote : Bool
  luminance : Rgb Nat
  age : Rgb Nat
  mix : TermSet
  deriving DecidableEq, Repr

/-- Three two-byte fields from an offset on, in the order R, G, B. -/
def rgb16 (bs : List Byte) (off : Nat) : Rgb Nat := ⟨field16 bs off, field16 bs (off + 2), field16 bs (off + 4)⟩

/-- Three signed two-byte fields from an offset on. -/
def rgbInt16 (bs : List Byte) (off : Nat) : Rgb Int :=
  ⟨fieldInt16 bs off, fieldInt16 bs (off + 2), fieldInt16 bs (off + 4)⟩

/-- A sheet from its 64 bytes. -/
def Sheet.ofBytes (bs : List Byte) : Sheet where
  serial := field32 bs 0x00
  chain := field8 bs 0x04
  address := field8 bs 0x05
  group := field8 bs 0x06
  page := field8 bs 0x07
  noVote := (byteAt bs 0x08).getLsbD 0
  luminance := rgb16 bs 0x0A
  age := rgb16 bs 0x10
  mix := ⟨rgbInt16 bs 0x16, rgbInt16 bs 0x1C, rgbInt16 bs 0x22⟩

/-- The position, group and page of a sheet that passes R32. -/
structure Position where
  chain : Fin 4
  address : Fin 64
  group : Fin 8
  page : Fin 16
  deriving DecidableEq, Repr

/-- The field checks of R32: serial not 0, chain at most 3, address 1..63, group at most 7, page at most
15, each luminance in 1..16000. -/
def Sheet.checked (s : Sheet) : Option Position :=
  match indexBelow 4 s.chain, indexBelow 64 s.address, indexBelow 8 s.group, indexBelow 16 s.page with
  | some ch, some a, some g, some p =>
    if s.serial ≠ 0 ∧ a ≠ 0 ∧ s.luminance.toList.all (fun y => decide (1 ≤ y ∧ y ≤ 16000)) = true then
      some ⟨ch, a, g, p⟩
    else none
  | _, _, _, _ => none

/-- The 99 entries of a staging slot from its first 198 bytes (section 4.5). -/
def slotEntries (bs : List Byte) : Table Nat 99 :=
  ⟨(List.range 99).map (fun i => field16 bs (2 * i)), by simp⟩

/-! ## The frame check and the frames of a tile link (R98 to R100) -/

/-- One bit of the frame check: generator x^16 + x^12 + x^5 + 1, most significant bit first (R99). -/
def crcBit (r : Half) (b : Bool) : Half :=
  if (r.getLsbD 15) != b then (r <<< 1) ^^^ 0x1021 else r <<< 1

/-- One byte of the frame check, most significant bit first (R99). -/
def crcByte (r : Half) (b : Byte) : Half :=
  [7, 6, 5, 4, 3, 2, 1, 0].foldl (fun acc i => crcBit acc (b.getLsbD i)) r

/-- The frame check of some bytes (R99). -/
def frameCheck (bs : List Byte) : Half := bs.foldl crcByte 0xFFFF

/-- A 16-bit value on the link, high byte first (R97). -/
def link16 (h : Half) : List Byte := [h.extractLsb' 8 8, h.extractLsb' 0 8]

/-- A frame with its check (R99). -/
def withCheck (bs : List Byte) : List Byte := bs ++ link16 (frameCheck bs)

/-- The eighteen bytes of a set on the link: each term high byte first, in set order (R100). -/
def linkSet (s : TermSet) : List Byte :=
  s.toList.flatMap (fun row => row.toList.flatMap (fun t => link16 (BitVec.ofInt 16 t)))

/-- A set's check word (R100). -/
def checkWord (s : TermSet) : Half := frameCheck (linkSet s)

/-- The address byte of a frame. -/
def addressByte (a : Fin 64) : Byte := BitVec.ofNat 8 a.val

/-- The frame of a transaction (R98): WRITE_SET, READ_CHECK, READ_IDENTITY or POLL. -/
def WorkKind.frame (k : WorkKind) (a : Fin 64) (payload : Option TermSet) : List Byte :=
  match k with
  | .push => withCheck ([0xA1, addressByte a] ++ linkSet (payload.getD (Rgb.replicate (Rgb.replicate 0))))
  | .readback => withCheck [0xA2, addressByte a]
  | .probe => withCheck [0xA3, addressByte a]
  | .poll => withCheck [0xA4, addressByte a]

/-- The LATCH all-call (R98). -/
def latchFrame : List Byte := withCheck [0xA5, 0]

/-- The ROLL all-call (R98). -/
def rollFrame : List Byte := withCheck [0xA6, 0]

/-- A report carried by a STATUS answer: its kind 0..7 and its value. -/
structure CarriedReport where
  kind : Fin 8
  value : Word
  deriving DecidableEq, Repr

/-- A tile's frame with its content (R98). -/
inductive TileFrame where
  | ack
  | nak
  | hold
  | check (word : Half)
  | identity (serial : Word)
  | status (temp : Int) (report : Option CarriedReport)
  | rollAnswer (serial : Word)
  deriving DecidableEq, Repr

/-- A 16-bit value received high byte first. -/
def join16 (h l : Byte) : Half := h ++ l

/-- A 32-bit value received most significant byte first. -/
def join32 (a b c d : Byte) : Word := a ++ b ++ c ++ d

/-- The frame that an answer's bytes are, if its check is right, its kind known, its length that kind's
and, for STATUS, its report byte 0x00 or 0x80..0x87 (R98, R99, R103). -/
def TileFrame.ofBytes (bs : List Byte) : Option TileFrame :=
  let body := bs.take (bs.length - 2)
  if bs.length < 3 ∨ bs.drop (bs.length - 2) ≠ link16 (frameCheck body) then none
  else
    match body with
    | [k] =>
      if k = 0x51 then some .ack else if k = 0x52 then some .nak else if k = 0x53 then some .hold else none
    | [k, h, l] => if k = 0x54 then some (.check (join16 h l)) else none
    | [k, a, b, c, d] =>
      if k = 0x55 then some (.identity (join32 a b c d))
      else if k = 0x57 then some (.rollAnswer (join32 a b c d)) else none
    | [k, h, l, r, a, b, c, d] =>
      if k = 0x56 then
        if r = 0 then some (.status (join16 h l).toInt none)
        else if 0x80 ≤ r.toNat ∧ r.toNat ≤ 0x87 then
          some (.status (join16 h l).toInt (some ⟨Fin.ofNat 8 r.toNat, join32 a b c d⟩))
        else none
      else none
    | _ => none

/-- How an answer to an attempt is judged (R103, R104). -/
inductive Answer where
  | good (f : TileFrame)
  | nak
  | hold
  | garbled
  deriving DecidableEq, Repr

/-- The answer kinds that are valid for a frame (R103): ACK, NAK, HOLD to WRITE_SET; CHECK, NAK to
READ_CHECK; IDENTITY, NAK to READ_IDENTITY; STATUS, NAK to POLL. -/
def WorkKind.judge (k : WorkKind) (f : Option TileFrame) : Answer :=
  match k, f with
  | _, some .nak => .nak
  | .push, some .ack => .good .ack
  | .push, some .hold => .hold
  | .readback, some (.check w) => .good (.check w)
  | .probe, some (.identity s) => .good (.identity s)
  | .poll, some (.status t r) => .good (.status t r)
  | _, _ => .garbled

/-- The frame of an answer, none when 12 byte times have passed without a quiet (R103). -/
def answerFrame (bs : List Byte) (quiet : Bool) : Option TileFrame :=
  if quiet then TileFrame.ofBytes bs else none

/-! ## Report records (sections 9.1 and 10.2.4) -/

/-- The kinds of part reports (section 9.1). -/
inductive PartKind where
  | tileFaulted
  | unmatched
  | missing
  | unknownTile
  | verifyMismatch
  | short
  | curveFallback
  | sensorSuspect
  deriving DecidableEq, Repr

/-- The code of a part report's kind. -/
def PartKind.code : PartKind → Nat
  | .tileFaulted => 8
  | .unmatched => 9
  | .missing => 10
  | .unknownTile => 11
  | .verifyMismatch => 12
  | .short => 13
  | .curveFallback => 14
  | .sensorSuspect => 15

/-- A report record (R156). The kind is 0..15; the source is 0..5 for a filter and 0xFF for PART. -/
structure Report where
  tick : Tick
  kind : Nat
  chain : Fin 4
  address : Fin 64
  source : Nat
  rolled : Bool
  serial : Word
  value : Word
  deriving DecidableEq, Repr

/-- A report record's 16 bytes. -/
def Report.bytes (r : Report) : List Byte :=
  bytes32 r.tick.toNat ++ bytes8 r.kind ++ bytes8 (r.chain.val + (if r.rolled then 0x80 else 0)) ++
    bytes8 r.address.val ++ bytes8 r.source ++ bytes32 r.serial.toNat ++ bytes32 r.value.toNat

/-- A report key: kind x 256 + chain x 64 + address (R157). -/
def reportKey (kind : Nat) (ch : Fin 4) (a : Fin 64) : BitVec 12 :=
  BitVec.ofNat 12 (kind * 256 + ch.val * 64 + a.val)

/-! ## The mirror record (section 10.2.5) -/

/-- A mirror record's 128 bytes. -/
def Context.mirrorBytes (c : Context) : List Byte :=
  bytes8 c.life.code ++ bytes8 c.generation.toNat ++ bytes8 c.chain.val ++ bytes8 c.address.val ++
  bytes32 c.serial.toNat ++ bytes8 c.group.val ++ bytes8 c.page.val ++
  bytes8 (bitsOf [c.noVote, c.stale, c.short, c.ageClamped, c.curveFallback, c.sensorSuspect, c.temp.isNone]) ++
  bytes8 (bitsOf [c.applied.isSome, c.sent.isSome, c.latched.isSome]) ++
  bytesInt16 (c.temp.getD 0) ++ bytes8 c.failCount ++ bytes8 c.mismatchCount ++ bytes32 c.tempTick.toNat ++
  bytes8 c.verify.code ++ bytes8 c.faultReason.code ++ bytes16 c.pushCount ++
  c.age.toList.flatMap bytes16 ++ zeros 2 ++ c.effective.toList.flatMap bytes32 ++
  c.gain.toList.flatMap bytes16 ++ bytesSet c.target ++ bytesSetKnown c.applied ++
  bytesSetKnown c.sent ++ bytesSetKnown c.latched ++ zeros 6

end Sys2Proof.Machine
end

