-- ==== Sys2Proof/Machine/Arith.lean ====
section
/-! DEFINITION. The correction arithmetic (chapter 1): temperature, factors, luminances, targets, gains, terms, and the ramp step. -/

namespace Sys2Proof.Machine

/-- A value clamped to a range. -/
def clampNat (lo hi n : Nat) : Nat := if n < lo then lo else if hi < n then hi else n

/-- The temperature a computation uses, in tenths of a degree: 250 without a reading, else the reading
clamped to -100..700 (R3). -/
def temperatureUsed : Option Int → Int
  | none => 250
  | some t => if t < -100 then -100 else if 700 < t then 700 else t

/-- u = t + 100 (R4). -/
def curveU (temp : Option Int) : Nat := (temperatureUsed temp + 100).toNat

/-- The grid index k = u div 25 (R4). -/
def gridIndex (temp : Option Int) : Nat := curveU temp / 25

/-- The grid remainder r = u mod 25 (R4). -/
def gridRemainder (temp : Option Int) : Nat := curveU temp % 25

/-- A primary's place in a page's 99 entries (section 4.4). -/
def primaryRow : Primary → Nat
  | .red => 0
  | .green => 33
  | .blue => 66

/-- Entry `k` of a primary. -/
def Page.entry (p : Page) (c : Primary) (k : Nat) : Nat := p.entries.cells.getD (primaryRow c + k) 0

/-- The page the factors are read from: the tile's own, else page 15, else none (R5). DESIGN CHOICE (log 31): a
loaded own page is read whether or not page 15 is loaded, as R5 has it, and not as R69's sentence about the time
before page 15 is loaded. -/
def chosenPage (pages : Table Page 16) (own : Fin 16) : Option Page :=
  if (pages.get own).loaded then some (pages.get own)
  else if (pages.get 15).loaded then some (pages.get 15)
  else none

/-- An entry of the chosen page; 32768 when no page is read (R5). -/
def chosenEntry (page : Option Page) (c : Primary) (k : Nat) : Nat :=
  match page with
  | some p => p.entry c k
  | none => 32768

/-- The temperature factor of a primary (R6). -/
def factor (page : Option Page) (temp : Option Int) (c : Primary) : Nat :=
  let k := gridIndex temp
  let r := gridRemainder temp
  if k = 32 then chosenEntry page c 32
  else (chosenEntry page c k * (25 - r) + chosenEntry page c (k + 1) * r + 12) / 25

/-- Compensated luminance Y' (R8). -/
def compensated (y f : Nat) : Nat := (y * f + 2048) / 4096

/-- Effective luminance E of a primary, at least 1 (R9). -/
def effectiveOf (y' a : Nat) : Nat :=
  let e := (y' * a + 16384) / 32768
  if e = 0 then 1 else e

/-- The three effective luminances of a context (R3 to R9). -/
def Context.effectiveNow (pages : Table Page 16) (c : Context) : Rgb Nat :=
  Rgb.ofPrimary fun p =>
    effectiveOf (compensated (c.luminance.get p) (factor (chosenPage pages c.page) c.temp p)) (c.age.get p)

/-- A group target of a primary (R11). -/
def targetOf (minE headroom cap : Nat) : Nat := min (minE * headroom / 32768) cap

/-- The gain formula before its clamp (R13). -/
def gainFormula (t e : Nat) : Nat := (t * 32768 + e / 2) / e

/-- The gain of a primary (R13): 1.0 when the targets are UNSET, else the formula clamped to 1..32768. -/
def gainOf (t : Option Nat) (e : Nat) : Nat :=
  match t with
  | none => 32768
  | some t => clampNat 1 32768 (gainFormula t e)

/-- Whether a primary falls short: its gain formula gave more than 32768 (R14). -/
def shortIn (t : Option Nat) (e : Nat) : Bool :=
  match t with
  | none => false
  | some t => decide (32768 < gainFormula t e)

/-- A target term: the product rounded to nearest, a half going up (R15). The quotient is taken downward. -/
def termOf (g : Nat) (m : Int) : Int := ((g : Int) * m + 16384) / 32768

/-- The nine target terms: row i of the mix matrix scaled by the gain of output primary i (R15, R16). -/
def targetSet (g : Rgb Nat) (m : TermSet) : TermSet :=
  Rgb.zipWith (fun gi row => row.map (termOf gi)) g m

/-- A context's page is chosen and read (R5 to R9): the first stage of a tile correction (R17, R18). CURVE_FALLBACK
follows the tile's own page alone (R5; log 31). -/
def Context.readPage (pages : Table Page 16) (c : Context) : PageReading :=
  { effective := c.effectiveNow pages
    fallback := !(pages.get c.page).loaded
    wallDefault := (pages.get 15).loaded }

/-- A tile correction of a context completed against a triple of targets, from what it has read (R13 to R18). -/
def Context.correctionFrom (r : PageReading) (targets : Option (Rgb Nat)) (c : Context) : Correction :=
  let e := r.effective
  let t : Primary → Option Nat := fun p => targets.map (fun v => v.get p)
  let g := Rgb.ofPrimary fun p => gainOf (t p) (e.get p)
  { effective := e
    gain := g
    target := targetSet g c.mix
    shorts := Rgb.ofPrimary fun p => shortIn (t p) (e.get p)
    fallback := r.fallback
    wallDefault := r.wallDefault }

/-- A tile correction of a context against a triple of targets, all from one reading of one page (R17, R70). -/
def Context.correction (pages : Table Page 16) (targets : Option (Rgb Nat)) (c : Context) : Correction :=
  c.correctionFrom (c.readPage pages) targets

/-- The short primaries as the SHORT report's value: 1 red, 2 green, 4 blue (R57). -/
def Correction.shortMask (k : Correction) : Nat := bitsOf k.shorts.toList

/-- The SHORT flag of a correction (R14). -/
def Correction.short (k : Correction) : Bool := k.shorts.r || k.shorts.g || k.shorts.b

/-- The value of a CURVE_FALLBACK report (R77): the tile's own page, plus 16 when page 15 was not loaded. -/
def Correction.fallbackValue (k : Correction) (own : Fin 16) : Nat :=
  if k.wallDefault then own.val else own.val + 16

/-- A context with a correction's results written into it (R17). -/
def Context.corrected (c : Context) (k : Correction) : Context :=
  { c with
    effective := k.effective
    gain := k.gain
    target := k.target
    short := k.short
    curveFallback := k.fallback }

/-- The ramp step of one term in SHOW mode (R20). -/
def rampTerm (slew : Nat) (a c : Int) : Int :=
  if (c - a).natAbs ≤ slew then c else if a < c then a + slew else a - slew

/-- The ramp step of a set in SHOW mode (R20). -/
def rampSet (slew : Nat) (applied target : TermSet) : TermSet :=
  Rgb.zipWith (fun ra rc => Rgb.zipWith (rampTerm slew) ra rc) applied target

/-- A term of the term format (section 4.3 of file 00). -/
def inTermRange (t : Int) : Prop := -32768 ≤ t ∧ t ≤ 32767

/-- Every term of a set is in the term format. -/
def setInRange (s : TermSet) : Prop :=
  ∀ i j : Primary, inTermRange ((s.get i).get j)

end Sys2Proof.Machine
end

