-- ==== Sys2Proof/Machine/Flags.lean ====
section
/-! DEFINITION. Flags: the notice causes and NOTICE_OUT, saturating counts, eligibility, and the dirty flag. -/

namespace Sys2Proof.Machine

/-! ## Notices (R176) -/

/-- The seven notice causes. -/
inductive Cause where
  | card
  | alert
  | overwrite
  | fault
  | frame
  | area
  | reg
  deriving DecidableEq, Repr

/-- The bit of a cause in NOTICE_RAW and NOTICE_MASK (section 10.6). -/
def Cause.bit : Cause → BitVec 7
  | .card => 0x01
  | .alert => 0x02
  | .overwrite => 0x04
  | .fault => 0x08
  | .frame => 0x10
  | .area => 0x20
  | .reg => 0x40

/-- A cause is latched in NOTICE_RAW (R176). -/
def State.notice (k : Cause) (s : State) : State :=
  { s with regs := { s.regs with noticeRaw := s.regs.noticeRaw ||| k.bit } }

/-- The NOTICE_OUT pin: at least one bit is set in both NOTICE_RAW and NOTICE_MASK (R176). -/
def State.noticeOut (s : State) : Bool := decide (s.regs.noticeRaw &&& s.regs.noticeMask ≠ 0)

/-! ## Counts that saturate (R26, R119, R132, R165) -/

/-- A count incremented, unless it has reached its maximum. -/
def countUp (top n : Nat) : Nat := if top ≤ n then n else n + 1

/-! ## Contexts: eligibility and dirty (R30, R46) -/

/-- Eligible: ADOPTED or LIVE with no_vote clear (R30). -/
def Context.eligible (c : Context) : Bool :=
  !c.noVote && (decide (c.life = .adopted) || decide (c.life = .live))

/-- A member of group `g`: any life state but ABSENT (section 3.2). -/
def Context.memberOf (g : Fin 8) (c : Context) : Bool :=
  decide (c.group = g) && !decide (c.life = .absent)

/-- The fields of a context that its mirror record shows (R45): the luminances, the mix matrix and dirty
are not mirrored. -/
def Context.mirrored (c : Context) : Context :=
  { c with luminance := Rgb.replicate 0, mix := Rgb.replicate (Rgb.replicate 0), dirty := false }

/-- A changed context is dirty if a mirrored field changed (R46). -/
def Context.touched (old new : Context) : Context :=
  if old.mirrored = new.mirrored then new else { new with dirty := true }

end Sys2Proof.Machine
end

