-- ==== Sys2Proof/Machine/Ops.lean ====
section
/-! DEFINITION. Named operations over the records, the exchange area, the free choices, the reports and logs, and the
cards of the board. -/

namespace Sys2Proof.Machine

namespace State

/-! ## Records -/

/-- The part's tick (R61). -/
def tick (s : State) : Tick := BitVec.ofNat 32 (s.clock / Config.tickMicros)

/-- Context `i`. -/
def ctx (s : State) (i : Fin 256) : Context := s.contexts.get i

/-- Context `i` becomes `c`, dirty if a mirrored field changed (R46). -/
def setCtx (s : State) (i : Fin 256) (c : Context) : State :=
  { s with contexts := s.contexts.set i ((s.ctx i).touched c) }

/-- Context `i` changed by a function. -/
def modCtx (s : State) (i : Fin 256) (f : Context → Context) : State := s.setCtx i (f (s.ctx i))

/-- Chain `ch`. -/
def chain (s : State) (ch : Fin 4) : Chain := s.chains.get ch

/-- Chain `ch` changed by a function. -/
def modChain (s : State) (ch : Fin 4) (f : Chain → Chain) : State :=
  { s with chains := s.chains.set ch (f (s.chain ch)) }

/-- Group `g`. -/
def group (s : State) (g : Fin 8) : Group := s.groups.get g

/-- Group `g` changed by a function. -/
def modGroup (s : State) (g : Fin 8) (f : Group → Group) : State :=
  { s with groups := s.groups.set g (f (s.group g)) }

/-- A solve of group `g` is made pending (R51). -/
def solvePending (s : State) (g : Fin 8) : State := s.modGroup g fun r => { r with pending := true }

/-- The logs changed by a function. -/
def modLogs (s : State) (f : Logs → Logs) : State := { s with logs := f s.logs }

/-- The intake unit changed by a function. -/
def modIntake (s : State) (f : Intake → Intake) : State := { s with intake := f s.intake }

/-- The ramp unit changed by a function. -/
def modRamp (s : State) (f : RampUnit → RampUnit) : State := { s with ramp := f s.ramp }

/-- Every context is made dirty (R27, R28, R46). -/
def dirtyAll (s : State) : State :=
  { s with contexts := s.contexts.map fun c => { c with dirty := true } }

/-- DESIGN CHOICE (log 8). Things that the manual leaves unordered, in a free order; one thing or none
needs no choice. -/
def unordered {α : Type} (s : State) (l : List α) : List α × State :=
  if l.length ≤ 1 then (l, s)
  else (Config.arrange (Config.freeOrder s.freeIndex) l, { s with freeIndex := s.freeIndex + 1 })

/-! ## The exchange area (section 10.1, R166, R172) -/

/-- The base of the exchange area (R166, R173). -/
def areaBase (s : State) : Nat := s.regs.areaHi.toNat * 4294967296 + s.regs.areaLo.toNat * 65536

/-- An area access ends in a bus error: HALTED and AREA are set, the scan timer stops, a scan marked to
follow is discarded, and the rest of a scan under way is not made (R172). A card that has been read is still dispatched
(R168, log 10). -/
def areaBusFault (s : State) : State :=
  notice .area
    { s with
      intake := { s.intake with halted := true, scanTimer := none, scan := none, follow := false }
      link := { s.link with failAfter := none } }

/-- Whether the next area access ends in a bus error: the link is down (R173), or this is the access that
an AREA_BUS_ERROR names (log 7). -/
def accessFails (s : State) : Bool := !s.link.up || decide (s.link.failAfter = some 0)

/-- One more area access has ended well. -/
def countAccess (s : State) : State :=
  { s with link := { s.link with failAfter := s.link.failAfter.map (fun n => n - 1) } }

/-- `n` bytes of the area are read; none when the read ends in a bus error or intake is halted. -/
def areaRead (s : State) (off n : Nat) : Option (List Byte) × State :=
  if s.intake.halted then (none, s)
  else if s.accessFails then (none, s.areaBusFault)
  else (some (s.area.readBytes (s.areaBase + off) n), s.countAccess)

/-- Bytes are written into the area; nothing is written when the write ends in a bus error or intake is
halted. -/
def areaWrite (s : State) (off : Nat) (bs : List Byte) : State :=
  if s.intake.halted then s
  else if s.accessFails then s.areaBusFault
  else { s.countAccess with area := s.area.writeBytes (s.areaBase + off) bs }

/-- Several area writes, one after another; after a bus error the later ones are not made (R172). -/
def areaWrites (s : State) (ws : List (Nat × List Byte)) : State :=
  ws.foldl (fun s w => s.areaWrite w.1 w.2) s

/-- What the host has written into its own memory (log 3). -/
def hostWrites (s : State) (ws : List HostWrite) : State :=
  { s with area := ws.foldl (fun m w => m.writeBytes (s.areaBase + w.offset) w.bytes) s.area }

/-! ## Reports and logs (chapter 9) -/

/-- A report can be written: RUN is set, intake is not halted, and a scan has read the host words since
the last reset (R160). -/
def canLog (s : State) : Bool := s.regs.run && !s.intake.halted && s.logs.ready

/-- A report is counted as unlogged (R160). -/
def countUnlogged (s : State) : State :=
  s.modLogs fun l => { l with unlogged := countUp Config.countMax l.unlogged }

/-- The number of unread alerts (R161). -/
def unreadAlerts (s : State) : Nat := (s.logs.alertWrite - s.logs.alertCopy).val

/-- The number of valid general records (R163). -/
def validRecords (s : State) : Nat := (s.logs.generalWrite - s.logs.oldest).val

/-- Step 1 of a general log write: release (R164). The copy lies within the valid records or equals the
write index when it is no further from the oldest index than the write index is. -/
def releaseGeneral (s : State) : State :=
  if s.logs.generalCopy = s.logs.released then s
  else s.modLogs fun l =>
    { l with
      released := l.generalCopy
      oldest :=
        if (l.generalCopy - l.oldest).val ≤ (l.generalWrite - l.oldest).val then l.generalCopy
        else l.oldest }

/-- Step 2 of a general log write: room (R164). -/
def makeRoom (s : State) : State :=
  if s.validRecords = 511 then
    notice .overwrite
      (s.modLogs fun l =>
        { l with oldest := l.oldest + 1, overwrites := countUp Config.countMax l.overwrites })
  else s

/-- The offset of slot `n` of the general log. -/
def generalSlot (n : Fin 512) : Nat := 0x1000 + 16 * n.val

/-- The offset of slot `n` of the alert log. -/
def alertSlot (n : Fin 32) : Nat := 0x0D00 + 16 * n.val

/-- A record goes to the general log (R164); on a bus error the first two steps stand (R165). -/
def logGeneral (s : State) (r : Report) : State :=
  let s1 := s.releaseGeneral.makeRoom
  let s2 := s1.areaWrite (generalSlot s1.logs.generalWrite) r.bytes
  if s2.intake.halted then s2.countUnlogged
  else s2.modLogs fun l => { l with generalWrite := l.generalWrite + 1 }

/-- A report goes to the alert log (R161), or, if that is full, to the general log as ROLLED (R162). A
report whose write ends in a bus error is unlogged and counts in nothing else (R165, log 15). -/
def logAlert (s : State) (r : Report) : State :=
  if s.unreadAlerts < 31 then
    let s1 := s.areaWrite (alertSlot s.logs.alertWrite) r.bytes
    if s1.intake.halted then s1.countUnlogged
    else notice .alert (s1.modLogs fun l => { l with alertWrite := l.alertWrite + 1 })
  else
    let s1 := s.logGeneral { r with rolled := true }
    if s1.intake.halted then s1
    else notice .alert (s1.modLogs fun l => { l with rollovers := countUp Config.countMax l.rollovers })

/-- A report is taken by the logging rules toward a log (R157, R160). -/
def writeReport (s : State) (d : Destination) (r : Report) : State :=
  if s.canLog then
    match d with
    | .alert => s.logAlert r
    | .general => s.logGeneral r
  else s.countUnlogged

/-- The record of a part report (R156). -/
def partReport (s : State) (k : PartKind) (ch : Fin 4) (a : Fin 64) (serial value : Word) : Report :=
  { tick := s.tick, kind := k.code, chain := ch, address := a, source := 0xFF, rolled := false,
    serial := serial, value := value }

/-- A part report is raised: it goes toward the alert log (R157). -/
def raisePart (s : State) (k : PartKind) (ch : Fin 4) (a : Fin 64) (serial value : Word) : State :=
  s.writeReport .alert (s.partReport k ch a serial value)

/-- Part reports raised together, in a free order (R157, log 8). -/
def raiseTogether (s : State) (rs : List Report) : State :=
  let o := s.unordered rs
  o.1.foldl (fun s r => s.writeReport .alert r) o.2

/-- The six filters by which a report is judged: a SET_FILTER card that is accepted counts from the moment it is taken,
though its own command, which replaces the entry, is still to come (R159). -/
def filtersInForce (s : State) : Table Filter 6 :=
  match s.intake.walk with
  | none => s.filters
  | some w =>
    if w.request = .setFilter then
      match w.replacedFilter with
      | none => s.filters
      | some (n, f) => s.filters.set n f
    else s.filters

/-- The first enabled filter whose pattern agrees with a key in every bit of its mask (R158). -/
def routingFilter (s : State) (key : BitVec 12) : Option (Fin 6 × Filter) :=
  s.filtersInForce.enum.find? fun f => f.2.enable && decide (key &&& f.2.mask = f.2.pattern &&& f.2.mask)

/-- A tile report is offered to the filters and, if one routes it, taken by the logging rules (R156 to
R158). The serial is that of the context the transaction recorded. -/
def routeTile (s : State) (ch : Fin 4) (a : Fin 64) (i : Fin 256) (r : CarriedReport) : State :=
  match s.routingFilter (reportKey r.kind.val ch a) with
  | none => s
  | some f =>
    s.writeReport f.2.destination
      { tick := s.tick, kind := r.kind.val, chain := ch, address := a, source := f.1.val,
        rolled := false, serial := (s.ctx i).serial, value := r.value }

/-! ## Cards of the board (R168 to R170) -/

/-- The offset of card `n` (section 10.1). -/
def cardOffset (n : Fin 32) : Nat := 0x0100 + 64 * n.val

/-- The writes of a completion into its card: post tag, result code, result data, done tick, and last the state
DONE (R169). -/
def completionWrites (c : Completion) : List AreaWrite :=
  let o := cardOffset c.index
  [(o + 0x04, bytes16 c.tag.toNat), (o + 0x06, bytes16 c.code.code),
   (o + 0x30, padTo 16 c.data), (o + 0x08, bytes32 c.doneTick.toNat), (o, bytes8 3)]

/-- The last write of a completion has been made; DONE into a card with NOTIFY sets CARD (R169). -/
def completionWritten (s : State) (c : Completion) : State :=
  if c.notify && !s.intake.halted then notice .card s else s

/-- A completion is written into its card (R169). -/
def writeCompletion (s : State) (c : Completion) : State :=
  (s.areaWrites (completionWrites c)).completionWritten c

/-- A card is completed at the scan that takes it (R169). The done tick is the present tick. -/
def completeCard (s : State) (c : Card) (code : ResultCode) (data : List Byte) : State :=
  s.writeCompletion
    { index := c.index, code := code, data := data, doneTick := s.tick, tag := c.tag, notify := c.notify }

/-- A card is refused: the code, and result data of zeros (R169). -/
def refuseCard (s : State) (c : Card) (code : ResultCode) : State := s.completeCard c code []

/-- The long-card table entries of a chain. -/
def entries (s : State) (ch : Fin 4) : LongEntries := s.intake.longCards.get ch

/-- The long-card table entries of a chain changed by a function. -/
def modEntries (s : State) (ch : Fin 4) (f : LongEntries → LongEntries) : State :=
  s.modIntake fun k => { k with longCards := k.longCards.set ch (f (k.longCards.get ch)) }

/-- The entry of a held card. -/
def heldCard (c : Card) (k : Request) : HeldCard :=
  { index := c.index, kind := k, tag := c.tag, notify := c.notify }

/-- A long request is accepted: TAKEN is written into its card, and its entry is made, whether or not the
write succeeds (R169, R170). -/
def holdCard (s : State) (ch : Fin 4) (c : Card) (k : Request) : State :=
  (s.areaWrite (cardOffset c.index) (bytes8 2)).modEntries ch fun e =>
    match k with
    | .stopChain => { e with stop := some (heldCard c k) }
    | _ => { e with sweepOrRoll := some (heldCard c k) }

/-- The outcome of a held card joins the completion list (R170). -/
def decideHeld (s : State) (h : HeldCard) (code : ResultCode) (data : List Byte) : State :=
  s.modIntake fun k =>
    { k with
      completions := k.completions ++
        [{ index := h.index, code := code, data := data, doneTick := s.tick, tag := h.tag, notify := h.notify }] }

/-- The entry of a VERIFY or ROLL_CALL card, if it is of the kind asked, leaves the table with its outcome. -/
def decideSweepOrRoll (s : State) (ch : Fin 4) (k : Request) (code : ResultCode) (data : List Byte) : State :=
  match (s.entries ch).sweepOrRoll with
  | none => s
  | some h =>
    if h.kind = k then
      (s.modEntries ch fun e => { e with sweepOrRoll := none }).decideHeld h code data
    else s

/-- The entry of a STOP_CHAIN card leaves the table with its outcome. -/
def decideStop (s : State) (ch : Fin 4) (code : ResultCode) (data : List Byte) : State :=
  match (s.entries ch).stop with
  | none => s
  | some h => (s.modEntries ch fun e => { e with stop := none }).decideHeld h code data

end State

/-! ## The register window as the host reads it (section 10.6) -/

/-- The value a register reads as; offsets that name no register read 0. -/
def State.readRegister (s : State) (off : Nat) : Word :=
  match off with
  | 0x00 => 0x00025C31
  | 0x04 => s.regs.areaLo ++ (0 : Half)
  | 0x08 => s.regs.areaHi
  | 0x0C => BitVec.ofNat 32 (bitsOf [s.regs.run, false, false, s.intake.halted])
  | 0x10 => s.regs.noticeRaw.setWidth 32
  | 0x14 => s.regs.noticeMask.setWidth 32
  | _ => 0

end Sys2Proof.Machine
end

