-- ==== Sys2Proof/Machine/Contexts.lean ====
section
/-! DEFINITION. The tile context table's operations: work queues, leaving and entering life states, tile corrections,
temperature intake, and the end of a verify sweep. -/

namespace Sys2Proof.Machine

/-- The context waits for a readback or is being read back (section 7.4). -/
def Context.awaitsReadback (c : Context) : Bool := decide (c.verify = .due) || decide (c.verify = .reading)

/-- A context of chain `ch`. -/
def Context.ofChain (ch : Fin 4) (c : Context) : Bool := decide (c.chain = ch)

/-- A LIVE context of chain `ch`. -/
def Context.liveOn (ch : Fin 4) (c : Context) : Bool := decide (c.life = .live) && c.ofChain ch

/-- A context that is not ABSENT and holds a position (R33). -/
def Context.holds (ch : Fin 4) (a : Fin 64) (c : Context) : Bool :=
  !decide (c.life = .absent) && c.ofChain ch && decide (c.address = a)

/-- The part reports that a correction of `c` raises: SHORT and CURVE_FALLBACK when newly set (R57, R77). -/
def Context.newReports (tick : Tick) (c : Context) (k : Correction) : List Report :=
  (if k.short && !c.short then
    [{ tick := tick, kind := PartKind.short.code, chain := c.chain, address := c.address, source := 0xFF,
       rolled := false, serial := c.serial, value := BitVec.ofNat 32 k.shortMask }]
   else []) ++
  (if k.fallback && !c.curveFallback then
    [{ tick := tick, kind := PartKind.curveFallback.code, chain := c.chain, address := c.address, source := 0xFF,
       rolled := false, serial := c.serial, value := BitVec.ofNat 32 (k.fallbackValue c.page) }]
   else [])

/-- The five counts of a sweep record as a VERIFY card's result data (section 10.2.2). -/
def SweepRecord.bytes (r : SweepRecord) : List Byte :=
  bytes8 r.marked ++ zeros 1 ++ bytes16 r.matched ++ bytes16 r.mismatched ++ bytes16 r.failed ++ bytes16 r.dropped

/-- A roll that is in progress and has not begun (R147). DESIGN CHOICE (log 28): its record, whose attempt count and
retry limit have no meaning before the first step reads them (R145), holds 0 and 0 till then; no command reads them. -/
def Roll.waiting : Roll :=
  { begun := false, attempts := 0, retryLimit := 0, serials := [], phase := .toBegin, ending := false,
    again := false }

namespace State

/-! ## Work queues (R117, R119, R122, R126) -/

/-- A push is enqueued for a context: at the tail, unless it is already waiting (R88, R126). -/
def enqueuePush (s : State) (i : Fin 256) : State :=
  s.modChain (s.ctx i).chain fun k =>
    if i ∈ k.pushQueue then k else { k with pushQueue := k.pushQueue ++ [i] }

/-- A probe is appended at the tail of the probe queue of the context's chain; a context waits there once at
most (R117). -/
def enqueueProbe (s : State) (i : Fin 256) : State :=
  s.modChain (s.ctx i).chain fun k =>
    if i ∈ k.probeQueue then k else { k with probeQueue := k.probeQueue ++ [i] }

/-- The context joins the poll list of its chain, at the tail, marked due (R122). -/
def joinPollList (s : State) (i : Fin 256) : State :=
  s.modChain (s.ctx i).chain fun k =>
    { k with pollList := k.pollList ++ [{ ctx := i, overdue := false, inFlight := false }] }

/-! ## Verify sweeps (R135, R140, R141) -/

/-- The sweep record of a chain, if it has one, counts an event. -/
def countSweep (s : State) (ch : Fin 4) (f : SweepRecord → SweepRecord) : State :=
  s.modChain ch fun k => { k with sweep := k.sweep.map f }

/-- A held VERIFY card gets its outcome and the sweep record is discarded (R141, R142). -/
def endSweep (s : State) (ch : Fin 4) (code : ResultCode) : State :=
  match (s.chain ch).sweep with
  | none => s
  | some r =>
    (s.modChain ch fun k => { k with sweep := none }).decideSweepOrRoll ch .verify code r.bytes

/-- No context of the chain is DUE or READING (R141). -/
def sweepMet (s : State) (ch : Fin 4) : Bool :=
  s.contexts.cells.all fun c => !(c.ofChain ch && c.awaitsReadback)

/-- The test of R141: the VERIFY card is completed with OK when no context is DUE or READING. -/
def testSweep (s : State) (ch : Fin 4) : State := if s.sweepMet ch then s.endSweep ch .ok else s

/-- A sweep marks every LIVE context of the chain DUE, except those in READING (R135). -/
def markDue (s : State) (ch : Fin 4) : State :=
  { s with
    contexts := s.contexts.map fun c =>
      if c.liveOn ch && !decide (c.verify = .reading) then c.touched { c with verify := .due } else c }

/-! ## Leaving and entering life states (R29, R30) -/

/-- A context is taken out of its chain's queues and poll list, and a verify of DUE or READING becomes
NONE, which a sweep record counts as dropped (R29, R141). -/
def dropWork (s : State) (i : Fin 256) : State :=
  let c := s.ctx i
  let s1 := s.modChain c.chain fun k =>
    { k with
      probeQueue := k.probeQueue.filter fun j => !decide (j = i)
      pushQueue := k.pushQueue.filter fun j => !decide (j = i)
      pollList := k.pollList.filter fun e => !decide (e.ctx = i) }
  if c.awaitsReadback then
    (s1.countSweep c.chain fun r => { r with dropped := countUp Config.countMax r.dropped }).modCtx i
      fun c => { c with verify := .none }
  else s1

/-- A context enters a life state: it leaves the work that no longer fits, its fault reason is set, it is
dirty, and a change of eligibility makes its group pending (R29, R30). -/
def transition (s : State) (i : Fin 256) (life : Life) (reason : FaultReason) : State :=
  let before := (s.ctx i).eligible
  let s1 := (s.dropWork i).modCtx i fun c => { c with life := life, faultReason := reason, dirty := true }
  let c := s1.ctx i
  let s2 := if c.eligible = before then s1 else s1.solvePending c.group
  s2.testSweep c.chain

/-- A context enters LIVE: it is snapped to its target set, pushed, and joins the poll list (R38, R43,
R91, R122). -/
def enterLive (s : State) (i : Fin 256) : State :=
  let s1 := (s.transition i .live .none).modCtx i fun c => { c with applied := some c.target, dirty := true }
  (s1.enqueuePush i).joinPollList i

/-- A context enters UNMATCHED, another serial having been found: report UNMATCHED, notice FAULT (R39, R43). -/
def enterUnmatched (s : State) (i : Fin 256) (found : Word) : State :=
  let s1 := s.transition i .unmatched .none
  let c := s1.ctx i
  notice .fault (s1.raisePart .unmatched c.chain c.address c.serial found)

/-- A context enters FAULTED by its counts: report TILE_FAULTED, notice FAULT (R41). -/
def enterFaulted (s : State) (i : Fin 256) (reason : FaultReason) : State :=
  let s1 := s.transition i .faulted reason
  let c := s1.ctx i
  notice .fault (s1.raisePart .tileFaulted c.chain c.address c.serial (BitVec.ofNat 32 reason.code))

/-! ## Tile corrections (R17) and the temperature intake (R62, R63) -/

/-- A tile correction of one context against its group's present targets, with its reports (R17, R36). -/
def correctCtx (s : State) (i : Fin 256) : State :=
  let c := s.ctx i
  let k := c.correction s.pages (s.group c.group).targets
  (s.setCtx i (c.corrected k)).raiseTogether (c.newReports s.tick k)

/-- The temperature of an accepted STATUS answer: a plausible reading is taken in (R62), an implausible
one is dropped and the first of them sets SENSOR_SUSPECT and raises its report (R63). -/
def takeTemperature (s : State) (i : Fin 256) (t : Int) : State :=
  let c := s.ctx i
  if -400 ≤ t ∧ t ≤ 1250 then
    s.modCtx i fun c => { c with temp := some t, tempTick := s.tick, stale := false }
  else if c.sensorSuspect then s
  else
    (s.modCtx i fun c => { c with sensorSuspect := true }).raisePart .sensorSuspect c.chain c.address
      c.serial (BitVec.ofInt 32 t)

end State

end Sys2Proof.Machine
end

