-- ==== Sys2Proof/Machine/Arbiter.lean ====
section
/-! DEFINITION. The chain controllers' operations: the arbiter, the start and the end of transactions, and what their
outcomes do to contexts. -/

namespace Sys2Proof.Machine

/-- What the arbiter chooses (R115). -/
inductive Choice where
  | rollStep
  | probe (i : Fin 256)
  | latch
  | poll (i : Fin 256)
  | push (i : Fin 256)
  | readback (i : Fin 256)
  deriving DecidableEq, Repr

/-- How a transaction ends (R104, R107). -/
inductive Ending where
  | success (f : TileFrame)
  | failure (r : FaultReason)
  deriving DecidableEq, Repr

/-- The context with the lowest address of a list, the first of equals. -/
def lowestAddress : List (Fin 256 × Context) → Option (Fin 256 × Context)
  | [] => none
  | x :: xs =>
    match lowestAddress xs with
    | none => some x
    | some y => if x.2.address ≤ y.2.address then some x else some y

/-- The contexts of a list in ascending order of address. -/
def byAddress (l : List (Fin 256 × Context)) : List (Fin 256 × Context) :=
  (List.finRange 64).flatMap fun a => l.filter fun x => decide (x.2.address = a)

/-- The work that is in flight for a context on a chain. -/
def Chain.flying (k : Chain) (i : Fin 256) : Bool :=
  match k.flight with
  | .transaction t => decide (t.ctx = i)
  | _ => false

/-- A context is eligible for readback (R136). -/
def Chain.readbackReady (k : Chain) (ch : Fin 4) (i : Fin 256) (c : Context) : Bool :=
  c.liveOn ch && decide (c.verify = .due) && c.latched.isSome && !decide (i ∈ k.pushQueue) &&
    !k.flying i && k.latchPending.isNone && decide (2 ≤ k.framesSinceLatch)

/-- Latch-pending is set and overdue (R131). -/
def Chain.latchOverdue (k : Chain) : Bool :=
  match k.latchPending with
  | some p => p.overdue
  | none => false

/-- The first overdue entry of the poll list that is not in flight (R120). -/
def Chain.overduePoll (k : Chain) : Option PollEntry := k.pollList.find? fun e => e.overdue && !e.inFlight

/-- The first entry of the poll list that is not in flight (R120). -/
def Chain.duePoll (k : Chain) : Option PollEntry := k.pollList.find? fun e => !e.inFlight

/-- The settings a transaction records (R102). -/
def ChainConfig.recorded (c : ChainConfig) : LinkSettings :=
  { bitRate := c.bitRate, answerWindow := c.answerWindow, holdLimit := c.holdLimit,
    retryLimit := c.retryLimit, nakPolicy := c.nakPolicy }

/-- Attempts remain: the attempt count is below 1 + retry limit (R104). -/
def Transaction.attemptsRemain (t : Transaction) : Bool := decide (t.attempts < 1 + t.settings.retryLimit)

namespace State

/-! ## The deadline of a pending latch (R131) -/

/-- The age of a chain's pending latch has passed its latch deadline (R131). -/
def latchLate (s : State) (ch : Fin 4) : Bool :=
  match (s.chain ch).latchPending with
  | none => false
  | some p => decide ((s.chain ch).config.latchDeadline * 10 < (s.tick - p.setTick).toNat)

/-- The overdue mark of a pending latch is set if its age has passed the latch deadline in force (R131). -/
def markLate (s : State) (ch : Fin 4) : State :=
  if s.latchLate ch then
    s.modChain ch fun k => { k with latchPending := k.latchPending.map fun p => { p with overdue := true } }
  else s

/-! ## The arbiter (R114 to R116) -/

/-- The next context to read back: the lowest address above the readback position among the eligible,
else the lowest of all (R136). -/
def nextReadback (s : State) (ch : Fin 4) : Option (Fin 256) :=
  let k := s.chain ch
  let ready := s.contexts.enum.filter fun x => k.readbackReady ch x.1 x.2
  match lowestAddress (ready.filter fun x => decide (k.readbackPosition < x.2.address)) with
  | some x => some x.1
  | none => (lowestAddress ready).map fun x => x.1

/-- The first entry of the table of R115 that finds work. -/
def choice (s : State) (ch : Fin 4) : Option Choice :=
  let k := s.chain ch
  if k.roll.isSome then some .rollStep
  else
    match k.probeQueue with
    | i :: _ => some (.probe i)
    | [] =>
      if k.latchOverdue then some .latch
      else
        match k.overduePoll with
        | some e => some (.poll e.ctx)
        | none =>
          match k.pushQueue with
          | i :: _ => some (.push i)
          | [] =>
            if k.latchPending.isSome then some .latch
            else
              match s.nextReadback ch with
              | some i => some (.readback i)
              | none => k.duePoll.map fun e => .poll e.ctx

/-- A transaction starts: it records the work, the context and its generation and address, the payload of
a push, and the settings in force, and the chain enters BUSY (R102, R128). -/
def startTransaction (s : State) (ch : Fin 4) (kind : WorkKind) (i : Fin 256) : State :=
  let c := s.ctx i
  s.modChain ch fun k =>
    { k with
      state := .busy
      flight := .transaction
        { kind := kind, ctx := i, generation := c.generation, address := c.address,
          payload := match kind with
            | .push => c.applied
            | _ => none
          settings := k.config.recorded, attempts := 1, phase := .toBegin } }

/-- The chosen work starts (R102, R108, R118, R120, R127, R137, R145). -/
def start (s : State) (ch : Fin 4) : Choice → State
  | .rollStep =>
    s.modChain ch fun k =>
      { k with
        state := .rolling
        roll := k.roll.map fun r =>
          { r with
            begun := true, attempts := 1, retryLimit := k.config.retryLimit, serials := [], phase := .toBegin } }
  | .probe i =>
    (s.modChain ch fun k => { k with probeQueue := k.probeQueue.tail }).startTransaction ch .probe i
  | .latch => s.modChain ch fun k => { k with state := .busy, flight := .latch false }
  | .poll i =>
    (s.modChain ch fun k =>
      { k with
        pollList := k.pollList.map fun e => if e.ctx = i then { e with inFlight := true } else e }).startTransaction
      ch .poll i
  | .push i =>
    (s.modChain ch fun k => { k with pushQueue := k.pushQueue.tail }).startTransaction ch .push i
  | .readback i =>
    ((s.modCtx i fun c => { c with verify := .reading }).modChain ch fun k =>
      { k with readbackPosition := (s.ctx i).address }).startTransaction ch .readback i

/-- An IDLE chain with available work chooses (R114). -/
def arbitrate (s : State) (ch : Fin 4) : State :=
  match (s.chain ch).state with
  | .idle =>
    match s.choice ch with
    | some c => s.start ch c
    | none => s
  | _ => s

/-- Every chain's arbiter is given its turn. -/
def arbitrateAll (s : State) : State := (List.finRange 4).foldl arbitrate s

/-! ## The end of work on a chain (R107, R108, R125) -/

/-- The result data of a STOP_CHAIN card (section 10.2.2). -/
def stopData (s : State) (ch : Fin 4) (work : Nat) (ok : Bool) : List Byte :=
  let k := s.chain ch
  bytes8 work ++ bytes8 ok.toNat ++ bytes8 k.probeQueue.length ++ bytes8 k.pushQueue.length ++
    bytes8 k.pollList.length ++ zeros 1 ++ bytes16 k.pollOverrun

/-- The work in flight ends. A STOPPING chain enters STOPPED, its STOP_CHAIN card is completed with OK
and a held VERIFY card is CANCELLED (R125); any other enters IDLE and chooses (R107, R114). -/
def endFlight (s : State) (ch : Fin 4) (work : Nat) (ok : Bool) : State :=
  let s1 := s.modChain ch fun k => { k with flight := .none, holdTimer := none }
  match (s1.chain ch).state with
  | .stopping =>
    let s2 := s1.modChain ch fun k => { k with state := .stopped }
    (s2.decideStop ch .ok (s2.stopData ch work ok)).endSweep ch .cancelled
  | _ => (s1.modChain ch fun k => { k with state := .idle }).arbitrate ch

/-! ## Outcomes (R31, R38 to R42, R107) -/

/-- The outcome of a transaction is accepted: same generation, and the life state it was started for (R31). -/
def accepts (s : State) (t : Transaction) : Bool :=
  decide ((s.ctx t.ctx).generation = t.generation) &&
    match t.kind with
    | .probe => decide ((s.ctx t.ctx).life = .adopted)
    | _ => decide ((s.ctx t.ctx).life = .live)

/-- An accepted success clears fail_count (R40). -/
def clearFailures (s : State) (i : Fin 256) : State := s.modCtx i fun c => { c with failCount := 0 }

/-- An accepted IDENTITY answer (R38, R39). -/
def probeAnswered (s : State) (i : Fin 256) (serial : Word) : State :=
  let s1 := s.clearFailures i
  if serial = (s.ctx i).serial then s1.enterLive i else s1.enterUnmatched i serial

/-- An accepted push success (R129). -/
def pushAnswered (s : State) (ch : Fin 4) (t : Transaction) : State :=
  let s1 := s.modCtx t.ctx fun c =>
    { c with
      sent := t.payload, pushCount := countUp Config.countMax c.pushCount, failCount := 0, dirty := true }
  s1.modChain ch fun k =>
    { k with
      latchPending := match k.latchPending with
        | some p => some p
        | none => some { setTick := s.tick, overdue := false } }

/-- An accepted STATUS answer: the temperature is taken in, and the entry leaves the poll list (R120, R121). -/
def pollAnswered (s : State) (ch : Fin 4) (i : Fin 256) (t : Int) : State :=
  ((s.clearFailures i).modChain ch fun k =>
    { k with pollList := k.pollList.filter fun e => !decide (e.ctx = i) }).takeTemperature i t

/-- The check word of a context's latched set (R137). -/
def expectedCheck (s : State) (i : Fin 256) : Half :=
  checkWord ((s.ctx i).latched.getD (Rgb.replicate (Rgb.replicate 0)))

/-- An accepted CHECK answer that differs from the expected check word: MISMATCH, the report, and a push
or the fault (R42, R138). -/
def readbackMismatch (s : State) (ch : Fin 4) (i : Fin 256) (w : Half) : State :=
  let c := s.ctx i
  let s1 := (s.modCtx i fun c =>
    { c with verify := .mismatched, mismatchCount := c.mismatchCount + 1, failCount := 0 }).countSweep ch
      fun r => { r with mismatched := countUp Config.countMax r.mismatched }
  let s2 := s1.raisePart .verifyMismatch c.chain c.address c.serial (s.expectedCheck i ++ w)
  if c.mismatchCount + 1 < 3 then s2.enqueuePush i else s2.enterFaulted i .verify

/-- An accepted CHECK answer equal to the expected check word: MATCH (R42). -/
def readbackMatch (s : State) (ch : Fin 4) (i : Fin 256) : State :=
  (s.modCtx i fun c => { c with verify := .matched, mismatchCount := 0, failCount := 0 }).countSweep ch
    fun r => { r with matched := countUp Config.countMax r.matched }

/-- An accepted CHECK answer (R42, R137), and the test of a held VERIFY card (R141). -/
def readbackAnswered (s : State) (ch : Fin 4) (i : Fin 256) (w : Half) : State :=
  (if w = s.expectedCheck i then s.readbackMatch ch i else s.readbackMismatch ch i w).testSweep ch

/-- What an accepted success does (R38 to R42, R121, R129). -/
def succeeded (s : State) (ch : Fin 4) (t : Transaction) : TileFrame → State
  | .identity serial => s.probeAnswered t.ctx serial
  | .ack => s.pushAnswered ch t
  | .status temp _ => s.pollAnswered ch t.ctx temp
  | .check w => s.readbackAnswered ch t.ctx w
  | .nak => s
  | .hold => s
  | .rollAnswer _ => s

/-- Failed work goes back to the chain (R107, R120). -/
def sendBack (s : State) (ch : Fin 4) (t : Transaction) : State :=
  match t.kind with
  | .probe => s.enqueueProbe t.ctx
  | .push => s.enqueuePush t.ctx
  | .poll =>
    s.modChain ch fun k =>
      { k with
        pollList := (k.pollList.filter fun e => !decide (e.ctx = t.ctx)) ++
          (k.pollList.filter fun e => decide (e.ctx = t.ctx)).map fun e => { e with inFlight := false } }
  | .readback => s.modCtx t.ctx fun c => { c with verify := .due }

/-- An accepted failure counts in fail_count, and a failed readback in the sweep record (R40, R141). -/
def countFailure (s : State) (ch : Fin 4) (t : Transaction) : State :=
  let s1 := s.modCtx t.ctx fun c => { c with failCount := c.failCount + 1 }
  match t.kind with
  | .readback => s1.countSweep ch fun r => { r with failed := countUp Config.countMax r.failed }
  | _ => s1

/-- What an accepted failure does: it counts, and with fail_count below 3 the work goes back, at 3 the context is
FAULTED (R40, R41, R107). -/
def failed (s : State) (ch : Fin 4) (t : Transaction) (reason : FaultReason) : State :=
  let s1 := s.countFailure ch t
  if (s.ctx t.ctx).failCount + 1 < 3 then s1.sendBack ch t else s1.enterFaulted t.ctx reason

/-- The report carried by a STATUS answer goes to the filters, accepted or not (R107, R121, R156). -/
def routeCarried (s : State) (ch : Fin 4) (t : Transaction) : Ending → State
  | .success (.status _ (some r)) => s.routeTile ch t.address t.ctx r
  | _ => s

/-- A transaction ends: its outcome is handed over, and the chain goes on (R31, R107). -/
def handOver (s : State) (ch : Fin 4) (t : Transaction) (e : Ending) : State :=
  let s1 :=
    if s.accepts t then
      match e with
      | .success f => s.succeeded ch t f
      | .failure r => s.failed ch t r
    else s
  (s1.routeCarried ch t e).endFlight ch t.kind.code
    (match e with
      | .success _ => true
      | .failure _ => false)

/-- The chain's transaction as it stands after a change of its own. -/
def setFlight (s : State) (ch : Fin 4) (t : Transaction) : State :=
  s.modChain ch fun k => { k with flight := .transaction t }

/-- A hold has ended in NAK or an attempt failed: the hold timer stops, and HOLDING becomes BUSY (R105, R109). -/
def leaveHold (s : State) (ch : Fin 4) : State :=
  s.modChain ch fun k =>
    { k with
      holdTimer := none
      state := match k.state with
        | .holding => .busy
        | st => st }

/-- An attempt ends in NAK, or with no answer or a garbled one: a resend if attempts remain and the NAK
policy allows it, else the transaction fails (R104). -/
def attemptFailed (s : State) (ch : Fin 4) (t : Transaction) (reason : FaultReason) : State :=
  if t.attemptsRemain && !(decide (reason = .nak) && decide (t.settings.nakPolicy = .skip)) then
    (s.leaveHold ch).setFlight ch { t with phase := .toResend }
  else s.handOver ch t (.failure reason)

end State

end Sys2Proof.Machine
end

