-- ==== Sys2Proof/Machine/Intake.lean ====
section
/-! DEFINITION. The intake unit: scans, one access after another, the card under way, the status block and the mirror, and
the restart (R165 to R175). -/

namespace Sys2Proof.Machine

namespace State

/-! ## The status block (section 10.2.1) -/

/-- The bytes of a group's targets; 0xFFFFFFFF for UNSET. -/
def targetBytes (g : Group) : List Byte :=
  match g.targets with
  | none => List.replicate 12 0xFF
  | some t => t.toList.flatMap bytes32

/-- The status block's bytes 0x08..0xBB. -/
def statusBody (s : State) : List Byte :=
  bytes8 s.ramp.mode.code ++ bytes8 s.ramp.freezeSet.length ++ bytes8 s.ramp.freezeIn.toNat ++
  bytes8 s.ramp.frameState.code ++ bytes8 s.intake.cursor.val ++ zeros 3 ++
  s.chains.cells.flatMap (fun k => bytes8 k.state.code) ++
  s.chains.cells.flatMap (fun k => bytes16 k.pollOverrun) ++
  bytes16 s.logs.alertWrite.val ++ bytes16 s.logs.generalWrite.val ++ bytes16 s.logs.oldest.val ++
  bytes16 s.logs.overwrites ++ bytes16 s.logs.rollovers ++ bytes16 s.logs.unlogged ++
  bytes16 s.logs.alertCopy.val ++ bytes16 s.logs.generalCopy.val ++ zeros 20 ++
  s.groups.cells.flatMap targetBytes ++ zeros 28

/-- The status block is copied at one instant, with the scan count of this scan: the writes that are to be made of it,
the scan count first, then the body, and last the same count (R171). -/
def statusWrites (s : State) : List AreaWrite :=
  let count := bytes32 s.intake.scanCount.toNat
  [(0x04, count), (0x00, bytes32 s.tick.toNat), (0x08, s.statusBody), (0xBC, count)]

/-- The offset of mirror record `i`. -/
def mirrorOffset (i : Fin 256) : Nat := 0x7000 + 128 * i.val

/-- Dirty of one context, with nothing else changed. -/
def setDirty (s : State) (i : Fin 256) (d : Bool) : State :=
  { s with contexts := s.contexts.set i { s.ctx i with dirty := d } }

/-- The mirror record of a dirty context is written by copy-and-clear; after a bus error the context is
dirty again (R46). -/
def writeMirror (s : State) (i : Fin 256) : State :=
  if (s.ctx i).dirty && !s.intake.halted then
    let s1 := (s.setDirty i false).areaWrite (mirrorOffset i) (s.ctx i).mirrorBytes
    if s1.intake.halted then s1.setDirty i true else s1
  else s

/-! ## A scan, one access after another (R167) -/

/-- Where the scan under way stands. -/
def setScan (s : State) (p : Option ScanPhase) : State := s.modIntake fun k => { k with scan := p }

/-- The scan goes on, unless intake is halted, which ends it (R172). -/
def scanTo (s : State) (p : ScanPhase) : State := s.setScan (if s.intake.halted then none else some p)

/-- The waiting completions in ascending card index (R170). DESIGN CHOICE (log 38): those of one index, of a card that
the host has posted again while it was TAKEN, are written in the order in which they were decided. -/
def completionsInOrder (s : State) : List Completion :=
  (List.finRange 32).flatMap fun n => s.intake.completions.filter fun c => decide (c.index = n)

/-- Step 1 of a scan: the host words become the copies of the host's read indices (R167). -/
def readHostWords (s : State) : State :=
  match s.areaRead 0xC0 4 with
  | (none, s1) => s1
  | (some bs, s1) =>
    s1.modLogs fun l =>
      { l with
        alertCopy := Fin.ofNat 32 (field16 bs 0), generalCopy := Fin.ofNat 512 (field16 bs 2), ready := true }

/-- Step 2 of a scan goes on with these completions, or, when none is left, the walk begins (R167, R170). -/
def completionsPhase : List Completion → ScanPhase
  | [] => .board 32 false
  | c :: cs => .completions (c :: cs) (completionWrites c)

/-- A completion has been written whole and leaves the list, and of several that are equal in every field only one does;
it waits on where a write failed (R169, R170). -/
def delivered (s : State) (c : Completion) : State :=
  if s.intake.halted then s
  else (s.completionWritten c).modIntake fun k =>
    { k with completions := k.completions.erase c }

/-- One write of a completion; after its last one the next completion follows. -/
def writeCompletionPart (s : State) (c : Completion) (rest : List Completion) (w : AreaWrite) (ws : List AreaWrite) :
    State :=
  let s1 := s.areaWrite w.1 w.2
  if ws.isEmpty then (s1.delivered c).scanTo (completionsPhase rest) else s1.scanTo (.completions (c :: rest) ws)

/-- The walk goes on, if it may take more cards, and otherwise the scan goes on to its last step (R168). -/
def walkPhase (left : Nat) (solved : Bool) : ScanPhase := if left = 0 then .copy else .board left solved

/-- The pending flags of the eight groups, as a card that is taken finds them (R58). -/
def pendingTable (s : State) : Table Bool 8 := ⟨s.groups.cells.map fun g => g.pending, by simp [s.groups.size]⟩

/-- A card that has been read is taken, if it is POSTED: with a wrong version or kind it is refused at once, and any
other is the card under way, to be dispatched by its own command. At a card that is not POSTED the walk ends (R168). -/
def takeCard (s : State) (c : Card) (left : Nat) (solved : Bool) : State :=
  if c.state = 1 then
    let s1 := s.modIntake fun k => { k with cursor := k.cursor + 1 }
    if c.version = 1 then
      match Request.ofCode c.kind.toNat with
      | none => (s1.refuseCard c .badKind).scanTo (walkPhase left solved)
      | some r =>
        let w : Walk :=
          { card := c, request := r, takenTick := s1.tick, flags := s1.pendingTable, longCards := s1.intake.longCards
            left := left, solved := solved, ending := false, restart := false, rescan := false }
        s1.modIntake fun k => { k with walk := some w, scan := none }
    else (s1.refuseCard c .badVersion).scanTo (walkPhase left solved)
  else s.scanTo .copy

/-- The card at the cursor is read, and taken if it is POSTED (R168). -/
def readCard (s : State) (left : Nat) (solved : Bool) : State :=
  match s.areaRead (cardOffset s.intake.cursor) 64 with
  | (none, s1) => s1.setScan none
  | (some bs, s1) => s1.takeCard (Card.ofBytes s1.intake.cursor bs) left solved

/-- One write of the status block; after its last one the mirror records follow (R171). -/
def writeStatusPart (s : State) (w : AreaWrite) (ws : List AreaWrite) : State :=
  (s.areaWrite w.1 w.2).scanTo (if ws.isEmpty then .mirror (List.finRange 256) else .status ws)

/-- The scan is counted, and the status block is copied and its first write made (R171). -/
def copyStatus (s : State) : State :=
  let s1 := s.modIntake fun k => { k with scanCount := k.scanCount + 1 }
  match s1.statusWrites with
  | [] => s1.setScan none
  | w :: ws => s1.writeStatusPart w ws

/-- The mirror record of the first dirty one of these contexts is written; with none dirty the scan has ended (R46,
R171). DESIGN CHOICE (log 36): a context is judged dirty or clean as the scan comes to its id, so one that becomes dirty
while the records are being written goes with this scan if its id is still ahead, and waits for the next if it is past. -/
def mirrorPart (s : State) (rest : List (Fin 256)) : State :=
  match rest.dropWhile fun i => !(s.ctx i).dirty with
  | [] => s.setScan none
  | i :: later => (s.writeMirror i).scanTo (.mirror later)

/-- A scan under way makes its next access (R167, R168, R170, R171). Reading a card and refusing it, with its
completion, is one access here, since the card under way is finished before anything ends the scan (R167). -/
def scanAccess (s : State) : State :=
  match s.intake.scan with
  | none => s
  | some .hostWords =>
    let s1 := s.readHostWords
    s1.scanTo (completionsPhase s1.completionsInOrder)
  | some (.completions (c :: rest) (w :: ws)) => s.writeCompletionPart c rest w ws
  | some (.completions _ _) => s.scanTo (.board 32 false)
  | some (.board 0 _) => s.scanTo .copy
  | some (.board (left + 1) solved) => s.readCard left solved
  | some .copy => s.copyStatus
  | some (.status (w :: ws)) => s.writeStatusPart w ws
  | some (.status []) => s.scanTo (.mirror (List.finRange 256))
  | some (.mirror rest) => s.mirrorPart rest

/-- A scan under way makes so many of its accesses, if it has as many before it ends or waits at a card. -/
def advanceScan : Nat → State → State
  | 0, s => s
  | n + 1, s => advanceScan n s.scanAccess

/-- DESIGN CHOICE (log 10). A scan under way goes on: how many of its accesses it makes with the command that has begun
it or has finished its card is a free choice, and the others are made on the empty queue, so that any command may come
between two of them (R167). -/
def goOn (s : State) : State := advanceScan (Config.freeOrder s.freeIndex) { s with freeIndex := s.freeIndex + 1 }

/-! ## Requests of scans (R167) -/

/-- A scan is under way: it stands between two accesses, or at a card. -/
def scanning (s : State) : Bool := s.intake.walk.isSome || s.intake.scan.isSome

/-- A scan starts (R167). -/
def startScan (s : State) : State := (s.setScan (some .hostWords)).goOn

/-- A scan is requested: it is not kept while RUN is clear or HALTED is set, marks one scan to follow while
one is under way, and otherwise starts one (R167). -/
def requestScan (s : State) : State :=
  if s.regs.run && !s.intake.halted then
    if s.scanning then s.modIntake fun k => { k with follow := true } else s.startScan
  else s

/-! ## The restart at the intake unit and the register window (R175) -/

/-- The scan timer is started. -/
def startScanTimer (s : State) : State :=
  s.modIntake fun k => { k with scanTimer := some Config.scanMicros }

/-- The restart of the intake unit and the register window, all of it together; the rest of a scan under way is not
made (R167); with RUN set and the scan timer stopped it starts the timer and requests a scan (R175). -/
def intakeRestart (s : State) : State :=
  let s1 := s.modIntake fun k =>
    { k with
      cursor := 0, longCards := Table.replicate 4 ⟨none, none⟩, completions := [], halted := false
      scan := none, follow := false }
  let s2 := { s1 with regs := { s1.regs with noticeRaw := 0 } }
  if s2.regs.run && s2.intake.scanTimer.isNone then s2.startScanTimer.requestScan else s2

/-- The restart at one chain: a sweep record is discarded (R142); a roll that waits is no longer in progress,
one that waits for the line after a garbled slot ends, and one with a step under way ends with it (R155). -/
def chainRestart (s : State) (ch : Fin 4) : State :=
  let s1 := s.modChain ch fun k => { k with sweep := none }
  match (s1.chain ch).roll with
  | none => s1
  | some r =>
    if r.begun then
      match r.phase with
      | .toRetry => (s1.modChain ch fun k => { k with roll := none, state := .idle }).arbitrate ch
      | _ => s1.modChain ch fun k => { k with roll := some { r with ending := true, again := false } }
    else s1.modChain ch fun k => { k with roll := none }

/-- A restart at the four chains. -/
def chainRestarts (s : State) : State := (List.finRange 4).foldl chainRestart s

/-- A restart is taken by each block at its own state (R28, R92, R111, R155, R165, R175). At the intake unit
it waits for the card under way to be finished, and otherwise ends the scan under way between two accesses (R167). -/
def restart (s : State) : State :=
  let s2 := ((s.dirtyAll.modRamp fun r => { r with freezeSet := [] }).modLogs fun _ => Logs.reset).chainRestarts
  match s2.intake.walk with
  | some w => s2.modIntake fun k => { k with walk := some { w with ending := true, restart := true, rescan := false } }
  | none => s2.intakeRestart

end State

/-- The entries of a chain in the long-card table as the card found it when it was taken (R170). -/
def Walk.entries (w : Walk) (ch : Fin 4) : LongEntries := w.longCards.get ch

/-- The card is of a kind that makes groups pending when it is accepted (R51): ADOPT, RETIRE, SOLVE, SET_GROUP or
LOAD_CURVE. -/
def Walk.solves (w : Walk) : Bool := decide (w.request ∈ [.adopt, .retire, .solve, .setGroup, .loadCurve])

namespace State

/-! ## The card under way -/

/-- A card has been finished: a restart that waited for it is taken, a scan that RUN's clearing or a bus
error has ended stops, since no access is made while RUN is clear or HALTED is set but to finish a card (R166), and any
other goes on (R167). DEDUCED (log 11): the sweep or the roll that this
card began after the restart ends as the restart would have ended it, since its card is dropped (R142, R155). The
scan that the SCAN bit of the RESTART write asks for is requested after the restart (R174). -/
def afterCard (s : State) (w : Walk) : State :=
  if w.restart then
    if w.rescan then s.chainRestarts.intakeRestart.requestScan else s.chainRestarts.intakeRestart
  else if w.ending || s.intake.halted || !s.regs.run then s
  else (s.setScan (some (walkPhase w.left (w.solved || w.solves)))).goOn

/-- The card under way is dispatched, if there is one and it is of this request. -/
def dispatchCard (s : State) (r : Request) (f : Walk → State → State) : State :=
  match s.intake.walk with
  | none => s
  | some w =>
    if w.request = r then (f w (s.modIntake fun k => { k with walk := none })).afterCard w else s

end State

end Sys2Proof.Machine
end

