-- ==== Sys2Proof/Machine/RampCards.lean ====
section
/-! DEFINITION. The requests of the ramp unit and the filters: SET_MODE, FREEZE, THAW, SET_FRAME and SET_FILTER (R79,
R84, R93, R94, R159). -/

namespace Sys2Proof.Machine

/-- A tag put into a freeze set, which is kept in ascending order. -/
def insertTag (t : Nat) : List Nat → List Nat
  | [] => [t]
  | u :: us => if t < u then t :: u :: us else u :: insertTag t us

/-- The freeze count and the tags held, as result data from offset 1 on (section 10.2.2). -/
def freezeData (tags : List Nat) : List Byte := bytes8 tags.length ++ padTo 4 (tags.flatMap bytes8)

/-- The loss timer, started for a nominal period (R80, R84). -/
def lossTimerFor (period : Nat) : Timer := some (3 * period * Config.frameUnitMicros)

/-- The substitute timer, started for a nominal period (R81, R84). -/
def substituteTimerFor (period : Nat) : Timer := some (period * Config.frameUnitMicros)

/-- A SET_MODE card is dispatched (R79). -/
def dispatchSetMode (w : Walk) (s : State) : State :=
  match Mode.ofCode (w.param8 0) with
  | none => s.refuseCard w.card .badField
  | some m =>
    (s.modRamp fun r => { r with mode := m }).completeCard w.card .ok (bytes8 s.ramp.mode.code ++ bytes8 m.code)

/-- A FREEZE card is dispatched (R93). -/
def dispatchFreeze (w : Walk) (s : State) : State :=
  let t := w.param16 0
  if t = 0 ∨ 255 < t then s.refuseCard w.card .badField
  else if t ∈ s.ramp.freezeSet then s.completeCard w.card .ok (bytes8 1 ++ freezeData s.ramp.freezeSet)
  else if 4 ≤ s.ramp.freezeSet.length then
    s.completeCard w.card .full (bytes8 0 ++ freezeData s.ramp.freezeSet)
  else
    let tags := insertTag t s.ramp.freezeSet
    (s.modRamp fun r => { r with freezeSet := tags }).completeCard w.card .ok (bytes8 0 ++ freezeData tags)

/-- A THAW card is dispatched (R94). -/
def dispatchThaw (w : Walk) (s : State) : State :=
  let t := w.param16 0
  if t = 0 ∨ 255 < t then s.refuseCard w.card .badField
  else if t ∈ s.ramp.freezeSet then
    let tags := s.ramp.freezeSet.filter fun u => !decide (u = t)
    (s.modRamp fun r => { r with freezeSet := tags }).completeCard w.card .ok (zeros 1 ++ freezeData tags)
  else s.completeCard w.card .notHeld (zeros 1 ++ freezeData s.ramp.freezeSet)

/-- The frame monitor with a new nominal period: the timer of its state starts again (R84). -/
def RampUnit.setPeriod (r : RampUnit) (p : Nat) : RampUnit :=
  match r.frameState with
  | .regained => { r with period := p, lossTimer := lossTimerFor p }
  | .lost => { r with period := p, substituteTimer := substituteTimerFor p }

/-- A SET_FRAME card is dispatched (R84). -/
def dispatchSetFrame (w : Walk) (s : State) : State :=
  let p := w.param16 0
  if p < 100 ∨ 5000 < p then s.refuseCard w.card .badField
  else
    (s.modRamp fun r => r.setPeriod p).completeCard w.card .ok
      (bytes16 s.ramp.period ++ bytes16 p ++ bytes8 s.ramp.frameState.code)

/-- A filter's entry as a SET_FILTER card shows it (section 10.2.2). -/
def Filter.bytes (n : Fin 6) (f : Filter) : List Byte :=
  bytes8 n.val ++ bytes8 f.enable.toNat ++ bytes8 f.destination.code ++ zeros 1 ++ bytes16 f.mask.toNat ++
    bytes16 f.pattern.toNat

/-- A SET_FILTER card is dispatched (R159). -/
def dispatchSetFilter (w : Walk) (s : State) : State :=
  match w.replacedFilter with
  | some (n, f) => { s with filters := s.filters.set n f }.completeCard w.card .ok ((s.filters.get n).bytes n)
  | none => s.refuseCard w.card .badField

/-! ## The commands -/

/-- SET_MODE (R79). -/
def setModeStep (s : State) : State := s.dispatchCard .setMode dispatchSetMode

/-- FREEZE (R93). -/
def freezeStep (s : State) : State := s.dispatchCard .freeze dispatchFreeze

/-- THAW (R94). -/
def thawStep (s : State) : State := s.dispatchCard .thaw dispatchThaw

/-- SET_FRAME (R84). -/
def setFrameStep (s : State) : State := s.dispatchCard .setFrame dispatchSetFrame

/-- SET_FILTER (R159). -/
def setFilterStep (s : State) : State := s.dispatchCard .setFilter dispatchSetFilter

/-! ## MEANINGS: the outcome of each command -/

/-- The meaning of SET_MODE. -/
def execSetMode (s : State) : Host.Outcome State Fault Refusal := .next (setModeStep s)

/-- The meaning of FREEZE. -/
def execFreeze (s : State) : Host.Outcome State Fault Refusal := .next (freezeStep s)

/-- The meaning of THAW. -/
def execThaw (s : State) : Host.Outcome State Fault Refusal := .next (thawStep s)

/-- The meaning of SET_FRAME. -/
def execSetFrame (s : State) : Host.Outcome State Fault Refusal := .next (setFrameStep s)

/-- The meaning of SET_FILTER. -/
def execSetFilter (s : State) : Host.Outcome State Fault Refusal := .next (setFilterStep s)

end Sys2Proof.Machine
end

