-- ==== Sys2Proof/Machine/Frames.lean ====
section
/-! DEFINITION. The frame monitor, the beats and the FREEZE_IN pin (R80 to R89, R95, R132). -/

namespace Sys2Proof.Machine

/-- A beat is withheld: a tag is held or FREEZE_IN is asserted (R87). -/
def RampUnit.frozen (r : RampUnit) : Bool := !r.freezeSet.isEmpty || r.freezeIn

/-- The applied set that a beat gives a LIVE context: the SHOW step of R20, or the target set in SETUP mode
(R21, R87). An unknown set, which no LIVE context has (R21), stays unknown in SHOW mode. -/
def Context.beaten (m : Mode) (slew : Nat) (c : Context) : Option TermSet :=
  match m with
  | .setup => some c.target
  | .showing => c.applied.map fun a => rampSet slew a c.target

/-- A context that a beat of group `g` acts on (R87). -/
def Context.beatsIn (g : Fin 8) (c : Context) : Bool := decide (c.group = g) && decide (c.life = .live)

namespace State

/-- A beat of a group that acts: every LIVE member gets its new applied set, and those that it changed are
pushed in ascending order of id (R87, R88). -/
def beatActs (s : State) (g : Fin 8) : State :=
  let m := s.ramp.mode
  let slew := (s.group g).slew
  let moved := s.contexts.enum.filter fun x =>
    x.2.beatsIn g && !decide (x.2.beaten m slew = x.2.applied)
  let s1 := { s with
    contexts := s.contexts.map fun c =>
      if c.beatsIn g then c.touched { c with applied := c.beaten m slew } else c }
  moved.foldl (fun s x => s.enqueuePush x.1) s1

/-- The groups whose beat a frame event is: their incremented count reaches their beat setting (R86). -/
def beating (s : State) : List (Fin 8) :=
  (List.finRange 8).filter fun g => decide ((s.group g).beat ≤ (s.group g).beatCount + 1)

/-- The groups whose beat at a frame event acts on some context: none under a freeze, which withholds every
beat, and otherwise those that beat and have a LIVE member (R87). -/
def acting (s : State) : List (Fin 8) :=
  if s.ramp.frozen then []
  else s.beating.filter fun g => s.contexts.cells.any (Context.beatsIn g)

/-- Every group's beat counter counts a frame event (R86). -/
def countBeats (s : State) : State :=
  { s with
    groups := s.groups.map fun g =>
      { g with beatCount := if g.beat ≤ g.beatCount + 1 then 0 else g.beatCount + 1 } }

/-- A chain counts a frame event since its last LATCH (R132). -/
def countFrame (s : State) (ch : Fin 4) : State :=
  s.modChain ch fun k => { k with framesSinceLatch := countUp 255 k.framesSinceLatch }

/-- The beats of a frame event, group by group, and the choices they lead to. -/
def takeBeats (s : State) (gs : List (Fin 8)) : State := (gs.foldl beatActs s).arbitrateAll

/-- The counts of a frame event at some chains, and the choices they lead to (R132). -/
def takeCounts (s : State) (chs : List (Fin 4)) : State := chs.foldl (fun s ch => (s.countFrame ch).arbitrate ch) s

/-- Whether the order of beats and counts can be seen: some beat acts, and an IDLE chain's count goes from 1
to 2 (R85, R132). -/
def orderSeen (s : State) (gs : List (Fin 8)) : Bool :=
  !gs.isEmpty && s.chains.cells.any fun k => decide (k.state = .idle) && decide (k.framesSinceLatch = 1)

/-- A frame event, real or substituted, is handed to the groups' beat counters and to the chains (R85). DESIGN
CHOICE (log 8): where the order can be seen, each chain by itself counts the event before or after the beats, as
a free choice names it; and two groups that beat at one event beat in a free order (R88). -/
def frameEvent (s : State) : State :=
  let o := s.unordered s.acting
  let s1 := o.2.countBeats
  if s1.orderSeen o.1 then
    let code := Config.freeOrder s1.freeIndex
    let s2 := { s1 with freeIndex := s1.freeIndex + 1 }
    let early (ch : Fin 4) : Bool := code.testBit ch.val
    ((s2.takeCounts ((List.finRange 4).filter early)).takeBeats o.1).takeCounts
      ((List.finRange 4).filter fun ch => !early ch)
  else (s1.takeBeats o.1).takeCounts (List.finRange 4)

/-- A frame edge spaced `gap` units from the candidate edge regains the frame (R82). -/
def regains (period gap : Nat) : Bool := decide (period ≤ 2 * gap) && decide (2 * gap ≤ 3 * period)

/-- The frame is regained: REGAINED, the substitute timer stopped, no candidate, the loss timer started, and
the notice FRAME (R82). -/
def regain (s : State) : State :=
  notice .frame
    (s.modRamp fun r =>
      { r with
        frameState := .regained, substituteTimer := none, candidate := none, lossTimer := lossTimerFor r.period })

end State

/-! ## The commands -/

/-- FRAME_EDGE: while REGAINED a frame event and a fresh loss timer (R80); while LOST the edge is judged
against the candidate, and a regaining edge gives a frame event (R82). Spacings are in 10 us units, rounded
down. -/
def frameEdgeStep (s : State) : State :=
  match s.ramp.frameState with
  | .regained => (s.modRamp fun r => { r with lossTimer := lossTimerFor r.period }).frameEvent
  | .lost =>
    match s.ramp.candidate with
    | none => s.modRamp fun r => { r with candidate := some s.clock }
    | some t =>
      if State.regains s.ramp.period ((s.clock - t) / Config.frameUnitMicros) then s.regain.frameEvent
      else s.modRamp fun r => { r with candidate := some s.clock }

/-- LOSS_TIMER_EXPIRY: LOST, the notice FRAME, the substitute timer started, no candidate (R81). -/
def lossTimerExpiryStep (s : State) : State :=
  if s.ramp.lossTimer.isSome then
    State.notice .frame
      (s.modRamp fun r =>
        { r with
          frameState := .lost, lossTimer := none, substituteTimer := substituteTimerFor r.period,
          candidate := none })
  else s

/-- SUBSTITUTE_TIMER_EXPIRY: while LOST, a frame event, and the timer starts again (R81). -/
def substituteTimerExpiryStep (s : State) : State :=
  if s.ramp.substituteTimer.isSome then
    (s.modRamp fun r => { r with substituteTimer := substituteTimerFor r.period }).frameEvent
  else s

/-- FREEZE_IN_CHANGE: the level, read at later beats and scans (R95). -/
def freezeInChangeStep (asserted : Bool) (s : State) : State := s.modRamp fun r => { r with freezeIn := asserted }

/-! ## MEANINGS: the outcome of each command -/

/-- The meaning of FRAME_EDGE. -/
def execFrameEdge (s : State) : Host.Outcome State Fault Refusal := .next (frameEdgeStep s)

/-- The meaning of LOSS_TIMER_EXPIRY. -/
def execLossTimerExpiry (s : State) : Host.Outcome State Fault Refusal := .next (lossTimerExpiryStep s)

/-- The meaning of SUBSTITUTE_TIMER_EXPIRY. -/
def execSubstituteTimerExpiry (s : State) : Host.Outcome State Fault Refusal :=
  .next (substituteTimerExpiryStep s)

/-- The meaning of FREEZE_IN_CHANGE. -/
def execFreezeInChange (asserted : Bool) (s : State) : Host.Outcome State Fault Refusal :=
  .next (freezeInChangeStep asserted s)

end Sys2Proof.Machine
end

