-- ==== Sys2Proof/Machine/Registers.lean ====
section
/-! DEFINITION. Resets, the PCIe link, and the writes of the register window (R27, R173 to R176). -/

namespace Sys2Proof.Machine

namespace State

/-- A power-on reset: every block takes its power-on state; what is outside the part stays (the queue, the
host's memory, the FREEZE_IN level, the link), and so does the count of free choices (log 4). -/
def powerOn (s : State) : State :=
  { State.reset with
    pending := s.pending
    ramp := { RampUnit.reset with freezeIn := s.ramp.freezeIn }
    area := s.area
    link := s.link
    freeIndex := s.freeIndex }

/-- The level of PERST_N: asserted takes the link down, released brings it up (R173, log 6). -/
def setLink (s : State) (asserted : Bool) : State := { s with link := { s.link with up := !asserted } }

/-- A write to an area register: replaced and every context dirty while RUN is clear, ignored with REG
while it is set (R173). DESIGN CHOICE (log 29): a write taken after RUN was cleared and before the card under way is
finished is accepted like any other, and the accesses that finish that card use the new base. -/
def writeArea (s : State) (f : Registers → Registers) : State :=
  if s.regs.run then notice .reg s else { s with regs := f s.regs }.dirtyAll

/-- The RUN bit of a write to RUN_CTRL (R174). Setting it while HALTED is set starts nothing; clearing it
stops the timer, discards a scan marked to follow, and ends the scan under way, with its card if one is under way and
otherwise between two accesses (R167). -/
def writeRun (s : State) (v : Bool) : State :=
  let s1 := { s with regs := { s.regs with run := v } }
  if v = s.regs.run then s1
  else if v then
    if s.intake.halted then s1 else s1.startScanTimer.requestScan
  else
    s1.modIntake fun k =>
      { k with
        scanTimer := none
        scan := none
        follow := false
        walk := k.walk.map fun w => { w with ending := true, rescan := false } }

/-- The RUN and SCAN bits of a write whose RESTART waits at the intake unit for the card under way (R174): RUN has its
value at once; a clearing acts at once too; what a change to set asks for is done by the restart, which then finds RUN
set and the timer stopped (R175); and the scan that SCAN asks for is requested after the restart. -/
def writeBitsLater (s : State) (run scan : Bool) : State :=
  let s1 := if run then { s with regs := { s.regs with run := true } } else s.writeRun false
  s1.modIntake fun k => { k with walk := k.walk.map fun w => { w with rescan := run && scan } }

/-- A write to RUN_CTRL acts on its bits in the order RESTART, RUN, SCAN (R174), after what the host has put
in its memory before it (log 3). DESIGN CHOICE (log 30): how many accesses a scan that its RESTART has requested makes
before its RUN bit acts is a free choice. -/
def writeRunCtrl (s : State) (restart run scan : Bool) (host : List HostWrite) : State :=
  let s1 := s.hostWrites host
  if restart && s1.intake.walk.isSome then s1.restart.writeBitsLater run scan
  else
    let s2 := if restart then s1.restart else s1
    let s3 := s2.writeRun run
    if scan then s3.requestScan else s3

/-- A write to NOTICE_RAW clears the bits written as 1 (R176). -/
def clearNotices (s : State) (v : Word) : State :=
  { s with regs := { s.regs with noticeRaw := s.regs.noticeRaw &&& ~~~(v.setWidth 7) } }

/-- A write to NOTICE_MASK replaces it; bits not listed are not stored (R176). -/
def setMask (s : State) (v : Word) : State :=
  { s with regs := { s.regs with noticeMask := v.setWidth 7 } }

end State

/-! ## The commands -/

/-- POWER_ON_RESET (R27, R47, R69, R78, R83, R86, R92, R111, R158, R165, R168, R170, R171, R173, R174, R176). -/
def powerOnResetStep (s : State) : State := s.powerOn

/-- PERST_N (R173). -/
def perstNStep (asserted : Bool) (s : State) : State := s.setLink asserted

/-- AREA_LO_WRITE: bits 31:16 are stored (R173). -/
def areaLoWriteStep (v : Word) (s : State) : State :=
  s.writeArea fun r => { r with areaLo := v.extractLsb' 16 16 }

/-- AREA_HI_WRITE (R173). -/
def areaHiWriteStep (v : Word) (s : State) : State := s.writeArea fun r => { r with areaHi := v }

/-- PART_ID_WRITE: ignored (R173). -/
def partIdWriteStep (_v : Word) (s : State) : State := s

/-- RESTART: a write to RUN_CTRL with RESTART 1 (R174, R175). -/
def restartStep (run scan : Bool) (host : List HostWrite) (s : State) : State :=
  s.writeRunCtrl true run scan host

/-- RUN: a write to RUN_CTRL with RESTART 0 and SCAN 0 (R174). -/
def runStep (run : Bool) (host : List HostWrite) (s : State) : State := s.writeRunCtrl false run false host

/-- SCAN: a write to RUN_CTRL with RESTART 0 and SCAN 1 (R167, R174). -/
def scanStep (run : Bool) (host : List HostWrite) (s : State) : State := s.writeRunCtrl false run true host

/-- NOTICE_RAW_WRITE (R176). -/
def noticeRawWriteStep (v : Word) (s : State) : State := s.clearNotices v

/-- NOTICE_MASK_WRITE (R176). -/
def noticeMaskWriteStep (v : Word) (s : State) : State := s.setMask v

/-- SCAN_TIMER_EXPIRY: the timer starts again and a scan is requested; a stopped timer does not expire (R167). -/
def scanTimerExpiryStep (host : List HostWrite) (s : State) : State :=
  let s1 := s.hostWrites host
  if s1.intake.scanTimer.isSome then s1.startScanTimer.requestScan else s1

/-- FOLLOWING_SCAN: a scan marked to follow starts when no scan is under way (R167). -/
def followingScanStep (host : List HostWrite) (s : State) : State :=
  let s1 := s.hostWrites host
  if s1.intake.follow && !s1.scanning then
    (s1.modIntake fun k => { k with follow := false }).requestScan
  else s1

/-! ## MEANINGS: the outcome of each command -/

/-- The meaning of POWER_ON_RESET. -/
def execPowerOnReset (s : State) : Host.Outcome State Fault Refusal := .next (powerOnResetStep s)

/-- The meaning of PERST_N. -/
def execPerstN (asserted : Bool) (s : State) : Host.Outcome State Fault Refusal :=
  .next (perstNStep asserted s)

/-- The meaning of AREA_LO_WRITE. -/
def execAreaLoWrite (v : Word) (s : State) : Host.Outcome State Fault Refusal := .next (areaLoWriteStep v s)

/-- The meaning of AREA_HI_WRITE. -/
def execAreaHiWrite (v : Word) (s : State) : Host.Outcome State Fault Refusal := .next (areaHiWriteStep v s)

/-- The meaning of PART_ID_WRITE. -/
def execPartIdWrite (v : Word) (s : State) : Host.Outcome State Fault Refusal := .next (partIdWriteStep v s)

/-- The meaning of RESTART. -/
def execRestart (run : Bool) (scan : Bool) (host : List HostWrite) (s : State) : Host.Outcome State Fault Refusal :=
  .next (restartStep run scan host s)

/-- The meaning of RUN. -/
def execRun (run : Bool) (host : List HostWrite) (s : State) : Host.Outcome State Fault Refusal :=
  .next (runStep run host s)

/-- The meaning of SCAN. -/
def execScan (run : Bool) (host : List HostWrite) (s : State) : Host.Outcome State Fault Refusal :=
  .next (scanStep run host s)

/-- The meaning of NOTICE_RAW_WRITE. -/
def execNoticeRawWrite (v : Word) (s : State) : Host.Outcome State Fault Refusal :=
  .next (noticeRawWriteStep v s)

/-- The meaning of NOTICE_MASK_WRITE. -/
def execNoticeMaskWrite (v : Word) (s : State) : Host.Outcome State Fault Refusal :=
  .next (noticeMaskWriteStep v s)

/-- The meaning of SCAN_TIMER_EXPIRY. -/
def execScanTimerExpiry (host : List HostWrite) (s : State) : Host.Outcome State Fault Refusal :=
  .next (scanTimerExpiryStep host s)

/-- The meaning of FOLLOWING_SCAN. -/
def execFollowingScan (host : List HostWrite) (s : State) : Host.Outcome State Fault Refusal :=
  .next (followingScanStep host s)

end Sys2Proof.Machine
end

