-- ==== Sys2Proof/Machine/ChainCards.lean ====
section
/-! DEFINITION. The requests of the chains: SET_CHAIN, START_CHAIN, STOP_CHAIN, VERIFY and ROLL_CALL (R113, R123, R124,
R140, R151). -/

namespace Sys2Proof.Machine

/-- The settings of a SET_CHAIN card, if each is in its range (R113, section 6.5). -/
def Walk.chainConfig (w : Walk) : Option ChainConfig :=
  match BitRate.ofCode (w.param8 1), NakPolicy.ofCode (w.param8 3) with
  | some b, some n =>
    let retry := w.param8 2
    let window := w.param16 4
    let hold := w.param16 6
    let poll := w.param16 8
    let verify := w.param16 10
    let latch := w.param16 12
    if retry ≤ 3 ∧ (20 ≤ window ∧ window ≤ 2000) ∧ (1 ≤ hold ∧ hold ≤ 250) ∧ (10 ≤ poll ∧ poll ≤ 10000) ∧
        verify ≤ 3600 ∧ (5 ≤ latch ∧ latch ≤ 500) then
      some { bitRate := b, answerWindow := window, holdLimit := hold, retryLimit := retry, nakPolicy := n,
             pollPeriod := poll, verifyInterval := verify, latchDeadline := latch }
    else none
  | _, _ => none

/-- A chain's settings as a SET_CHAIN card shows them (section 10.2.2). -/
def ChainConfig.bytes (ch : Fin 4) (c : ChainConfig) : List Byte :=
  bytes8 ch.val ++ bytes8 c.bitRate.code ++ bytes8 c.retryLimit ++ bytes8 c.nakPolicy.code ++
    bytes16 c.answerWindow ++ bytes16 c.holdLimit ++ bytes16 c.pollPeriod ++ bytes16 c.verifyInterval ++
    bytes16 c.latchDeadline

/-- The verify sweep timer for an interval in seconds: not started when it is 0 (R135). -/
def sweepTimerFor (interval : Nat) : Timer := if interval = 0 then none else some (Config.seconds interval)

namespace State

/-- The ids of the LIVE contexts of a chain, in ascending order of address (R119, R123). -/
def liveByAddress (s : State) (ch : Fin 4) : List (Fin 256) :=
  (byAddress (s.contexts.enum.filter fun x => x.2.liveOn ch)).map fun x => x.1

/-- A due entry of a poll list (R119, R122). -/
def dueEntry (i : Fin 256) : PollEntry := { ctx := i, overdue := false, inFlight := false }

/-- A STOPPED chain is started (R123). Its first choice is made by the latch deadline now in force, so a latch
whose age has passed that deadline is marked before it (R112, R113, R131). -/
def startChain (s : State) (ch : Fin 4) : State :=
  ((s.markLate ch).modChain ch fun k =>
    { k with
      state := .idle
      pollList := (s.liveByAddress ch).map dueEntry
      pollTimer := some (Config.millis k.config.pollPeriod)
      sweepTimer := sweepTimerFor k.config.verifyInterval }).arbitrate ch

/-- A chain enters STOPPED or STOPPING by a STOP_CHAIN card: its poll round and sweep timers stop (R124). -/
def stopTo (s : State) (ch : Fin 4) (st : ChainState) : State :=
  s.modChain ch fun k => { k with state := st, pollTimer := none, sweepTimer := none }

/-- The lengths a START_CHAIN card shows (section 10.2.2). -/
def startData (s : State) (ch : Fin 4) (before : ChainState) : List Byte :=
  let k := s.chain ch
  bytes8 before.code ++ bytes8 k.probeQueue.length ++ bytes8 k.pushQueue.length ++ bytes8 k.pollList.length

/-- A sweep of a VERIFY card starts: a record with all counts 0, every LIVE context of the chain marked, and
their number recorded (R140). -/
def beginSweep (s : State) (ch : Fin 4) : State :=
  (s.markDue ch).modChain ch fun k =>
    { k with
      sweep := some
        { marked := (s.contexts.cells.filter (Context.liveOn ch)).length
          matched := 0, mismatched := 0, failed := 0, dropped := 0 } }

/-- A roll becomes in progress on a chain; it begins when the arbiter chooses it (R147, R151). A roll that a
restart is ending ends first (R155). -/
def requestRoll (s : State) (ch : Fin 4) : State :=
  s.modChain ch fun k =>
    { k with
      roll := match k.roll with
        | some r => if r.begun then some { r with again := true } else some Roll.waiting
        | none => some Roll.waiting }

end State

/-- A SET_CHAIN card is dispatched: field ranges, then LOCKED, then BUSY (R113). -/
def dispatchSetChain (w : Walk) (s : State) : State :=
  match indexBelow 4 (w.param8 0), w.chainConfig with
  | some ch, some c =>
    if s.ramp.mode = .showing then s.refuseCard w.card .locked
    else if (s.chain ch).state ≠ .stopped then s.refuseCard w.card .busy
    else (s.modChain ch fun k => { k with config := c }).completeCard w.card .ok (c.bytes ch)
  | _, _ => s.refuseCard w.card .badField

/-- A START_CHAIN card is dispatched (R123). The lengths shown are those after the arbiter's choice (log 14). -/
def dispatchStartChain (w : Walk) (s : State) : State :=
  match indexBelow 4 (w.param8 0) with
  | none => s.refuseCard w.card .badField
  | some ch =>
    match (s.chain ch).state with
    | .stopping => s.refuseCard w.card .busy
    | .stopped =>
      let s1 := s.startChain ch
      s1.completeCard w.card .ok (s1.startData ch .stopped)
    | st => s.completeCard w.card .ok (s.startData ch st)

/-- A STOP_CHAIN card is dispatched (R124). A chain already STOPPING whose earlier card a restart has dropped
holds the card like a BUSY one (log 12). The table is read as it stood when the card was taken (R170). -/
def dispatchStopChain (w : Walk) (s : State) : State :=
  match indexBelow 4 (w.param8 0) with
  | none => s.refuseCard w.card .badField
  | some ch =>
    if (s.chain ch).state = .rolling ∨ (w.entries ch).stop.isSome = true then s.refuseCard w.card .busy
    else
      match (s.chain ch).state with
      | .stopped => (s.completeCard w.card .ok (s.stopData ch 0 false)).endSweep ch .cancelled
      | .idle =>
        let s1 := s.stopTo ch .stopped
        (s1.completeCard w.card .ok (s1.stopData ch 0 false)).endSweep ch .cancelled
      | _ => (s.stopTo ch .stopping).holdCard ch w.card .stopChain

/-- A VERIFY card is dispatched: refused with BUSY if a ROLL_CALL or VERIFY was held when it was taken (R170);
otherwise it starts a sweep, and is completed at once when no context is DUE or READING (R140, R141). -/
def dispatchVerify (w : Walk) (s : State) : State :=
  match indexBelow 4 (w.param8 0) with
  | none => s.refuseCard w.card .badField
  | some ch =>
    if (w.entries ch).sweepOrRoll.isSome = true then s.refuseCard w.card .busy
    else
      let s1 := s.beginSweep ch
      if s1.sweepMet ch then
        (s1.modChain ch fun k => { k with sweep := none }).completeCard w.card .ok (zeros 10)
      else (s1.holdCard ch w.card .verify).arbitrate ch

/-- A ROLL_CALL card is dispatched: refused with BUSY if a ROLL_CALL or VERIFY was held when it was taken (R170);
otherwise it is held and a roll becomes in progress (R151). -/
def dispatchRollCall (w : Walk) (s : State) : State :=
  match indexBelow 4 (w.param8 0) with
  | none => s.refuseCard w.card .badField
  | some ch =>
    if (w.entries ch).sweepOrRoll.isSome = true then s.refuseCard w.card .busy
    else ((s.requestRoll ch).holdCard ch w.card .rollCall).arbitrate ch

/-! ## The commands -/

/-- SET_CHAIN (R113). -/
def setChainStep (s : State) : State := s.dispatchCard .setChain dispatchSetChain

/-- START_CHAIN (R123). -/
def startChainStep (s : State) : State := s.dispatchCard .startChain dispatchStartChain

/-- STOP_CHAIN (R124). -/
def stopChainStep (s : State) : State := s.dispatchCard .stopChain dispatchStopChain

/-- VERIFY (R140). -/
def verifyStep (s : State) : State := s.dispatchCard .verify dispatchVerify

/-- ROLL_CALL (R151). -/
def rollCallStep (s : State) : State := s.dispatchCard .rollCall dispatchRollCall

/-! ## MEANINGS: the outcome of each command -/

/-- The meaning of SET_CHAIN. -/
def execSetChain (s : State) : Host.Outcome State Fault Refusal := .next (setChainStep s)

/-- The meaning of START_CHAIN. -/
def execStartChain (s : State) : Host.Outcome State Fault Refusal := .next (startChainStep s)

/-- The meaning of STOP_CHAIN. -/
def execStopChain (s : State) : Host.Outcome State Fault Refusal := .next (stopChainStep s)

/-- The meaning of VERIFY. -/
def execVerify (s : State) : Host.Outcome State Fault Refusal := .next (verifyStep s)

/-- The meaning of ROLL_CALL. -/
def execRollCall (s : State) : Host.Outcome State Fault Refusal := .next (rollCallStep s)

end Sys2Proof.Machine
end

