-- ==== Sys2Proof/Machine/Links.lean ====
section
/-! DEFINITION. The events of the tile links: frames, answers, holds, poll rounds, latch deadlines and sweeps (R97, R102
to R108, R119 to R121, R129 to R137). -/

namespace Sys2Proof.Machine

/-- A frame may begin: the line has been quiet for two byte times, or 20 byte times have passed without such
a quiet (R97). -/
def lineReady (quiet waited : Nat) : Bool := decide (2 ≤ quiet) || decide (20 ≤ waited)

/-- The transaction of a chain that stands in a phase. -/
def Chain.transactionIn (k : Chain) (p : Phase) : Option Transaction :=
  match k.flight with
  | .transaction t => if t.phase = p then some t else none
  | _ => none

/-- A roll of a chain that stands in a phase, with the chain ROLLING. -/
def Chain.rollIn (k : Chain) (p : RollPhase) : Option Roll :=
  match k.state, k.roll with
  | .rolling, some r => if r.phase = p then some r else none
  | _, _ => none

namespace State

/-- The roll of a chain as it stands after a change of its own. -/
def setRoll (s : State) (ch : Fin 4) (r : Roll) : State := s.modChain ch fun k => { k with roll := some r }

/-- The chosen work of a chain begins its frame (R97, R102, R108, R144). -/
def beginFrame (s : State) (ch : Fin 4) : State :=
  match (s.chain ch).transactionIn .toBegin with
  | some t => s.setFlight ch { t with phase := .sending }
  | none =>
    match (s.chain ch).flight with
    | .latch false => s.modChain ch fun k => { k with flight := .latch true }
    | _ =>
      match (s.chain ch).rollIn .toBegin with
      | some r => s.setRoll ch { r with phase := .sending }
      | none => s

/-- What a LATCH does at the end of its frame: each LIVE context's known sent set becomes its latched set,
latch-pending is cleared, and the frame count is 0 (R133). DEDUCED (log 34): latch-pending is cleared here, at the end
of the frame, as R108 and R133 have it, and not when the LATCH is chosen, as the last sentence of R116 can be read. -/
def latch (s : State) (ch : Fin 4) : State :=
  { s with
    contexts := s.contexts.map fun c =>
      if c.liveOn ch && c.sent.isSome then c.touched { c with latched := c.sent } else c }.modChain ch fun k =>
    { k with latchPending := none, framesSinceLatch := 0 }

/-- A hold begins (R105). -/
def beginHold (s : State) (ch : Fin 4) (t : Transaction) : State :=
  s.modChain ch fun k =>
    { k with
      flight := .transaction { t with phase := .holding }
      holdTimer := some (Config.millis t.settings.holdLimit)
      state := match k.state with
        | .busy => .holding
        | st => st }

/-- A poll round begins: the entries left are marked overdue and counted, and every LIVE context without an
entry is given a due one (R119). -/
def beginRound (s : State) (ch : Fin 4) : State :=
  let fresh := s.liveByAddress ch
  s.modChain ch fun k =>
    { k with
      pollTimer := some (Config.millis k.config.pollPeriod)
      pollOverrun := k.pollList.foldl (fun n _ => countUp Config.countMax n) k.pollOverrun
      pollList := (k.pollList.map fun e => { e with overdue := true }) ++
        (fresh.filter fun i => !k.pollList.any fun e => decide (e.ctx = i)).map dueEntry }

end State

/-! ## The commands -/

/-- FRAME_BEGIN (R97). -/
def frameBeginStep (ch : Fin 4) (quiet waited : Nat) (s : State) : State :=
  if lineReady quiet waited then s.beginFrame ch else s

/-- FRAME_SENT: the answer window opens, or roll slot 1 (R103, R144). -/
def frameSentStep (ch : Fin 4) (s : State) : State :=
  match (s.chain ch).transactionIn .sending with
  | some t => s.setFlight ch { t with phase := .window }
  | none =>
    match (s.chain ch).rollIn .sending with
    | some r => s.setRoll ch { r with phase := .slot }
    | none => s

/-- LATCH_SENT (R133). -/
def latchSentStep (ch : Fin 4) (s : State) : State :=
  match (s.chain ch).flight with
  | .latch true => (s.latch ch).endFlight ch 5 true
  | _ => s

/-- TILE_ANSWER: an answer to an attempt, judged by R103; with no window open it belongs to no answer (R104). -/
def tileAnswerStep (ch : Fin 4) (bytes : List Byte) (quiet : Bool) (s : State) : State :=
  match (s.chain ch).transactionIn .window with
  | none => s
  | some t =>
    match t.kind.judge (answerFrame bytes quiet) with
    | .good f => s.handOver ch t (.success f)
    | .hold => s.beginHold ch t
    | .nak => s.attemptFailed ch t .nak
    | .garbled => s.attemptFailed ch t .noAnswer

/-- ANSWER_WINDOW_CLOSE: the attempt ends with no answer (R103, R104). -/
def answerWindowCloseStep (ch : Fin 4) (s : State) : State :=
  match (s.chain ch).transactionIn .window with
  | none => s
  | some t => s.attemptFailed ch t .noAnswer

/-- RESEND: the frame is sent again with the attempt count incremented (R97, R104). -/
def resendStep (ch : Fin 4) (quiet waited : Nat) (s : State) : State :=
  match (s.chain ch).transactionIn .toResend with
  | none => s
  | some t =>
    if lineReady quiet waited then s.setFlight ch { t with attempts := t.attempts + 1, phase := .sending } else s

/-- HOLD_ANSWER: a final ACK ends the transaction with success, a final NAK counts as an attempt ended in NAK,
and anything else is ignored (R105). -/
def holdAnswerStep (ch : Fin 4) (bytes : List Byte) (quiet : Bool) (s : State) : State :=
  match (s.chain ch).transactionIn .holding with
  | none => s
  | some t =>
    match answerFrame bytes quiet with
    | some .ack => s.handOver ch t (.success .ack)
    | some .nak => s.attemptFailed ch t .nak
    | _ => s

/-- HOLD_TIMER_EXPIRY: the transaction fails with HOLD_TIMEOUT and is not resent (R105). -/
def holdTimerExpiryStep (ch : Fin 4) (s : State) : State :=
  match (s.chain ch).transactionIn .holding with
  | none => s
  | some t => s.handOver ch t (.failure .holdTimeout)

/-- POLL_ROUND_TIMER_EXPIRY (R119); a stopped timer does not expire. -/
def pollRoundTimerExpiryStep (ch : Fin 4) (s : State) : State :=
  if (s.chain ch).pollTimer.isSome then (s.beginRound ch).arbitrate ch else s

/-- LATCH_DEADLINE_PASSED: the overdue mark is set (R131). -/
def latchDeadlinePassedStep (ch : Fin 4) (s : State) : State :=
  if s.latchLate ch then (s.markLate ch).arbitrate ch else s

/-- VERIFY_SWEEP_TIMER_EXPIRY: a sweep, and the timer starts again; a stopped timer does not expire (R135). -/
def verifySweepTimerExpiryStep (ch : Fin 4) (s : State) : State :=
  if (s.chain ch).sweepTimer.isSome then
    ((s.markDue ch).modChain ch fun k => { k with sweepTimer := sweepTimerFor k.config.verifyInterval }).arbitrate ch
  else s

/-! ## MEANINGS: the outcome of each command -/

/-- The meaning of FRAME_SENT. -/
def execFrameSent (ch : Fin 4) (s : State) : Host.Outcome State Fault Refusal := .next (frameSentStep ch s)

/-- The meaning of LATCH_SENT. -/
def execLatchSent (ch : Fin 4) (s : State) : Host.Outcome State Fault Refusal := .next (latchSentStep ch s)

/-- The meaning of TILE_ANSWER. -/
def execTileAnswer (ch : Fin 4) (bytes : List Byte) (quiet : Bool) (s : State) : Host.Outcome State Fault Refusal :=
  .next (tileAnswerStep ch bytes quiet s)

/-- The meaning of ANSWER_WINDOW_CLOSE. -/
def execAnswerWindowClose (ch : Fin 4) (s : State) : Host.Outcome State Fault Refusal :=
  .next (answerWindowCloseStep ch s)

/-- The meaning of RESEND. -/
def execResend (ch : Fin 4) (quiet : Nat) (waited : Nat) (s : State) : Host.Outcome State Fault Refusal :=
  .next (resendStep ch quiet waited s)

/-- The meaning of HOLD_ANSWER. -/
def execHoldAnswer (ch : Fin 4) (bytes : List Byte) (quiet : Bool) (s : State) : Host.Outcome State Fault Refusal :=
  .next (holdAnswerStep ch bytes quiet s)

/-- The meaning of HOLD_TIMER_EXPIRY. -/
def execHoldTimerExpiry (ch : Fin 4) (s : State) : Host.Outcome State Fault Refusal :=
  .next (holdTimerExpiryStep ch s)

/-- The meaning of POLL_ROUND_TIMER_EXPIRY. -/
def execPollRoundTimerExpiry (ch : Fin 4) (s : State) : Host.Outcome State Fault Refusal :=
  .next (pollRoundTimerExpiryStep ch s)

/-- The meaning of LATCH_DEADLINE_PASSED. -/
def execLatchDeadlinePassed (ch : Fin 4) (s : State) : Host.Outcome State Fault Refusal :=
  .next (latchDeadlinePassedStep ch s)

/-- The meaning of VERIFY_SWEEP_TIMER_EXPIRY. -/
def execVerifySweepTimerExpiry (ch : Fin 4) (s : State) : Host.Outcome State Fault Refusal :=
  .next (verifySweepTimerExpiryStep ch s)

/-- The meaning of FRAME_BEGIN. -/
def execFrameBegin (ch : Fin 4) (quiet : Nat) (waited : Nat) (s : State) : Host.Outcome State Fault Refusal :=
  .next (frameBeginStep ch quiet waited s)

end Sys2Proof.Machine
end

