-- ==== Sys2Proof/Machine/Rolls.lean ====
section
/-! DEFINITION. The roll call: slots, garbled answers, the comparison, and the completion of its card (R43, R144 to
R155). -/

namespace Sys2Proof.Machine

/-- How a roll ends (R152). -/
inductive RollEnd where
  | completeEmpty
  | completeFull
  | abandoned
  deriving DecidableEq, Repr

/-- The code of a roll's end (section 10.2.2). -/
def RollEnd.code : RollEnd → Nat
  | .completeEmpty => 0
  | .completeFull => 1
  | .abandoned => 2

/-- The counts of a comparison beside the number found (R150). -/
structure RollCounts where
  matched : Nat
  recovered : Nat
  unmatched : Nat
  missing : Nat
  unknown : Nat
  deriving DecidableEq, Repr

/-- The counts at the beginning of a comparison, and of an abandoned roll. -/
def RollCounts.zero : RollCounts := ⟨0, 0, 0, 0, 0⟩

/-- The finding at a context's address (R43, R148). -/
inductive Finding where
  | own
  | other (serial : Word)
  | noTile
  deriving DecidableEq, Repr

/-- The finding for a context from what the record holds for its position. -/
def Context.finding (c : Context) : Option Word → Finding
  | none => .noTile
  | some w => if w = c.serial then .own else .other w

/-- How a finding counts (R150). -/
def RollCounts.count (n : RollCounts) (life : Life) : Finding → RollCounts
  | .own => { n with matched := n.matched + 1, recovered := if life = .live then n.recovered else n.recovered + 1 }
  | .other _ => { n with unmatched := n.unmatched + 1 }
  | .noTile => { n with missing := n.missing + 1 }

namespace State

/-- The context, not ABSENT, that holds a position of a chain (R33, R148). -/
def holder (s : State) (ch : Fin 4) (a : Fin 64) : Option (Fin 256) :=
  (s.contexts.enum.find? fun x => x.2.holds ch a).map fun x => x.1

/-- The lowest-numbered context, not ABSENT, on any chain, with a serial (R149). -/
def knownAs (s : State) (serial : Word) : Option (Fin 256) :=
  (s.contexts.enum.find? fun x => !decide (x.2.life = .absent) && decide (x.2.serial = serial)).map fun x => x.1

/-- A finding acts on a context (R43); `found` is the number of positions found (R149). -/
def applyFinding (s : State) (i : Fin 256) (found : Nat) (f : Finding) : State :=
  let c := s.ctx i
  match f, c.life with
  | .own, .live => s
  | .own, _ => (s.modCtx i fun c => { c with failCount := 0, mismatchCount := 0 }).enterLive i
  | .other _, .unmatched => s
  | .other w, _ => s.enterUnmatched i w
  | .noTile, .faulted =>
    (s.modCtx i fun c => { c with faultReason := .missing }).raisePart .missing c.chain c.address c.serial
      (BitVec.ofNat 32 found)
  | .noTile, _ =>
    notice .fault
      ((s.transition i .faulted .missing).raisePart .missing c.chain c.address c.serial (BitVec.ofNat 32 found))

/-- One position of a comparison (R148). -/
def comparePosition (ch : Fin 4) (serials : List Word) (acc : State × RollCounts) (a : Fin 64) :
    State × RollCounts :=
  let s := acc.1
  let heard := serials[a.val - 1]?
  match s.holder ch a, heard with
  | some i, w =>
    let f := (s.ctx i).finding w
    (s.applyFinding i serials.length f, acc.2.count (s.ctx i).life f)
  | none, some w =>
    let value : Word := match s.knownAs w with
      | some i => BitVec.ofNat 32 i.val
      | none => 0xFFFFFFFF
    (s.raisePart .unknownTile ch a w value, { acc.2 with unknown := acc.2.unknown + 1 })
  | none, none => acc

/-- The positions 1 to 63 of a chain, ascending. -/
def positions : List (Fin 64) := (List.finRange 64).tail

/-- The comparison at the completion of a roll (R148). -/
def compareRoll (s : State) (ch : Fin 4) (serials : List Word) : State × RollCounts :=
  positions.foldl (comparePosition ch serials) (s, RollCounts.zero)

/-- A ROLL_CALL card's result data (R152). -/
def rollData (e : RollEnd) (attempts found : Nat) (n : RollCounts) : List Byte :=
  bytes8 e.code ++ bytes8 attempts ++ bytes8 found ++ bytes8 n.matched ++ bytes8 n.recovered ++
    bytes8 n.unmatched ++ bytes8 n.missing ++ bytes8 n.unknown

/-- The roll is over: it is no longer in progress, and the chain enters IDLE and chooses (R109, R114). A roll
requested while a restart was ending this one is then in progress. -/
def leaveRoll (s : State) (ch : Fin 4) (r : Roll) : State :=
  (s.modChain ch fun k =>
    { k with roll := if r.again then some Roll.waiting else none, state := .idle }).arbitrate ch

/-- The card of a roll gets its outcome; a card held for a further roll waits for that one (R152). -/
def answerRoll (s : State) (ch : Fin 4) (r : Roll) (data : List Byte) : State :=
  if r.again then s else s.decideSweepOrRoll ch .rollCall .ok data

/-- A roll completes: the comparison, then the card, then IDLE (R148, R152). A roll that a restart has ended
makes no comparison and completes no card (R155). -/
def completeRoll (s : State) (ch : Fin 4) (r : Roll) (e : RollEnd) : State :=
  if r.ending then s.leaveRoll ch r
  else
    let x := s.compareRoll ch r.serials
    (x.1.answerRoll ch r (rollData e r.attempts r.serials.length x.2)).leaveRoll ch r

/-- A garbled slot gives up the attempt; with none left the roll is abandoned (R146). DESIGN CHOICE (log 33): it is
abandoned at once, with the slot, and does not first wait until the chain may begin a frame (R97). -/
def giveUpAttempt (s : State) (ch : Fin 4) (r : Roll) : State :=
  if r.ending then s.leaveRoll ch r
  else if r.attempts < 1 + r.retryLimit then s.setRoll ch { r with serials := [], phase := .toRetry }
  else
    (s.answerRoll ch r (rollData .abandoned r.attempts 0 RollCounts.zero)).leaveRoll ch r

end State

/-! ## The commands -/

/-- ROLL_SLOT_ANSWER: a valid ROLL_ANSWER is recorded, and opens the next slot or, in slot 63, completes the
roll; anything else is garbled (R144, R146). -/
def rollSlotAnswerStep (ch : Fin 4) (bytes : List Byte) (quiet : Bool) (s : State) : State :=
  match (s.chain ch).rollIn .slot with
  | none => s
  | some r =>
    match answerFrame bytes quiet with
    | some (.rollAnswer w) =>
      let r1 := { r with serials := r.serials ++ [w] }
      if r1.ending then s.leaveRoll ch r1
      else if r1.serials.length < 63 then s.setRoll ch r1
      else s.completeRoll ch r1 .completeFull
    | _ => s.giveUpAttempt ch r

/-- ROLL_SLOT_CLOSE: the roll completes with the positions found so far (R144). -/
def rollSlotCloseStep (ch : Fin 4) (s : State) : State :=
  match (s.chain ch).rollIn .slot with
  | none => s
  | some r => s.completeRoll ch r .completeEmpty

/-- ROLL_RETRY: a new attempt begins with a fresh ROLL frame (R97, R146). -/
def rollRetryStep (ch : Fin 4) (quiet waited : Nat) (s : State) : State :=
  match (s.chain ch).rollIn .toRetry with
  | none => s
  | some r =>
    if lineReady quiet waited then
      s.setRoll ch { r with attempts := r.attempts + 1, serials := [], phase := .sending }
    else s

/-! ## MEANINGS: the outcome of each command -/

/-- The meaning of ROLL_SLOT_ANSWER. -/
def execRollSlotAnswer (ch : Fin 4) (bytes : List Byte) (quiet : Bool) (s : State) : Host.Outcome State Fault Refusal :=
  .next (rollSlotAnswerStep ch bytes quiet s)

/-- The meaning of ROLL_SLOT_CLOSE. -/
def execRollSlotClose (ch : Fin 4) (s : State) : Host.Outcome State Fault Refusal :=
  .next (rollSlotCloseStep ch s)

/-- The meaning of ROLL_RETRY. -/
def execRollRetry (ch : Fin 4) (quiet : Nat) (waited : Nat) (s : State) : Host.Outcome State Fault Refusal :=
  .next (rollRetryStep ch quiet waited s)

end Sys2Proof.Machine
end

