-- ==== Sys2Proof/Machine/GroupCards.lean ====
section
/-! DEFINITION. The requests of the solver and the curve store: SOLVE, SET_GROUP and LOAD_CURVE (R58 to R60, R71 to R76). -/

namespace Sys2Proof.Machine

/-- The six settings of a SET_GROUP card (R59). -/
structure GroupSettings where
  headroom : Nat
  cap : Nat
  slew : Nat
  beat : Nat
  solveInterval : Nat
  staleLimit : Nat
  deriving DecidableEq, Repr

/-- The settings a card gives, each clamped to its range (R59). -/
def Walk.groupSettings (w : Walk) : GroupSettings where
  headroom := clampNat 26214 32768 (w.param16 2)
  cap := clampNat 1 262143 (w.param32 4)
  slew := clampNat 1 4096 (w.param16 8)
  beat := clampNat 1 255 (w.param8 1)
  solveInterval := clampNat 0 600 (w.param16 10)
  staleLimit := clampNat 1 60 (w.param16 12)

/-- The solve timer for a solve interval in seconds: stopped when the interval is 0 (R50, R60). -/
def solveTimerFor (interval : Nat) : Timer := if interval = 0 then none else some (Config.seconds interval)

/-- A group with new settings: the timer is started or stopped, the group is pending, and the beat counter is
0 (R60). -/
def Group.set (g : Group) (v : GroupSettings) : Group :=
  { g with
    headroom := v.headroom
    cap := v.cap
    slew := v.slew
    beat := v.beat
    solveInterval := v.solveInterval
    staleLimit := v.staleLimit
    solveTimer := solveTimerFor v.solveInterval
    pending := true
    beatCount := 0 }

/-- The groups that a load of a page makes pending: those with a member whose page it is, and all eight for
page 15 (R74). -/
def State.dependents (s : State) (p : Fin 16) : List (Fin 8) :=
  (List.finRange 8).filter fun g =>
    decide (p = 15) || s.contexts.cells.any fun c => c.memberOf g && decide (c.page = p)

/-- The first zero entry of a slot: its primary and its index (R72). -/
def firstZero (t : Table Nat 99) : Option Nat :=
  ((List.range 99).find? fun i => t.cells.getD i 0 == 0)

/-- A SOLVE card is dispatched: the group named, or all eight for 0xFF, becomes pending, and the result shows which of
them were pending when the card was taken (R58). -/
def dispatchSolve (w : Walk) (s : State) : State :=
  let sel := w.param8 0
  let done (gs : List (Fin 8)) : State :=
    (gs.foldl State.solvePending s).completeCard w.card .ok
      (bytes8 sel ++ bytes8 (bitsOf ((List.finRange 8).map fun g => decide (g ∈ gs) && w.flags.get g)))
  if sel = 0xFF then done (List.finRange 8)
  else
    match indexBelow 8 sel with
    | none => s.refuseCard w.card .badField
    | some g => done [g]

/-- A SET_GROUP card is dispatched (R59, R60). -/
def dispatchSetGroup (w : Walk) (s : State) : State :=
  match indexBelow 8 (w.param8 0) with
  | none => s.refuseCard w.card .badField
  | some g =>
    let v := w.groupSettings
    (s.modGroup g fun r => r.set v).completeCard w.card .ok
      (bytes8 g.val ++ bytes8 v.beat ++ bytes16 v.headroom ++ bytes32 v.cap ++ bytes16 v.slew ++
        bytes16 v.solveInterval ++ bytes16 v.staleLimit)

/-- A LOAD_CURVE card is dispatched: the numbers are checked, the slot read, a zero entry refused, and
otherwise the page is replaced and the dependent groups become pending (R71 to R75). A slot read that ends
in a bus error leaves the card uncompleted (R76). -/
def dispatchLoadCurve (w : Walk) (s : State) : State :=
  match indexBelow 4 (w.param8 0), indexBelow 16 (w.param8 1) with
  | some slot, some p =>
    match s.areaRead (0x0900 + 256 * slot.val) 198 with
    | (none, s1) => s1
    | (some bs, s1) =>
      let t := slotEntries bs
      match firstZero t with
      | some i => s1.completeCard w.card .badField (bytes8 (i / 33) ++ bytes8 (i % 33))
      | none =>
        let before := (s1.pages.get p).loaded
        let s2 := { s1 with pages := s1.pages.set p { loaded := true, entries := t } }
        let gs := s2.dependents p
        (gs.foldl State.solvePending s2).completeCard w.card .ok
          (bytes8 p.val ++ bytes8 slot.val ++ bytes8 before.toNat ++
            bytes8 (bitsOf ((List.finRange 8).map fun g => decide (g ∈ gs))) ++
            bytes16 (bitsOf (s2.pages.cells.map fun q => q.loaded)))
  | _, _ => s.refuseCard w.card .badField

/-! ## The commands -/

/-- SOLVE (R58). -/
def solveStep (s : State) : State := s.dispatchCard .solve dispatchSolve

/-- SET_GROUP (R60). -/
def setGroupStep (s : State) : State := s.dispatchCard .setGroup dispatchSetGroup

/-- LOAD_CURVE (R73). -/
def loadCurveStep (s : State) : State := s.dispatchCard .loadCurve dispatchLoadCurve

/-! ## MEANINGS: the outcome of each command -/

/-- The meaning of SOLVE. -/
def execSolve (s : State) : Host.Outcome State Fault Refusal := .next (solveStep s)

/-- The meaning of SET_GROUP. -/
def execSetGroup (s : State) : Host.Outcome State Fault Refusal := .next (setGroupStep s)

/-- The meaning of LOAD_CURVE. -/
def execLoadCurve (s : State) : Host.Outcome State Fault Refusal := .next (loadCurveStep s)

end Sys2Proof.Machine
end

