-- ==== Sys2Proof/Machine/Solver.lean ====
section
/-! DEFINITION. The solver's service and timers, and the staleness check (R18, R50 to R57, R66). -/

namespace Sys2Proof.Machine

/-- The lesser of two triples, primary by primary. -/
def lesser (a b : Rgb Nat) : Rgb Nat := Rgb.zipWith min a b

/-- The least effective luminance of some tiles, primary by primary; none of no tiles (R10). -/
def leastEffective : List (Rgb Nat) → Option (Rgb Nat)
  | [] => none
  | e :: es =>
    match leastEffective es with
    | none => some e
    | some m => some (lesser e m)

/-- The targets of a solve: by R11 from the eligible members' effective luminances, or those kept when no member is
eligible (R12, R55). -/
def targetsFrom (headroom cap : Nat) (kept : Option (Rgb Nat)) (voters : List (Rgb Nat)) : Option (Rgb Nat) :=
  match leastEffective voters with
  | none => kept
  | some m => some (m.map fun e => targetOf e headroom cap)

/-- What a solve is to write for a member: the context, its generation when it was read, and the result. -/
structure MemberResult where
  ctx : Fin 256
  generation : BitVec 8
  result : Correction
  deriving DecidableEq, Repr

/-- What a member's correction reads from its page: what it has read, or, if it has not yet, what it finds now
(R70). -/
def SolveMember.readingBy (pages : Table Page 16) (m : SolveMember) : PageReading :=
  m.reading.getD (m.tile.readPage pages)

/-- The corrections of some members of a solve read their pages, those that have not yet (R18, R70). -/
def Solve.readSome (pages : Table Page 16) (which : Fin 256 → Bool) (v : Solve) : Solve :=
  { v with
    members := v.members.map fun m => if which m.ctx then { m with reading := some (m.readingBy pages) } else m }

/-- The targets with which a solve ends (R10 to R12). -/
def Solve.targets (pages : Table Page 16) (kept : Option (Rgb Nat)) (v : Solve) : Option (Rgb Nat) :=
  targetsFrom v.headroom v.cap kept
    ((v.members.filter fun m => m.tile.eligible).map fun m => (m.readingBy pages).effective)

/-- What a solve writes for its members: each one's correction against its targets, from what it read (R18). -/
def Solve.results (pages : Table Page 16) (targets : Option (Rgb Nat)) (v : Solve) : List MemberResult :=
  v.members.map fun m =>
    { ctx := m.ctx, generation := m.tile.generation, result := m.tile.correctionFrom (m.readingBy pages) targets }

/-- A group at the end of a solve: the targets computed, and the timer started again unless the interval is 0; a
pending flag set since the solve began stays (R50 to R52). -/
def Group.solved (g : Group) (targets : Option (Rgb Nat)) : Group :=
  { g with
    targets := targets
    solveTimer := if g.solveInterval = 0 then g.solveTimer else solveTimerFor g.solveInterval }

namespace State

/-- A solve of a group as it begins (R49, R52, R54): the group's headroom and cap, and its members in ascending
order of id with their fields as they stand; no page has been read. -/
def newSolve (s : State) (g : Fin 8) : Solve :=
  { group := g
    headroom := (s.group g).headroom
    cap := (s.group g).cap
    members := (s.contexts.enum.filter fun x => x.2.memberOf g).map fun x =>
      { ctx := x.1, tile := x.2, reading := none } }

/-- A solve of a group begins: its pending flag is cleared, and it reads (R51, R52). -/
def beginSolve (s : State) (g : Fin 8) : State :=
  { s.modGroup g fun r => { r with pending := false } with solves := s.solves ++ [s.newSolve g] }

/-- The corrections of some members of every solve under way read their pages (R70). -/
def readPages (s : State) (which : Fin 256 → Bool) : State :=
  { s with solves := s.solves.map (Solve.readSome s.pages which) }

/-- The correction of one member of a group's solve reads its page (R70). -/
def readMember (s : State) (g : Fin 8) (i : Fin 256) : State :=
  { s with solves := s.solves.map fun v => if v.group = g then v.readSome s.pages fun j => decide (j = i) else v }

/-- The member is still the one that the solve read: its generation has not changed (R52). -/
def stillMember (s : State) (m : MemberResult) : Bool := decide ((s.ctx m.ctx).generation = m.generation)

/-- A member's result is written whole, and nothing into a context whose generation has changed (R17, R52). -/
def writeMember (s : State) (m : MemberResult) : State :=
  if s.stillMember m then s.modCtx m.ctx fun c => c.corrected m.result else s

/-- The targets with which a solve under way ends. -/
def solveTargets (s : State) (v : Solve) : Option (Rgb Nat) := v.targets s.pages (s.group v.group).targets

/-- What a solve under way writes for its members when it ends. -/
def solveResults (s : State) (v : Solve) : List MemberResult := v.results s.pages (s.solveTargets v)

/-- The part reports that the results of a solve raise (R52, R57, R77). -/
def solveReports (s : State) (v : Solve) : List Report :=
  (s.solveResults v).flatMap fun m => if s.stillMember m then (s.ctx m.ctx).newReports s.tick m.result else []

/-- A solve ends: the members that have not read their pages do so, its members and its group record are written, and
it is no longer under way (R18, R52, R53). -/
def writeSolve (s : State) (v : Solve) : State :=
  let s1 := ((s.solveResults v).foldl writeMember s).modGroup v.group fun r => r.solved (s.solveTargets v)
  { s1 with solves := s1.solves.filter fun u => !decide (u.group = v.group) }

/-- Some solves under way end; their reports are raised together (R52). -/
def endSolves (s : State) (vs : List Solve) : State :=
  (vs.foldl writeSolve s).raiseTogether (vs.flatMap s.solveReports)

/-- The groups whose pending flag is set. -/
def pendingGroups (s : State) : List (Fin 8) := (List.finRange 8).filter fun g => (s.group g).pending

/-- One service of the solver: a solve of every pending group begins (R52). The groups whose bit is set in `late`
stay under way, so that an event may come between what their solves read and what they write (R54), and of their
members those whose bit is set in `early` have read their pages (R70); the solves of the others end with the
service. -/
def serviceWith (s : State) (late early : Nat) : State :=
  let s1 := (s.pendingGroups.foldl beginSolve s).readPages fun i => early.testBit i.val
  s1.endSolves (s1.solves.filter fun v => !late.testBit v.group.val)

/-- One service of the solver (R52). DESIGN CHOICE (log 26): which of its solves stay under way, and which of their
members have read their pages, are free choices, and any of the service before have ended when it comes. -/
def service (s : State) : State :=
  let s1 := s.endSolves s.solves
  if s1.pendingGroups.isEmpty then s1
  else
    { s1 with freeIndex := s1.freeIndex + 2 }.serviceWith (Config.freeOrder s1.freeIndex)
      (Config.freeOrder (s1.freeIndex + 1))

/-- The service waits: a card that has been taken is to be dispatched, and comes before the solves that have not begun
(R54), or a card of a kind that makes groups pending has been dispatched at the scan under way, whose walk has not
ended (R58, R71). DESIGN CHOICE (log 37): once the walk has ended the service waits no longer, so the results of a
SOLVE, a LOAD_CURVE or another of these cards may show in the status block and the mirror records of the very scan
that took the card, if the service comes before they are copied (R58, R75, R171). -/
def serviceWaits (s : State) : Bool :=
  s.intake.walk.isSome ||
  match s.intake.scan with
  | some (.board _ solved) => solved
  | _ => false

/-- The age of a context's temperature in ticks, modulo 2^32 (R66). -/
def temperatureAge (s : State) (c : Context) : Nat := (s.tick - c.tempTick).toNat

/-- A context is found stale: not ABSENT, and older than its group's stale limit (R66). -/
def foundStale (s : State) (c : Context) : Bool :=
  !decide (c.life = .absent) && decide ((s.group c.group).staleLimit * 10000 < s.temperatureAge c)

/-- The staleness check (R66). -/
def checkStale (s : State) : State :=
  { s with
    contexts := s.contexts.map fun c => if s.foundStale c then c.touched { c with stale := true } else c }

end State

/-! ## The commands -/

/-- SOLVE_TIMER_EXPIRY: the group is pending, and the timer stays stopped until its next solve; a stopped
timer does not expire (R50). -/
def solveTimerExpiryStep (g : Fin 8) (s : State) : State :=
  if (s.group g).solveTimer.isSome then s.modGroup g fun r => { r with pending := true, solveTimer := none } else s

/-- SERVICE_TIMER_EXPIRY (R52). DEDUCED (log 32): the service waits, its timer standing at its end, while a card that
has been taken is to be dispatched, so that the card counts as taken before the solves (R54), and while a walk goes on
that has dispatched a card of a kind that makes groups pending, so that several SOLVE cards of one scan for one group
give one solve (R58) and the dependent solves of its LOAD_CURVE cards are served together (R71). -/
def serviceTimerExpiryStep (s : State) : State :=
  if s.serviceWaits then { s with serviceTimer := some 0 }
  else { s with serviceTimer := some Config.serviceMicros }.service

/-- STALENESS_CHECK_EXPIRY (R66). -/
def stalenessCheckExpiryStep (s : State) : State :=
  { s with stalenessTimer := some Config.stalenessMicros }.checkStale

/-! ## MEANINGS: the outcome of each command -/

/-- The meaning of SOLVE_TIMER_EXPIRY. -/
def execSolveTimerExpiry (g : Fin 8) (s : State) : Host.Outcome State Fault Refusal :=
  .next (solveTimerExpiryStep g s)

/-- The meaning of SERVICE_TIMER_EXPIRY. -/
def execServiceTimerExpiry (s : State) : Host.Outcome State Fault Refusal := .next (serviceTimerExpiryStep s)

/-- The meaning of STALENESS_CHECK_EXPIRY. -/
def execStalenessCheckExpiry (s : State) : Host.Outcome State Fault Refusal :=
  .next (stalenessCheckExpiryStep s)

end Sys2Proof.Machine
end

