-- ==== Sys2Proof/Machine/TileCards.lean ====
section
/-! DEFINITION. The requests that act on tile contexts: ADOPT and RETIRE (R32 to R37, R44). -/

namespace Sys2Proof.Machine

/-- An age factor clamped to 16384..32768 (R34). -/
def clampAge (a : Nat) : Nat := clampNat 16384 32768 a

/-- A context with the calibration of a sheet (R34) and the fields that R36 sets before its correction. -/
def Context.adopt (c : Context) (sh : Sheet) (p : Position) (taken : Tick) : Context :=
  { c with
    life := .adopted
    generation := c.generation + 1
    serial := BitVec.ofNat 32 sh.serial
    chain := p.chain
    address := p.address
    group := p.group
    page := p.page
    noVote := sh.noVote
    luminance := sh.luminance
    age := sh.age.map clampAge
    mix := sh.mix
    temp := none
    tempTick := taken
    stale := false
    applied := none
    sent := none
    latched := none
    failCount := 0
    mismatchCount := 0
    verify := .none
    faultReason := .none
    short := false
    ageClamped := decide (sh.age.map clampAge ≠ sh.age)
    curveFallback := false
    sensorSuspect := false
    pushCount := 0
    dirty := true }

/-- A context as RETIRE leaves it (R44): the calibration, AGE_CLAMPED, E, g, the target set and push_count
are kept. -/
def Context.retire (c : Context) : Context :=
  { c with
    life := .absent
    generation := c.generation + 1
    temp := none
    applied := none
    sent := none
    latched := none
    failCount := 0
    mismatchCount := 0
    verify := .none
    faultReason := .none
    short := false
    curveFallback := false
    sensorSuspect := false
    dirty := true }

namespace State

/-- Another context, not ABSENT, holds a position (R33). -/
def positionTaken (s : State) (i : Fin 256) (ch : Fin 4) (a : Fin 64) : Bool :=
  s.contexts.enum.any fun x => !decide (x.1 = i) && x.2.holds ch a

/-- What an accepted ADOPT does at the table, the queues and the groups (R34 to R36): the context leaves its
former work, takes the calibration, joins the probe queue, its former and its new group become pending, and
it is corrected against its new group's targets. -/
def adoptCtx (s : State) (i : Fin 256) (sh : Sheet) (p : Position) (taken : Tick) : State :=
  let old := s.ctx i
  let s1 := (s.dropWork i).modCtx i fun c => c.adopt sh p taken
  let s2 := (s1.testSweep old.chain).correctCtx i
  let s3 := (s2.enqueueProbe i).solvePending p.group
  let s4 := if old.memberOf p.group || decide (old.life = .absent) then s3 else s3.solvePending old.group
  s4.arbitrate p.chain

/-- What an accepted RETIRE does (R44). -/
def retireCtx (s : State) (i : Fin 256) : State :=
  let old := s.ctx i
  (((s.dropWork i).modCtx i Context.retire).testSweep old.chain).solvePending old.group

end State

/-- An ADOPT card is dispatched: the id is checked, the sheet read and checked, the position compared, and
the context adopted (R32 to R37). A sheet read that ends in a bus error leaves the card uncompleted (R37). -/
def dispatchAdopt (w : Walk) (s : State) : State :=
  match indexBelow 256 (w.param16 0) with
  | none => s.refuseCard w.card .badField
  | some i =>
    match s.areaRead (0x3000 + 64 * i.val) 64 with
    | (none, s1) => s1
    | (some bs, s1) =>
      let sh := Sheet.ofBytes bs
      match sh.checked with
      | none => s1.refuseCard w.card .badField
      | some p =>
        if s1.positionTaken i p.chain p.address then s1.refuseCard w.card .addressTaken
        else
          let s2 := s1.adoptCtx i sh p w.takenTick
          s2.completeCard w.card .ok
            (bytes16 i.val ++ bytes8 (s2.ctx i).generation.toNat ++ bytes8 (s1.ctx i).life.code ++
              bytes8 (s2.ctx i).ageClamped.toNat)

/-- A RETIRE card is dispatched (R44). -/
def dispatchRetire (w : Walk) (s : State) : State :=
  match indexBelow 256 (w.param16 0) with
  | none => s.refuseCard w.card .badField
  | some i =>
    if (s.ctx i).life = .absent then s.refuseCard w.card .notFound
    else
      let s1 := s.retireCtx i
      s1.completeCard w.card .ok
        (bytes16 i.val ++ bytes8 (s1.ctx i).generation.toNat ++ bytes8 (s.ctx i).life.code)

/-! ## The commands -/

/-- ADOPT (R36). -/
def adoptStep (s : State) : State := s.dispatchCard .adopt dispatchAdopt

/-- RETIRE (R44). -/
def retireStep (s : State) : State := s.dispatchCard .retire dispatchRetire

/-! ## MEANINGS: the outcome of each command -/

/-- The meaning of ADOPT. -/
def execAdopt (s : State) : Host.Outcome State Fault Refusal := .next (adoptStep s)

/-- The meaning of RETIRE. -/
def execRetire (s : State) : Host.Outcome State Fault Refusal := .next (retireStep s)

end Sys2Proof.Machine
end

