-- ==== Sys2Proof/Machine/BusError.lean ====
section
/-! DEFINITION. AREA_BUS_ERROR: a command of the part from which on one area access ends in a bus error (R172). -/

namespace Sys2Proof.Machine

/-- What each command does to the state, for the command during which a bus error comes. A bus error inside a
bus error names the inner command alone: no second one can arrive while halted (R172). -/
def perform : Instr → State → State
  | .powerOnReset, s => powerOnResetStep s
  | .perstN a, s => perstNStep a s
  | .areaLoWrite v, s => areaLoWriteStep v s
  | .areaHiWrite v, s => areaHiWriteStep v s
  | .partIdWrite v, s => partIdWriteStep v s
  | .restart run scan host, s => restartStep run scan host s
  | .run run host, s => runStep run host s
  | .scan run host, s => scanStep run host s
  | .noticeRawWrite v, s => noticeRawWriteStep v s
  | .noticeMaskWrite v, s => noticeMaskWriteStep v s
  | .scanTimerExpiry host, s => scanTimerExpiryStep host s
  | .followingScan host, s => followingScanStep host s
  | .areaBusError _ during, s => perform during s
  | .adopt, s => adoptStep s
  | .retire, s => retireStep s
  | .solve, s => solveStep s
  | .setGroup, s => setGroupStep s
  | .loadCurve, s => loadCurveStep s
  | .setMode, s => setModeStep s
  | .freeze, s => freezeStep s
  | .thaw, s => thawStep s
  | .setFrame, s => setFrameStep s
  | .setChain, s => setChainStep s
  | .startChain, s => startChainStep s
  | .stopChain, s => stopChainStep s
  | .verify, s => verifyStep s
  | .rollCall, s => rollCallStep s
  | .setFilter, s => setFilterStep s
  | .frameEdge, s => frameEdgeStep s
  | .lossTimerExpiry, s => lossTimerExpiryStep s
  | .substituteTimerExpiry, s => substituteTimerExpiryStep s
  | .freezeInChange a, s => freezeInChangeStep a s
  | .solveTimerExpiry g, s => solveTimerExpiryStep g s
  | .serviceTimerExpiry, s => serviceTimerExpiryStep s
  | .stalenessCheckExpiry, s => stalenessCheckExpiryStep s
  | .frameSent ch, s => frameSentStep ch s
  | .latchSent ch, s => latchSentStep ch s
  | .tileAnswer ch bytes quiet, s => tileAnswerStep ch bytes quiet s
  | .answerWindowClose ch, s => answerWindowCloseStep ch s
  | .resend ch quiet waited, s => resendStep ch quiet waited s
  | .holdAnswer ch bytes quiet, s => holdAnswerStep ch bytes quiet s
  | .holdTimerExpiry ch, s => holdTimerExpiryStep ch s
  | .pollRoundTimerExpiry ch, s => pollRoundTimerExpiryStep ch s
  | .latchDeadlinePassed ch, s => latchDeadlinePassedStep ch s
  | .verifySweepTimerExpiry ch, s => verifySweepTimerExpiryStep ch s
  | .rollSlotAnswer ch bytes quiet, s => rollSlotAnswerStep ch bytes quiet s
  | .rollSlotClose ch, s => rollSlotCloseStep ch s
  | .rollRetry ch quiet waited, s => rollRetryStep ch quiet waited s
  | .frameBegin ch quiet waited, s => frameBeginStep ch quiet waited s

/-- The link's account of area accesses: after `n` good ones the next one fails. -/
def State.setFailAfter (s : State) (n : Option Nat) : State := { s with link := { s.link with failAfter := n } }

/-! ## The command -/

/-- AREA_BUS_ERROR: the command `during` comes, and of the area accesses that are made from then on number `n` ends in
a bus error, be it one of that command's, of a later one's, or of a scan's or a solve's that goes on by itself (R172,
log 7). -/
def areaBusErrorStep (n : Nat) (during : Instr) (s : State) : State := perform during (s.setFailAfter (some n))

/-! ## MEANINGS: the outcome of each command -/

/-- The meaning of AREA_BUS_ERROR. -/
def execAreaBusError (n : Nat) (during : Instr) (s : State) : Host.Outcome State Fault Refusal :=
  .next (areaBusErrorStep n during s)

end Sys2Proof.Machine
end

