-- ==== Sys2Proof/Machine/Dispatch.lean ====
section
/-! DEFINITION. exec: one arm per command, each the direct call of its meaning. -/

namespace Sys2Proof.Machine

def exec (i : Instr) (s : State) : Host.Outcome State Fault Refusal :=
  match i with
  | .powerOnReset => Sys2Proof.Machine.execPowerOnReset s
  | .perstN asserted => Sys2Proof.Machine.execPerstN asserted s
  | .areaLoWrite v => Sys2Proof.Machine.execAreaLoWrite v s
  | .areaHiWrite v => Sys2Proof.Machine.execAreaHiWrite v s
  | .partIdWrite v => Sys2Proof.Machine.execPartIdWrite v s
  | .restart run scan host => Sys2Proof.Machine.execRestart run scan host s
  | .run run host => Sys2Proof.Machine.execRun run host s
  | .scan run host => Sys2Proof.Machine.execScan run host s
  | .noticeRawWrite v => Sys2Proof.Machine.execNoticeRawWrite v s
  | .noticeMaskWrite v => Sys2Proof.Machine.execNoticeMaskWrite v s
  | .scanTimerExpiry host => Sys2Proof.Machine.execScanTimerExpiry host s
  | .followingScan host => Sys2Proof.Machine.execFollowingScan host s
  | .areaBusError n during => Sys2Proof.Machine.execAreaBusError n during s
  | .adopt => Sys2Proof.Machine.execAdopt s
  | .retire => Sys2Proof.Machine.execRetire s
  | .solve => Sys2Proof.Machine.execSolve s
  | .setGroup => Sys2Proof.Machine.execSetGroup s
  | .loadCurve => Sys2Proof.Machine.execLoadCurve s
  | .setMode => Sys2Proof.Machine.execSetMode s
  | .freeze => Sys2Proof.Machine.execFreeze s
  | .thaw => Sys2Proof.Machine.execThaw s
  | .setFrame => Sys2Proof.Machine.execSetFrame s
  | .setChain => Sys2Proof.Machine.execSetChain s
  | .startChain => Sys2Proof.Machine.execStartChain s
  | .stopChain => Sys2Proof.Machine.execStopChain s
  | .verify => Sys2Proof.Machine.execVerify s
  | .rollCall => Sys2Proof.Machine.execRollCall s
  | .setFilter => Sys2Proof.Machine.execSetFilter s
  | .frameEdge => Sys2Proof.Machine.execFrameEdge s
  | .lossTimerExpiry => Sys2Proof.Machine.execLossTimerExpiry s
  | .substituteTimerExpiry => Sys2Proof.Machine.execSubstituteTimerExpiry s
  | .freezeInChange asserted => Sys2Proof.Machine.execFreezeInChange asserted s
  | .solveTimerExpiry g => Sys2Proof.Machine.execSolveTimerExpiry g s
  | .serviceTimerExpiry => Sys2Proof.Machine.execServiceTimerExpiry s
  | .stalenessCheckExpiry => Sys2Proof.Machine.execStalenessCheckExpiry s
  | .frameSent ch => Sys2Proof.Machine.execFrameSent ch s
  | .latchSent ch => Sys2Proof.Machine.execLatchSent ch s
  | .tileAnswer ch bytes quiet => Sys2Proof.Machine.execTileAnswer ch bytes quiet s
  | .answerWindowClose ch => Sys2Proof.Machine.execAnswerWindowClose ch s
  | .resend ch quiet waited => Sys2Proof.Machine.execResend ch quiet waited s
  | .holdAnswer ch bytes quiet => Sys2Proof.Machine.execHoldAnswer ch bytes quiet s
  | .holdTimerExpiry ch => Sys2Proof.Machine.execHoldTimerExpiry ch s
  | .pollRoundTimerExpiry ch => Sys2Proof.Machine.execPollRoundTimerExpiry ch s
  | .latchDeadlinePassed ch => Sys2Proof.Machine.execLatchDeadlinePassed ch s
  | .verifySweepTimerExpiry ch => Sys2Proof.Machine.execVerifySweepTimerExpiry ch s
  | .rollSlotAnswer ch bytes quiet => Sys2Proof.Machine.execRollSlotAnswer ch bytes quiet s
  | .rollSlotClose ch => Sys2Proof.Machine.execRollSlotClose ch s
  | .rollRetry ch quiet waited => Sys2Proof.Machine.execRollRetry ch quiet waited s
  | .frameBegin ch quiet waited => Sys2Proof.Machine.execFrameBegin ch quiet waited s

end Sys2Proof.Machine
end

