-- ==== Sys2Proof/Machine/Time.lean ====
section
/-! DEFINITION. Time: what an empty queue brings - what has become due, the progress of a scan or a solve, or the passing
of a microsecond (log 1). -/

namespace Sys2Proof.Machine

/-- A running timer has one microsecond less. -/
def passTimer (t : Timer) : Timer := t.map fun n => n - 1

/-- A timer has run out. -/
def ranOut (t : Timer) : Bool := decide (t = some 0)

/-- The command that dispatches a card of a request. -/
def Request.command : Request → Instr
  | .adopt => .adopt
  | .retire => .retire
  | .solve => .solve
  | .setGroup => .setGroup
  | .loadCurve => .loadCurve
  | .setMode => .setMode
  | .freeze => .freeze
  | .thaw => .thaw
  | .setFrame => .setFrame
  | .setChain => .setChain
  | .startChain => .startChain
  | .stopChain => .stopChain
  | .verify => .verify
  | .rollCall => .rollCall
  | .setFilter => .setFilter

namespace State

/-- One microsecond passes: the clock counts, and every running timer has one less. -/
def passMicrosecond (s : State) : State :=
  { s with
    clock := s.clock + 1
    groups := s.groups.map fun g => { g with solveTimer := passTimer g.solveTimer }
    serviceTimer := passTimer s.serviceTimer
    stalenessTimer := passTimer s.stalenessTimer
    ramp := { s.ramp with
      lossTimer := passTimer s.ramp.lossTimer, substituteTimer := passTimer s.ramp.substituteTimer }
    chains := s.chains.map fun k =>
      { k with
        holdTimer := passTimer k.holdTimer, pollTimer := passTimer k.pollTimer,
        sweepTimer := passTimer k.sweepTimer }
    intake := { s.intake with scanTimer := passTimer s.intake.scanTimer } }

/-- A command, if it is due. -/
def dueIf (b : Bool) (c : Instr) : List Instr := if b then [c] else []

/-- What is due at one chain. -/
def chainDue (s : State) (ch : Fin 4) : List Instr :=
  let k := s.chain ch
  dueIf (ranOut k.holdTimer && (k.transactionIn .holding).isSome) (.holdTimerExpiry ch) ++
  dueIf (ranOut k.pollTimer) (.pollRoundTimerExpiry ch) ++
  dueIf (ranOut k.sweepTimer) (.verifySweepTimerExpiry ch) ++
  dueIf (s.latchLate ch && !k.latchOverdue) (.latchDeadlinePassed ch)

/-- What is due of the part's own doing: the dispatch of the card under way, a scan marked to follow once none is under
way, and the expiry of every timer that has run out, but the service timer's while the service waits (R54, R58). The events
of the links are not: they come from outside (log 9). -/
def due (s : State) : List Instr :=
  (match s.intake.walk with
    | some w => [w.request.command]
    | none => dueIf (s.intake.follow && s.intake.scan.isNone) (.followingScan [])) ++
  dueIf (ranOut s.intake.scanTimer) (.scanTimerExpiry []) ++
  dueIf (ranOut s.serviceTimer && !s.serviceWaits) .serviceTimerExpiry ++
  dueIf (ranOut s.stalenessTimer) .stalenessCheckExpiry ++
  dueIf (ranOut s.ramp.lossTimer) .lossTimerExpiry ++
  dueIf (ranOut s.ramp.substituteTimer) .substituteTimerExpiry ++
  (List.finRange 8).flatMap (fun g => dueIf (ranOut (s.group g).solveTimer) (.solveTimerExpiry g)) ++
  (List.finRange 4).flatMap s.chainDue

/-- What an empty queue finds to be done: commands that are due, the next access of a scan under way, pages that
members of a solve under way are to read, and solves under way that are to end. -/
inductive Doing where
  | command (c : Instr)
  | access
  | page (g : Fin 8) (i : Fin 256)
  | solve (v : Solve)
  deriving DecidableEq, Repr

/-- All that is to be done before the next microsecond. DESIGN CHOICE (log 10): a card under way comes first, so that
nothing that the part brings by itself comes between the taking of a card and its dispatch. -/
def toDo (s : State) : List Doing :=
  match s.intake.walk with
  | some w => [.command w.request.command]
  | none =>
    s.due.map .command ++ (if s.intake.scan.isSome then [.access] else []) ++ s.solves.flatMap fun v =>
      .solve v :: (v.members.filter fun m => m.reading.isNone).map fun m => .page v.group m.ctx

/-- The part with an empty queue. One thing of all that is to be done is taken, in a free order (log 8): a due
command joins the queue, a scan under way makes its next access (R167), the correction of a member of a solve reads its
page (R70), or a solve ends (R52). With nothing to be done a microsecond passes (log 1). What is still due is judged
anew when the queue is empty again, so the expiry of a timer that has been started again meanwhile is not brought (R80,
R84). -/
def idle (s : State) : State :=
  match s.unordered s.toDo with
  | (.command c :: _, s1) => { s1 with pending := s1.pending ++ [c] }
  | (.access :: _, s1) => s1.scanAccess
  | (.page g i :: _, s1) => s1.readMember g i
  | (.solve v :: _, s1) => s1.endSolves [v]
  | ([], s1) => s1.passMicrosecond

/-! ## Pins that are functions of the state -/

/-- Whether CHn_DIR points toward the tiles: only while a frame is being sent (R97). -/
def driving (s : State) (ch : Fin 4) : Bool :=
  ((s.chain ch).transactionIn .sending).isSome || decide ((s.chain ch).flight = .latch true) ||
    ((s.chain ch).rollIn .sending).isSome

/-- The frame a chain is sending, as bytes on its line (R98, R99, R102). -/
def frameOnLine (s : State) (ch : Fin 4) : Option (List Byte) :=
  match (s.chain ch).transactionIn .sending with
  | some t => some (t.kind.frame t.address t.payload)
  | none =>
    if (s.chain ch).flight = .latch true then some latchFrame
    else ((s.chain ch).rollIn .sending).map fun _ => rollFrame

end State

end Sys2Proof.Machine
end

