-- ==== Sys2Proof/Safety.lean ====
section
/-! DEFINITION. What claims speak of: the laws of the part as predicates of a state, and what a card's completion writes. -/

namespace Sys2Proof

/-- The command itself, or the one during which a bus error comes. -/
def Instr.within : Instr → Instr
  | .areaBusError _ c => c.within
  | c => c

end Sys2Proof

namespace Sys2Proof.Machine

/-! ## The numbers of the tables of section 10.2

The statements speak of these and not of the codes that the machine itself computes with. -/

/-- A request's kind (section 10.2.2). -/
def Request.number : Request → Nat
  | .adopt => 1
  | .retire => 2
  | .solve => 3
  | .setGroup => 4
  | .loadCurve => 5
  | .setMode => 6
  | .freeze => 7
  | .thaw => 8
  | .setFrame => 9
  | .setChain => 10
  | .startChain => 11
  | .stopChain => 12
  | .verify => 13
  | .rollCall => 14
  | .setFilter => 15

/-- A result code (section 10.2.2). -/
def ResultCode.number : ResultCode → Nat
  | .ok => 0
  | .badVersion => 1
  | .badKind => 2
  | .badField => 3
  | .locked => 4
  | .busy => 5
  | .notFound => 6
  | .addressTaken => 7
  | .full => 8
  | .notHeld => 9
  | .cancelled => 10

/-- A life state (section 10.2.5). -/
def Life.number : Life → Nat
  | .absent => 0
  | .adopted => 1
  | .live => 2
  | .unmatched => 3
  | .faulted => 4

/-- A verify state (section 10.2.5). -/
def Verify.number : Verify → Nat
  | .none => 0
  | .due => 1
  | .reading => 2
  | .matched => 3
  | .mismatched => 4

/-- A fault reason (section 10.2.5). -/
def FaultReason.number : FaultReason → Nat
  | .none => 0
  | .noAnswer => 1
  | .nak => 2
  | .holdTimeout => 3
  | .verify => 4
  | .missing => 5

/-- A chain state (section 10.2.1). -/
def ChainState.number : ChainState → Nat
  | .stopped => 0
  | .idle => 1
  | .busy => 2
  | .holding => 3
  | .rolling => 4
  | .stopping => 5

/-- A frame state (section 10.2.1). -/
def FrameState.number : FrameState → Nat
  | .regained => 0
  | .lost => 1

/-- A mode (section 10.2.1). -/
def Mode.number : Mode → Nat
  | .setup => 0
  | .showing => 1

/-- A bit rate (section 10.2.2, SET_CHAIN). -/
def BitRate.number : BitRate → Nat
  | .mbit1 => 1
  | .mbit2 => 2
  | .mbit4 => 4
  | .mbit8 => 8

/-- A NAK policy (section 10.2.2, SET_CHAIN). -/
def NakPolicy.number : NakPolicy → Nat
  | .retry => 0
  | .skip => 1

/-- A filter's destination (section 10.2.2, SET_FILTER). -/
def Destination.number : Destination → Nat
  | .general => 0
  | .alert => 1

/-- The work in flight that a STOP_CHAIN result names; 0 is none and 5 a LATCH (section 10.2.2). -/
def WorkKind.number : WorkKind → Nat
  | .probe => 1
  | .push => 2
  | .poll => 3
  | .readback => 4

/-- The end of a roll (section 10.2.2, ROLL_CALL). -/
def RollEnd.number : RollEnd → Nat
  | .completeEmpty => 0
  | .completeFull => 1
  | .abandoned => 2

/-- The kind of a part report (section 9.1). -/
def PartKind.number : PartKind → Nat
  | .tileFaulted => 8
  | .unmatched => 9
  | .missing => 10
  | .unknownTile => 11
  | .verifyMismatch => 12
  | .short => 13
  | .curveFallback => 14
  | .sensorSuspect => 15

/-! ## The layouts of section 10.2 -/

/-- Byte `k` of a little-endian number, the lowest being byte 0. -/
def leByte (v k : Nat) : Byte := BitVec.ofNat 8 (v / 256 ^ k)

/-- A row of a layout: an offset, a width in bytes, and the number that stands there. -/
structure Field where
  offset : Nat
  width : Nat
  value : Nat
  deriving DecidableEq, Repr

/-- The byte at an offset of a region that is laid out in rows. -/
def layoutByte (rows : List Field) (k : Nat) : Byte :=
  match rows.find? fun f => decide (f.offset ≤ k ∧ k < f.offset + f.width) with
  | some f => leByte f.value (k - f.offset)
  | none => 0

/-- A signed term as the number that its two bytes hold. -/
def twosComplement (t : Int) : Nat := (t % 65536).toNat

/-- The term that a number of two bytes stands for. -/
def signedTerm (n : Nat) : Int := if n < 32768 then n else (n : Int) - 65536

/-- The rows of a set, nine signed terms in set order. -/
def setRows (off : Nat) (a : TermSet) : List Field :=
  [⟨off, 2, twosComplement a.r.r⟩, ⟨off + 2, 2, twosComplement a.r.g⟩, ⟨off + 4, 2, twosComplement a.r.b⟩,
    ⟨off + 6, 2, twosComplement a.g.r⟩, ⟨off + 8, 2, twosComplement a.g.g⟩, ⟨off + 10, 2, twosComplement a.g.b⟩,
    ⟨off + 12, 2, twosComplement a.b.r⟩, ⟨off + 14, 2, twosComplement a.b.g⟩, ⟨off + 16, 2, twosComplement a.b.b⟩]

/-- A set that may be unknown; the mirror shows zeros then (R45). -/
def shownSet : Option TermSet → TermSet
  | none => ⟨⟨0, 0, 0⟩, ⟨0, 0, 0⟩, ⟨0, 0, 0⟩⟩
  | some a => a

/-- A temperature that may not have been read; the mirror shows zero then (section 10.2.5). -/
def shownTemp : Option Int → Int
  | none => 0
  | some t => t

/-- The mirror record of a context, row by row (section 10.2.5, R45). -/
def Context.mirrorRows (c : Context) : List Field :=
  [⟨0x00, 1, c.life.number⟩, ⟨0x01, 1, c.generation.toNat⟩, ⟨0x02, 1, c.chain.val⟩, ⟨0x03, 1, c.address.val⟩,
    ⟨0x04, 4, c.serial.toNat⟩, ⟨0x08, 1, c.group.val⟩, ⟨0x09, 1, c.page.val⟩,
    ⟨0x0A, 1,
      (if c.noVote then 1 else 0) + (if c.stale then 2 else 0) + (if c.short then 4 else 0) +
        (if c.ageClamped then 8 else 0) + (if c.curveFallback then 16 else 0) +
        (if c.sensorSuspect then 32 else 0) + (if c.temp = none then 64 else 0)⟩,
    ⟨0x0B, 1,
      (if c.applied ≠ none then 1 else 0) + (if c.sent ≠ none then 2 else 0) +
        (if c.latched ≠ none then 4 else 0)⟩,
    ⟨0x0C, 2, twosComplement (shownTemp c.temp)⟩, ⟨0x0E, 1, c.failCount⟩, ⟨0x0F, 1, c.mismatchCount⟩,
    ⟨0x10, 4, c.tempTick.toNat⟩, ⟨0x14, 1, c.verify.number⟩, ⟨0x15, 1, c.faultReason.number⟩, ⟨0x16, 2, c.pushCount⟩,
    ⟨0x18, 2, c.age.r⟩, ⟨0x1A, 2, c.age.g⟩, ⟨0x1C, 2, c.age.b⟩, ⟨0x1E, 2, 0⟩,
    ⟨0x20, 4, c.effective.r⟩, ⟨0x24, 4, c.effective.g⟩, ⟨0x28, 4, c.effective.b⟩,
    ⟨0x2C, 2, c.gain.r⟩, ⟨0x2E, 2, c.gain.g⟩, ⟨0x30, 2, c.gain.b⟩] ++
    setRows 0x32 c.target ++ setRows 0x44 (shownSet c.applied) ++ setRows 0x56 (shownSet c.sent) ++
    setRows 0x68 (shownSet c.latched) ++ [⟨0x7A, 6, 0⟩]

/-- The fields of a context that its mirror record shows are the same in both (R45). -/
abbrev Context.shownAlike (a b : Context) : Prop :=
  (a.life = b.life ∧ a.generation = b.generation ∧ a.serial = b.serial ∧ a.chain = b.chain ∧ a.address = b.address ∧
    a.group = b.group ∧ a.page = b.page ∧ a.noVote = b.noVote) ∧
  a.age = b.age ∧ (a.temp = b.temp ∧ a.tempTick = b.tempTick ∧ a.stale = b.stale) ∧
  (a.effective = b.effective ∧ a.gain = b.gain ∧ a.short = b.short ∧ a.ageClamped = b.ageClamped ∧
    a.curveFallback = b.curveFallback ∧ a.sensorSuspect = b.sensorSuspect) ∧
  (a.target = b.target ∧ a.applied = b.applied ∧ a.sent = b.sent ∧ a.latched = b.latched) ∧
  a.failCount = b.failCount ∧ a.mismatchCount = b.mismatchCount ∧ a.verify = b.verify ∧
  a.faultReason = b.faultReason ∧ a.pushCount = b.pushCount

/-- The context `old` with its fields changed to those of `new`: a change to a mirrored field, and no other, has made
it dirty (R46). -/
def Context.becoming (old new : Context) : Context :=
  { new with dirty := new.dirty || !decide (old.shownAlike new) }

/-- The three targets of a group as the status block shows them: 0xFFFFFFFF for UNSET (section 10.2.1). -/
def Group.shownTargets (g : Group) : Rgb Nat :=
  match g.targets with
  | none => ⟨0xFFFFFFFF, 0xFFFFFFFF, 0xFFFFFFFF⟩
  | some T => T

/-- The status block that a scan writes, row by row (section 10.2.1, R171): the scan count is that of this scan. -/
def State.statusRows (s : State) : List Field :=
  [⟨0x00, 4, s.tick.toNat⟩, ⟨0x04, 4, (s.intake.scanCount + 1).toNat⟩,
    ⟨0x08, 1, s.ramp.mode.number⟩, ⟨0x09, 1, s.ramp.freezeSet.length⟩, ⟨0x0A, 1, if s.ramp.freezeIn then 1 else 0⟩,
    ⟨0x0B, 1, s.ramp.frameState.number⟩, ⟨0x0C, 1, s.intake.cursor.val⟩, ⟨0x0D, 3, 0⟩] ++
    (List.finRange 4).map (fun ch => ⟨0x10 + ch.val, 1, (s.chain ch).state.number⟩) ++
    (List.finRange 4).map (fun ch => ⟨0x14 + 2 * ch.val, 2, (s.chain ch).pollOverrun⟩) ++
    [⟨0x1C, 2, s.logs.alertWrite.val⟩, ⟨0x1E, 2, s.logs.generalWrite.val⟩, ⟨0x20, 2, s.logs.oldest.val⟩,
      ⟨0x22, 2, s.logs.overwrites⟩, ⟨0x24, 2, s.logs.rollovers⟩, ⟨0x26, 2, s.logs.unlogged⟩,
      ⟨0x28, 2, s.logs.alertCopy.val⟩, ⟨0x2A, 2, s.logs.generalCopy.val⟩, ⟨0x2C, 20, 0⟩] ++
    (List.finRange 8).flatMap (fun g =>
      [⟨0x40 + 12 * g.val, 4, (s.group g).shownTargets.r⟩, ⟨0x44 + 12 * g.val, 4, (s.group g).shownTargets.g⟩,
        ⟨0x48 + 12 * g.val, 4, (s.group g).shownTargets.b⟩]) ++
    [⟨0xA0, 28, 0⟩, ⟨0xBC, 4, (s.intake.scanCount + 1).toNat⟩]

/-- A report record, row by row (section 10.2.4). -/
def Report.rows (r : Report) : List Field :=
  [⟨0x00, 4, r.tick.toNat⟩, ⟨0x04, 1, r.kind⟩, ⟨0x05, 1, r.chain.val + if r.rolled then 128 else 0⟩,
    ⟨0x06, 1, r.address.val⟩, ⟨0x07, 1, r.source⟩, ⟨0x08, 4, r.serial.toNat⟩, ⟨0x0C, 4, r.value.toNat⟩]

/-- The little-endian number that so many bytes of the exchange area hold from an offset on. -/
def State.areaField (s : State) : Nat → Nat → Nat
  | _, 0 => 0
  | off, w + 1 => (s.area.read (s.areaBase + off)).toNat + 256 * s.areaField (off + 1) w

/-- The card at the cursor, as its bytes are laid out (section 10.2.2). -/
def State.cardAtCursor (s : State) : Card :=
  let byte (k : Nat) : Byte := s.area.read (s.areaBase + (0x0100 + 64 * s.intake.cursor.val + k))
  { index := s.intake.cursor, state := byte 0x00, version := byte 0x01, kind := byte 0x02, flags := byte 0x03
    tag := byte 0x05 ++ byte 0x04, params := (List.range 36).map fun k => byte (0x0C + k) }

/-- The calibration sheet of a context, as its bytes are laid out (section 10.2.3). -/
def State.sheetOf (s : State) (i : Fin 256) : Sheet :=
  let field (k w : Nat) : Nat := s.areaField (0x3000 + 64 * i.val + k) w
  let term (k : Nat) : Int := signedTerm (field k 2)
  { serial := field 0x00 4, chain := field 0x04 1, address := field 0x05 1, group := field 0x06 1
    page := field 0x07 1, noVote := decide (field 0x08 1 % 2 = 1)
    luminance := ⟨field 0x0A 2, field 0x0C 2, field 0x0E 2⟩, age := ⟨field 0x10 2, field 0x12 2, field 0x14 2⟩
    mix :=
      ⟨⟨term 0x16, term 0x18, term 0x1A⟩, ⟨term 0x1C, term 0x1E, term 0x20⟩, ⟨term 0x22, term 0x24, term 0x26⟩⟩ }

/-- A sheet passes the checks of R32, and this is the position, the group and the page that it names. -/
def Sheet.passes (sh : Sheet) (p : Position) : Prop :=
  sh.serial ≠ 0 ∧ sh.chain = p.chain.val ∧ sh.address = p.address.val ∧ sh.address ≠ 0 ∧ sh.group = p.group.val ∧
    sh.page = p.page.val ∧ ∀ q, 1 ≤ sh.luminance.get q ∧ sh.luminance.get q ≤ 16000

/-- Entry `k` of a staging slot (section 10.2.3): red's 33 entries, then green's and blue's. -/
def State.stagedEntry (s : State) (slot : Fin 4) (k : Nat) : Nat := s.areaField (0x0900 + 256 * slot.val + 2 * k) 2

/-! ## The laws of the part -/

/-- The host's memory is in its canonical form. -/
def State.memoryLawful (s : State) : Prop := Memory.wf s.area

/-- No two contexts outside ABSENT share one chain and address (R33). -/
def State.positionsLawful (s : State) : Prop :=
  ∀ i j : Fin 256, i ≠ j → (s.ctx i).life ≠ .absent → (s.ctx j).life ≠ .absent →
    ¬((s.ctx i).chain = (s.ctx j).chain ∧ (s.ctx i).address = (s.ctx j).address)

/-- A push queue holds only LIVE contexts of its chain, a probe queue only ADOPTED ones, and a poll list only
LIVE ones, each context at most once (R117, R119). -/
def State.queuesLawful (s : State) : Prop :=
  ∀ ch : Fin 4,
    ((s.chain ch).pushQueue.Nodup ∧
      ∀ i ∈ (s.chain ch).pushQueue, (s.ctx i).life = .live ∧ (s.ctx i).chain = ch) ∧
    ((s.chain ch).probeQueue.Nodup ∧
      ∀ i ∈ (s.chain ch).probeQueue, (s.ctx i).life = .adopted ∧ (s.ctx i).chain = ch) ∧
    (((s.chain ch).pollList.map PollEntry.ctx).Nodup ∧
      ∀ e ∈ (s.chain ch).pollList, (s.ctx e.ctx).life = .live ∧ (s.ctx e.ctx).chain = ch)

/-- fail_count and mismatch_count stay within 0..3, and are below 3 in ADOPTED and LIVE (R40); push_count stays
within 0..65535 (R26). -/
def Context.countsLawful (c : Context) : Prop :=
  c.failCount ≤ 3 ∧ c.mismatchCount ≤ 3 ∧ c.pushCount ≤ 65535 ∧
    (c.life = .adopted ∨ c.life = .live → c.failCount < 3 ∧ c.mismatchCount < 3)

/-- The failure counts and push_count of every context. -/
def State.countsLawful (s : State) : Prop := ∀ i, (s.ctx i).countsLawful

/-- Every gain lies in 1..32768 (R13), every term of a known set in the term format (R15, R24), and a LIVE
context's applied set is known (R21). -/
def Context.setsLawful (c : Context) : Prop :=
  (∀ p, 1 ≤ c.gain.get p ∧ c.gain.get p ≤ 32768) ∧ setInRange c.mix ∧ setInRange c.target ∧
    (∀ a, c.applied = some a → setInRange a) ∧ (∀ a, c.sent = some a → setInRange a) ∧
    (∀ a, c.latched = some a → setInRange a) ∧ (c.life = .live → c.applied.isSome = true)

/-- The payload that a chain's transaction carries is in the term format. -/
def Chain.payloadLawful (k : Chain) : Prop :=
  ∀ t, k.flight = .transaction t → ∀ a, t.payload = some a → setInRange a

/-- A solve under way has each of its members once, and what it has read of a member is a context's mix matrix, in
the term format (R15). -/
def Solve.lawful (v : Solve) : Prop :=
  (v.members.map SolveMember.ctx).Nodup ∧ ∀ m ∈ v.members, setInRange m.tile.mix

/-- No group has two solves under way (R52). -/
def State.solvesLawful (s : State) : Prop := (s.solves.map Solve.group).Nodup ∧ ∀ v ∈ s.solves, v.lawful

/-- The sets of every context, the payloads in flight, and what the solves under way have read (R13, R15, R21, R24). -/
def State.setsLawful (s : State) : Prop :=
  (∀ i, (s.ctx i).setsLawful) ∧ (∀ ch, (s.chain ch).payloadLawful) ∧ s.solvesLawful

/-- A chain's state, its work in flight and its roll agree (R109): nothing is in flight while STOPPED, IDLE or
ROLLING; BUSY and STOPPING have a transaction or a LATCH; HOLDING has a transaction in a hold; and the chain is
ROLLING exactly while a roll has begun. -/
def Chain.lawful (k : Chain) : Prop :=
  (match k.state with
    | .stopped => k.flight = .none
    | .idle => k.flight = .none
    | .rolling => k.flight = .none
    | .busy => (∃ t, k.flight = .transaction t ∧ t.phase ≠ .holding) ∨ ∃ b, k.flight = .latch b
    | .stopping => k.flight ≠ .none
    | .holding => ∃ t, k.flight = .transaction t ∧ t.phase = .holding) ∧
  (k.state = .rolling ↔ ∃ r, k.roll = some r ∧ r.begun = true)

/-- The states of the four chains (R109). -/
def State.chainsLawful (s : State) : Prop := ∀ ch, (s.chain ch).lawful

/-- The freeze set holds at most 4 tags of 1..255, none twice, in ascending order (R92, R93). -/
def RampUnit.freezeLawful (r : RampUnit) : Prop :=
  r.freezeSet.length ≤ 4 ∧ r.freezeSet.Pairwise (· < ·) ∧ ∀ t ∈ r.freezeSet, 1 ≤ t ∧ t ≤ 255

/-- The three counts of the logs stay within 0..65535 (R165). -/
def Logs.countsLawful (l : Logs) : Prop :=
  l.overwrites ≤ 65535 ∧ l.rollovers ≤ 65535 ∧ l.unlogged ≤ 65535

/-- While RUN is clear or HALTED is set, the scan timer is stopped, no scan is marked to follow, and none stands
between two accesses; and a scan never does while it waits at a card (R166, R167, R172). -/
def State.intakeLawful (s : State) : Prop :=
  (s.regs.run = false ∨ s.intake.halted = true →
    s.intake.scanTimer = none ∧ s.intake.follow = false ∧ s.intake.scan = none) ∧
  (s.intake.walk = none ∨ s.intake.scan = none)

/-- The laws of what the part shares with the host: the memory, the counts of the logs, and the intake unit. -/
def State.hostLawful (s : State) : Prop := s.memoryLawful ∧ s.logs.countsLawful ∧ s.intakeLawful

/-- The settings of a group lie in their ranges, and its beat counter below its beat (R59, R86). -/
def Group.lawful (g : Group) : Prop :=
  (26214 ≤ g.headroom ∧ g.headroom ≤ 32768) ∧ (1 ≤ g.cap ∧ g.cap ≤ 262143) ∧ (1 ≤ g.slew ∧ g.slew ≤ 4096) ∧
    (1 ≤ g.beat ∧ g.beat ≤ 255) ∧ g.solveInterval ≤ 600 ∧ (1 ≤ g.staleLimit ∧ g.staleLimit ≤ 60) ∧
    g.beatCount < g.beat

/-- The settings of a chain lie in the ranges of section 6.5. -/
def ChainConfig.lawful (c : ChainConfig) : Prop :=
  c.retryLimit ≤ 3 ∧ (20 ≤ c.answerWindow ∧ c.answerWindow ≤ 2000) ∧ (1 ≤ c.holdLimit ∧ c.holdLimit ≤ 250) ∧
    (10 ≤ c.pollPeriod ∧ c.pollPeriod ≤ 10000) ∧ c.verifyInterval ≤ 3600 ∧
    (5 ≤ c.latchDeadline ∧ c.latchDeadline ≤ 500)

/-- A loaded page holds no entry of 0 (R72, section 4.4). -/
def Page.lawful (p : Page) : Prop := p.loaded = true → ∀ k, p.entries.get k ≠ 0

/-- Every setting that the host can change lies in its range (section 3.1, section 5.2, section 6.5, section 4.4). -/
def State.settingsLawful (s : State) : Prop :=
  (∀ g, (s.group g).lawful) ∧ (∀ ch, (s.chain ch).config.lawful) ∧ (100 ≤ s.ramp.period ∧ s.ramp.period ≤ 5000) ∧
    ∀ p, (s.pages.get p).lawful

/-! ## Area accesses (R172) -/

/-- Area accesses are made and end well: intake is not halted, the link is up, and no bus error is to come. -/
def State.areaWorks (s : State) : Prop :=
  s.intake.halted = false ∧ s.link.up = true ∧ s.link.failAfter = none

/-- How many of the next `k` area accesses end well: none while intake is halted or the link is down, and those
before the one that a bus error names. -/
def State.goodAccesses (s : State) (k : Nat) : Nat :=
  if s.intake.halted = true ∨ s.link.up = false then 0
  else match s.link.failAfter with
    | none => k
    | some n => min n k

/-- The next `k` area accesses are made and end well. -/
def State.readable (s : State) (k : Nat) : Prop :=
  s.intake.halted = false ∧ s.link.up = true ∧ s.goodAccesses k = k

/-- The state after a bus error (R172): HALTED and AREA are set, the scan timer stops, the rest of a scan under way is
not made, and a scan marked to follow is discarded. -/
def State.busFaulted (s : State) : State :=
  { s with
    intake := { s.intake with halted := true, scanTimer := none, scan := none, follow := false }
    link := { s.link with failAfter := none }
    regs := { s.regs with noticeRaw := s.regs.noticeRaw ||| 32 } }

/-- What `k` area accesses in a row leave of the part: nothing changes if they end well, a bus error comes if one of
them does not, and none is made while intake is halted. -/
def State.accessed (s : State) (k : Nat) : State :=
  if s.intake.halted then s
  else if s.goodAccesses k = k then { s with link := { s.link with failAfter := s.link.failAfter.map (· - k) } }
  else s.busFaulted

/-! ## Cards -/

/-- The state while a card is dispatched: the scan's walk is no longer waiting on it. -/
def State.dispatching (s : State) : State := { s with intake := { s.intake with walk := none } }

/-- The card under way is `w`, a card of this request. -/
def State.underWay (s : State) (w : Walk) (r : Request) : Prop := s.intake.walk = some w ∧ w.request = r

/-- The byte at offset `k` of a card that the first `g` of a completion's five writes have left, where they wrote
one: the post tag, the result code, the result data, the done tick, and the state DONE, in this order (R169). -/
def Completion.byte (c : Completion) (g k : Nat) : Option Byte :=
  if (4 ≤ k ∧ k < 6) ∧ 1 ≤ g then some (leByte c.tag.toNat (k - 4))
  else if (6 ≤ k ∧ k < 8) ∧ 2 ≤ g then some (leByte c.code.number (k - 6))
  else if (48 ≤ k ∧ k < 64) ∧ 3 ≤ g then some (c.data.getD (k - 48) 0)
  else if (8 ≤ k ∧ k < 12) ∧ 4 ≤ g then some (leByte c.doneTick.toNat (k - 8))
  else if k = 0 ∧ 5 ≤ g then some 3
  else none

/-- The byte at an address after the first `g` writes of a completion. -/
def State.completedByte (s : State) (c : Completion) (g a : Nat) : Byte :=
  let base := s.areaBase + (0x0100 + 64 * c.index.val)
  if base ≤ a ∧ a < base + 64 then (c.byte g (a - base)).getD (s.area.read a) else s.area.read a

/-- `t` is `s` after a completion has been written into its card (R169): the writes that end well have left their
bytes and every other byte is as before; the notice CARD is set if all five ended well and the card asked for it; and a
write that does not end well has halted the intake unit (R172). -/
def State.writesCompletion (s t : State) (c : Completion) : Prop :=
  (t = { s.accessed 5 with
    area := t.area
    regs := { (s.accessed 5).regs with
      noticeRaw :=
        if c.notify = true ∧ s.goodAccesses 5 = 5 then (s.accessed 5).regs.noticeRaw ||| 1
        else (s.accessed 5).regs.noticeRaw } }) ∧
  ∀ a, t.area.read a = s.completedByte c (s.goodAccesses 5) a

/-- `t` is `s` with card `c` completed at the scan that takes it (R169): the done tick is the present one. -/
def State.completes (s t : State) (c : Card) (code : ResultCode) (data : List Byte) : Prop :=
  s.writesCompletion t
    { index := c.index, code := code, data := data, doneTick := s.tick, tag := c.tag, notify := c.flags.getLsbD 0 }

/-- `t` is `s` after waiting completions have been written one after another: each leaves the list if its writes
ended well, and waits on otherwise (R169, R170). -/
def State.deliversAll : List Completion → State → State → Prop
  | [], s, t => t = s
  | c :: cs, s, t => ∃ u, s.writesCompletion u c ∧ State.deliversAll cs
      (if u.intake.halted then u
        else { u with intake := { u.intake with completions := u.intake.completions.erase c } })
      t

/-- `t` is `s` with TAKEN written into card `c`, and nothing else of the area (R169). -/
def State.takes (s t : State) (c : Card) : Prop :=
  t = { s.accessed 1 with area := t.area } ∧
  ∀ a, t.area.read a =
    if s.goodAccesses 1 = 1 ∧ a = s.areaBase + (0x0100 + 64 * c.index.val) then 2 else s.area.read a

/-- The command dispatches the card under way of `s`: what the owning block did is `u`, its completion has been
written, and the scan goes on from there (R167 to R169). -/
def dispatches (c : Instr) (s : State) (w : Walk) (u : State) (code : ResultCode) (data : List Byte) : Prop :=
  ∃ t, u.completes t w.card code data ∧ exec c s = .next (t.afterCard w)

/-! ## Scans (R167) -/

/-- The part with the scan under way at this place; none where no scan stands between two accesses. -/
def State.scanAt (s : State) (p : Option ScanPhase) : State := { s with intake := { s.intake with scan := p } }

/-- `t` is `s` after the scan under way has made some of its accesses, how many being a free choice (log 10). -/
def State.goesOn (s t : State) : Prop := ∃ n k, t = State.scanAccess^[n] { s with freeIndex := k }

/-- `t` is what the scan under way comes to when it makes its accesses one after another, with nothing between them,
until it stands at a card or has ended. -/
def State.comesTo (s t : State) : Prop :=
  t.intake.scan = none ∧ ∃ n, State.scanAccess^[n] s = t

/-- A card that has been taken is to be dispatched, or a card of a kind that makes groups pending has been dispatched
at the scan under way, whose walk goes on (R54, R58, R71). -/
def State.holdsService (s : State) : Prop :=
  (∃ w, s.intake.walk = some w) ∨ ∃ n, s.intake.scan = some (.board n true)

/-- The card is a SET_FILTER that is accepted, and gives filter `n` the entry `f` (R159). -/
def Walk.givesFilter (w : Walk) (n : Fin 6) (f : Filter) : Prop :=
  w.request = .setFilter ∧ w.param8 0 = n.val ∧ w.param8 1 = f.enable.toNat ∧ w.param8 2 = f.destination.number ∧
    w.param16 4 = f.mask.toNat ∧ w.param16 6 = f.pattern.toNat

/-- Filter `n` judges by the entry `f`: the one that the card under way gives it, and otherwise its own (R159). -/
def State.judgesBy (s : State) (n : Fin 6) (f : Filter) : Prop :=
  (∃ w, s.intake.walk = some w ∧ w.givesFilter n f) ∨
    (∀ w g, s.intake.walk = some w → ¬w.givesFilter n g) ∧ f = s.filters.get n

/-! ## Restarts and shows -/

/-- The chain waits for the line to begin a new attempt of its roll, after a garbled slot (R146, R155). -/
def Chain.retrying (k : Chain) : Bool :=
  match k.roll with
  | none => false
  | some r => r.begun && decide (r.phase = .toRetry)

/-- A chain as a restart leaves it (R111, R142, R155), an IDLE one before it chooses. -/
def Chain.restarted (k : Chain) : Chain :=
  { k with
    sweep := none
    state := if k.retrying then .idle else k.state
    roll := match k.roll with
      | none => none
      | some r => if r.begun = true ∧ r.phase ≠ .toRetry then some { r with ending := true, again := false } else none }

/-- The four chains after a restart: those whose roll has ended at once are IDLE and have chosen. -/
def State.chainsRestarted (s : State) : State :=
  (List.finRange 4).foldl (fun t ch => if (s.chain ch).retrying then t.arbitrate ch else t)
    { s with chains := s.chains.map Chain.restarted }

/-- The intake unit and the register window as a restart leaves them, before a scan that it may request (R175); the
rest of a scan under way is not made (R167). -/
def State.intakeRestarted (s : State) : State :=
  { s with
    intake :=
      { s.intake with
        cursor := 0, longCards := Table.replicate 4 ⟨none, none⟩, completions := [], halted := false, scan := none
        follow := false }
    regs := { s.regs with noticeRaw := 0 } }

/-- The other blocks as a restart leaves them (R28, R92, R111, R155, R165). -/
def State.blocksRestarted (s : State) : State :=
  ({ s with
    contexts := s.contexts.map fun c => { c with dirty := true }
    ramp := { s.ramp with freezeSet := [] }
    logs :=
      { alertWrite := 0, generalWrite := 0, oldest := 0, alertCopy := 0, generalCopy := 0, released := 0
        overwrites := 0, rollovers := 0, unlogged := 0, ready := false } } : State).chainsRestarted

/-- The part with the host words of the area as the copies of the host's read indices (R167). -/
def State.withHostWords (s : State) : State :=
  { s with
    logs :=
      { s.logs with
        alertCopy := Fin.ofNat 32 (s.areaField 0xC0 2), generalCopy := Fin.ofNat 512 (s.areaField 0xC2 2)
        ready := true } }

/-- The dirty contexts, in ascending order of id. -/
def State.dirtyIds (s : State) : List (Fin 256) := (List.finRange 256).filter fun i => (s.ctx i).dirty

/-- The contexts whose mirror records are written by the first `g` writes of a scan's last step: the status block is
written in four, and then comes one record after another (R171). -/
def State.mirroredBy (s : State) (g : Nat) : List (Fin 256) := s.dirtyIds.take (g - 4)

/-- The byte that the first `g` writes of a scan's last step leave at an address (R171): first the scan count, then
the status block's copy of the tick, its body and the count again, then the mirror records of the dirty contexts, each
byte as the layout gives it, and elsewhere what was there. -/
def State.scannedByte (s : State) (g a : Nat) : Byte :=
  let o := a - s.areaBase
  if a < s.areaBase then s.area.read a
  else if (0x04 ≤ o ∧ o < 0x08) ∧ 1 ≤ g ∨ o < 0x04 ∧ 2 ≤ g ∨ (0x08 ≤ o ∧ o < 0xBC) ∧ 3 ≤ g ∨
      (0xBC ≤ o ∧ o < 0xC0) ∧ 4 ≤ g then
    layoutByte s.statusRows o
  else if 0x7000 ≤ o ∧ o < 0xF000 ∧ Fin.ofNat 256 ((o - 0x7000) / 128) ∈ s.mirroredBy g then
    layoutByte (s.ctx (Fin.ofNat 256 ((o - 0x7000) / 128))).mirrorRows ((o - 0x7000) % 128)
  else s.area.read a

/-- `t` is `s` after the last step of a scan (R46, R171): the scan count counts, and the status block and the mirror
records of the dirty contexts are written until a write does not end well; the contexts shown are clean and the others
are as they were. The scan has ended then. -/
def State.showsItself (s t : State) : Prop :=
  let writes := 4 + s.dirtyIds.length
  let g := s.goodAccesses writes
  (t = { s.accessed writes with
    contexts := t.contexts
    intake := { (s.accessed writes).intake with scan := none, scanCount := s.intake.scanCount + 1 }
    area := t.area }) ∧
  (∀ i, t.ctx i = { s.ctx i with dirty := (s.ctx i).dirty && !decide (i ∈ s.mirroredBy g) }) ∧
  ∀ a, t.area.read a = s.scannedByte g a

/-- An address that a scan may write to: the status block, a card, or the mirror (R166). -/
def State.inScanRegions (s : State) (a : Nat) : Prop :=
  (s.areaBase ≤ a ∧ a < s.areaBase + 0xC0) ∨ (s.areaBase + 0x100 ≤ a ∧ a < s.areaBase + 0x900) ∨
    (s.areaBase + 0x7000 ≤ a ∧ a < s.areaBase + 0xF000)

/-! ## Reports -/

/-- `t` is `s` after these part reports have been raised together, each going toward the alert log, in some order
(R157). -/
def State.raises (s t : State) (rs : List Report) : Prop :=
  ∃ order : List Report, order.Perm rs ∧
    t = order.foldl (fun u r => u.writeReport .alert r) { s with freeIndex := t.freeIndex }

/-- The reports that a tile correction raises for a context whose flags stood as `c` has them (R57, R77): SHORT, with
1 for red, 2 for green and 4 for blue, and CURVE_FALLBACK, with the tile's own page, plus 16 if page 15 was not loaded
either; each only where its flag is newly set. -/
def Context.correctionReports (tick : Tick) (c : Context) (k : Correction) : List Report :=
  (if k.short = true ∧ c.short = false then
    [{ tick := tick, kind := 13, chain := c.chain, address := c.address, source := 0xFF, rolled := false
       serial := c.serial
       value := BitVec.ofNat 32 (k.shorts.r.toNat + 2 * k.shorts.g.toNat + 4 * k.shorts.b.toNat) }]
   else []) ++
  (if k.fallback = true ∧ c.curveFallback = false then
    [{ tick := tick, kind := 14, chain := c.chain, address := c.address, source := 0xFF, rolled := false
       serial := c.serial, value := BitVec.ofNat 32 (if k.wallDefault then c.page.val else c.page.val + 16) }]
   else [])

/-! ## Contexts that leave their work -/

/-- `t` is `s` after the VERIFY or ROLL_CALL card held for chain `ch` has got its outcome, if the card held there is of
kind `k`: it leaves the long-card table, and its completion waits to be written (R170). -/
def State.answersHeld (s t : State) (ch : Fin 4) (k : Request) (code : ResultCode) (data : List Byte) : Prop :=
  ((∀ h, (s.entries ch).sweepOrRoll = some h → h.kind ≠ k) → t = s) ∧
  ∀ h, (s.entries ch).sweepOrRoll = some h → h.kind = k →
    (∀ j, t.entries j = if j = ch then { s.entries j with sweepOrRoll := none } else s.entries j) ∧
    t = { s with
      intake := { s.intake with
        longCards := t.intake.longCards
        completions := s.intake.completions ++
          [{ index := h.index, code := code, data := data, doneTick := s.tick, tag := h.tag, notify := h.notify }] } }

/-- `t` is `s` after the sweep of a VERIFY card has ended on chain `ch` (R141, R142): the sweep record is discarded,
and the card, if it is still held, gets the outcome and the record's counts. -/
def State.sweepEnds (s t : State) (ch : Fin 4) (code : ResultCode) : Prop :=
  ((s.chain ch).sweep = none → t = s) ∧
  ∀ r, (s.chain ch).sweep = some r →
    (s.modChain ch fun k => { k with sweep := none }).answersHeld t ch .verify code
      (bytes8 r.marked ++ bytes8 0 ++ bytes16 r.matched ++ bytes16 r.mismatched ++ bytes16 r.failed ++
        bytes16 r.dropped)

/-- `t` is `s` after the test of a VERIFY card held for chain `ch` (R141): while a context of the chain is DUE or
READING nothing changes, and otherwise the sweep ends with OK. -/
def State.sweepTested (s t : State) (ch : Fin 4) : Prop :=
  let waits : Prop := ∃ i, (s.ctx i).chain = ch ∧ ((s.ctx i).verify = .due ∨ (s.ctx i).verify = .reading)
  (waits → t = s) ∧ (¬waits → s.sweepEnds t ch .ok)

/-- A chain without the work of context `i` (R29); the others keep their order. A context that was DUE or READING
counts as dropped in a sweep record (R141). -/
def Chain.without (k : Chain) (i : Fin 256) (c : Context) : Chain :=
  { k with
    probeQueue := k.probeQueue.filter fun j => !decide (j = i)
    pushQueue := k.pushQueue.filter fun j => !decide (j = i)
    pollList := k.pollList.filter fun e => !decide (e.ctx = i)
    sweep :=
      if c.verify = .due ∨ c.verify = .reading then
        k.sweep.map fun r => { r with dropped := if 65535 ≤ r.dropped then r.dropped else r.dropped + 1 }
      else k.sweep }

/-- The verify state of a context that has left its work (R29). -/
def Context.verifyLeft (c : Context) : Verify :=
  if c.verify = .due ∨ c.verify = .reading then .none else c.verify

/-- `t` is `s` after context `i` has entered another life state as `c` (R29, R30, R91, R122, R141): it has left its
work, and on entering LIVE has joined the push queue and the poll list at their tails; a change of eligibility has made
its group pending; and a VERIFY card held for its chain has been tested. -/
def State.entersLife (s t : State) (i : Fin 256) (c : Context) : Prop :=
  ∃ x : State,
    (∀ j, x.ctx j = if j = i then c else s.ctx j) ∧
    (∀ g, x.group g =
      if g = (s.ctx i).group ∧ (s.ctx i).eligible ≠ c.eligible then { s.group g with pending := true }
      else s.group g) ∧
    (∀ j, x.chain j =
      if j = (s.ctx i).chain then
        let k := (s.chain j).without i (s.ctx i)
        if c.life = .live then
          { k with
            pushQueue := k.pushQueue ++ [i]
            pollList := k.pollList ++ [{ ctx := i, overdue := false, inFlight := false }] }
        else k
      else s.chain j) ∧
    x = { s with contexts := x.contexts, groups := x.groups, chains := x.chains } ∧
    x.sweepTested t (s.ctx i).chain

/-- The context as it enters LIVE (R38, R43, R91): snapped to its target set. -/
def Context.enteringLive (c : Context) : Context :=
  { c with
    life := .live, faultReason := .none, applied := some c.target, dirty := true, verify := c.verifyLeft }

/-- The context as it enters UNMATCHED (R39, R43). -/
def Context.enteringUnmatched (c : Context) : Context :=
  { c with life := .unmatched, faultReason := .none, dirty := true, verify := c.verifyLeft }

/-- The context as it enters FAULTED (R41, R43). -/
def Context.enteringFaulted (c : Context) (reason : FaultReason) : Context :=
  { c with life := .faulted, faultReason := reason, dirty := true, verify := c.verifyLeft }

/-! ## Solves (R11, R12, R17, R18, R52, R70) -/

/-- `v` is a solve of its group that begins in `s` (R49, R52, R54, R70): the headroom and the cap are the group's; its
members are the contexts of the group in any life state but ABSENT, in ascending order of id, with their fields as
they stand; and each has read its page, as that stands, or not yet. -/
def State.beginsSolve (s : State) (v : Solve) : Prop :=
  v.headroom = (s.group v.group).headroom ∧ v.cap = (s.group v.group).cap ∧
  (v.members.map SolveMember.ctx).Pairwise (· < ·) ∧
  (∀ i, (∃ m ∈ v.members, m.ctx = i) ↔ (s.ctx i).life ≠ .absent ∧ (s.ctx i).group = v.group) ∧
  ∀ m ∈ v.members, m.tile = s.ctx m.ctx ∧
    (m.reading = none ∨ m.reading = some ((s.ctx m.ctx).readPage s.pages))

/-- What the correction of a member of a solve goes by (R70): what it has read, or, if it has not read yet, its page as
it stands. -/
def State.readingOf (s : State) (m : SolveMember) : PageReading :=
  match m.reading with
  | some r => r
  | none => m.tile.readPage s.pages

/-- `T` are the targets with which the solve `v` ends in `s` (R10 to R12): those that the group has, if no member is
eligible, and otherwise for each primary the least effective luminance of the eligible members times the headroom,
rounded down, or the cap. -/
def State.solvesTo (s : State) (v : Solve) (T : Option (Rgb Nat)) : Prop :=
  ((∀ m ∈ v.members, m.tile.eligible = false) → T = (s.group v.group).targets) ∧
  ((∃ m ∈ v.members, m.tile.eligible = true) → ∃ U, T = some U ∧ ∀ p, ∃ m ∈ v.members, m.tile.eligible = true ∧
    U.get p = min ((s.readingOf m).effective.get p * v.headroom / 32768) v.cap ∧
    ∀ n ∈ v.members, n.tile.eligible = true → (s.readingOf m).effective.get p ≤ (s.readingOf n).effective.get p)

/-- The result that a member of a solve gets with targets `T` (R17, R18): its correction from the fields that were read
when the solve began and from its own reading of its page. -/
def State.resultOf (s : State) (T : Option (Rgb Nat)) (m : SolveMember) : Correction :=
  m.tile.correctionFrom (s.readingOf m) T

/-- `t` is `s` after the solve `v` has written its targets `T` and its results (R17, R50, R52, R53): each member whose
generation is still the one that was read gets its result whole, and nothing is written into any other context; the
group gets the targets and its timer starts again unless its interval is 0; and the solve is no longer under way. -/
def State.writesSolve (s t : State) (v : Solve) (T : Option (Rgb Nat)) : Prop :=
  (∀ m ∈ v.members, (s.ctx m.ctx).generation = m.tile.generation →
    let k := s.resultOf T m
    t.ctx m.ctx = (s.ctx m.ctx).becoming
      { s.ctx m.ctx with
        effective := k.effective, gain := k.gain, target := k.target, short := k.short, curveFallback := k.fallback }) ∧
  (∀ i, (∀ m ∈ v.members, m.ctx = i → (s.ctx i).generation ≠ m.tile.generation) → t.ctx i = s.ctx i) ∧
  (∀ g, t.group g =
    if g = v.group then
      { s.group g with
        targets := T
        solveTimer := if (s.group g).solveInterval = 0 then (s.group g).solveTimer
          else some ((s.group g).solveInterval * 1000000) }
    else s.group g) ∧
  t = { s with
    contexts := t.contexts, groups := t.groups, solves := s.solves.filter fun u => !decide (u.group = v.group) }

/-- `t` is `s` after several solves have written, each its targets. -/
def State.writesSolves (T : Solve → Option (Rgb Nat)) : List Solve → State → State → Prop
  | [], s, t => t = s
  | v :: vs, s, t => ∃ u, s.writesSolve u v (T v) ∧ State.writesSolves T vs u t

/-! ## Roll calls -/

/-- The serial that a roll record holds for a position: that of the slot of the same number (R145). -/
def heardAt (serials : List Word) (a : Fin 64) : Option Word := serials[a.val - 1]?

/-- `t` is `s` after one position of a comparison (R43, R148, R149): the context of the chain that holds the address,
if there is one, gets its finding - its own serial, another, or no tile - and a tile that no context holds is
reported with the lowest context known by its serial. -/
def State.comparesPosition (s t : State) (ch : Fin 4) (found : Nat) (a : Fin 64) (heard : Option Word) : Prop :=
  let holds (i : Fin 256) : Prop := (s.ctx i).life ≠ .absent ∧ (s.ctx i).chain = ch ∧ (s.ctx i).address = a
  (∀ i, holds i →
    (heard = some (s.ctx i).serial → (s.ctx i).life = .live → t = s) ∧
    (heard = some (s.ctx i).serial → (s.ctx i).life ≠ .live →
      s.entersLife t i { (s.ctx i).enteringLive with failCount := 0, mismatchCount := 0 }) ∧
    (∀ w, heard = some w → w ≠ (s.ctx i).serial → (s.ctx i).life = .unmatched → t = s) ∧
    (∀ w, heard = some w → w ≠ (s.ctx i).serial → (s.ctx i).life ≠ .unmatched →
      ∃ v : State, s.entersLife v i (s.ctx i).enteringUnmatched ∧
        t = State.notice .fault (v.raisePart .unmatched ch a (s.ctx i).serial w)) ∧
    (heard = none → (s.ctx i).life = .faulted →
      ∃ v : State, v = { s with contexts := v.contexts } ∧
        (∀ j, v.ctx j =
          if j = i then (s.ctx j).becoming { s.ctx j with faultReason := .missing } else s.ctx j) ∧
        t = v.raisePart .missing ch a (s.ctx i).serial (BitVec.ofNat 32 found)) ∧
    (heard = none → (s.ctx i).life ≠ .faulted →
      ∃ v : State, s.entersLife v i ((s.ctx i).enteringFaulted .missing) ∧
        t = State.notice .fault (v.raisePart .missing ch a (s.ctx i).serial (BitVec.ofNat 32 found)))) ∧
  ((∀ i, ¬holds i) →
    (heard = none → t = s) ∧
    ∀ w, heard = some w →
      let known (i : Fin 256) : Prop := (s.ctx i).life ≠ .absent ∧ (s.ctx i).serial = w
      (∀ i, known i → (∀ j, j < i → ¬known j) →
        t = s.raisePart .unknownTile ch a w (BitVec.ofNat 32 i.val)) ∧
      ((∀ i, ¬known i) → t = s.raisePart .unknownTile ch a w 0xFFFFFFFF))

/-- `t` is `s` after the comparison of some positions, one after another (R148). -/
def State.compares (ch : Fin 4) (serials : List Word) : List (Fin 64) → State → State → Prop
  | [], s, t => t = s
  | a :: rest, s, t => ∃ u, s.comparesPosition u ch serials.length a (heardAt serials a) ∧
      State.compares ch serials rest u t

/-! ## Frame events -/

/-- A group's beat comes with the next frame event (R86). -/
def Group.beatsNext (g : Group) : Prop := g.beat ≤ g.beatCount + 1

/-- The command gives a frame event (R80 to R82): an edge while REGAINED, the edge that regains the frame, or a
substituted one. -/
def State.frameEventAt (s : State) (c : Instr) : Prop :=
  c = .frameEdge ∧ (s.ramp.frameState = .regained ∨
    s.ramp.frameState = .lost ∧ ∃ x, s.ramp.candidate = some x ∧
      s.ramp.period ≤ 2 * ((s.clock - x) / 10) ∧ 2 * ((s.clock - x) / 10) ≤ 3 * s.ramp.period) ∨
  c = .substituteTimerExpiry ∧ s.ramp.substituteTimer.isSome = true

/-- A beat of the next frame event acts on the context: no freeze, its group beats, and it is LIVE (R87). -/
def State.stepsNext (s : State) (i : Fin 256) : Prop :=
  s.ramp.freezeSet = [] ∧ s.ramp.freezeIn = false ∧ (s.group (s.ctx i).group).beatsNext ∧ (s.ctx i).life = .live

/-- The applied set that a beat gives a context whose applied set is `a` (R20, R21, R87). -/
def State.steppedSet (s : State) (i : Fin 256) (a : TermSet) : TermSet :=
  match s.ramp.mode with
  | .setup => (s.ctx i).target
  | .showing => rampSet (s.group (s.ctx i).group).slew a (s.ctx i).target

/-- `t` is `s` after one frame event (R85 to R88, R132): every group and every chain has counted it; the applied set
of each context on which a beat acts is the stepped one and every other is as it was; behind what was in a chain's
push queue come the contexts whose applied set a beat changed, those of one group in ascending order of id (R88), and
of these the arbiter of a chain that was IDLE may have started the first; a chain that was IDLE has chosen, if there
is work for it, such as a push that a beat has enqueued or a readback that its frame count has made eligible (R114,
R132), so that its arbiter finds nothing more to start; and nothing else has changed but what the arbiter of an IDLE
chain started. -/
def State.afterFrameEvent (s t : State) : Prop :=
  (∀ g, t.group g =
    { s.group g with
      beatCount := if (s.group g).beat ≤ (s.group g).beatCount + 1 then 0 else (s.group g).beatCount + 1 }) ∧
  (∀ i, t.ctx i =
    (s.ctx i).becoming { s.ctx i with applied := (t.ctx i).applied, verify := (t.ctx i).verify }) ∧
  (∀ i a, s.stepsNext i → (s.ctx i).applied = some a → (t.ctx i).applied = some (s.steppedSet i a)) ∧
  (∀ i, ¬s.stepsNext i → (t.ctx i).applied = (s.ctx i).applied) ∧
  (∀ i, (t.ctx i).verify = (s.ctx i).verify ∨
    (s.chain (s.ctx i).chain).state = .idle ∧ (s.ctx i).verify = .due ∧ (t.ctx i).verify = .reading) ∧
  (∀ ch, (t.chain ch).framesSinceLatch =
    if 255 ≤ (s.chain ch).framesSinceLatch then (s.chain ch).framesSinceLatch
    else (s.chain ch).framesSinceLatch + 1) ∧
  (∀ ch, (s.chain ch).state ≠ .idle →
    t.chain ch =
      { s.chain ch with
        framesSinceLatch := (t.chain ch).framesSinceLatch, pushQueue := (t.chain ch).pushQueue }) ∧
  (∀ ch, t.arbitrate ch = t) ∧
  (∀ ch, ∃ (joined : List (Fin 256)) (sent : Nat),
    (t.chain ch).pushQueue = ((s.chain ch).pushQueue ++ joined).drop sent ∧
    (∀ g, (joined.filter fun i => decide ((s.ctx i).group = g)).Pairwise (· < ·)) ∧
    (∀ i, i ∈ (s.chain ch).pushQueue ++ joined ↔
      i ∈ (s.chain ch).pushQueue ∨ (s.ctx i).chain = ch ∧ (t.ctx i).applied ≠ (s.ctx i).applied) ∧
    sent ≤ 1 ∧ ((s.chain ch).state ≠ .idle → sent = 0)) ∧
  t = { s with contexts := t.contexts, groups := t.groups, chains := t.chains, freeIndex := t.freeIndex }

end Sys2Proof.Machine
end

