-- ==== Sys2Proof/Certificates/Slice0/Obligations.lean ====
section
/-! DEFINITION. The statements for the provers. -/

section

open Sys2Proof Sys2Proof.Machine

/-! ## Steps and commands -/

/-- The command at the front of the queue is the one that runs, on the state with the rest of the queue. -/
def Obligations.StepRunsFrontCommand : Prop :=
  ∀ (c : Instr) (rest : List Instr) (s : State),
    step { s with pending := c :: rest } = exec c { s with pending := rest }

/-- The model's own reading: no command stops (log 24, DEDUCED), one that finds nothing to act on changes nothing
(log 2), and so every command answers a next state. None touches the queue of those that wait behind it. -/
def Obligations.EveryCommandCompletesAndKeepsTheQueue : Prop :=
  ∀ (c : Instr) (s : State), ∃ t, exec c s = .next t ∧ t.pending = s.pending

/-- Each setting of the part changes at its own command alone: FREEZE_IN at its pin command (R95), and, power-on reset
apart, the registers at their writes (R173, R174, R176), the mode at SET_MODE (R78), the nominal period at SET_FRAME
(R84), the curve store at LOAD_CURVE (R70), the filters at SET_FILTER (R158, R159), a chain's configuration at
SET_CHAIN (R112) and a group's settings at SET_GROUP. That the clock changes at no command but a power-on reset is the
model's choice (log 1, DESIGN CHOICE: a command takes no time), and so is that neither pin level, of PERST_N (R173) or
of FREEZE_IN, changes at a power-on reset (log 4, DESIGN CHOICE). -/
def Obligations.SettingsChangeOnlyAtTheirCommands : Prop :=
  ∀ (c : Instr) (s t : State), exec c s = .next t →
    ((∀ a, c.within ≠ .freezeInChange a) → t.ramp.freezeIn = s.ramp.freezeIn) ∧
    ((∀ a, c.within ≠ .perstN a) → t.link.up = s.link.up) ∧
    (c.within ≠ .powerOnReset →
      t.clock = s.clock ∧
      ((∀ v, c.within ≠ .areaLoWrite v) → t.regs.areaLo = s.regs.areaLo) ∧
      ((∀ v, c.within ≠ .areaHiWrite v) → t.regs.areaHi = s.regs.areaHi) ∧
      ((∀ v, c.within ≠ .noticeMaskWrite v) → t.regs.noticeMask = s.regs.noticeMask) ∧
      ((∀ r sc h, c.within ≠ .restart r sc h) → (∀ r h, c.within ≠ .run r h) → (∀ r h, c.within ≠ .scan r h) →
        t.regs.run = s.regs.run) ∧
      (c.within ≠ .setMode → t.ramp.mode = s.ramp.mode) ∧
      (c.within ≠ .setFrame → t.ramp.period = s.ramp.period) ∧
      (c.within ≠ .loadCurve → t.pages = s.pages) ∧
      (c.within ≠ .setFilter → t.filters = s.filters) ∧
      (c.within ≠ .setChain → ∀ ch, (t.chain ch).config = (s.chain ch).config) ∧
      (c.within ≠ .setGroup → ∀ g,
        (t.group g).headroom = (s.group g).headroom ∧ (t.group g).cap = (s.group g).cap ∧
        (t.group g).slew = (s.group g).slew ∧ (t.group g).beat = (s.group g).beat ∧
        (t.group g).solveInterval = (s.group g).solveInterval ∧ (t.group g).staleLimit = (s.group g).staleLimit))

/-- The model's own account of time (logs 1, 8, 10 and 26, DESIGN CHOICE). What is due on an empty queue: the expiry
of each timer that has run out, but the service timer's while the service waits for a card under way or for a walk
that has dispatched a card of a kind that makes groups pending (R54, R58, R71; log 32, DEDUCED); the passing of a
latch deadline not yet marked; the dispatch of the card under way; and a scan marked to follow, once none is under
way. A card under way comes first: its command joins the queue. Otherwise, while anything is due, or a scan or a solve
is under way, one freely chosen thing happens: a command that is due joins the queue, a scan makes its next access
(R167), a member of a solve reads its page (R70), or a solve ends. With nothing of this to be done one microsecond
passes: every running timer has one less, and nothing else of the part changes. -/
def Obligations.AnEmptyQueueTakesWhatIsDueOrPassesOneMicrosecond : Prop :=
  ∀ s : State, s.pending = [] →
    (∀ c, c ∈ s.due ↔
      (c = .serviceTimerExpiry ∧ s.serviceTimer = some 0 ∧ ¬s.holdsService) ∨
      (c = .stalenessCheckExpiry ∧ s.stalenessTimer = some 0) ∨
      (c = .scanTimerExpiry [] ∧ s.intake.scanTimer = some 0) ∨
      (c = .lossTimerExpiry ∧ s.ramp.lossTimer = some 0) ∨
      (c = .substituteTimerExpiry ∧ s.ramp.substituteTimer = some 0) ∨
      (∃ g, c = .solveTimerExpiry g ∧ (s.group g).solveTimer = some 0) ∨
      (∃ ch t, c = .holdTimerExpiry ch ∧ (s.chain ch).holdTimer = some 0 ∧
        (s.chain ch).flight = .transaction t ∧ t.phase = .holding) ∨
      (∃ ch, c = .pollRoundTimerExpiry ch ∧ (s.chain ch).pollTimer = some 0) ∨
      (∃ ch, c = .verifySweepTimerExpiry ch ∧ (s.chain ch).sweepTimer = some 0) ∨
      (∃ ch p, c = .latchDeadlinePassed ch ∧ (s.chain ch).latchPending = some p ∧ p.overdue = false ∧
        (s.chain ch).config.latchDeadline * 10 < (s.tick - p.setTick).toNat) ∨
      (c = .followingScan [] ∧ s.intake.follow = true ∧ s.intake.walk = none ∧ s.intake.scan = none) ∨
      ∃ w, c = w.request.command ∧ s.intake.walk = some w) ∧
    (∀ w, s.intake.walk = some w → step s = .next { s with pending := [w.request.command] }) ∧
    (s.intake.walk = none → s.due ≠ [] ∨ s.solves ≠ [] ∨ s.intake.scan ≠ none →
      (∃ c ∈ s.due, ∃ n, step s = .next { s with pending := [c], freeIndex := n }) ∨
      (s.intake.scan ≠ none ∧ ∃ n, step s = .next (({ s with freeIndex := n } : State).scanAccess)) ∨
      ∃ v ∈ s.solves, ∃ n,
        step s = .next (({ s with freeIndex := n } : State).endSolves [v]) ∨
        ∃ m ∈ v.members, m.reading = none ∧ step s = .next { s with
          freeIndex := n
          solves := s.solves.map fun u =>
            if u.group = v.group then
              { u with
                members := u.members.map fun k =>
                  if k.ctx = m.ctx then { k with reading := some (s.readingOf k) } else k }
            else u }) ∧
    (s.due = [] → s.solves = [] → s.intake.scan = none →
      ∃ t, step s = .next t ∧ t.clock = s.clock + 1 ∧
        (∀ g, t.group g = { s.group g with solveTimer := (s.group g).solveTimer.map (· - 1) }) ∧
        t.serviceTimer = s.serviceTimer.map (· - 1) ∧ t.stalenessTimer = s.stalenessTimer.map (· - 1) ∧
        t.ramp = { s.ramp with
          lossTimer := s.ramp.lossTimer.map (· - 1), substituteTimer := s.ramp.substituteTimer.map (· - 1) } ∧
        (∀ ch, t.chain ch = { s.chain ch with
          holdTimer := (s.chain ch).holdTimer.map (· - 1), pollTimer := (s.chain ch).pollTimer.map (· - 1),
          sweepTimer := (s.chain ch).sweepTimer.map (· - 1) }) ∧
        t.intake = { s.intake with scanTimer := s.intake.scanTimer.map (· - 1) } ∧
        t = { s with
          clock := t.clock, groups := t.groups, serviceTimer := t.serviceTimer, stalenessTimer := t.stalenessTimer
          ramp := t.ramp, chains := t.chains, intake := t.intake })

/-! ## Resets, registers and the link -/

/-- A power-on reset puts every context into its reset state, and no chain's queue holds one (R27). -/
def Obligations.PowerOnResetsEveryContext : Prop :=
  ∀ s : State, ∃ t, exec .powerOnReset s = .next t ∧
    (∀ i, t.ctx i =
      { life := .absent, generation := 0, serial := 0, chain := 0, address := 0, group := 0, page := 0
        noVote := false, luminance := ⟨0, 0, 0⟩, age := ⟨0, 0, 0⟩
        mix := ⟨⟨0, 0, 0⟩, ⟨0, 0, 0⟩, ⟨0, 0, 0⟩⟩, temp := none, tempTick := 0, stale := false
        effective := ⟨1, 1, 1⟩, gain := ⟨32768, 32768, 32768⟩
        target := ⟨⟨0, 0, 0⟩, ⟨0, 0, 0⟩, ⟨0, 0, 0⟩⟩, applied := none, sent := none, latched := none
        failCount := 0, mismatchCount := 0, verify := .none, faultReason := .none, short := false
        ageClamped := false, curveFallback := false, sensorSuspect := false, pushCount := 0, dirty := true }) ∧
    ∀ ch, (t.chain ch).probeQueue = [] ∧ (t.chain ch).pushQueue = [] ∧ (t.chain ch).pollList = []

/-- A power-on reset gives every other record its reset value (R47, R50, R61, R66, R69, R78, R83, R86, R92, R111,
R131, R132, R135, R136, R158, R165, R168, R170, R171, R173, R174, R176). That no solve is left under way (R52), and
that what is outside the part stays, the host's memory, the link, the level of FREEZE_IN and the waiting commands, are
the model's choices (log 4). -/
def Obligations.PowerOnResetsTheRest : Prop :=
  ∀ s : State, ∃ t, exec .powerOnReset s = .next t ∧
    (∀ g, t.group g =
      { headroom := 31457, cap := 262143, slew := 16, beat := 4, solveInterval := 10, staleLimit := 10
        targets := none, pending := false, solveTimer := some 10000000, beatCount := 0 }) ∧
    t.serviceTimer = some 1000 ∧ t.stalenessTimer = some 100000 ∧ t.solves = [] ∧
    (∀ p, (t.pages.get p).loaded = false ∧ ∀ k, (t.pages.get p).entries.get k = 0) ∧
    t.ramp =
      { mode := .setup, period := 1667, frameState := .regained, lossTimer := some 50010, substituteTimer := none
        candidate := none, freezeSet := [], freezeIn := s.ramp.freezeIn } ∧
    (∀ ch, t.chain ch =
      { state := .stopped
        config :=
          { bitRate := .mbit2, answerWindow := 200, holdLimit := 20, retryLimit := 2, nakPolicy := .retry
            pollPeriod := 500, verifyInterval := 0, latchDeadline := 50 }
        flight := .none, holdTimer := none, probeQueue := [], pushQueue := [], pollList := [], pollTimer := none
        pollOverrun := 0, latchPending := none, framesSinceLatch := 0, sweepTimer := none, readbackPosition := 0
        sweep := none, roll := none }) ∧
    (∀ n, t.filters.get n = { enable := false, mask := 0, pattern := 0, destination := .general }) ∧
    t.logs =
      { alertWrite := 0, generalWrite := 0, oldest := 0, alertCopy := 0, generalCopy := 0, released := 0
        overwrites := 0, rollovers := 0, unlogged := 0, ready := false } ∧
    t.intake =
      { cursor := 0, longCards := Table.replicate 4 ⟨none, none⟩, completions := [], halted := false
        scanTimer := none, walk := none, scan := none, follow := false, scanCount := 0 } ∧
    t.regs = { areaLo := 0, areaHi := 0, run := false, noticeRaw := 0, noticeMask := 0 } ∧
    t.clock = 0 ∧ t.area = s.area ∧ t.link = s.link ∧ t.pending = s.pending

/-- The register window (section 10.6). Of its reads: PART_ID reads 0x00025C31, RUN_CTRL shows RUN at bit 0 and HALTED
at bit 3 and every other bit clear, and NOTICE_RAW and NOTICE_MASK show their seven bits. Of its writes: an area
register written while RUN is clear takes its stored bits, and every context is dirty; while RUN is set the write is
ignored and sets REG; a write to PART_ID changes nothing; and the window shows the base, which AREA_HI and AREA_LO
hold, with bits 15:0 zero (R173). A 1 written to a bit of NOTICE_RAW clears it and a 0 leaves it, NOTICE_MASK is
written as a whole, and NOTICE_OUT is asserted while a bit is set in both (R176). -/
def Obligations.RegisterWrites : Prop :=
  ∀ (v : Word) (s : State),
    s.areaBase = (s.readRegister 0x08).toNat * 2 ^ 32 + (s.readRegister 0x04).toNat ∧
    (s.readRegister 0x00 = 0x00025C31 ∧
      (∀ k, (s.readRegister 0x0C).getLsbD k =
        (decide (k = 0) && s.regs.run || decide (k = 3) && s.intake.halted)) ∧
      (∀ k, (s.readRegister 0x10).getLsbD k = s.regs.noticeRaw.getLsbD k) ∧
      ∀ k, (s.readRegister 0x14).getLsbD k = s.regs.noticeMask.getLsbD k) ∧
    exec (.partIdWrite v) s = .next s ∧
    (s.regs.run = true →
      exec (.areaLoWrite v) s = .next { s with regs := { s.regs with noticeRaw := s.regs.noticeRaw ||| 64 } } ∧
      exec (.areaHiWrite v) s = .next { s with regs := { s.regs with noticeRaw := s.regs.noticeRaw ||| 64 } }) ∧
    (s.regs.run = false →
      (∃ t, exec (.areaLoWrite v) s = .next t ∧ t.readRegister 0x04 = v &&& 0xFFFF0000 ∧
        (∀ i, t.ctx i = { s.ctx i with dirty := true }) ∧
        t = { s with contexts := t.contexts, regs := { s.regs with areaLo := v.extractLsb' 16 16 } }) ∧
      ∃ t, exec (.areaHiWrite v) s = .next t ∧ t.readRegister 0x08 = v ∧
        (∀ i, t.ctx i = { s.ctx i with dirty := true }) ∧
        t = { s with contexts := t.contexts, regs := { s.regs with areaHi := v } }) ∧
    (∃ t, exec (.noticeRawWrite v) s = .next t ∧
      (∀ k, t.regs.noticeRaw.getLsbD k = (s.regs.noticeRaw.getLsbD k && !v.getLsbD k)) ∧
      t = { s with regs := { s.regs with noticeRaw := t.regs.noticeRaw } } ∧
      (t.noticeOut = true ↔ ∃ k, t.regs.noticeRaw.getLsbD k = true ∧ t.regs.noticeMask.getLsbD k = true)) ∧
    ∃ t, exec (.noticeMaskWrite v) s = .next t ∧
      (∀ k, t.regs.noticeMask.getLsbD k = (decide (k < 7) && v.getLsbD k)) ∧
      t = { s with regs := { s.regs with noticeMask := t.regs.noticeMask } } ∧
      (t.noticeOut = true ↔ ∃ k, t.regs.noticeRaw.getLsbD k = true ∧ t.regs.noticeMask.getLsbD k = true)

/-- PERST_N leaves the part's registers and state as they were; only the link goes down or comes up (R173), and
every access to the area that is tried while it is down ends in a bus error. That the release of PERST_N brings the
link up is the model's choice (log 6). -/
def Obligations.PerstMovesOnlyTheLink : Prop :=
  ∀ (asserted : Bool) (s : State),
    ∃ t, exec (.perstN asserted) s = .next t ∧ t = { s with link := { s.link with up := !asserted } } ∧
      (asserted = true → s.intake.halted = false → ∀ off bs n,
        (t.areaWrite off bs).intake.halted = true ∧ (t.areaWrite off bs).area = s.area ∧
          (t.areaRead off n).1 = none ∧ (t.areaRead off n).2.intake.halted = true)

/-- A RESTART does at each block what its restart rule says and nothing else (R28, R92, R111, R142, R155, R165, R175).
At a chain: a sweep record is discarded; a roll that has not begun is no longer in progress; one that waits for the
line after a garbled slot ends, and its chain, IDLE, chooses; and one with a step under way ends with that step. With
RUN as it was, a scan timer that is running runs on, and one that is stopped is started, and a scan starts, if RUN is
set. A scan under way ends between two of its accesses, and the rest of it is not made; while a card is under way the
intake unit's part waits for that card, with which the scan ends (R167). That it waits, and that a roll after a
garbled slot ends at once, are the model's readings (log 11); what the host has written to its memory is an operand by
its choice (log 3). -/
def Obligations.RestartAtEveryBlock : Prop :=
  ∀ (s : State) (host : List HostWrite),
    let b := (s.hostWrites host).blocksRestarted
    (s.intake.walk = none → s.regs.run = false ∨ s.intake.scanTimer.isSome = true →
      exec (.restart s.regs.run false host) s = .next b.intakeRestarted) ∧
    (s.intake.walk = none → s.regs.run = true → s.intake.scanTimer = none →
      exec (.restart true false host) s = exec (.scan true [])
        { b.intakeRestarted with intake := { b.intakeRestarted.intake with scanTimer := some 1000 } }) ∧
    ∀ w, s.intake.walk = some w →
      exec (.restart s.regs.run false host) s = .next
        { b with
          intake := { s.intake with walk := some { w with ending := true, restart := true, rescan := false } } }

/-- A write to RUN_CTRL acts on its bits in the order RESTART, RUN, SCAN (R174). So it does where the intake unit's
part of the RESTART waits for the card under way (R167): RUN has its value at once, and a clearing stops the scan
timer and discards a scan marked to follow; but what RUN's change to set and SCAN ask of the intake unit is left to
the restart and to what comes after it (R175). Of RUN, the value in force changes nothing; a change to clear stops the
scan timer, discards a scan marked to follow and ends the scan under way, between two of its accesses or with its
card; a change to set starts the timer and requests a scan, unless HALTED is set. Four points are the model's own: the
three rows of the table split one write (log 22, DESIGN CHOICE); the host's memory writes are an operand (log 3,
DESIGN CHOICE); while a card is under way, what RUN's change to set and SCAN ask is deferred with the restart (log 11,
DEDUCED); and a scan that the restart itself requests makes a free number of its accesses before the written RUN and
SCAN act (log 30, DESIGN CHOICE). -/
def Obligations.RunControlWrites : Prop :=
  ∀ (s : State) (host : List HostWrite),
    (s.intake.walk = none → ∀ run scan, ∃ t, exec (.restart s.regs.run false host) s = .next t ∧
      exec (.restart run scan host) s = exec (if scan then .scan run [] else .run run []) t) ∧
    (∀ w, s.intake.walk = some w → ∀ run scan, ∃ t, exec (.restart s.regs.run false host) s = .next t ∧
      exec (.restart run scan host) s = .next
        { t with
          regs := { t.regs with run := run }
          intake := { t.intake with
            scanTimer := if s.regs.run = true ∧ run = false then none else t.intake.scanTimer
            scan := if s.regs.run = true ∧ run = false then none else t.intake.scan
            follow := if s.regs.run = true ∧ run = false then false else t.intake.follow
            walk := some { w with ending := true, restart := true, rescan := run && scan } } }) ∧
    (∀ run, ∃ u, exec (.run run host) s = .next u ∧ exec (.scan run host) s = exec (.scan run []) u) ∧
    exec (.run s.regs.run host) s = .next (s.hostWrites host) ∧
    (s.regs.run = true →
      exec (.run false host) s = .next
        { s.hostWrites host with
          regs := { s.regs with run := false }
          intake := { s.intake with
            scanTimer := none, scan := none, follow := false
            walk := s.intake.walk.map fun w => { w with ending := true, rescan := false } } }) ∧
    (s.regs.run = false → s.intake.halted = true →
      exec (.run true host) s = .next { s.hostWrites host with regs := { s.regs with run := true } }) ∧
    (s.regs.run = false → s.intake.halted = false →
      exec (.run true host) s = exec (.scan true [])
        { s.hostWrites host with
          regs := { s.regs with run := true }, intake := { s.intake with scanTimer := some 1000 } })

/-- Who requests a scan, and when a request is kept (R167): an expiry of the scan timer starts it again and asks
for a scan like a write of SCAN; a request while RUN is clear or HALTED is set is not kept; one that finds a scan
under way, at a card or between two accesses, marks one scan to follow; that one starts when no scan is under way; and
one that finds none under way starts one, at its first access. How many accesses the scan has made when the next
command comes is a free choice (log 10, DESIGN CHOICE). That an expiry of a stopped timer and a following scan without
a mark have no effect is the model's choice (log 2). -/
def Obligations.ScanRequests : Prop :=
  ∀ (s : State) (host : List HostWrite),
    (s.regs.run = true → s.intake.scanTimer.isSome = true →
      exec (.scanTimerExpiry host) s = exec (.scan true [])
        { s.hostWrites host with intake := { s.intake with scanTimer := some 1000 } }) ∧
    (s.intake.scanTimer = none → exec (.scanTimerExpiry host) s = .next (s.hostWrites host)) ∧
    (s.regs.run = true → s.intake.follow = true → s.intake.walk = none → s.intake.scan = none →
      exec (.followingScan host) s = exec (.scan true [])
        { s.hostWrites host with intake := { s.intake with follow := false } }) ∧
    (s.intake.follow = false ∨ s.intake.walk ≠ none ∨ s.intake.scan ≠ none →
      exec (.followingScan host) s = .next (s.hostWrites host)) ∧
    (s.regs.run = false ∨ s.intake.halted = true →
      exec (.scan s.regs.run host) s = .next (s.hostWrites host)) ∧
    (s.regs.run = true → s.intake.halted = false → s.intake.walk ≠ none ∨ s.intake.scan ≠ none →
      exec (.scan true host) s = .next { s.hostWrites host with intake := { s.intake with follow := true } }) ∧
    (s.regs.run = true → s.intake.halted = false → s.intake.walk = none → s.intake.scan = none → ∃ t,
      exec (.scan true host) s = .next t ∧ ((s.hostWrites host).scanAt (some .hostWords)).goesOn t)

/-- The last step of a scan (R46, R171, R172): the status block is copied at one instant and written, the scan count
first, then the tick and the body, and last the count again; then comes the mirror record of every dirty context, in
ascending order of id, each context clean as its record is copied; and a write that ends in a bus error leaves the
rest unwritten and its context dirty. Each byte of the status block and of a mirror record is the one that the layouts
of sections 10.2.1 and 10.2.5 give, row by row: the tick and the two copies of the scan count, the codes of the modes
and the states, 0xFFFFFFFF for an UNSET target, zeros for an unknown set (R45), and the indication of no reading.
Which contexts are dirty is judged as the scan comes to each id, by the model's choice (log 36, DESIGN CHOICE). A scan
that finds nothing POSTED at the cursor and no completion waiting comes to this from its start with two reads (R167).
That any command may come between two of the accesses, and that the scan counts itself in the count that it writes,
are the model's choices (logs 10 and 17); and so is what counts as one access - each of the four parts of the status
block, and each mirror record, is one write - and that a write that fails leaves nothing (log 16, DESIGN CHOICE). -/
def Obligations.QuietScanShowsThePart : Prop :=
  (∀ s : State, s.intake.halted = false →
    (s.intake.scan = some .copy →
      (∃ t, s.comesTo t ∧ s.showsItself t) ∧
      (s.goodAccesses 1 = 1 → ∃ count tick body : List Byte,
        count.length = 4 ∧ tick.length = 4 ∧ body.length = 180 ∧
        (∀ k, k < 4 → count[k]? = some (layoutByte s.statusRows (4 + k)) ∧
          count[k]? = some (layoutByte s.statusRows (0xBC + k)) ∧ tick[k]? = some (layoutByte s.statusRows k)) ∧
        (∀ k, k < 180 → body[k]? = some (layoutByte s.statusRows (8 + k))) ∧
        s.scanAccess = { s.accessed 1 with
          area := s.area.writeBytes (s.areaBase + 4) count
          intake := { s.intake with
            scan := some (.status [(0, tick), (8, body), (0xBC, count)]), scanCount := s.intake.scanCount + 1 } })) ∧
    (∀ w ws, s.intake.scan = some (.status (w :: ws)) →
      (s.goodAccesses 1 = 0 → s.scanAccess = s.busFaulted) ∧
      (s.goodAccesses 1 = 1 → s.scanAccess = { s.accessed 1 with
        area := s.area.writeBytes (s.areaBase + w.1) w.2
        intake := { s.intake with
          scan := some (if ws = [] then .mirror (List.finRange 256) else .status ws) } })) ∧
    ∀ rest, s.intake.scan = some (.mirror rest) →
      ((∀ i ∈ rest, (s.ctx i).dirty = false) → s.scanAccess = s.scanAt none) ∧
      ∀ before i later, rest = before ++ i :: later → (∀ j ∈ before, (s.ctx j).dirty = false) →
        (s.ctx i).dirty = true →
        (s.goodAccesses 1 = 0 → s.scanAccess = s.busFaulted) ∧
        (s.goodAccesses 1 = 1 → ∃ t, s.scanAccess = t ∧
          (∀ j, t.ctx j = if j = i then { s.ctx j with dirty := false } else s.ctx j) ∧
          (∀ a, t.area.read a =
            if s.areaBase + 0x7000 + 128 * i.val ≤ a ∧ a < s.areaBase + 0x7000 + 128 * i.val + 128
            then layoutByte (s.ctx i).mirrorRows (a - (s.areaBase + 0x7000 + 128 * i.val)) else s.area.read a) ∧
          t = { s.accessed 1 with
            contexts := t.contexts, area := t.area, intake := { s.intake with scan := some (.mirror later) } })) ∧
  ∀ s : State, s.readable 2 → s.intake.completions = [] → s.cardAtCursor.state ≠ 1 →
    ∃ t, (s.scanAt (some .hostWords)).comesTo t ∧ (s.withHostWords.accessed 2).showsItself t

/-- The walk reads the card at the cursor. A POSTED card of version 1 and a known kind is taken: the cursor advances,
and the card is under way, to be dispatched by its own command, with the pending flags of the groups as they then stand
(R58, R167, R168). A POSTED card of a wrong version, or of a kind outside 1..15, is refused at once, the version first,
and reaches no owning block (R169); the walk goes on, unless it has taken its 32 cards or a write has halted the intake
unit. At a card that is not POSTED the walk ends, with the cursor on it, and a read that ends in a bus error takes none
(R172). The card is read as section 10.2.2 lays it out, from its place in the area, and the kinds are the numbers of
its table; the parameters and the result data are little-endian (section 10.2). That other commands may come between a
card and the next is the model's choice (log 10). -/
def Obligations.ScanTakesOrRefusesAPostedCard : Prop :=
  (∀ (w : Walk) (k : Nat), w.param8 k = (w.card.params.getD k 0).toNat ∧
    w.param16 k = w.param8 k + 256 * w.param8 (k + 1) ∧
    w.param32 k = w.param16 k + 65536 * w.param16 (k + 2)) ∧
  (∀ n : Nat, bytes8 n = [leByte n 0] ∧ bytes16 n = [leByte n 0, leByte n 1] ∧
    bytes32 n = [leByte n 0, leByte n 1, leByte n 2, leByte n 3]) ∧
  ∀ (s : State) (n : Nat) (solved : Bool), s.intake.halted = false → s.intake.scan = some (.board (n + 1) solved) →
    let h := s.accessed 1
    let u : State := { h with intake := { h.intake with cursor := s.intake.cursor + 1 } }
    let refused (code : ResultCode) : Prop := ∃ t, u.completes t s.cardAtCursor code [] ∧
      s.scanAccess =
        t.scanAt (if t.intake.halted then none else some (if n = 0 then .copy else .board n solved))
    (s.goodAccesses 1 = 0 → s.scanAccess = s.busFaulted) ∧
    (s.goodAccesses 1 = 1 → s.cardAtCursor.state ≠ 1 → s.scanAccess = h.scanAt (some .copy)) ∧
    (s.goodAccesses 1 = 1 → s.cardAtCursor.state = 1 →
      (∀ r, s.cardAtCursor.version = 1 → s.cardAtCursor.kind.toNat = r.number → ∃ flags : Table Bool 8,
        (∀ g, flags.get g = (s.group g).pending) ∧
        s.scanAccess =
          { u with
            intake := { u.intake with
              scan := none
              walk := some
                { card := s.cardAtCursor, request := r, takenTick := s.tick, flags := flags
                  longCards := s.intake.longCards, left := n, solved := solved
                  ending := false, restart := false, rescan := false } } }) ∧
      (s.cardAtCursor.version ≠ 1 → refused .badVersion) ∧
      (s.cardAtCursor.version = 1 → ¬(1 ≤ s.cardAtCursor.kind.toNat ∧ s.cardAtCursor.kind.toNat ≤ 15) →
        refused .badKind))

/-- The first two steps of a scan (R167, R169, R170). The host words become the copies of the host's read indices;
then the completions that wait are written, in ascending card index, and those of one index, by the model's choice, in
the order in which they were decided (log 38, DESIGN CHOICE): each card gets the tag, the result and the done tick
that were kept for it, and sets CARD if it asked for it, and its completion leaves the list; one whose writes do not
all end well waits on, and so do those after it (R172). Only then is the board walked, for at most 32 cards. If every
access ends well and nothing comes between, the list is empty then. Access by access: a write of a completion that
ends well leaves its bytes, and with the last one the completion leaves the list; a completion decided after the first
step waits for the next scan, by the model's choice (log 35, DESIGN CHOICE), and that a completion is five writes,
each one access, is its choice too (log 16, DESIGN CHOICE). -/
def Obligations.ScanWritesWaitingCompletions : Prop :=
  ∀ s : State, s.intake.halted = false →
    (s.intake.scan = some .hostWords → ∀ order : List Completion, order.Perm s.intake.completions →
      order.Pairwise (fun c d => c.index ≤ d.index) →
      (∀ n, (order.filter fun c => decide (c.index = n)) =
        s.intake.completions.filter fun c => decide (c.index = n)) →
      (s.goodAccesses 1 = 0 → s.scanAccess = s.busFaulted) ∧
      (s.goodAccesses 1 = 1 →
        (order = [] → s.scanAccess = (s.withHostWords.accessed 1).scanAt (some (.board 32 false))) ∧
        (∀ c rest, order = c :: rest → ∃ ws : List AreaWrite, ws.length = 5 ∧
          s.scanAccess = (s.withHostWords.accessed 1).scanAt (some (.completions (c :: rest) ws))) ∧
        ∃ u n, State.deliversAll order ((s.withHostWords.accessed 1).scanAt none) u ∧
          State.scanAccess^[n] s = u.scanAt (if u.intake.halted then none else some (.board 32 false)) ∧
          (s.areaWorks → u.intake.completions = [] ∧ u.intake.longCards = s.intake.longCards ∧
            u.intake.halted = false))) ∧
    ∀ c rest w ws, s.intake.scan = some (.completions (c :: rest) (w :: ws)) →
      let written : State := { s.accessed 1 with area := s.area.writeBytes (s.areaBase + w.1) w.2 }
      (s.goodAccesses 1 = 0 → s.scanAccess = s.busFaulted) ∧
      (s.goodAccesses 1 = 1 → ws ≠ [] → s.scanAccess = written.scanAt (some (.completions (c :: rest) ws))) ∧
      (s.goodAccesses 1 = 1 → ws = [] → ∃ next : ScanPhase,
        (rest = [] → next = .board 32 false) ∧
        (∀ d later, rest = d :: later → ∃ vs : List AreaWrite, vs.length = 5 ∧ next = .completions rest vs) ∧
        s.scanAccess =
          { written with
            regs := { s.regs with noticeRaw := if c.notify then s.regs.noticeRaw ||| 1 else s.regs.noticeRaw }
            intake := { s.intake with
              completions := s.intake.completions.erase c, scan := some next } })

/-- A bus error at any area access (R172). With AREA_BUS_ERROR the command runs, and of the accesses made from then on
the one of the number given, or with the link down the next one (R173), ends in a bus error, be it the command's, a
later one's, a scan's between two commands, or the log write of a solve that ends between two: a write leaves the area
as it was, a read gives nothing, HALTED and AREA are set, the scan timer stops, the rest of a scan under way is not
made, and a scan marked to follow is discarded. Before it accesses end well; while HALTED is set none is made. So a
scan that fails at the host words leaves the rest as it was; one that fails at the card takes none, and the cursor
stays; one that fails in its last step has shown what it had written; and a solve whose SHORT or CURVE_FALLBACK cannot
be logged has ended. How the command names the access is the model's choice (log 7), and so are what counts as one
access and that a failed write leaves the area as it was, on which the spec is silent (log 16, DESIGN CHOICE). -/
def Obligations.BusErrorHaltsTheIntake : Prop :=
  (∀ (n : Nat) (c : Instr) (s : State), ∃ t, exec (.areaBusError n c) s = .next t ∧
    exec c.within { s with link := { s.link with failAfter := some n } } = .next t) ∧
  (∀ (s : State) (off n : Nat) (bs : List Byte),
    (s.intake.halted = true → s.areaWrite off bs = s ∧ s.areaRead off n = (none, s)) ∧
    (s.intake.halted = false → s.link.up = false ∨ s.link.failAfter = some 0 →
      s.areaWrite off bs = s.busFaulted ∧ s.areaRead off n = (none, s.busFaulted)) ∧
    (s.intake.halted = false → s.link.up = true → s.link.failAfter ≠ some 0 →
      let t : State := { s with link := { s.link with failAfter := s.link.failAfter.map (· - 1) } }
      s.areaWrite off bs = { t with area := s.area.writeBytes (s.areaBase + off) bs } ∧
        s.areaRead off n = (some (s.area.readBytes (s.areaBase + off) n), t))) ∧
  (∀ s : State, s.areaWorks →
    let scan (n : Nat) : State :=
      ({ s with link := { s.link with failAfter := some n } } : State).scanAt (some .hostWords)
    (scan 0).comesTo s.busFaulted ∧
    (s.intake.completions = [] →
      (scan 1).comesTo s.withHostWords.busFaulted ∧
      (s.cardAtCursor.state ≠ 1 → ∀ n, ∃ t, (scan (n + 2)).comesTo t ∧
        ({ s.withHostWords with link := { s.link with failAfter := some n } } : State).showsItself t))) ∧
  ∀ (s : State) (v : Solve), s.areaWorks → s.regs.run = true → s.logs.ready = true → s.solveReports v ≠ [] →
    let t := ({ s with link := { s.link with failAfter := some 0 } } : State).endSolves [v]
    t.intake.halted = true ∧ t.regs.noticeRaw.getLsbD 5 = true ∧ t.area = s.area ∧ t.groups = (s.writeSolve v).groups ∧
      t.contexts = (s.writeSolve v).contexts ∧ ∀ u ∈ t.solves, u.group ≠ v.group

/-! ## Cards -/

/-- After a card has been dispatched the scan goes on (R167, R168): with the next card, or, when its walk may take no
more, with its last step. How many accesses it makes with the command that dispatched the card is a free choice (log
10, DESIGN CHOICE); that a card of a kind that makes groups pending has been dispatched stays known until the walk
ends (R51, R58, R71; log 32, DEDUCED). It leaves what the card did alone - nothing changes but the intake unit's walk,
the area and the notices, and a context only becomes clean - and writes nothing outside the status block, the cards
and the mirror (R166), and nothing at all while intake is halted or the link is down. A scan that has been ended, or
halted, stops. A restart that waited for the card is then taken, a sweep or a roll begun by this card included (R142,
R155, R175; log 11, DEDUCED); with RUN set and the scan timer stopped it starts the timer and a scan; and if the SCAN
bit of the same write asked for one, that is requested after the restart (R174). -/
def Obligations.AfterCardTheScanGoesOn : Prop :=
  ∀ (s : State) (w : Walk),
    (w.restart = false →
      (∃ t, s.afterCard w = t ∧
        (∀ i, t.ctx i = { s.ctx i with dirty := (t.ctx i).dirty } ∧ ((t.ctx i).dirty = true → (s.ctx i).dirty = true)) ∧
        (∀ a, ¬s.inScanRegions a → t.area.read a = s.area.read a) ∧
        (s.intake.halted = true ∨ s.link.up = false → t.area = s.area) ∧
        t = { s with
          contexts := t.contexts, area := t.area
          intake := { s.intake with
            cursor := t.intake.cursor, halted := t.intake.halted, scanTimer := t.intake.scanTimer
            walk := t.intake.walk, scan := t.intake.scan, follow := t.intake.follow, scanCount := t.intake.scanCount }
          regs := { s.regs with noticeRaw := t.regs.noticeRaw }
          link := { s.link with failAfter := t.link.failAfter }, freeIndex := t.freeIndex }) ∧
      (w.ending = true ∨ s.intake.halted = true ∨ s.regs.run = false → s.afterCard w = s) ∧
      (w.ending = false → s.intake.halted = false → s.regs.run = true →
        let solves : Bool := decide (w.request = .solve ∨ w.request = .loadCurve ∨ w.request = .adopt ∨
          w.request = .retire ∨ w.request = .setGroup)
        (s.scanAt (some (if w.left = 0 then .copy else .board w.left (w.solved || solves)))).goesOn
          (s.afterCard w))) ∧
    (w.restart = true →
      let b := s.chainsRestarted
      ∃ t : State,
        (s.regs.run = false ∨ s.intake.scanTimer.isSome = true → t = b.intakeRestarted) ∧
        (s.regs.run = true → s.intake.scanTimer = none →
          exec (.scan true [])
            { b.intakeRestarted with intake := { b.intakeRestarted.intake with scanTimer := some 1000 } } = .next t) ∧
        (w.rescan = false → s.afterCard w = t) ∧
        (w.rescan = true → exec (.scan s.regs.run []) t = .next (s.afterCard w)))

/-- RETIRE (R44): an id above 255 is BAD_FIELD and an ABSENT context NOT_FOUND; otherwise the context leaves its work,
its generation is incremented, it becomes ABSENT and keeps its calibration, AGE_CLAMPED, E, g, target set and
push_count, its group becomes pending, and a VERIFY card held for its chain is tested (R141). The card shows the life
state that the context had by its number in section 10.2.5, and each outcome by its result code (section 10.2.2,
R169). -/
def Obligations.RetireCard : Prop :=
  ∀ (s : State) (w : Walk), s.underWay w .retire →
    (256 ≤ w.param16 0 → dispatches .retire s w s.dispatching .badField []) ∧
    ∀ i : Fin 256, w.param16 0 = i.val →
      ((s.ctx i).life = .absent → dispatches .retire s w s.dispatching .notFound []) ∧
      ((s.ctx i).life ≠ .absent → ∃ x u : State,
        dispatches .retire s w u .ok
          (bytes16 i.val ++ bytes8 ((s.ctx i).generation + 1).toNat ++ bytes8 (s.ctx i).life.number) ∧
        (∀ j, x.ctx j =
          if j = i then
            { s.ctx i with
              life := .absent, generation := (s.ctx i).generation + 1, temp := none, applied := none, sent := none
              latched := none, failCount := 0, mismatchCount := 0, verify := .none, faultReason := .none
              short := false, curveFallback := false, sensorSuspect := false, dirty := true }
          else s.ctx j) ∧
        (∀ g, x.group g = if g = (s.ctx i).group then { s.group g with pending := true } else s.group g) ∧
        (∀ ch, x.chain ch = if ch = (s.ctx i).chain then (s.chain ch).without i (s.ctx i) else s.chain ch) ∧
        x = { s.dispatching with contexts := x.contexts, groups := x.groups, chains := x.chains } ∧
        x.sweepTested u (s.ctx i).chain)

/-- An ADOPT that is not accepted (R32, R33, R37): an id above 255 is BAD_FIELD and no sheet is read; a sheet that
fails a check is BAD_FIELD; a position that another context holds is ADDRESS_TAKEN; and a sheet read that ends in
a bus error, or is not made since intake is halted, leaves the card uncompleted and everything at the table as it was
(R172). The sheet is read as section 10.2.3 lays it out. -/
def Obligations.AdoptRefusals : Prop :=
  ∀ (s : State) (w : Walk), s.underWay w .adopt →
    (256 ≤ w.param16 0 → dispatches .adopt s w s.dispatching .badField []) ∧
    ∀ i : Fin 256, w.param16 0 = i.val →
      let sh := s.sheetOf i
      let read := s.dispatching.accessed 1
      (s.goodAccesses 1 = 1 →
        (sh.serial = 0 ∨ 4 ≤ sh.chain ∨ sh.address = 0 ∨ 64 ≤ sh.address ∨ 8 ≤ sh.group ∨ 16 ≤ sh.page ∨
            (∃ p : Primary, sh.luminance.get p = 0 ∨ 16000 < sh.luminance.get p) →
          dispatches .adopt s w read .badField []) ∧
        (∀ p : Position, sh.passes p →
          (∃ j, j ≠ i ∧ (s.ctx j).life ≠ .absent ∧ (s.ctx j).chain = p.chain ∧ (s.ctx j).address = p.address) →
          dispatches .adopt s w read .addressTaken [])) ∧
      (s.goodAccesses 1 = 0 → exec .adopt s = .next (read.afterCard w)) ∧
      (s.goodAccesses 1 = 0 → s.intake.halted = false → w.restart = false →
        exec .adopt s = .next s.dispatching.busFaulted)

/-- An accepted ADOPT (R34 to R36): the context takes the sheet's calibration with its age factors clamped, starts a
new generation with no reading, no known set and no failure, and is corrected against the targets of its new group; it
leaves its former work and joins the probe queue of its chain at the tail; its new and its former group become
pending; a VERIFY card held for its former chain is tested (R141); SHORT (R57) and CURVE_FALLBACK (R77) are reported
where the correction sets them; and then its chain, if IDLE, chooses. -/
def Obligations.AdoptCard : Prop :=
  ∀ (s : State) (w : Walk) (i : Fin 256) (p : Position), s.underWay w .adopt → s.goodAccesses 1 = 1 →
    s.queuesLawful → w.param16 0 = i.val →
    let sh := s.sheetOf i
    sh.passes p →
    (∀ j, j ≠ i → (s.ctx j).life ≠ .absent → ¬((s.ctx j).chain = p.chain ∧ (s.ctx j).address = p.address)) →
    ∃ (x y z : State) (c : Context),
      dispatches .adopt s w (z.arbitrate p.chain) .ok
        (bytes16 i.val ++ bytes8 ((s.ctx i).generation + 1).toNat ++ bytes8 (s.ctx i).life.number ++
          bytes8 c.ageClamped.toNat) ∧
      c.life = .adopted ∧ c.generation = (s.ctx i).generation + 1 ∧ c.serial.toNat = sh.serial ∧
      c.chain.val = sh.chain ∧ c.address.val = sh.address ∧ c.group.val = sh.group ∧ c.page.val = sh.page ∧
      c.noVote = sh.noVote ∧ c.luminance = sh.luminance ∧ c.mix = sh.mix ∧
      (∀ q, c.age.get q = max 16384 (min (sh.age.get q) 32768)) ∧
      (c.ageClamped = true ↔ ∃ q, sh.age.get q < 16384 ∨ 32768 < sh.age.get q) ∧
      c.temp = none ∧ c.tempTick = w.takenTick ∧ c.stale = false ∧ c.sensorSuspect = false ∧
      c.applied = none ∧ c.sent = none ∧ c.latched = none ∧ c.failCount = 0 ∧ c.mismatchCount = 0 ∧
      c.verify = .none ∧ c.faultReason = .none ∧ c.pushCount = 0 ∧ c.dirty = true ∧
      c = c.corrected (c.correction s.pages (s.group c.group).targets) ∧
      (∀ j, x.ctx j = if j = i then c else s.ctx j) ∧
      (∀ g, x.group g =
        if g = c.group ∨ (s.ctx i).life ≠ .absent ∧ g = (s.ctx i).group then { s.group g with pending := true }
        else s.group g) ∧
      (∀ ch, x.chain ch =
        let k := if ch = (s.ctx i).chain then (s.chain ch).without i (s.ctx i) else s.chain ch
        if ch = c.chain then { k with probeQueue := k.probeQueue ++ [i] } else k) ∧
      x = { s.dispatching.accessed 1 with contexts := x.contexts, groups := x.groups, chains := x.chains } ∧
      x.sweepTested y (s.ctx i).chain ∧
      y.raises z
        (({ c with short := false, curveFallback := false } : Context).correctionReports s.tick
          (c.correction s.pages (s.group c.group).targets))

/-- SOLVE (R58): the group named, or all eight, becomes pending, and the card shows which already were when it was
taken, group n in bit n. -/
def Obligations.SolveCard : Prop :=
  (∀ (flags : List Bool) (n : Nat), (bitsOf flags).testBit n = flags.getD n false) ∧
  ∀ (s : State) (w : Walk), s.underWay w .solve →
    (w.param8 0 = 255 →
      dispatches .solve s w
        { s.dispatching with groups := s.groups.map fun g => { g with pending := true } } .ok
        (bytes8 255 ++ bytes8 (bitsOf ((List.finRange 8).map w.flags.get)))) ∧
    (∀ g : Fin 8, w.param8 0 = g.val →
      dispatches .solve s w (s.dispatching.modGroup g fun r => { r with pending := true }) .ok
        (bytes8 g.val ++ bytes8 (if w.flags.get g then 2 ^ g.val else 0))) ∧
    (8 ≤ w.param8 0 → w.param8 0 ≠ 255 → dispatches .solve s w s.dispatching .badField [])

/-- SET_GROUP (R59, R60): the six values are clamped to their ranges and taken; the solve timer starts again or is
stopped, the group becomes pending, and its beat counter is 0; the targets stay. -/
def Obligations.SetGroupCard : Prop :=
  ∀ (s : State) (w : Walk), s.underWay w .setGroup →
    (8 ≤ w.param8 0 → dispatches .setGroup s w s.dispatching .badField []) ∧
    ∀ (g : Fin 8) (v : Group), w.param8 0 = g.val →
      v =
        { s.group g with
          headroom := max 26214 (min (w.param16 2) 32768), cap := max 1 (min (w.param32 4) 262143)
          slew := max 1 (min (w.param16 8) 4096), beat := max 1 (min (w.param8 1) 255)
          solveInterval := min (w.param16 10) 600, staleLimit := max 1 (min (w.param16 12) 60)
          solveTimer := if w.param16 10 = 0 then none else some (min (w.param16 10) 600 * 1000000)
          pending := true, beatCount := 0 } →
      dispatches .setGroup s w (s.dispatching.modGroup g fun _ => v) .ok
        (bytes8 g.val ++ bytes8 v.beat ++ bytes16 v.headroom ++ bytes32 v.cap ++ bytes16 v.slew ++
          bytes16 v.solveInterval ++ bytes16 v.staleLimit)

/-- LOAD_CURVE (R71 to R76): a wrong slot or page number is BAD_FIELD; so is a slot with an entry of 0, whose place
the card shows; otherwise the page takes the slot's 99 entries, 16 bits each (section 10.2.3), and is loaded, and
every group with a member of that page, or every group for page 15, becomes pending. A slot read that ends in a bus
error, or is not made since intake is halted, changes nothing but the intake unit (R172). -/
def Obligations.LoadCurveCard : Prop :=
  ∀ (s : State) (w : Walk), s.underWay w .loadCurve →
    (4 ≤ w.param8 0 ∨ 16 ≤ w.param8 1 → dispatches .loadCurve s w s.dispatching .badField []) ∧
    ∀ (slot : Fin 4) (p : Fin 16), w.param8 0 = slot.val → w.param8 1 = p.val →
      let entry (k : Fin 99) : Nat := s.stagedEntry slot k.val
      let read := s.dispatching.accessed 1
      (s.goodAccesses 1 = 1 → ∀ k, entry k = 0 → (∀ j, j < k → entry j ≠ 0) →
        dispatches .loadCurve s w read .badField (bytes8 (k.val / 33) ++ bytes8 (k.val % 33))) ∧
      (s.goodAccesses 1 = 1 → (∀ k, entry k ≠ 0) → ∀ t : Table Nat 99, (∀ k, t.get k = entry k) → ∃ u : State,
        u = { read with pages := s.pages.set p { loaded := true, entries := t }, groups := u.groups } ∧
        (∀ g, (p = 15 ∨ ∃ i, (s.ctx i).life ≠ .absent ∧ (s.ctx i).group = g ∧ (s.ctx i).page = p) →
          u.group g = { s.group g with pending := true }) ∧
        (∀ g, ¬(p = 15 ∨ ∃ i, (s.ctx i).life ≠ .absent ∧ (s.ctx i).group = g ∧ (s.ctx i).page = p) →
          u.group g = s.group g) ∧
        ∃ flags : List Bool, flags.length = 8 ∧
          (∀ g : Fin 8, flags[g.val]? = some true ↔
            p = 15 ∨ ∃ i, (s.ctx i).life ≠ .absent ∧ (s.ctx i).group = g ∧ (s.ctx i).page = p) ∧
          dispatches .loadCurve s w u .ok
            (bytes8 p.val ++ bytes8 slot.val ++ bytes8 (s.pages.get p).loaded.toNat ++ bytes8 (bitsOf flags) ++
              bytes16 (bitsOf (u.pages.cells.map Page.loaded)))) ∧
      (s.goodAccesses 1 = 0 → exec .loadCurve s = .next (read.afterCard w)) ∧
      (s.goodAccesses 1 = 0 → s.intake.halted = false → w.restart = false →
        exec .loadCurve s = .next s.dispatching.busFaulted)

/-- SET_MODE, SET_FRAME and SET_FILTER (R79, R84, R159). SET_MODE takes 0 for SETUP and 1 for SHOW; SET_FRAME takes
a period of 100..5000, and the timer of the frame state starts again with it; SET_FILTER takes a filter number of
0..5, an enable and a destination of 0 or 1, and a mask and match of at most 4095, and replaces the filter's four
fields together. Any other value is BAD_FIELD, and each card shows what stood before it. -/
def Obligations.ModeFrameAndFilterCards : Prop :=
  ∀ (s : State) (w : Walk),
    (s.underWay w .setMode →
      (w.param8 0 = 0 →
        dispatches .setMode s w { s.dispatching with ramp := { s.ramp with mode := .setup } } .ok
          (bytes8 s.ramp.mode.number ++ bytes8 0)) ∧
      (w.param8 0 = 1 →
        dispatches .setMode s w { s.dispatching with ramp := { s.ramp with mode := .showing } } .ok
          (bytes8 s.ramp.mode.number ++ bytes8 1)) ∧
      (2 ≤ w.param8 0 → dispatches .setMode s w s.dispatching .badField [])) ∧
    (s.underWay w .setFrame →
      let p := w.param16 0
      (p < 100 ∨ 5000 < p → dispatches .setFrame s w s.dispatching .badField []) ∧
      (100 ≤ p ∧ p ≤ 5000 →
        (s.ramp.frameState = .regained →
          dispatches .setFrame s w
            { s.dispatching with ramp := { s.ramp with period := p, lossTimer := some (3 * p * 10) } } .ok
            (bytes16 s.ramp.period ++ bytes16 p ++ bytes8 0)) ∧
        (s.ramp.frameState = .lost →
          dispatches .setFrame s w
            { s.dispatching with ramp := { s.ramp with period := p, substituteTimer := some (p * 10) } } .ok
            (bytes16 s.ramp.period ++ bytes16 p ++ bytes8 1)))) ∧
    (s.underWay w .setFilter →
      (6 ≤ w.param8 0 ∨ 2 ≤ w.param8 1 ∨ 2 ≤ w.param8 2 ∨ 4096 ≤ w.param16 4 ∨ 4096 ≤ w.param16 6 →
        dispatches .setFilter s w s.dispatching .badField []) ∧
      ∀ (n : Fin 6) (f : Filter), w.param8 0 = n.val → w.param8 1 = f.enable.toNat → w.param8 2 = f.destination.number →
        w.param16 4 = f.mask.toNat → w.param16 6 = f.pattern.toNat →
        dispatches .setFilter s w { s.dispatching with filters := s.filters.set n f } .ok
          (bytes8 n.val ++ bytes8 (s.filters.get n).enable.toNat ++ bytes8 (s.filters.get n).destination.number ++
            bytes8 0 ++ bytes16 (s.filters.get n).mask.toNat ++ bytes16 (s.filters.get n).pattern.toNat))

/-- FREEZE and THAW (R93, R94). A tag outside 1..255 is BAD_FIELD. FREEZE: a tag that is held changes nothing; one
that is not is added, in ascending order, if fewer than 4 are held, and is FULL otherwise. THAW: a tag that is not
held is NOT_HELD; one that is held is removed, and the others stay. -/
def Obligations.FreezeAndThawCards : Prop :=
  ∀ (s : State) (w : Walk),
    (s.underWay w .freeze →
      let tag := w.param16 0
      let shown (tags : List Nat) : List Byte :=
        bytes8 tags.length ++ (List.range 4).map fun k => BitVec.ofNat 8 (tags.getD k 0)
      (tag = 0 ∨ 255 < tag → dispatches .freeze s w s.dispatching .badField []) ∧
      (1 ≤ tag ∧ tag ≤ 255 →
        (tag ∈ s.ramp.freezeSet → dispatches .freeze s w s.dispatching .ok (bytes8 1 ++ shown s.ramp.freezeSet)) ∧
        (tag ∉ s.ramp.freezeSet → 4 ≤ s.ramp.freezeSet.length →
          dispatches .freeze s w s.dispatching .full (bytes8 0 ++ shown s.ramp.freezeSet)) ∧
        (tag ∉ s.ramp.freezeSet → s.ramp.freezeSet.length < 4 → ∃ tags : List Nat,
          (∀ t, t ∈ tags ↔ t = tag ∨ t ∈ s.ramp.freezeSet) ∧ tags.length = s.ramp.freezeSet.length + 1 ∧
          (s.ramp.freezeSet.Pairwise (· < ·) → tags.Pairwise (· < ·)) ∧
          dispatches .freeze s w { s.dispatching with ramp := { s.ramp with freezeSet := tags } } .ok
            (bytes8 0 ++ shown tags)))) ∧
    (s.underWay w .thaw →
      let tag := w.param16 0
      let shown (tags : List Nat) : List Byte :=
        bytes8 0 ++ bytes8 tags.length ++ (List.range 4).map fun k => BitVec.ofNat 8 (tags.getD k 0)
      (tag = 0 ∨ 255 < tag → dispatches .thaw s w s.dispatching .badField []) ∧
      (1 ≤ tag ∧ tag ≤ 255 →
        (tag ∉ s.ramp.freezeSet → dispatches .thaw s w s.dispatching .notHeld (shown s.ramp.freezeSet)) ∧
        (tag ∈ s.ramp.freezeSet → ∃ tags : List Nat,
          (∀ t, t ∈ tags ↔ t ≠ tag ∧ t ∈ s.ramp.freezeSet) ∧ tags.Sublist s.ramp.freezeSet ∧
          dispatches .thaw s w { s.dispatching with ramp := { s.ramp with freezeSet := tags } } .ok (shown tags))))

/-- SET_CHAIN (R113): settings out of range are BAD_FIELD; then in SHOW mode the card is LOCKED; then a chain that
is not STOPPED is BUSY; otherwise the eight settings are replaced together. -/
def Obligations.SetChainCard : Prop :=
  ∀ (s : State) (w : Walk), s.underWay w .setChain →
    ((¬∃ (ch : Fin 4) (c : ChainConfig), c.lawful ∧ w.param8 0 = ch.val ∧ w.param8 1 = c.bitRate.number ∧
        w.param8 2 = c.retryLimit ∧ w.param8 3 = c.nakPolicy.number ∧ w.param16 4 = c.answerWindow ∧
        w.param16 6 = c.holdLimit ∧ w.param16 8 = c.pollPeriod ∧ w.param16 10 = c.verifyInterval ∧
        w.param16 12 = c.latchDeadline) →
      dispatches .setChain s w s.dispatching .badField []) ∧
    ∀ (ch : Fin 4) (c : ChainConfig), c.lawful → w.param8 0 = ch.val → w.param8 1 = c.bitRate.number →
      w.param8 2 = c.retryLimit → w.param8 3 = c.nakPolicy.number → w.param16 4 = c.answerWindow →
      w.param16 6 = c.holdLimit → w.param16 8 = c.pollPeriod → w.param16 10 = c.verifyInterval →
      w.param16 12 = c.latchDeadline →
      (s.ramp.mode = .showing → dispatches .setChain s w s.dispatching .locked []) ∧
      (s.ramp.mode = .setup → (s.chain ch).state ≠ .stopped → dispatches .setChain s w s.dispatching .busy []) ∧
      (s.ramp.mode = .setup → (s.chain ch).state = .stopped →
        dispatches .setChain s w (s.dispatching.modChain ch fun k => { k with config := c }) .ok
          (bytes8 ch.val ++ bytes8 c.bitRate.number ++ bytes8 c.retryLimit ++ bytes8 c.nakPolicy.number ++
            bytes16 c.answerWindow ++ bytes16 c.holdLimit ++ bytes16 c.pollPeriod ++ bytes16 c.verifyInterval ++
            bytes16 c.latchDeadline))

/-- START_CHAIN (R123): a wrong number is BAD_FIELD, a STOPPING chain BUSY, and a chain that runs is left as it is;
a STOPPED chain enters IDLE, its poll list becomes one due entry for every LIVE context in ascending order of
address, its timers start, and its arbiter chooses by the settings in force, a pending latch whose age has passed the
latch deadline being overdue (R112, R131). The lengths shown are those after that choice (log 14). -/
def Obligations.StartChainCard : Prop :=
  ∀ (s : State) (w : Walk), s.underWay w .startChain →
    (4 ≤ w.param8 0 → dispatches .startChain s w s.dispatching .badField []) ∧
    ∀ ch : Fin 4, w.param8 0 = ch.val →
      let shown (t : State) : List Byte :=
        bytes8 (s.chain ch).state.number ++ bytes8 (t.chain ch).probeQueue.length ++
          bytes8 (t.chain ch).pushQueue.length ++ bytes8 (t.chain ch).pollList.length
      ((s.chain ch).state = .stopping → dispatches .startChain s w s.dispatching .busy []) ∧
      ((s.chain ch).state ≠ .stopping → (s.chain ch).state ≠ .stopped →
        dispatches .startChain s w s.dispatching .ok (shown s)) ∧
      ((s.chain ch).state = .stopped → ∃ (live : List (Fin 256)) (u : State),
        (∀ i, i ∈ live ↔ (s.ctx i).life = .live ∧ (s.ctx i).chain = ch) ∧ live.Nodup ∧
        live.Pairwise (fun i j => (s.ctx i).address ≤ (s.ctx j).address) ∧
        u = (s.dispatching.modChain ch fun k =>
          { k with
            state := .idle
            latchPending := k.latchPending.map fun p =>
              { p with
                overdue := p.overdue || decide (k.config.latchDeadline * 10 < (s.tick - p.setTick).toNat) }
            pollList := live.map fun i => { ctx := i, overdue := false, inFlight := false }
            pollTimer := some (k.config.pollPeriod * 1000)
            sweepTimer := if k.config.verifyInterval = 0 then none
              else some (k.config.verifyInterval * 1000000) }).arbitrate ch ∧
        dispatches .startChain s w u .ok (shown u))

/-- STOP_CHAIN (R124): a wrong number is BAD_FIELD; a ROLLING chain, or one that had a STOP_CHAIN card held when the
card was taken (R170), is BUSY; a STOPPED chain stays so and an IDLE one enters STOPPED, the card is completed at
once, and a VERIFY card held for the chain is CANCELLED with the counts as they stand, the DUE marks of the contexts
staying (R142); a BUSY or HOLDING chain enters STOPPING and the card is held, TAKEN (R169, R170). A STOPPING chain
whose earlier STOP_CHAIN card a restart has dropped holds the card like a BUSY one, by the model's choice (log 12). -/
def Obligations.StopChainCard : Prop :=
  ∀ (s : State) (w : Walk), s.underWay w .stopChain →
    (4 ≤ w.param8 0 → dispatches .stopChain s w s.dispatching .badField []) ∧
    ∀ ch : Fin 4, w.param8 0 = ch.val →
      let k := s.chain ch
      let stopTo (st : ChainState) : State :=
        s.dispatching.modChain ch fun k => { k with state := st, pollTimer := none, sweepTimer := none }
      let shown : List Byte :=
        bytes8 0 ++ bytes8 0 ++ bytes8 k.probeQueue.length ++ bytes8 k.pushQueue.length ++
          bytes8 k.pollList.length ++ bytes8 0 ++ bytes16 k.pollOverrun
      let stopped : State := if k.state = .idle then stopTo .stopped else s.dispatching
      (k.state = .rolling ∨ (w.entries ch).stop.isSome = true →
        dispatches .stopChain s w s.dispatching .busy []) ∧
      ((w.entries ch).stop = none → k.state = .stopped ∨ k.state = .idle →
        (k.sweep = none → dispatches .stopChain s w stopped .ok shown) ∧
        ∃ t u, stopped.completes t w.card .ok shown ∧ t.sweepEnds u ch .cancelled ∧
          exec .stopChain s = .next (u.afterCard w)) ∧
      ((w.entries ch).stop = none → k.state = .busy ∨ k.state = .holding ∨ k.state = .stopping → ∃ t,
        (stopTo .stopping).takes t w.card ∧
        exec .stopChain s = .next
          ((t.modEntries ch fun e =>
            { e with
              stop := some
                { index := w.card.index, kind := .stopChain, tag := w.card.tag
                  notify := w.card.flags.getLsbD 0 } }).afterCard
            w))

/-- VERIFY (R140, R141): a wrong number is BAD_FIELD, a chain that had a ROLL_CALL or VERIFY card held when the card
was taken BUSY (R170); otherwise every LIVE context of the chain that is not READING is marked DUE and the number of
LIVE ones is recorded. With none DUE or READING the card is completed at once with counts of 0; else it is held,
TAKEN, and the chain's arbiter chooses. -/
def Obligations.VerifyCard : Prop :=
  ∀ (s : State) (w : Walk), s.underWay w .verify →
    (4 ≤ w.param8 0 → dispatches .verify s w s.dispatching .badField []) ∧
    ∀ ch : Fin 4, w.param8 0 = ch.val →
      ((w.entries ch).sweepOrRoll.isSome = true → dispatches .verify s w s.dispatching .busy []) ∧
      ((w.entries ch).sweepOrRoll = none →
        (∀ i, (s.ctx i).chain = ch →
          (s.ctx i).life ≠ .live ∧ (s.ctx i).verify ≠ .due ∧ (s.ctx i).verify ≠ .reading) →
        dispatches .verify s w (s.dispatching.modChain ch fun k => { k with sweep := none }) .ok
          [0, 0, 0, 0, 0, 0, 0, 0, 0, 0]) ∧
      ((w.entries ch).sweepOrRoll = none →
        (∃ i, (s.ctx i).chain = ch ∧
          ((s.ctx i).life = .live ∨ (s.ctx i).verify = .due ∨ (s.ctx i).verify = .reading)) → ∃ u t : State,
        (∀ i, u.ctx i =
          if (s.ctx i).life = .live ∧ (s.ctx i).chain = ch ∧ (s.ctx i).verify ≠ .reading ∧ (s.ctx i).verify ≠ .due
          then { s.ctx i with verify := .due, dirty := true } else s.ctx i) ∧
        u = { s.dispatching.modChain ch fun k =>
          { k with
            sweep := some
              { marked := ((List.finRange 256).filter fun i =>
                  decide ((s.ctx i).life = .live) && decide ((s.ctx i).chain = ch)).length
                matched := 0, mismatched := 0, failed := 0, dropped := 0 } } with contexts := u.contexts } ∧
        u.takes t w.card ∧
        exec .verify s = .next
          (((t.modEntries ch fun e =>
            { e with
              sweepOrRoll := some
                { index := w.card.index, kind := .verify, tag := w.card.tag
                  notify := w.card.flags.getLsbD 0 } }).arbitrate
            ch).afterCard w))

/-- ROLL_CALL (R147, R151): a wrong number is BAD_FIELD, a chain that had a ROLL_CALL or VERIFY card held when the
card was taken BUSY (R170); otherwise the card is held, TAKEN, whatever the chain's state, a roll is in progress, and
an IDLE chain begins it at once. On a chain whose roll a restart is still ending, the roll asked for follows that end,
by the model's choice (log 11). The attempt count 0 and the retry limit 0 of a roll that waits for its first step are
the model's choice (log 28, DESIGN CHOICE): R145 gives the count as 1..4, and the limit as read at that step. -/
def Obligations.RollCallCard : Prop :=
  ∀ (s : State) (w : Walk), s.underWay w .rollCall →
    (4 ≤ w.param8 0 → dispatches .rollCall s w s.dispatching .badField []) ∧
    ∀ ch : Fin 4, w.param8 0 = ch.val →
      let held (t : State) : State := t.modEntries ch fun e =>
        { e with
          sweepOrRoll := some
            { index := w.card.index, kind := .rollCall, tag := w.card.tag
              notify := w.card.flags.getLsbD 0 } }
      ((w.entries ch).sweepOrRoll.isSome = true → dispatches .rollCall s w s.dispatching .busy []) ∧
      ((w.entries ch).sweepOrRoll = none → (s.chain ch).roll = none → ∃ u t : State,
        u = (s.dispatching.modChain ch fun k =>
          if k.state = .idle then
            { k with
              state := .rolling
              roll := some
                { begun := true, attempts := 1, retryLimit := k.config.retryLimit, serials := [], phase := .toBegin
                  ending := false, again := false } }
          else
            { k with
              roll := some
                { begun := false, attempts := 0, retryLimit := 0, serials := [], phase := .toBegin, ending := false
                  again := false } }) ∧
        u.takes t w.card ∧ exec .rollCall s = .next ((held t).afterCard w)) ∧
      ∀ r, (w.entries ch).sweepOrRoll = none → (s.chain ch).state = .rolling → (s.chain ch).roll = some r →
        r.begun = true → ∃ t : State,
        (s.dispatching.modChain ch fun k => { k with roll := some { r with again := true } }).takes t w.card ∧
        exec .rollCall s = .next ((held t).afterCard w)

/-! ## Frames, the solver and the arithmetic -/

/-- The frame monitor (R80 to R82, R95). While REGAINED an edge gives a frame event and starts the loss timer;
while LOST an edge becomes the candidate, or regains the frame, with a frame event, if it is spaced 0.5 to 1.5
nominal periods from the candidate. The loss timer's end makes the frame LOST; the substitute timer's gives a
frame event and starts again. The pushes that one beat of a group makes join each chain's queue in ascending order of
context id (R88). FREEZE_IN is a level. That a stopped timer's expiry does nothing, and in which of the
orders that R85 and R88 leave open the beats come and, chain by chain, the counts, are the model's choices (logs 2 and
8). -/
def Obligations.FrameMonitor : Prop :=
  ∀ s : State,
    (s.ramp.frameState = .regained → ∃ t, exec .frameEdge s = .next t ∧
      ({ s with ramp := { s.ramp with lossTimer := some (3 * s.ramp.period * 10) } } : State).afterFrameEvent t) ∧
    (s.ramp.frameState = .lost → s.ramp.candidate = none →
      exec .frameEdge s = .next { s with ramp := { s.ramp with candidate := some s.clock } }) ∧
    (∀ c, s.ramp.frameState = .lost → s.ramp.candidate = some c →
      (s.ramp.period ≤ 2 * ((s.clock - c) / 10) ∧ 2 * ((s.clock - c) / 10) ≤ 3 * s.ramp.period →
        ∃ t, exec .frameEdge s = .next t ∧
          ({ s with
            ramp := { s.ramp with
              frameState := .regained, substituteTimer := none, candidate := none
              lossTimer := some (3 * s.ramp.period * 10) }
            regs := { s.regs with noticeRaw := s.regs.noticeRaw ||| 16 } } : State).afterFrameEvent t) ∧
      (¬(s.ramp.period ≤ 2 * ((s.clock - c) / 10) ∧ 2 * ((s.clock - c) / 10) ≤ 3 * s.ramp.period) →
        exec .frameEdge s = .next { s with ramp := { s.ramp with candidate := some s.clock } })) ∧
    (s.ramp.lossTimer.isSome = true → exec .lossTimerExpiry s = .next
      { s with
        ramp := { s.ramp with
          frameState := .lost, lossTimer := none, substituteTimer := some (s.ramp.period * 10), candidate := none }
        regs := { s.regs with noticeRaw := s.regs.noticeRaw ||| 16 } }) ∧
    (s.ramp.lossTimer = none → exec .lossTimerExpiry s = .next s) ∧
    (s.ramp.substituteTimer.isSome = true → ∃ t, exec .substituteTimerExpiry s = .next t ∧
      ({ s with ramp := { s.ramp with substituteTimer := some (s.ramp.period * 10) } } : State).afterFrameEvent t) ∧
    (s.ramp.substituteTimer = none → exec .substituteTimerExpiry s = .next s) ∧
    ∀ a, exec (.freezeInChange a) s = .next { s with ramp := { s.ramp with freezeIn := a } }

/-- A tile's applied set changes only at a beat of its group that acts on it, in SHOW mode by no more than the slew
step, at ADOPT and at RETIRE, which make it unknown, at its entry into LIVE, where it becomes the target set, or at
a power-on reset, which makes it unknown (R90). -/
def Obligations.AppliedSetChangesOnlyAtItsEvents : Prop :=
  ∀ (c : Instr) (s t : State) (i : Fin 256), exec c s = .next t → (t.ctx i).applied ≠ (s.ctx i).applied →
    (c.within = .powerOnReset ∧ (t.ctx i).applied = none) ∨
    ((c.within = .frameEdge ∨ c.within = .substituteTimerExpiry) ∧ s.stepsNext i ∧
      ∀ a, (s.ctx i).applied = some a → ∃ b, (t.ctx i).applied = some b ∧
        (s.ramp.mode = .setup → b = (s.ctx i).target) ∧
        (s.ramp.mode = .showing → ∀ p q, (((b.get p).get q) - ((a.get p).get q)).natAbs ≤
          (s.group (s.ctx i).group).slew)) ∨
    (c.within = .adopt ∧ (t.ctx i).life = .adopted ∧ (t.ctx i).applied = none) ∨
    (c.within = .retire ∧ (t.ctx i).life = .absent ∧ (t.ctx i).applied = none) ∨
    ((s.ctx i).life ≠ .live ∧ (t.ctx i).life = .live ∧ (t.ctx i).applied = some (t.ctx i).target)

/-- A solve timer that runs out makes its group pending and stays stopped (R50). The staleness check marks every
context that is not ABSENT and whose temperature is older than its group's stale limit (R66). A stopped timer's
expiry does nothing, by the model's choice (log 2). -/
def Obligations.SolveTimersAndStaleness : Prop :=
  ∀ s : State,
    (∀ g, (s.group g).solveTimer.isSome = true →
      exec (.solveTimerExpiry g) s = .next (s.modGroup g fun r => { r with pending := true, solveTimer := none })) ∧
    (∀ g, (s.group g).solveTimer = none → exec (.solveTimerExpiry g) s = .next s) ∧
    ∃ t, exec .stalenessCheckExpiry s = .next t ∧ t.stalenessTimer = some 100000 ∧
      (∀ i, t.ctx i =
        if (s.ctx i).life ≠ .absent ∧ (s.ctx i).stale = false ∧
          (s.group (s.ctx i).group).staleLimit * 10000 < (s.tick - (s.ctx i).tempTick).toNat
        then { s.ctx i with stale := true, dirty := true } else s.ctx i) ∧
      t = { s with contexts := t.contexts, stalenessTimer := t.stalenessTimer }

/-- The solver's service (R18, R49, R50, R52, R53, R54, R70): a solve of every pending group begins and its flag is
cleared. It reads its group's headroom and cap and its members, in any life state but ABSENT, as they stand; each
member's correction reads its page by itself. Some of these solves end at once, and the others stay under way, so that
what comes next may stand between their reading and their writing, and between the readings of two members' pages:
which, and that all have ended when the next service comes, is the model's choice (log 26). While a card that has been
taken is to be dispatched the service waits for it, so that the card counts as taken before the solves (R54), and
while a walk goes on that has dispatched a card of a kind that makes groups pending - ADOPT, RETIRE, SOLVE, SET_GROUP
or LOAD_CURVE - it waits for its end, so that the dependent solves of several LOAD_CURVE cards taken at one scan are
served together (R71), and several SOLVE cards taken at one scan for one group give one solve (R58; log 32, DEDUCED);
that it waits no longer, and so may come before the same scan has copied its status block, is the model's choice (log
37, DESIGN CHOICE). -/
def Obligations.ServiceSolvesPendingGroups : Prop :=
  ∀ s : State,
    (s.holdsService → exec .serviceTimerExpiry s = .next { s with serviceTimer := some 0 }) ∧
    (¬s.holdsService → exec .serviceTimerExpiry s = exec .serviceTimerExpiry (s.endSolves s.solves)) ∧
    (s.endSolves s.solves).solves = [] ∧
    (¬s.holdsService → s.solves = [] → ∃ (vs ended : List Solve) (n : Nat),
      (vs.map Solve.group).Pairwise (· < ·) ∧ (∀ g, (∃ v ∈ vs, v.group = g) ↔ (s.group g).pending = true) ∧
      (∀ v ∈ vs, s.beginsSolve v) ∧ ended.Sublist vs ∧
      exec .serviceTimerExpiry s = .next (({ s with
        groups := s.groups.map fun g => { g with pending := false }
        serviceTimer := some 1000, solves := vs, freeIndex := n } : State).endSolves ended))

/-- The end of solves under way (R10 to R12, R17, R18, R50, R52, R53, R57, R70, R77). A member that has not read its
page reads it now; the targets come from the eligible members, and each member's correction is completed against them,
from the fields it had when the solve began and from its own reading. Each result is written into the member if its
generation is still the one that was read, and into no member that has been adopted again or retired since; and the
group takes the targets, with its timer started again. The SHORT and CURVE_FALLBACK flags that this newly sets are
reported, all together and in a free order (log 8), and nothing else changes. -/
def Obligations.SolvesEnd : Prop :=
  ∀ (s : State) (vs : List Solve), (vs.map Solve.group).Nodup → (∀ v ∈ vs, (v.members.map SolveMember.ctx).Nodup) →
    ∃ (T : Solve → Option (Rgb Nat)) (u : State), (∀ v ∈ vs, s.solvesTo v (T v)) ∧ State.writesSolves T vs s u ∧
      u.raises (s.endSolves vs)
        (vs.flatMap fun v => v.members.flatMap fun m =>
          if (s.ctx m.ctx).generation = m.tile.generation then
            (s.ctx m.ctx).correctionReports s.tick (s.resultOf (T v) m)
          else [])

/-- The targets of a solve that has found an eligible tile (R11): each primary's is the smaller of the least effective
luminance of the eligible tiles (R10) times the headroom, rounded down, and the cap; so it is no greater than the cap
nor, the headroom being at most 1.0, than the effective luminance that the solve computed for any eligible tile. They
are in the group record as soon as the solve has ended, whatever came between its reading and its end; where the solve
of a group ends with the service that began it, they are computed from the table and the curve store as they stand. -/
def Obligations.SolvedTargets : Prop :=
  (∀ (s : State) (v : Solve), (∃ m ∈ v.members, m.tile.eligible = true) → ∃ T,
    ((s.endSolves [v]).group v.group).targets = some T ∧
    ∀ p, (∃ m ∈ v.members, m.tile.eligible = true ∧
        T.get p = min ((s.readingOf m).effective.get p * v.headroom / 32768) v.cap ∧
        ∀ n ∈ v.members, n.tile.eligible = true →
          (s.readingOf m).effective.get p ≤ (s.readingOf n).effective.get p) ∧
      T.get p ≤ v.cap ∧
      (v.headroom ≤ 32768 → ∀ n ∈ v.members, n.tile.eligible = true → T.get p ≤ (s.readingOf n).effective.get p)) ∧
  ∀ (s t : State) (g : Fin 8), exec .serviceTimerExpiry s = .next t → ¬s.holdsService → s.solves = [] →
    (s.group g).pending = true →
    let votes (i : Fin 256) : Prop := (s.ctx i).group = g ∧ (s.ctx i).eligible = true
    (∃ i, votes i) → ∃ T, ((∀ v ∈ t.solves, v.group ≠ g) → (t.group g).targets = some T) ∧
      ∀ p, (∃ i, votes i ∧
          T.get p = min (((s.ctx i).effectiveNow s.pages).get p * (s.group g).headroom / 32768) (s.group g).cap ∧
          ∀ j, votes j → ((s.ctx i).effectiveNow s.pages).get p ≤ ((s.ctx j).effectiveNow s.pages).get p) ∧
        T.get p ≤ (s.group g).cap ∧
        ((s.group g).headroom ≤ 32768 → ∀ j, votes j → T.get p ≤ ((s.ctx j).effectiveNow s.pages).get p)

/-- A tile correction follows the formulas of chapter 1 (R3 to R6, R8, R9, R13 to R17), and, taken in two stages as in
a solve (R18), is what its reading of its page gives. Every effective luminance is at least 1, every gain lies in
1..32768, every target term of a mix matrix in the term format is in the term format, and a row whose gain is 1.0 is
copied from the mix matrix. That a loaded own page is read before page 15 is loaded, as R5 has it against R69, is the
model's choice (log 31). -/
def Obligations.TileCorrection : Prop :=
  ∀ (pages : Table Page 16) (targets : Option (Rgb Nat)) (c : Context) (p : Primary),
    let k := c.correction pages targets
    c.correctionFrom (c.readPage pages) targets = k ∧ (c.readPage pages).effective = k.effective ∧
    let t : Int := match c.temp with
      | none => 250
      | some x => max (-100) (min x 700)
    let u := (t + 100).toNat
    let own := (pages.get c.page).loaded
    let wall := (pages.get 15).loaded
    let row : Nat := match p with
      | .red => 0
      | .green => 33
      | .blue => 66
    let entry (n : Nat) : Nat :=
      if own then (pages.get c.page).entries.cells.getD (row + n) 0
      else if wall then (pages.get 15).entries.cells.getD (row + n) 0
      else 32768
    let f :=
      if u / 25 = 32 then entry 32
      else (entry (u / 25) * (25 - u % 25) + entry (u / 25 + 1) * (u % 25) + 12) / 25
    let y := (c.luminance.get p * f + 2048) / 4096
    let e := max 1 ((y * c.age.get p + 16384) / 32768)
    k.effective.get p = e ∧
    (targets = none → k.gain.get p = 32768) ∧
    (∀ T, targets = some T → k.gain.get p = max 1 (min ((T.get p * 32768 + e / 2) / e) 32768)) ∧
    (∀ j, (k.target.get p).get j = Int.fdiv ((k.gain.get p : Int) * (c.mix.get p).get j + 16384) 32768) ∧
    (k.short = true ↔ ∃ T q, targets = some T ∧
      32768 < (T.get q * 32768 + k.effective.get q / 2) / k.effective.get q) ∧
    (k.shorts.get p = true ↔ ∃ T, targets = some T ∧ 32768 < (T.get p * 32768 + e / 2) / e) ∧
    (k.fallback = true ↔ own = false) ∧ k.wallDefault = wall ∧
    1 ≤ e ∧ (1 ≤ k.gain.get p ∧ k.gain.get p ≤ 32768) ∧
    (∀ j, inTermRange ((c.mix.get p).get j) → inTermRange ((k.target.get p).get j)) ∧
    (k.gain.get p = 32768 → k.target.get p = c.mix.get p)

/-- The ramp step of SHOW mode (R20): at a frame event with a beat that acts on a tile, be it of an edge while
REGAINED, of the edge that regains the frame, or a substituted one (R80 to R82), each of the nine terms of its applied
set is stepped from the target set and the slew step as they stand, and the set is written whole. A term within the
slew step of its target becomes the target, and any other moves toward it by exactly the slew step; so it moves by no
more than the slew step, does not pass its target, and the remaining difference is the old one less the slew step, or
0 if that would be negative. -/
def Obligations.RampStep : Prop :=
  ∀ (s : State) (c : Instr) (k : Fin 256) (old : TermSet), s.ramp.mode = .showing → s.frameEventAt c →
    s.stepsNext k → (s.ctx k).applied = some old → ∃ t, exec c s = .next t ∧ ∃ new : TermSet,
      (t.ctx k).applied = some new ∧ ∀ i j : Primary,
        let slew := (s.group (s.ctx k).group).slew
        let a := (old.get i).get j
        let c := ((s.ctx k).target.get i).get j
        let b := (new.get i).get j
        ((c - a).natAbs ≤ slew → b = c) ∧
        (slew < (c - a).natAbs → (a < c → b = a + slew) ∧ (c < a → b = a - slew)) ∧
        (b - a).natAbs ≤ slew ∧ min a c ≤ b ∧ b ≤ max a c ∧ (c - b).natAbs = (c - a).natAbs - slew

/-! ## Tile links -/

/-- When a chain's frame is sent (R97, R102, R104, R108, R144, R146): a chosen piece of work begins its frame, a
failed attempt its resend and a roll its new attempt, as soon as the line has been quiet for two byte times, or
20 byte times have passed; until then nothing changes. The line carries the frame, and the end of a transaction's
frame opens the answer window, that of a ROLL frame slot 1. The model's choices: what the line has been is an
operand (log 9), and the end of a LATCH frame with none being sent has no effect (log 2). -/
def Obligations.FramesAreSent : Prop :=
  ∀ (s : State) (ch : Fin 4) (quiet waited : Nat),
    (quiet < 2 → waited < 20 →
      exec (.frameBegin ch quiet waited) s = .next s ∧ exec (.resend ch quiet waited) s = .next s ∧
        exec (.rollRetry ch quiet waited) s = .next s) ∧
    ((s.chain ch).flight ≠ .latch true → exec (.latchSent ch) s = .next s) ∧
    (2 ≤ quiet ∨ 20 ≤ waited →
      (∀ t, (s.chain ch).flight = .transaction t → t.phase = .toBegin → ∃ u,
        exec (.frameBegin ch quiet waited) s = .next u ∧
        u = s.modChain ch (fun k => { k with flight := .transaction { t with phase := .sending } }) ∧
        u.frameOnLine ch = some (t.kind.frame t.address t.payload) ∧ u.driving ch = true) ∧
      ((s.chain ch).flight = .latch false → ∃ u,
        exec (.frameBegin ch quiet waited) s = .next u ∧
        u = s.modChain ch (fun k => { k with flight := .latch true }) ∧ u.frameOnLine ch = some latchFrame) ∧
      (∀ r, (s.chain ch).state = .rolling → (s.chain ch).flight = .none → (s.chain ch).roll = some r →
        r.phase = .toBegin → ∃ u, exec (.frameBegin ch quiet waited) s = .next u ∧
          u = s.modChain ch (fun k => { k with roll := some { r with phase := .sending } }) ∧
          u.frameOnLine ch = some rollFrame) ∧
      (∀ t, (s.chain ch).flight = .transaction t → t.phase = .toResend → ∃ u,
        exec (.resend ch quiet waited) s = .next u ∧
        u = s.modChain ch (fun k =>
          { k with flight := .transaction { t with attempts := t.attempts + 1, phase := .sending } }) ∧
        u.frameOnLine ch = some (t.kind.frame t.address t.payload)) ∧
      (∀ r, (s.chain ch).state = .rolling → (s.chain ch).roll = some r → r.phase = .toRetry →
        exec (.rollRetry ch quiet waited) s = .next (s.modChain ch fun k =>
          { k with roll := some { r with attempts := r.attempts + 1, serials := [], phase := .sending } }))) ∧
    (∀ t, (s.chain ch).flight = .transaction t → t.phase = .sending →
      exec (.frameSent ch) s = .next
        (s.modChain ch fun k => { k with flight := .transaction { t with phase := .window } })) ∧
    (∀ r, (s.chain ch).state = .rolling → (s.chain ch).flight = .none → (s.chain ch).roll = some r →
      r.phase = .sending →
      exec (.frameSent ch) s = .next (s.modChain ch fun k => { k with roll := some { r with phase := .slot } }))

/-- The frames of the part (R98 to R100): each is its kind byte, the address, the payload and the check over all of
these, high byte first; a WRITE_SET carries the eighteen bytes of which the set's check word is the check, its nine
terms in set order and each with its high byte first. The check is 16 bits by the generator x^16 + x^12 + x^5 + 1,
begins with 0xFFFF, and takes each byte's bits from the most significant on; for the bytes of 123456789 it is 0x29B1
(R99). -/
def Obligations.ControllerFrames : Prop :=
  (frameCheck [] = 0xFFFF ∧
    (∀ (bs : List Byte) (b : Byte),
      let next (r : Half) (bit : Bool) : Half :=
        if r.getLsbD 15 = bit then r <<< 1 else (r <<< 1) ^^^ (1 <<< 12 ||| 1 <<< 5 ||| 1)
      frameCheck (bs ++ [b]) =
        next (next (next (next (next (next (next (next (frameCheck bs)
          (b.getLsbD 7)) (b.getLsbD 6)) (b.getLsbD 5)) (b.getLsbD 4)) (b.getLsbD 3)) (b.getLsbD 2)) (b.getLsbD 1))
          (b.getLsbD 0)) ∧
    frameCheck [0x31, 0x32, 0x33, 0x34, 0x35, 0x36, 0x37, 0x38, 0x39] = 0x29B1) ∧
  ∀ (a : Fin 64) (set : TermSet),
    (∀ kind : WorkKind, ∀ payload, ∃ body : List Byte,
      kind.frame a payload =
        body ++ [(frameCheck body).extractLsb' 8 8, (frameCheck body).extractLsb' 0 8] ∧
      body.head? = some (match kind with
        | .push => 0xA1
        | .readback => 0xA2
        | .probe => 0xA3
        | .poll => 0xA4) ∧
      body[1]?.map BitVec.toNat = some a.val ∧ (kind.frame a payload).length = if kind = .push then 22 else 4) ∧
    (∃ check, WorkKind.push.frame a (some set) = 0xA1 :: BitVec.ofNat 8 a.val :: (linkSet set ++ check)) ∧
    (linkSet set).length = 18 ∧ checkWord set = frameCheck (linkSet set) ∧
    (∀ n < 9,
      let t : Int :=
        [set.r.r, set.r.g, set.r.b, set.g.r, set.g.g, set.g.b, set.b.r, set.b.g, set.b.b].getD n 0
      (linkSet set).getD (2 * n) 0 = leByte (twosComplement t) 1 ∧
        (linkSet set).getD (2 * n + 1) 0 = leByte (twosComplement t) 0 ∧
        (inTermRange t → ((linkSet set).getD (2 * n) 0 ++ (linkSet set).getD (2 * n + 1) 0).toInt = t)) ∧
    latchFrame = [0xA5, 0] ++ link16 (frameCheck [0xA5, 0]) ∧ rollFrame = [0xA6, 0] ++ link16 (frameCheck [0xA6, 0])

/-- The answers of the tiles (R98, R99, R103): a frame with its right check is read as what it carries; one whose
received check differs from the computed one, one of an unknown kind, and one whose length is not that of its kind, is
no frame; and each frame of the part has its valid kinds. A frame's bytes taken together with their check, its high
byte first, have the check 0. What was received is the answer when two byte times of quiet have ended it, and no frame
when it has been cut off without one (R103). -/
def Obligations.AnswersAreRead : Prop :=
  (TileFrame.ofBytes (withCheck [0x51]) = some .ack ∧ TileFrame.ofBytes (withCheck [0x52]) = some .nak ∧
    TileFrame.ofBytes (withCheck [0x53]) = some .hold) ∧
  (∀ h l : Byte, TileFrame.ofBytes (withCheck [0x54, h, l]) = some (.check (h ++ l))) ∧
  (∀ a b c d : Byte,
    TileFrame.ofBytes (withCheck [0x55, a, b, c, d]) = some (.identity (a ++ b ++ c ++ d)) ∧
    TileFrame.ofBytes (withCheck [0x57, a, b, c, d]) = some (.rollAnswer (a ++ b ++ c ++ d))) ∧
  (∀ h l a b c d : Byte, TileFrame.ofBytes (withCheck [0x56, h, l, 0, a, b, c, d]) =
    some (.status (h ++ l).toInt none)) ∧
  (∀ (h l a b c d : Byte) (k : Fin 8),
    TileFrame.ofBytes (withCheck [0x56, h, l, BitVec.ofNat 8 (0x80 + k.val), a, b, c, d]) =
      some (.status (h ++ l).toInt (some { kind := k, value := a ++ b ++ c ++ d }))) ∧
  (∀ (h l r a b c d : Byte), r ≠ 0 → r.toNat < 0x80 ∨ 0x87 < r.toNat →
    TileFrame.ofBytes (withCheck [0x56, h, l, r, a, b, c, d]) = none) ∧
  (∀ (body : List Byte) (h l : Byte), h ++ l ≠ frameCheck body → TileFrame.ofBytes (body ++ [h, l]) = none) ∧
  (∀ body : List Byte, frameCheck (withCheck body) = 0 ∧
    withCheck body = body ++ [(frameCheck body).extractLsb' 8 8, (frameCheck body).extractLsb' 0 8]) ∧
  (∀ (kind : WorkKind) (f : TileFrame),
    (kind.judge (some .nak) = .nak ∧ kind.judge none = .garbled) ∧
    (kind.judge (some f) = .hold ↔ kind = .push ∧ f = .hold) ∧
    (kind.judge (some f) = .good f ↔
      kind = .push ∧ f = .ack ∨ kind = .readback ∧ (∃ w, f = .check w) ∨ kind = .probe ∧ (∃ w, f = .identity w) ∨
        kind = .poll ∧ ∃ t r, f = .status t r)) ∧
  (∀ body : List Byte,
    let has (k : Byte) (n : Nat) : Prop := body.head? = some k ∧ body.length = n
    ¬(has 0x51 1 ∨ has 0x52 1 ∨ has 0x53 1 ∨ has 0x54 3 ∨ has 0x55 5 ∨ has 0x56 8 ∨ has 0x57 5) →
      TileFrame.ofBytes (withCheck body) = none) ∧
  ∀ bytes, answerFrame bytes true = TileFrame.ofBytes bytes ∧ answerFrame bytes false = none

/-- At the end of a LATCH frame every LIVE context of the chain whose sent set is known has its latched set made
equal to it, latch-pending and its mark are cleared and the frame count is 0 (R133); then the work ends (R108). -/
def Obligations.LatchSent : Prop :=
  ∀ (s : State) (ch : Fin 4),
    (s.chain ch).flight = .latch true → ∃ u : State, exec (.latchSent ch) s = .next (u.endFlight ch 5 true) ∧
      (∀ i, u.ctx i =
        if (s.ctx i).life = .live ∧ (s.ctx i).chain = ch ∧ (s.ctx i).sent ≠ none ∧ (s.ctx i).latched ≠ (s.ctx i).sent
        then { s.ctx i with latched := (s.ctx i).sent, dirty := true } else s.ctx i) ∧
      (∀ j, u.chain j =
        if j = ch then { s.chain j with latchPending := none, framesSinceLatch := 0 } else s.chain j) ∧
      u = { s with contexts := u.contexts, chains := u.chains }

/-- An ACK that ends a push, in the window or at the end of a hold (R26, R31, R105, R129): if it is accepted, the
sent set becomes the payload, push_count counts to 65535, fail_count is 0, and latch-pending is set with the
present tick unless it is set already; a discarded one changes nothing; in both cases the work then ends. -/
def Obligations.PushAcknowledged : Prop :=
  ∀ (s : State) (ch : Fin 4) (t : Transaction) (bytes : List Byte) (quiet : Bool),
    (s.chain ch).flight = .transaction t → t.kind = .push → answerFrame bytes quiet = some .ack →
    ∃ u : State,
      (t.phase = .window → exec (.tileAnswer ch bytes quiet) s = .next (u.endFlight ch 2 true)) ∧
      (t.phase = .holding → exec (.holdAnswer ch bytes quiet) s = .next (u.endFlight ch 2 true)) ∧
      (¬((s.ctx t.ctx).generation = t.generation ∧ (s.ctx t.ctx).life = .live) → u = s) ∧
      ((s.ctx t.ctx).generation = t.generation → (s.ctx t.ctx).life = .live →
        u.ctx t.ctx =
          { s.ctx t.ctx with
            sent := t.payload, failCount := 0, dirty := true
            pushCount := if 65535 ≤ (s.ctx t.ctx).pushCount then (s.ctx t.ctx).pushCount
              else (s.ctx t.ctx).pushCount + 1 } ∧
        (∀ j, j ≠ t.ctx → u.ctx j = s.ctx j) ∧
        (∀ j, u.chain j =
          if j = ch ∧ (s.chain ch).latchPending = none then
            { s.chain j with latchPending := some { setTick := s.tick, overdue := false } }
          else s.chain j) ∧
        u = { s with contexts := u.contexts, chains := u.chains })

/-- An IDENTITY answer to a probe (R31, R38, R39, R91, R118, R122). Accepted and with the context's serial it
takes the context to LIVE: snapped to its target set, pushed, and in the poll list. With another serial it takes
it to UNMATCHED: out of its work, its group pending if it was eligible, and the report and notice made. A
discarded one changes nothing. -/
def Obligations.IdentityAnswered : Prop :=
  ∀ (s : State) (ch : Fin 4) (t : Transaction) (bytes : List Byte) (quiet : Bool) (serial : Word),
    (s.chain ch).flight = .transaction t → t.phase = .window → t.kind = .probe →
    answerFrame bytes quiet = some (.identity serial) →
    let i := t.ctx
    let c := s.ctx i
    ∃ u : State, exec (.tileAnswer ch bytes quiet) s = .next (u.endFlight ch 1 true) ∧
      (¬(c.generation = t.generation ∧ c.life = .adopted) → u = s) ∧
      (c.generation = t.generation → c.life = .adopted → serial = c.serial →
        s.entersLife u i { c.enteringLive with failCount := 0 }) ∧
      (c.generation = t.generation → c.life = .adopted → serial ≠ c.serial → ∃ v : State,
        s.entersLife v i { c.enteringUnmatched with failCount := 0 } ∧
        u = State.notice .fault (v.raisePart .unmatched c.chain c.address c.serial serial))

/-- A STATUS answer to a poll (R31, R40, R62, R63, R120, R121). Accepted, it clears fail_count and takes the entry
out of the poll list; a plausible temperature is taken in with the present tick and clears stale; an implausible
one leaves the reading, and the first of them sets SENSOR_SUSPECT and raises its report. A carried report then goes
to the filters, whether the answer was accepted or not. -/
def Obligations.StatusAnswered : Prop :=
  ∀ (s : State) (ch : Fin 4) (t : Transaction) (bytes : List Byte) (quiet : Bool) (temp : Int)
    (report : Option CarriedReport),
    (s.chain ch).flight = .transaction t → t.phase = .window → t.kind = .poll →
    answerFrame bytes quiet = some (.status temp report) →
    let i := t.ctx
    let c := s.ctx i
    ∃ u v : State,
      exec (.tileAnswer ch bytes quiet) s = .next (u.endFlight ch 3 true) ∧
      (report = none → u = v) ∧ (∀ r, report = some r → u = v.routeTile ch t.address i r) ∧
      (¬(c.generation = t.generation ∧ c.life = .live) → v = s) ∧
      (c.generation = t.generation → c.life = .live → ∃ x : State,
        (∀ j, j ≠ i → x.ctx j = s.ctx j) ∧
        (∀ j, x.chain j =
          if j = ch then { s.chain j with pollList := (s.chain j).pollList.filter fun e => !decide (e.ctx = i) }
          else s.chain j) ∧
        x = { s with contexts := x.contexts, chains := x.chains } ∧
        (-400 ≤ temp ∧ temp ≤ 1250 → v = x ∧
          x.ctx i = c.becoming { c with failCount := 0, temp := some temp, tempTick := s.tick, stale := false }) ∧
        (temp < -400 ∨ 1250 < temp →
          x.ctx i = c.becoming { c with failCount := 0, sensorSuspect := true } ∧
          (c.sensorSuspect = true → v = x) ∧
          (c.sensorSuspect = false →
            v = x.raisePart .sensorSuspect c.chain c.address c.serial (BitVec.ofInt 32 temp))))

/-- A CHECK answer to a readback (R31, R40, R42, R137, R138, R141). Accepted, it is compared with the check word of
the latched set: equal gives MATCH and mismatch_count 0; unequal gives MISMATCH, one mismatch more, and the
report with both words, and then a push, or at the third the fault. Either is counted in a sweep record, and a
VERIFY card held for the chain is tested; then the work ends. -/
def Obligations.CheckAnswered : Prop :=
  ∀ (s : State) (ch : Fin 4) (t : Transaction) (bytes : List Byte) (quiet : Bool) (word : Half),
    (s.chain ch).flight = .transaction t → t.phase = .window → t.kind = .readback →
    answerFrame bytes quiet = some (.check word) →
    let i := t.ctx
    let c := s.ctx i
    ∃ u : State, exec (.tileAnswer ch bytes quiet) s = .next (u.endFlight ch 4 true) ∧
      (¬(c.generation = t.generation ∧ c.life = .live) → u = s) ∧
      (c.generation = t.generation → c.life = .live → ∀ latched, c.latched = some latched → ∃ x : State,
        (∀ j, j ≠ i → x.ctx j = s.ctx j) ∧ x = { s with contexts := x.contexts, chains := x.chains } ∧
        (word = checkWord latched → x.sweepTested u ch ∧
          x.ctx i = c.becoming { c with verify := .matched, mismatchCount := 0, failCount := 0 } ∧
          ∀ j, x.chain j =
            if j = ch then
              { s.chain j with
                sweep := (s.chain j).sweep.map fun r => { r with matched := countUp 65535 r.matched } }
            else s.chain j) ∧
        (word ≠ checkWord latched →
          x.ctx i =
            c.becoming { c with verify := .mismatched, mismatchCount := c.mismatchCount + 1, failCount := 0 } ∧
          (∀ j, x.chain j =
            if j = ch then
              { s.chain j with
                sweep := (s.chain j).sweep.map fun r => { r with mismatched := countUp 65535 r.mismatched } }
            else s.chain j) ∧
          let y := x.raisePart .verifyMismatch c.chain c.address c.serial (checkWord latched ++ word)
          (c.mismatchCount < 2 →
            (y.modChain c.chain fun k =>
              if i ∈ k.pushQueue then k else { k with pushQueue := k.pushQueue ++ [i] }).sweepTested u ch) ∧
          (2 ≤ c.mismatchCount → ∃ v : State, y.entersLife v i ((y.ctx i).enteringFaulted .verify) ∧
            (State.notice .fault
              (v.raisePart .tileFaulted c.chain c.address c.serial (BitVec.ofNat 32 4))).sweepTested u ch)))

/-- How an attempt ends without success (R104, R105): a NAK leads to a resend if attempts remain and the policy is
RETRY, no answer or a garbled one to a resend if attempts remain, and otherwise the transaction fails with the
reason of its last attempt. A HOLD to a WRITE_SET begins a hold; in it a NAK counts as an attempt ended in NAK, the
timer's end fails the transaction with HOLD_TIMEOUT, and anything but ACK and NAK is ignored. An event that finds no
window or hold has no effect, by the model's choice (log 2). -/
def Obligations.AttemptsAndHolds : Prop :=
  ∀ (s : State) (ch : Fin 4) (t : Transaction) (bytes : List Byte) (quiet : Bool),
    (s.chain ch).flight = .transaction t →
    let again : State := s.modChain ch fun k =>
      { k with
        flight := .transaction { t with phase := .toResend }, holdTimer := none
        state := if k.state = .holding then .busy else k.state }
    let naked : State :=
      if t.attempts < 1 + t.settings.retryLimit ∧ t.settings.nakPolicy = .retry then again
      else s.handOver ch t (.failure .nak)
    let unanswered : State :=
      if t.attempts < 1 + t.settings.retryLimit then again else s.handOver ch t (.failure .noAnswer)
    (t.phase = .window →
      (answerFrame bytes quiet = some .nak → exec (.tileAnswer ch bytes quiet) s = .next naked) ∧
      (t.kind.judge (answerFrame bytes quiet) = .garbled → exec (.tileAnswer ch bytes quiet) s = .next unanswered) ∧
      exec (.answerWindowClose ch) s = .next unanswered ∧
      (t.kind = .push → answerFrame bytes quiet = some .hold → exec (.tileAnswer ch bytes quiet) s = .next
        (s.modChain ch fun k =>
          { k with
            flight := .transaction { t with phase := .holding }
            holdTimer := some (t.settings.holdLimit * 1000)
            state := if k.state = .busy then .holding else k.state }))) ∧
    (t.phase ≠ .window →
      exec (.tileAnswer ch bytes quiet) s = .next s ∧ exec (.answerWindowClose ch) s = .next s) ∧
    (t.phase = .holding →
      (answerFrame bytes quiet = some .nak → exec (.holdAnswer ch bytes quiet) s = .next naked) ∧
      (answerFrame bytes quiet ≠ some .nak → answerFrame bytes quiet ≠ some .ack →
        exec (.holdAnswer ch bytes quiet) s = .next s) ∧
      exec (.holdTimerExpiry ch) s = .next (s.handOver ch t (.failure .holdTimeout))) ∧
    (t.phase ≠ .holding →
      exec (.holdAnswer ch bytes quiet) s = .next s ∧ exec (.holdTimerExpiry ch) s = .next s)

/-- What the failure of a transaction does (R29, R31, R40, R41, R107, R120, R130, R141). Discarded, nothing. Accepted,
it counts in fail_count, and a readback's in a sweep record; below 3 the work goes back to the chain, and at 3 the
context enters FAULTED with the failure's reason, leaves its work, makes its group pending if it was eligible, and is
reported and noticed. In every case the work then ends. -/
def Obligations.TransactionFails : Prop :=
  ∀ (s : State) (ch : Fin 4) (t : Transaction) (reason : FaultReason),
    let i := t.ctx
    let c := s.ctx i
    let accepted : Prop := c.generation = t.generation ∧ c.life = if t.kind = .probe then .adopted else .live
    ∃ u : State, s.handOver ch t (.failure reason) = u.endFlight ch t.kind.number false ∧
      (¬accepted → u = s) ∧
      (accepted → c.failCount < 2 →
        u.ctx i = c.becoming
          { c with
            failCount := c.failCount + 1, verify := if t.kind = .readback then .due else c.verify } ∧
        (∀ j, j ≠ i → u.ctx j = s.ctx j) ∧ u = { s with contexts := u.contexts, chains := u.chains } ∧
        (t.kind = .probe → i ∉ (s.chain c.chain).probeQueue →
          ∀ j, u.chain j =
            if j = c.chain then { s.chain j with probeQueue := (s.chain j).probeQueue ++ [i] } else s.chain j) ∧
        (t.kind = .push →
          ∀ j, u.chain j =
            if j = c.chain ∧ i ∉ (s.chain j).pushQueue then
              { s.chain j with pushQueue := (s.chain j).pushQueue ++ [i] }
            else s.chain j) ∧
        (t.kind = .poll →
          ∀ j, u.chain j =
            if j = ch then
              { s.chain j with
                pollList := ((s.chain j).pollList.filter fun e => !decide (e.ctx = i)) ++
                  ((s.chain j).pollList.filter fun e => decide (e.ctx = i)).map fun e => { e with inFlight := false } }
            else s.chain j) ∧
        (t.kind = .readback →
          ∀ j, u.chain j =
            if j = ch then
              { s.chain j with sweep := (s.chain j).sweep.map fun r => { r with failed := countUp 65535 r.failed } }
            else s.chain j)) ∧
      (accepted → 2 ≤ c.failCount → ∃ x v : State,
        x = { s with chains := x.chains } ∧
        (∀ j, x.chain j =
          if j = ch ∧ t.kind = .readback then
            { s.chain j with sweep := (s.chain j).sweep.map fun r => { r with failed := countUp 65535 r.failed } }
          else s.chain j) ∧
        x.entersLife v i { c.enteringFaulted reason with failCount := c.failCount + 1 } ∧
        u = State.notice .fault
          (v.raisePart .tileFaulted c.chain c.address c.serial (BitVec.ofNat 32 reason.number)))

/-- The timers of a chain (R119, R131, R135). A poll round marks the entries left overdue, counts each to at most
65535, and gives a due entry, in ascending order of address, to every LIVE context without one. A latch whose age
has passed its deadline is marked overdue. A sweep marks every LIVE context DUE that is not READING. Each starts its
timer again and lets an IDLE chain choose. That a stopped timer's expiry does nothing is the model's choice (log 2). -/
def Obligations.ChainTimers : Prop :=
  ∀ (s : State) (ch : Fin 4),
    let k := s.chain ch
    (k.pollTimer = none → exec (.pollRoundTimerExpiry ch) s = .next s) ∧
    (k.pollTimer.isSome = true → ∃ fresh : List (Fin 256),
      (∀ i, i ∈ fresh ↔ (s.ctx i).life = .live ∧ (s.ctx i).chain = ch ∧ ∀ e ∈ k.pollList, e.ctx ≠ i) ∧
      fresh.Nodup ∧ fresh.Pairwise (fun i j => (s.ctx i).address ≤ (s.ctx j).address) ∧
      exec (.pollRoundTimerExpiry ch) s = .next ((s.modChain ch fun k =>
        { k with
          pollTimer := some (k.config.pollPeriod * 1000)
          pollOverrun := if 65535 ≤ k.pollOverrun then k.pollOverrun else min 65535 (k.pollOverrun + k.pollList.length)
          pollList := (k.pollList.map fun e => { e with overdue := true }) ++
            fresh.map fun i => { ctx := i, overdue := false, inFlight := false } }).arbitrate ch)) ∧
    (∀ p, k.latchPending = some p →
      (k.config.latchDeadline * 10 < (s.tick - p.setTick).toNat →
        exec (.latchDeadlinePassed ch) s = .next ((s.modChain ch fun k =>
          { k with latchPending := some { p with overdue := true } }).arbitrate ch)) ∧
      ((s.tick - p.setTick).toNat ≤ k.config.latchDeadline * 10 → exec (.latchDeadlinePassed ch) s = .next s)) ∧
    (k.latchPending = none → exec (.latchDeadlinePassed ch) s = .next s) ∧
    (k.sweepTimer = none → exec (.verifySweepTimerExpiry ch) s = .next s) ∧
    (k.sweepTimer.isSome = true → ∃ u : State,
      (∀ i, u.ctx i =
        if (s.ctx i).life = .live ∧ (s.ctx i).chain = ch ∧ (s.ctx i).verify ≠ .reading ∧ (s.ctx i).verify ≠ .due
        then { s.ctx i with verify := .due, dirty := true } else s.ctx i) ∧
      u = { s.modChain ch fun k =>
        { k with
          sweepTimer := if k.config.verifyInterval = 0 then none
            else some (k.config.verifyInterval * 1000000) } with contexts := u.contexts } ∧
      exec (.verifySweepTimerExpiry ch) s = .next (u.arbitrate ch))

/-- The arbiter (R102, R114, R115, R120, R127, R128, R136, R137): a chain in any state but IDLE does not choose; an
IDLE one takes the first of these that finds work - the roll, the oldest probe, an overdue LATCH, the first overdue
poll, the oldest push, a LATCH, the next readback, the first due poll - and starts it. Two clauses are the model's
readings: latch-pending stays set at the choice of a LATCH, and is cleared when its frame has been sent (log 34,
DEDUCED, against the last sentence of R116), and the payload of a push is read at the arbiter's choice (log 18,
DEDUCED, against R88). -/
def Obligations.ArbiterOrder : Prop :=
  ∀ (s : State) (ch : Fin 4),
    let k := s.chain ch
    let overdue := k.pollList.find? fun e => e.overdue && !e.inFlight
    let due := k.pollList.find? fun e => !e.inFlight
    let ready (i : Fin 256) : Prop :=
      (s.ctx i).life = .live ∧ (s.ctx i).chain = ch ∧ (s.ctx i).verify = .due ∧ (s.ctx i).latched ≠ none ∧
        i ∉ k.pushQueue ∧ k.latchPending = none ∧ 2 ≤ k.framesSinceLatch
    let started (kind : WorkKind) (i : Fin 256) (payload : Option TermSet) : Flight :=
      .transaction
        { kind := kind, ctx := i, generation := (s.ctx i).generation, address := (s.ctx i).address
          payload := payload, attempts := 1, phase := .toBegin
          settings :=
            { bitRate := k.config.bitRate, answerWindow := k.config.answerWindow, holdLimit := k.config.holdLimit
              retryLimit := k.config.retryLimit, nakPolicy := k.config.nakPolicy } }
    let polling (e : PollEntry) : State := s.modChain ch fun k =>
      { k with
        state := .busy, flight := started .poll e.ctx none
        pollList := k.pollList.map fun x => if x.ctx = e.ctx then { x with inFlight := true } else x }
    let latching : State := s.modChain ch fun k => { k with state := .busy, flight := .latch false }
    (k.state ≠ .idle → s.arbitrate ch = s) ∧
    (k.state = .idle → k.flight = .none →
      (∀ r, k.roll = some r → s.arbitrate ch = s.modChain ch fun k =>
        { k with
          state := .rolling
          roll := some { r with
            begun := true, attempts := 1, retryLimit := k.config.retryLimit, serials := [], phase := .toBegin } }) ∧
      (k.roll = none →
        (∀ i rest, k.probeQueue = i :: rest → s.arbitrate ch = s.modChain ch fun k =>
          { k with state := .busy, flight := started .probe i none, probeQueue := rest }) ∧
        (k.probeQueue = [] →
          (∀ p, k.latchPending = some p → p.overdue = true → s.arbitrate ch = latching) ∧
          ((∀ p, k.latchPending = some p → p.overdue = false) →
            (∀ e, overdue = some e → s.arbitrate ch = polling e) ∧
            (overdue = none →
              (∀ i rest, k.pushQueue = i :: rest → s.arbitrate ch = s.modChain ch fun k =>
                { k with state := .busy, flight := started .push i (s.ctx i).applied, pushQueue := rest }) ∧
              (k.pushQueue = [] →
                (k.latchPending ≠ none → s.arbitrate ch = latching) ∧
                (k.latchPending = none →
                  ((∃ i, ready i) → ∃ i, ready i ∧
                    (∀ j, ready j →
                      (k.readbackPosition < (s.ctx i).address ∧
                        (k.readbackPosition < (s.ctx j).address → (s.ctx i).address ≤ (s.ctx j).address)) ∨
                      ((s.ctx j).address ≤ k.readbackPosition ∧ (s.ctx i).address ≤ (s.ctx j).address)) ∧
                    s.arbitrate ch = (s.setCtx i { s.ctx i with verify := .reading }).modChain ch fun k =>
                      { k with
                        state := .busy, flight := started .readback i none
                        readbackPosition := (s.ctx i).address }) ∧
                  ((∀ i, ¬ready i) →
                    (∀ e, due = some e → s.arbitrate ch = polling e) ∧
                    (due = none → s.arbitrate ch = s)))))))))

/-- The end of a chain's work (R107, R108, R125): the chain enters IDLE and chooses; a STOPPING one enters STOPPED,
its held STOP_CHAIN card is completed with OK, and a held VERIFY card with CANCELLED, without a card write yet. -/
def Obligations.EndOfWork : Prop :=
  ∀ (s : State) (ch : Fin 4) (work : Nat) (ok : Bool),
    ((s.chain ch).state ≠ .stopping → s.endFlight ch work ok = (s.modChain ch fun k =>
      { k with flight := .none, holdTimer := none, state := .idle }).arbitrate ch) ∧
    ((s.chain ch).state = .stopping → ∃ u : State, u.sweepEnds (s.endFlight ch work ok) ch .cancelled ∧
      (∀ j, u.chain j =
        if j = ch then { s.chain j with state := .stopped, flight := .none, holdTimer := none } else s.chain j) ∧
      (∀ j, u.entries j = if j = ch then { s.entries j with stop := none } else s.entries j) ∧
      u.intake.completions = s.intake.completions ++
        (match (s.entries ch).stop with
          | some h =>
            [{ index := h.index, code := .ok, doneTick := s.tick, tag := h.tag, notify := h.notify
               data := bytes8 work ++ bytes8 ok.toNat ++ bytes8 (s.chain ch).probeQueue.length ++
                 bytes8 (s.chain ch).pushQueue.length ++ bytes8 (s.chain ch).pollList.length ++ bytes8 0 ++
                 bytes16 (s.chain ch).pollOverrun }]
          | none => []) ∧
      u = { s with
        chains := u.chains
        intake := { s.intake with longCards := u.intake.longCards, completions := u.intake.completions } })

/-! ## Roll calls -/

/-- The slots of a roll (R144 to R146, R155): a valid ROLL_ANSWER is recorded and opens the next slot, and in slot 63
completes the roll, as an empty slot does; anything else gives up the attempt, and with none left the roll ends
ABANDONED, with no context changed and its card completed with counts of 0 (R152). A roll that a restart has marked as
ending is over with the step under way, however its slot ends: its record is discarded, nothing is compared, no
context and no card changes, and its chain is IDLE and chooses (R109, R111). A roll that was requested since then is
in progress (log 11, DEDUCED). The model's choices: a garbled slot in the last attempt abandons the roll at once,
before any wait for the line (log 33, DESIGN CHOICE), and the record of a roll that waits has the counts 0 (log 28,
DESIGN CHOICE). -/
def Obligations.RollSlots : Prop :=
  ∀ (s : State) (ch : Fin 4) (r : Roll) (bytes : List Byte) (quiet : Bool),
    (s.chain ch).state = .rolling → (s.chain ch).roll = some r → r.phase = .slot →
    let gone (t : State) : State := (t.modChain ch fun k =>
      { k with
        state := .idle
        roll :=
          if r.again then
            some
              { begun := false, attempts := 0, retryLimit := 0, serials := [], phase := .toBegin, ending := false
                again := false }
          else none }).arbitrate ch
    (r.ending = true →
      exec (.rollSlotAnswer ch bytes quiet) s = .next (gone s) ∧ exec (.rollSlotClose ch) s = .next (gone s)) ∧
    (r.ending = false →
      (∀ serial, answerFrame bytes quiet = some (.rollAnswer serial) →
        (r.serials.length < 62 → exec (.rollSlotAnswer ch bytes quiet) s = .next
          (s.modChain ch fun k => { k with roll := some { r with serials := r.serials ++ [serial] } })) ∧
        (r.serials.length = 62 → exec (.rollSlotAnswer ch bytes quiet) s = .next
          (s.completeRoll ch { r with serials := r.serials ++ [serial] } .completeFull))) ∧
      exec (.rollSlotClose ch) s = .next (s.completeRoll ch r .completeEmpty) ∧
      ((∀ serial, answerFrame bytes quiet ≠ some (.rollAnswer serial)) →
        (r.attempts < 1 + r.retryLimit → exec (.rollSlotAnswer ch bytes quiet) s = .next
          (s.modChain ch fun k => { k with roll := some { r with serials := [], phase := .toRetry } })) ∧
        (1 + r.retryLimit ≤ r.attempts → ∃ u : State,
          exec (.rollSlotAnswer ch bytes quiet) s = .next (gone u) ∧
          (r.again = true → u = s) ∧
          (r.again = false → s.answersHeld u ch .rollCall .ok
            (bytes8 2 ++ bytes8 r.attempts ++ [0, 0, 0, 0, 0, 0])))))

/-- A roll completes (R43, R148 to R150, R152). Positions 1 to 63 of the chain are compared in ascending order, each
by the rules of its finding; so every context of the chain that is not ABSENT gets the finding for its address - its
own serial takes it to LIVE or leaves it there, another to UNMATCHED, no tile to FAULTED with reason MISSING - and
every other context is left. The card is completed with the six counts: the positions found; the contexts whose own
serial was found, and those of them that were not LIVE; the contexts at whose address another serial was found, or
none; and the positions found that no context holds. Then the roll is over, the chain IDLE, and its arbiter chooses. A
roll that has been requested meanwhile then waits (log 11, DEDUCED), its record with the counts 0 by the model's
choice (log 28, DESIGN CHOICE). -/
def Obligations.RollCompletes : Prop :=
  ∀ (s : State) (ch : Fin 4) (r : Roll) (e : RollEnd), s.positionsLawful → r.ending = false →
    let holds (i : Fin 256) (a : Fin 64) : Prop :=
      (s.ctx i).life ≠ .absent ∧ (s.ctx i).chain = ch ∧ (s.ctx i).address = a ∧ a ≠ 0
    let contexts (p : Fin 256 → Bool) : Nat := ((List.finRange 256).filter p).length
    let heard (i : Fin 256) : Option Word := heardAt r.serials (s.ctx i).address
    let here (i : Fin 256) : Bool := decide (holds i (s.ctx i).address)
    let matched := contexts fun i => here i && decide (heard i = some (s.ctx i).serial)
    let recovered :=
      contexts fun i => here i && decide (heard i = some (s.ctx i).serial) && !decide ((s.ctx i).life = .live)
    let unmatched := contexts fun i => here i && (heard i).isSome && !decide (heard i = some (s.ctx i).serial)
    let missing := contexts fun i => here i && (heard i).isNone
    let unknown := ((List.finRange 64).filter fun a =>
      !decide (a = 0) && (heardAt r.serials a).isSome && !decide (∃ i, holds i a)).length
    ∃ v u : State,
      State.compares ch r.serials (List.finRange 64).tail s v ∧
      (r.again = true → u = v) ∧
      (r.again = false → v.answersHeld u ch .rollCall .ok
        (bytes8 e.number ++ bytes8 r.attempts ++ bytes8 r.serials.length ++ bytes8 matched ++ bytes8 recovered ++
          bytes8 unmatched ++ bytes8 missing ++ bytes8 unknown)) ∧
      (∀ h, (s.entries ch).sweepOrRoll = some h → h.kind = .rollCall → (v.entries ch).sweepOrRoll = some h) ∧
      s.completeRoll ch r e = (u.modChain ch fun k =>
        { k with
          state := .idle
          roll :=
            if r.again then
              some
                { begun := false, attempts := 0, retryLimit := 0, serials := [], phase := .toBegin, ending := false
                  again := false }
            else none }).arbitrate ch ∧
      (r.serials.length ≤ 63 → matched + unmatched + unknown = r.serials.length) ∧
      (∀ i, (s.ctx i).life = .absent ∨ (s.ctx i).chain ≠ ch → u.ctx i = s.ctx i) ∧
      ∀ i, (s.ctx i).life ≠ .absent → (s.ctx i).chain = ch → (s.ctx i).address ≠ 0 →
        (u.ctx i).generation = (s.ctx i).generation ∧ (u.ctx i).serial = (s.ctx i).serial ∧
        match heard i with
        | none => (u.ctx i).life = .faulted ∧ (u.ctx i).faultReason = .missing
        | some w =>
          if w = (s.ctx i).serial then
            (u.ctx i).life = .live ∧ ((s.ctx i).life = .live → u.ctx i = s.ctx i) ∧
              ((s.ctx i).life ≠ .live →
                (u.ctx i).applied = some (s.ctx i).target ∧ (u.ctx i).failCount = 0 ∧ (u.ctx i).mismatchCount = 0)
          else (u.ctx i).life = .unmatched

/-! ## Reports and logs -/

/-- Where a tile report goes (R156 to R159): to the log of the first enabled filter whose match agrees with its
key in every bit of the mask, as that filter's report, and nowhere if there is none. A SET_FILTER card that is accepted
gives the filter it names its new entry from the moment it is taken, though it is still to be dispatched. A power-on
reset leaves no filter enabled, and a restart leaves all six as they were. -/
def Obligations.TileReportsAreRouted : Prop :=
  ∀ (s : State) (ch : Fin 4) (a : Fin 64) (i : Fin 256) (r : CarriedReport) (F : Fin 6 → Filter),
    (∀ n, s.judgesBy n (F n)) →
    let key : Nat := r.kind.val * 256 + ch.val * 64 + a.val
    let routes (n : Fin 6) : Prop :=
      (F n).enable = true ∧ ∀ b < 12, (F n).mask.getLsbD b = true → key.testBit b = (F n).pattern.getLsbD b
    ((∀ n, ¬routes n) → s.routeTile ch a i r = s) ∧
    (∀ n, routes n → (∀ m, m < n → ¬routes m) →
      s.routeTile ch a i r = s.writeReport (F n).destination
        { tick := s.tick, kind := r.kind.val, chain := ch, address := a, source := n.val, rolled := false
          serial := (s.ctx i).serial, value := r.value }) ∧
    (∃ t, exec .powerOnReset s = .next t ∧ t.routeTile ch a i r = t ∧
      ∀ n, t.filters.get n = { enable := false, mask := 0, pattern := 0, destination := .general }) ∧
    ∀ run scan host, ∃ t, exec (.restart run scan host) s = .next t ∧ t.filters = s.filters

/-- Writing a report (R160 to R165). It is only counted as unlogged while RUN is clear, intake is halted or no scan
has read the host words. With fewer than 31 unread alerts an alert goes into the alert log with the notice ALERT -
they are the alert write index minus the copy of the host's alert read index, mod 32 (R161) -; a full alert log sends
it, marked ROLLED, to the general log, and if it is written there counts a rollover and sets ALERT. A write into the
alert log that ends in a bus error moves no write index and is counted as unlogged; and what the rollover does after
one is the model's choice (log 15). A record is sixteen bytes, laid out as section 10.2.4 gives it, and a part report
is an alert of the kind that section 9.1 numbers, with the present tick and the source PART (R156, R157). -/
def Obligations.ReportsAreLogged : Prop :=
  (∀ (s : State) (k : PartKind) (ch : Fin 4) (a : Fin 64) (serial value : Word),
    s.raisePart k ch a serial value = s.writeReport .alert
      { tick := s.tick, kind := k.number, chain := ch, address := a, source := 0xFF, rolled := false
        serial := serial, value := value }) ∧
  ∀ (s : State) (r : Report) (d : Destination),
    let unread : Nat := (s.logs.alertWrite.val + 32 - s.logs.alertCopy.val) % 32
    (s.regs.run = false ∨ s.intake.halted = true ∨ s.logs.ready = false →
      s.writeReport d r = { s with logs := { s.logs with unlogged := countUp 65535 s.logs.unlogged } }) ∧
    (s.regs.run = true → s.logs.ready = true → s.goodAccesses 1 = 1 → unread < 31 → ∃ t,
      s.writeReport .alert r = t ∧
      (∀ a, t.area.read a =
        if s.areaBase + 0x0D00 + 16 * s.logs.alertWrite.val ≤ a ∧
          a < s.areaBase + 0x0D00 + 16 * s.logs.alertWrite.val + 16
        then layoutByte r.rows (a - (s.areaBase + 0x0D00 + 16 * s.logs.alertWrite.val)) else s.area.read a) ∧
      t = { s.accessed 1 with
        area := t.area, logs := { s.logs with alertWrite := s.logs.alertWrite + 1 }
        regs := { s.regs with noticeRaw := s.regs.noticeRaw ||| 2 } }) ∧
    (s.regs.run = true → s.logs.ready = true → s.intake.halted = false → unread = 31 →
      let t := s.writeReport .general { r with rolled := true }
      (t.intake.halted = false → s.writeReport .alert r =
        { t with
          logs := { t.logs with rollovers := countUp 65535 t.logs.rollovers }
          regs := { t.regs with noticeRaw := t.regs.noticeRaw ||| 2 } }) ∧
      (t.intake.halted = true → s.writeReport .alert r = t)) ∧
    (s.regs.run = true → s.logs.ready = true → s.intake.halted = false → s.goodAccesses 1 = 0 →
      unread < 31 →
      s.writeReport .alert r =
        { s.busFaulted with logs := { s.logs with unlogged := countUp 65535 s.logs.unlogged } })

/-- The general log's three steps (R163, R164): a copy of the host's read index that has moved, and that lies within
the valid records or at the write index, releases the records before it; a ring of 511 valid records gives up its
oldest, with a count and the notice OVERWRITE; and the record goes, laid out as section 10.2.4 gives it, into the slot
of the write index, which held no valid record. If that write ends in a bus error, the first two steps stand, the
write index does not move, and the report is counted as unlogged (R165, R172). -/
def Obligations.GeneralLogWrites : Prop :=
  ∀ (s : State) (r : Report), s.regs.run = true → s.logs.ready = true → s.intake.halted = false →
    let l := s.logs
    let moved : Bool := decide (l.generalCopy ≠ l.released)
    let within : Bool := decide ((l.generalCopy - l.oldest).val ≤ (l.generalWrite - l.oldest).val)
    let oldest := if moved && within then l.generalCopy else l.oldest
    let full : Bool := decide ((l.generalWrite - oldest).val = 511)
    let notices := if full then s.regs.noticeRaw ||| 4 else s.regs.noticeRaw
    let settled : Logs :=
      { l with
        released := l.generalCopy, oldest := if full then oldest + 1 else oldest
        overwrites := if full then countUp 65535 l.overwrites else l.overwrites }
    (s.goodAccesses 1 = 1 → ∃ t, s.writeReport .general r = t ∧
      t.logs = { settled with generalWrite := l.generalWrite + 1 } ∧
      (∀ a, t.area.read a =
        if s.areaBase + 0x1000 + 16 * l.generalWrite.val ≤ a ∧
          a < s.areaBase + 0x1000 + 16 * l.generalWrite.val + 16
        then layoutByte r.rows (a - (s.areaBase + 0x1000 + 16 * l.generalWrite.val)) else s.area.read a) ∧
      t.logs.oldest ≠ t.logs.generalWrite ∧
      t = { s.accessed 1 with area := t.area, logs := t.logs, regs := { s.regs with noticeRaw := notices } }) ∧
    (s.goodAccesses 1 = 0 → s.writeReport .general r =
      { s.busFaulted with
        logs := { settled with unlogged := countUp 65535 l.unlogged }
        regs := { s.regs with noticeRaw := notices ||| 32 } })

/-! ## The laws of the part, kept by every step -/

/-- The reset state satisfies the laws that every step keeps. -/
def Obligations.ResetIsLawful : Prop :=
  State.reset.hostLawful ∧ State.reset.positionsLawful ∧ State.reset.queuesLawful ∧ State.reset.countsLawful ∧
    State.reset.setsLawful ∧ State.reset.chainsLawful ∧ State.reset.ramp.freezeLawful ∧ State.reset.settingsLawful

/-- Every step keeps the host's memory in its canonical form, the three counts of the logs within 0..65535 (R165),
and, while RUN is clear or HALTED is set, the scan timer stopped, no scan marked to follow and none between two
accesses (R166, R167, R172); and a scan never waits at a card and stands between two accesses at once. -/
def Obligations.StepKeepsTheHostSide : Prop :=
  ∀ s t : State, step s = .next t → s.hostLawful → t.hostLawful

/-- No two contexts outside ABSENT ever share one chain and address (R33). A push queue holds only LIVE contexts of
its chain, a probe queue only ADOPTED ones and a poll list only LIVE ones, each at most once (R117, R119). A chain has
at most one piece of work in flight, none while STOPPED, IDLE or ROLLING, and is ROLLING exactly while a roll has
begun (R109). -/
def Obligations.StepKeepsPositionsQueuesAndChainStates : Prop :=
  ∀ s t : State, step s = .next t →
    (s.positionsLawful → t.positionsLawful) ∧ (s.queuesLawful → t.queuesLawful) ∧ (s.chainsLawful → t.chainsLawful)

/-- The failure counts stay within 0..3 and below 3 in ADOPTED and LIVE (R40), push_count within 0..65535 (R26);
every gain stays in 1..32768 (R13) and every term of a set, held, in flight or read by a solve under way, in the term
format (R15, R24), a LIVE context's applied set is known (R21), and no group has two solves under way (R52). -/
def Obligations.StepKeepsCountsAndSets : Prop :=
  ∀ s t : State, step s = .next t →
    (s.countsLawful → t.countsLawful) ∧ (s.setsLawful → t.setsLawful)

/-- The freeze set never holds more than 4 tags nor one tag twice (R92), and every setting of a group, a chain, the
frame monitor and the curve store stays in its range, with each beat counter below its beat (R59, R72, R84, R86,
R113). -/
def Obligations.StepKeepsTheSettings : Prop :=
  ∀ s t : State, step s = .next t →
    (s.ramp.freezeLawful → t.ramp.freezeLawful) ∧ (s.settingsLawful → t.settingsLawful)

end
end

