-- ==== Sys2Proof/Laws/Table.lean ====
section
/-! SUPPORT. Laws of fixed-size tables: reading after writing, numbering, and testing every record. -/

namespace Sys2Proof

variable {α : Type} {n : Nat}

theorem Table.get_set (t : Table α n) (i j : Fin n) (a : α) :
    (t.set i a).get j = if i = j then a else t.get j := by
  rcases t with ⟨l, h⟩
  by_cases e : i = j
  · subst e; simp [Table.set, Table.get]
  · have : i.val ≠ j.val := fun h' => e (Fin.ext h')
    simp [Table.set, Table.get, e, List.getElem_set, this]

@[simp] theorem Table.get_set_same (t : Table α n) (i : Fin n) (a : α) : (t.set i a).get i = a := by
  simp [Table.get_set]

theorem Table.get_set_other (t : Table α n) {i j : Fin n} (h : i ≠ j) (a : α) :
    (t.set i a).get j = t.get j := by
  simp [Table.get_set, h]

@[simp] theorem Table.get_map (t : Table α n) (f : α → α) (i : Fin n) : (t.map f).get i = f (t.get i) := by
  simp [Table.map, Table.get]

@[simp] theorem Table.get_replicate (a : α) (i : Fin n) : (Table.replicate n a).get i = a := by
  simp [Table.replicate, Table.get]

theorem Table.ext_get {t u : Table α n} (h : ∀ i, t.get i = u.get i) : t = u := by
  rcases t with ⟨l, hl⟩
  rcases u with ⟨m, hm⟩
  have : l = m := by
    apply List.ext_getElem (by omega)
    intro k h1 h2
    exact h ⟨k, by omega⟩
  subst this; rfl

@[simp] theorem Table.set_get_self (t : Table α n) (i : Fin n) : t.set i (t.get i) = t := by
  apply Table.ext_get
  intro j
  rw [Table.get_set]
  split
  · next h => rw [h]
  · rfl

theorem Table.enum_eq_ofFn (t : Table α n) : t.enum = List.ofFn fun i => (i, t.get i) := by
  rcases t with ⟨l, hl⟩
  apply List.ext_getElem
  · simp [Table.enum, hl]
  · intro k h1 h2
    simp [Table.enum, Table.get]

theorem Table.mem_enum (t : Table α n) (x : Fin n × α) : x ∈ t.enum ↔ t.get x.1 = x.2 := by
  rw [Table.enum_eq_ofFn, List.mem_ofFn]
  constructor
  · rintro ⟨i, rfl⟩; rfl
  · intro h; exact ⟨x.1, by rw [h]⟩

theorem Table.enum_map_fst (t : Table α n) : t.enum.map Prod.fst = List.finRange n := by
  simp [Table.enum, List.map_fst_zip, t.size]

theorem Table.cells_eq_ofFn (t : Table α n) : t.cells = List.ofFn t.get := by
  rcases t with ⟨l, hl⟩
  apply List.ext_getElem
  · simp [hl]
  · intro k h1 h2; simp [Table.get]

theorem Table.mem_cells (t : Table α n) (a : α) : a ∈ t.cells ↔ ∃ i, t.get i = a := by
  rw [Table.cells_eq_ofFn, List.mem_ofFn]

theorem Table.any_cells (t : Table α n) (p : α → Bool) : t.cells.any p = true ↔ ∃ i, p (t.get i) = true := by
  simp only [List.any_eq_true, Table.mem_cells]
  constructor
  · rintro ⟨a, ⟨i, rfl⟩, h⟩; exact ⟨i, h⟩
  · rintro ⟨i, h⟩; exact ⟨_, ⟨i, rfl⟩, h⟩

theorem Table.all_cells (t : Table α n) (p : α → Bool) : t.cells.all p = true ↔ ∀ i, p (t.get i) = true := by
  simp only [List.all_eq_true, Table.mem_cells]
  constructor
  · intro h i; exact h _ ⟨i, rfl⟩
  · rintro h a ⟨i, rfl⟩; exact h i

end Sys2Proof
end

