-- ==== Sys2Proof/Laws/State.lean ====
section
/-! SUPPORT. One law per field per record update: what a named update changes, and what it leaves. -/

namespace Sys2Proof.Machine

@[simp] theorem State.notice_keeps (s : State) (k : Cause) :
    (State.notice k s).pending = s.pending ∧ (State.notice k s).solves = s.solves ∧
    (State.notice k s).clock = s.clock ∧
    (State.notice k s).contexts = s.contexts ∧ (State.notice k s).groups = s.groups ∧
    (State.notice k s).serviceTimer = s.serviceTimer ∧ (State.notice k s).stalenessTimer = s.stalenessTimer ∧
    (State.notice k s).pages = s.pages ∧ (State.notice k s).ramp = s.ramp ∧
    (State.notice k s).chains = s.chains ∧ (State.notice k s).filters = s.filters ∧
    (State.notice k s).logs = s.logs ∧ (State.notice k s).intake = s.intake ∧
    (State.notice k s).area = s.area ∧ (State.notice k s).link = s.link ∧
    (State.notice k s).freeIndex = s.freeIndex :=
  ⟨rfl, rfl, rfl, rfl, rfl, rfl, rfl, rfl, rfl, rfl, rfl, rfl, rfl, rfl, rfl, rfl⟩

@[simp] theorem State.setCtx_keeps (s : State) (i : Fin 256) (c : Context) :
    (s.setCtx i c).pending = s.pending ∧ (s.setCtx i c).solves = s.solves ∧
    (s.setCtx i c).clock = s.clock ∧ (s.setCtx i c).groups = s.groups ∧
    (s.setCtx i c).serviceTimer = s.serviceTimer ∧ (s.setCtx i c).stalenessTimer = s.stalenessTimer ∧
    (s.setCtx i c).pages = s.pages ∧ (s.setCtx i c).ramp = s.ramp ∧ (s.setCtx i c).chains = s.chains ∧
    (s.setCtx i c).filters = s.filters ∧ (s.setCtx i c).logs = s.logs ∧ (s.setCtx i c).intake = s.intake ∧
    (s.setCtx i c).regs = s.regs ∧ (s.setCtx i c).area = s.area ∧ (s.setCtx i c).link = s.link ∧
    (s.setCtx i c).freeIndex = s.freeIndex :=
  ⟨rfl, rfl, rfl, rfl, rfl, rfl, rfl, rfl, rfl, rfl, rfl, rfl, rfl, rfl, rfl, rfl⟩

@[simp] theorem State.modCtx_keeps (s : State) (i : Fin 256) (f : Context → Context) :
    (s.modCtx i f).pending = s.pending ∧ (s.modCtx i f).solves = s.solves ∧
    (s.modCtx i f).clock = s.clock ∧ (s.modCtx i f).groups = s.groups ∧
    (s.modCtx i f).serviceTimer = s.serviceTimer ∧ (s.modCtx i f).stalenessTimer = s.stalenessTimer ∧
    (s.modCtx i f).pages = s.pages ∧ (s.modCtx i f).ramp = s.ramp ∧ (s.modCtx i f).chains = s.chains ∧
    (s.modCtx i f).filters = s.filters ∧ (s.modCtx i f).logs = s.logs ∧ (s.modCtx i f).intake = s.intake ∧
    (s.modCtx i f).regs = s.regs ∧ (s.modCtx i f).area = s.area ∧ (s.modCtx i f).link = s.link ∧
    (s.modCtx i f).freeIndex = s.freeIndex :=
  ⟨rfl, rfl, rfl, rfl, rfl, rfl, rfl, rfl, rfl, rfl, rfl, rfl, rfl, rfl, rfl, rfl⟩

@[simp] theorem State.modChain_keeps (s : State) (ch : Fin 4) (f : Chain → Chain) :
    (s.modChain ch f).pending = s.pending ∧ (s.modChain ch f).solves = s.solves ∧
    (s.modChain ch f).clock = s.clock ∧
    (s.modChain ch f).contexts = s.contexts ∧ (s.modChain ch f).groups = s.groups ∧
    (s.modChain ch f).serviceTimer = s.serviceTimer ∧ (s.modChain ch f).stalenessTimer = s.stalenessTimer ∧
    (s.modChain ch f).pages = s.pages ∧ (s.modChain ch f).ramp = s.ramp ∧
    (s.modChain ch f).filters = s.filters ∧ (s.modChain ch f).logs = s.logs ∧
    (s.modChain ch f).intake = s.intake ∧ (s.modChain ch f).regs = s.regs ∧ (s.modChain ch f).area = s.area ∧
    (s.modChain ch f).link = s.link ∧ (s.modChain ch f).freeIndex = s.freeIndex :=
  ⟨rfl, rfl, rfl, rfl, rfl, rfl, rfl, rfl, rfl, rfl, rfl, rfl, rfl, rfl, rfl, rfl⟩

@[simp] theorem State.modGroup_keeps (s : State) (g : Fin 8) (f : Group → Group) :
    (s.modGroup g f).pending = s.pending ∧ (s.modGroup g f).solves = s.solves ∧
    (s.modGroup g f).clock = s.clock ∧
    (s.modGroup g f).contexts = s.contexts ∧ (s.modGroup g f).serviceTimer = s.serviceTimer ∧
    (s.modGroup g f).stalenessTimer = s.stalenessTimer ∧ (s.modGroup g f).pages = s.pages ∧
    (s.modGroup g f).ramp = s.ramp ∧ (s.modGroup g f).chains = s.chains ∧
    (s.modGroup g f).filters = s.filters ∧ (s.modGroup g f).logs = s.logs ∧
    (s.modGroup g f).intake = s.intake ∧ (s.modGroup g f).regs = s.regs ∧ (s.modGroup g f).area = s.area ∧
    (s.modGroup g f).link = s.link ∧ (s.modGroup g f).freeIndex = s.freeIndex :=
  ⟨rfl, rfl, rfl, rfl, rfl, rfl, rfl, rfl, rfl, rfl, rfl, rfl, rfl, rfl, rfl, rfl⟩

@[simp] theorem State.solvePending_keeps (s : State) (g : Fin 8) :
    (s.solvePending g).pending = s.pending ∧ (s.solvePending g).solves = s.solves ∧
    (s.solvePending g).clock = s.clock ∧
    (s.solvePending g).contexts = s.contexts ∧ (s.solvePending g).serviceTimer = s.serviceTimer ∧
    (s.solvePending g).stalenessTimer = s.stalenessTimer ∧ (s.solvePending g).pages = s.pages ∧
    (s.solvePending g).ramp = s.ramp ∧ (s.solvePending g).chains = s.chains ∧
    (s.solvePending g).filters = s.filters ∧ (s.solvePending g).logs = s.logs ∧
    (s.solvePending g).intake = s.intake ∧ (s.solvePending g).regs = s.regs ∧
    (s.solvePending g).area = s.area ∧ (s.solvePending g).link = s.link ∧
    (s.solvePending g).freeIndex = s.freeIndex :=
  ⟨rfl, rfl, rfl, rfl, rfl, rfl, rfl, rfl, rfl, rfl, rfl, rfl, rfl, rfl, rfl, rfl⟩

@[simp] theorem State.modLogs_keeps (s : State) (f : Logs → Logs) :
    (s.modLogs f).pending = s.pending ∧ (s.modLogs f).solves = s.solves ∧
    (s.modLogs f).clock = s.clock ∧ (s.modLogs f).contexts = s.contexts ∧
    (s.modLogs f).groups = s.groups ∧ (s.modLogs f).serviceTimer = s.serviceTimer ∧
    (s.modLogs f).stalenessTimer = s.stalenessTimer ∧ (s.modLogs f).pages = s.pages ∧
    (s.modLogs f).ramp = s.ramp ∧ (s.modLogs f).chains = s.chains ∧ (s.modLogs f).filters = s.filters ∧
    (s.modLogs f).intake = s.intake ∧ (s.modLogs f).regs = s.regs ∧ (s.modLogs f).area = s.area ∧
    (s.modLogs f).link = s.link ∧ (s.modLogs f).freeIndex = s.freeIndex :=
  ⟨rfl, rfl, rfl, rfl, rfl, rfl, rfl, rfl, rfl, rfl, rfl, rfl, rfl, rfl, rfl, rfl⟩

@[simp] theorem State.modIntake_keeps (s : State) (f : Intake → Intake) :
    (s.modIntake f).pending = s.pending ∧ (s.modIntake f).solves = s.solves ∧
    (s.modIntake f).clock = s.clock ∧
    (s.modIntake f).contexts = s.contexts ∧ (s.modIntake f).groups = s.groups ∧
    (s.modIntake f).serviceTimer = s.serviceTimer ∧ (s.modIntake f).stalenessTimer = s.stalenessTimer ∧
    (s.modIntake f).pages = s.pages ∧ (s.modIntake f).ramp = s.ramp ∧ (s.modIntake f).chains = s.chains ∧
    (s.modIntake f).filters = s.filters ∧ (s.modIntake f).logs = s.logs ∧ (s.modIntake f).regs = s.regs ∧
    (s.modIntake f).area = s.area ∧ (s.modIntake f).link = s.link ∧ (s.modIntake f).freeIndex = s.freeIndex :=
  ⟨rfl, rfl, rfl, rfl, rfl, rfl, rfl, rfl, rfl, rfl, rfl, rfl, rfl, rfl, rfl, rfl⟩

@[simp] theorem State.modRamp_keeps (s : State) (f : RampUnit → RampUnit) :
    (s.modRamp f).pending = s.pending ∧ (s.modRamp f).solves = s.solves ∧
    (s.modRamp f).clock = s.clock ∧ (s.modRamp f).contexts = s.contexts ∧
    (s.modRamp f).groups = s.groups ∧ (s.modRamp f).serviceTimer = s.serviceTimer ∧
    (s.modRamp f).stalenessTimer = s.stalenessTimer ∧ (s.modRamp f).pages = s.pages ∧
    (s.modRamp f).chains = s.chains ∧ (s.modRamp f).filters = s.filters ∧ (s.modRamp f).logs = s.logs ∧
    (s.modRamp f).intake = s.intake ∧ (s.modRamp f).regs = s.regs ∧ (s.modRamp f).area = s.area ∧
    (s.modRamp f).link = s.link ∧ (s.modRamp f).freeIndex = s.freeIndex :=
  ⟨rfl, rfl, rfl, rfl, rfl, rfl, rfl, rfl, rfl, rfl, rfl, rfl, rfl, rfl, rfl, rfl⟩

@[simp] theorem State.dirtyAll_keeps (s : State) :
    (s.dirtyAll).pending = s.pending ∧ (s.dirtyAll).solves = s.solves ∧
    (s.dirtyAll).clock = s.clock ∧ (s.dirtyAll).groups = s.groups ∧
    (s.dirtyAll).serviceTimer = s.serviceTimer ∧ (s.dirtyAll).stalenessTimer = s.stalenessTimer ∧
    (s.dirtyAll).pages = s.pages ∧ (s.dirtyAll).ramp = s.ramp ∧ (s.dirtyAll).chains = s.chains ∧
    (s.dirtyAll).filters = s.filters ∧ (s.dirtyAll).logs = s.logs ∧ (s.dirtyAll).intake = s.intake ∧
    (s.dirtyAll).regs = s.regs ∧ (s.dirtyAll).area = s.area ∧ (s.dirtyAll).link = s.link ∧
    (s.dirtyAll).freeIndex = s.freeIndex :=
  ⟨rfl, rfl, rfl, rfl, rfl, rfl, rfl, rfl, rfl, rfl, rfl, rfl, rfl, rfl, rfl, rfl⟩

@[simp] theorem State.countAccess_keeps (s : State) :
    (s.countAccess).pending = s.pending ∧ (s.countAccess).solves = s.solves ∧
    (s.countAccess).clock = s.clock ∧
    (s.countAccess).contexts = s.contexts ∧ (s.countAccess).groups = s.groups ∧
    (s.countAccess).serviceTimer = s.serviceTimer ∧ (s.countAccess).stalenessTimer = s.stalenessTimer ∧
    (s.countAccess).pages = s.pages ∧ (s.countAccess).ramp = s.ramp ∧ (s.countAccess).chains = s.chains ∧
    (s.countAccess).filters = s.filters ∧ (s.countAccess).logs = s.logs ∧ (s.countAccess).intake = s.intake ∧
    (s.countAccess).regs = s.regs ∧ (s.countAccess).area = s.area ∧ (s.countAccess).freeIndex = s.freeIndex :=
  ⟨rfl, rfl, rfl, rfl, rfl, rfl, rfl, rfl, rfl, rfl, rfl, rfl, rfl, rfl, rfl, rfl⟩

@[simp] theorem State.countUnlogged_keeps (s : State) :
    (s.countUnlogged).pending = s.pending ∧ (s.countUnlogged).solves = s.solves ∧
    (s.countUnlogged).clock = s.clock ∧
    (s.countUnlogged).contexts = s.contexts ∧ (s.countUnlogged).groups = s.groups ∧
    (s.countUnlogged).serviceTimer = s.serviceTimer ∧ (s.countUnlogged).stalenessTimer = s.stalenessTimer ∧
    (s.countUnlogged).pages = s.pages ∧ (s.countUnlogged).ramp = s.ramp ∧ (s.countUnlogged).chains = s.chains ∧
    (s.countUnlogged).filters = s.filters ∧ (s.countUnlogged).intake = s.intake ∧
    (s.countUnlogged).regs = s.regs ∧ (s.countUnlogged).area = s.area ∧ (s.countUnlogged).link = s.link ∧
    (s.countUnlogged).freeIndex = s.freeIndex :=
  ⟨rfl, rfl, rfl, rfl, rfl, rfl, rfl, rfl, rfl, rfl, rfl, rfl, rfl, rfl, rfl, rfl⟩

@[simp] theorem State.areaBusFault_keeps (s : State) :
    (s.areaBusFault).pending = s.pending ∧ (s.areaBusFault).solves = s.solves ∧
    (s.areaBusFault).clock = s.clock ∧
    (s.areaBusFault).contexts = s.contexts ∧ (s.areaBusFault).groups = s.groups ∧
    (s.areaBusFault).serviceTimer = s.serviceTimer ∧ (s.areaBusFault).stalenessTimer = s.stalenessTimer ∧
    (s.areaBusFault).pages = s.pages ∧ (s.areaBusFault).ramp = s.ramp ∧ (s.areaBusFault).chains = s.chains ∧
    (s.areaBusFault).filters = s.filters ∧ (s.areaBusFault).logs = s.logs ∧ (s.areaBusFault).area = s.area ∧
    (s.areaBusFault).freeIndex = s.freeIndex :=
  ⟨rfl, rfl, rfl, rfl, rfl, rfl, rfl, rfl, rfl, rfl, rfl, rfl, rfl, rfl⟩

@[simp] theorem State.modEntries_keeps (s : State) (ch : Fin 4) (f : LongEntries → LongEntries) :
    (s.modEntries ch f).pending = s.pending ∧ (s.modEntries ch f).solves = s.solves ∧
    (s.modEntries ch f).clock = s.clock ∧
    (s.modEntries ch f).contexts = s.contexts ∧ (s.modEntries ch f).groups = s.groups ∧
    (s.modEntries ch f).serviceTimer = s.serviceTimer ∧ (s.modEntries ch f).stalenessTimer = s.stalenessTimer ∧
    (s.modEntries ch f).pages = s.pages ∧ (s.modEntries ch f).ramp = s.ramp ∧
    (s.modEntries ch f).chains = s.chains ∧ (s.modEntries ch f).filters = s.filters ∧
    (s.modEntries ch f).logs = s.logs ∧ (s.modEntries ch f).regs = s.regs ∧ (s.modEntries ch f).area = s.area ∧
    (s.modEntries ch f).link = s.link ∧ (s.modEntries ch f).freeIndex = s.freeIndex :=
  ⟨rfl, rfl, rfl, rfl, rfl, rfl, rfl, rfl, rfl, rfl, rfl, rfl, rfl, rfl, rfl, rfl⟩

@[simp] theorem State.decideHeld_keeps (s : State) (h : HeldCard) (code : ResultCode) (data : List Byte) :
    (s.decideHeld h code data).pending = s.pending ∧ (s.decideHeld h code data).solves = s.solves ∧
    (s.decideHeld h code data).clock = s.clock ∧
    (s.decideHeld h code data).contexts = s.contexts ∧ (s.decideHeld h code data).groups = s.groups ∧
    (s.decideHeld h code data).serviceTimer = s.serviceTimer ∧
    (s.decideHeld h code data).stalenessTimer = s.stalenessTimer ∧ (s.decideHeld h code data).pages = s.pages ∧
    (s.decideHeld h code data).ramp = s.ramp ∧ (s.decideHeld h code data).chains = s.chains ∧
    (s.decideHeld h code data).filters = s.filters ∧ (s.decideHeld h code data).logs = s.logs ∧
    (s.decideHeld h code data).regs = s.regs ∧ (s.decideHeld h code data).area = s.area ∧
    (s.decideHeld h code data).link = s.link ∧ (s.decideHeld h code data).freeIndex = s.freeIndex :=
  ⟨rfl, rfl, rfl, rfl, rfl, rfl, rfl, rfl, rfl, rfl, rfl, rfl, rfl, rfl, rfl, rfl⟩

@[simp] theorem State.modRamp_ramp (s : State) (f : RampUnit → RampUnit) : (s.modRamp f).ramp = f s.ramp := rfl

@[simp] theorem State.modLogs_logs (s : State) (f : Logs → Logs) : (s.modLogs f).logs = f s.logs := rfl

@[simp] theorem State.modIntake_intake (s : State) (f : Intake → Intake) : (s.modIntake f).intake = f s.intake := rfl

@[simp] theorem State.dirtyAll_ctx (s : State) (i : Fin 256) : s.dirtyAll.ctx i = { s.ctx i with dirty := true } := by
  simp [State.dirtyAll, State.ctx]

theorem State.setCtx_ctx (s : State) (i j : Fin 256) (c : Context) :
    (s.setCtx i c).ctx j = if i = j then (s.ctx i).touched c else s.ctx j :=
  Table.get_set _ _ _ _

@[simp] theorem State.setCtx_ctx_same (s : State) (i : Fin 256) (c : Context) :
    (s.setCtx i c).ctx i = (s.ctx i).touched c := by simp [State.setCtx_ctx]

@[simp] theorem State.modCtx_ctx_same (s : State) (i : Fin 256) (f : Context → Context) :
    (s.modCtx i f).ctx i = (s.ctx i).touched (f (s.ctx i)) := State.setCtx_ctx_same s i _

theorem State.modCtx_ctx_other (s : State) {i j : Fin 256} (h : i ≠ j) (f : Context → Context) :
    (s.modCtx i f).ctx j = s.ctx j := by simp [State.modCtx, State.setCtx_ctx, h]

theorem State.modChain_chain (s : State) (ch j : Fin 4) (f : Chain → Chain) :
    (s.modChain ch f).chain j = if ch = j then f (s.chain ch) else s.chain j :=
  Table.get_set _ _ _ _

@[simp] theorem State.modChain_chain_same (s : State) (ch : Fin 4) (f : Chain → Chain) :
    (s.modChain ch f).chain ch = f (s.chain ch) := by simp [State.modChain_chain]

theorem State.modChain_chain_other (s : State) {ch j : Fin 4} (h : ch ≠ j) (f : Chain → Chain) :
    (s.modChain ch f).chain j = s.chain j := by simp [State.modChain_chain, h]

theorem State.modGroup_group (s : State) (g h : Fin 8) (f : Group → Group) :
    (s.modGroup g f).group h = if g = h then f (s.group g) else s.group h :=
  Table.get_set _ _ _ _

@[simp] theorem State.modGroup_group_same (s : State) (g : Fin 8) (f : Group → Group) :
    (s.modGroup g f).group g = f (s.group g) := by simp [State.modGroup_group]

theorem State.modGroup_group_other (s : State) {g h : Fin 8} (e : g ≠ h) (f : Group → Group) :
    (s.modGroup g f).group h = s.group h := by simp [State.modGroup_group, e]

/-- Two states with the same table of contexts read the same context. -/
theorem State.ctx_congr {s t : State} (h : t.contexts = s.contexts) (i : Fin 256) : t.ctx i = s.ctx i := by
  simp [State.ctx, h]

/-- Two states with the same table of chains read the same chain. -/
theorem State.chain_congr {s t : State} (h : t.chains = s.chains) (ch : Fin 4) : t.chain ch = s.chain ch := by
  simp [State.chain, h]

/-- Two states with the same table of groups read the same group. -/
theorem State.group_congr {s t : State} (h : t.groups = s.groups) (g : Fin 8) : t.group g = s.group g := by
  simp [State.group, h]

/-- A changed context is the new one, but for dirty. -/
theorem Context.touched_eq (old new : Context) :
    old.touched new = { new with dirty := new.dirty || !decide (old.mirrored = new.mirrored) } := by
  unfold Context.touched
  split <;> simp_all

end Sys2Proof.Machine
end

