-- ==== Sys2Proof/Laws/Keeps.lean ====
section
/-! SUPPORT. What each shared operation leaves as it was: one law per operation, which cites those of the operations
it calls. -/

namespace Sys2Proof.Machine


@[simp] theorem State.areaRead_keeps (s : State) (off n : Nat) :
    ((s.areaRead off n).2).pending = s.pending ∧ ((s.areaRead off n).2).solves = s.solves ∧
    ((s.areaRead off n).2).clock = s.clock ∧
    ((s.areaRead off n).2).contexts = s.contexts ∧ ((s.areaRead off n).2).groups = s.groups ∧
    ((s.areaRead off n).2).serviceTimer = s.serviceTimer ∧
    ((s.areaRead off n).2).stalenessTimer = s.stalenessTimer ∧ ((s.areaRead off n).2).pages = s.pages ∧
    ((s.areaRead off n).2).ramp = s.ramp ∧ ((s.areaRead off n).2).chains = s.chains ∧
    ((s.areaRead off n).2).filters = s.filters ∧ ((s.areaRead off n).2).logs = s.logs ∧
    ((s.areaRead off n).2).area = s.area ∧ ((s.areaRead off n).2).freeIndex = s.freeIndex ∧
    ((s.areaRead off n).2).intake.cursor = s.intake.cursor ∧
    ((s.areaRead off n).2).intake.walk = s.intake.walk ∧
    ((s.areaRead off n).2).intake.longCards = s.intake.longCards ∧
    ((s.areaRead off n).2).intake.completions = s.intake.completions ∧
    ((s.areaRead off n).2).intake.scanCount = s.intake.scanCount ∧
    ((s.areaRead off n).2).regs.areaLo = s.regs.areaLo ∧ ((s.areaRead off n).2).regs.areaHi = s.regs.areaHi ∧
    ((s.areaRead off n).2).regs.run = s.regs.run ∧ ((s.areaRead off n).2).regs.noticeMask = s.regs.noticeMask ∧
    ((s.areaRead off n).2).link.up = s.link.up := by
  unfold State.areaRead
  split_ifs <;> simp [State.areaBusFault, State.notice, State.countAccess]

@[simp] theorem State.areaWrite_keeps (s : State) (off : Nat) (bs : List Byte) :
    (s.areaWrite off bs).pending = s.pending ∧ (s.areaWrite off bs).solves = s.solves ∧
    (s.areaWrite off bs).clock = s.clock ∧
    (s.areaWrite off bs).contexts = s.contexts ∧ (s.areaWrite off bs).groups = s.groups ∧
    (s.areaWrite off bs).serviceTimer = s.serviceTimer ∧
    (s.areaWrite off bs).stalenessTimer = s.stalenessTimer ∧ (s.areaWrite off bs).pages = s.pages ∧
    (s.areaWrite off bs).ramp = s.ramp ∧ (s.areaWrite off bs).chains = s.chains ∧
    (s.areaWrite off bs).filters = s.filters ∧ (s.areaWrite off bs).logs = s.logs ∧
    (s.areaWrite off bs).freeIndex = s.freeIndex ∧ (s.areaWrite off bs).intake.cursor = s.intake.cursor ∧
    (s.areaWrite off bs).intake.walk = s.intake.walk ∧
    (s.areaWrite off bs).intake.longCards = s.intake.longCards ∧
    (s.areaWrite off bs).intake.completions = s.intake.completions ∧
    (s.areaWrite off bs).intake.scanCount = s.intake.scanCount ∧
    (s.areaWrite off bs).regs.areaLo = s.regs.areaLo ∧ (s.areaWrite off bs).regs.areaHi = s.regs.areaHi ∧
    (s.areaWrite off bs).regs.run = s.regs.run ∧ (s.areaWrite off bs).regs.noticeMask = s.regs.noticeMask ∧
    (s.areaWrite off bs).link.up = s.link.up := by
  unfold State.areaWrite
  split_ifs <;> simp [State.areaBusFault, State.notice, State.countAccess]

@[simp] theorem State.foldWrites_keeps (s : State) (l : List (Nat × List Byte)) :
    (l.foldl (fun s w => State.areaWrite s w.1 w.2) s).pending = s.pending ∧ (l.foldl (fun s w => State.areaWrite s w.1 w.2) s).solves = s.solves ∧
    (l.foldl (fun s w => State.areaWrite s w.1 w.2) s).clock = s.clock ∧
    (l.foldl (fun s w => State.areaWrite s w.1 w.2) s).contexts = s.contexts ∧
    (l.foldl (fun s w => State.areaWrite s w.1 w.2) s).groups = s.groups ∧
    (l.foldl (fun s w => State.areaWrite s w.1 w.2) s).serviceTimer = s.serviceTimer ∧
    (l.foldl (fun s w => State.areaWrite s w.1 w.2) s).stalenessTimer = s.stalenessTimer ∧
    (l.foldl (fun s w => State.areaWrite s w.1 w.2) s).pages = s.pages ∧
    (l.foldl (fun s w => State.areaWrite s w.1 w.2) s).ramp = s.ramp ∧
    (l.foldl (fun s w => State.areaWrite s w.1 w.2) s).chains = s.chains ∧
    (l.foldl (fun s w => State.areaWrite s w.1 w.2) s).filters = s.filters ∧
    (l.foldl (fun s w => State.areaWrite s w.1 w.2) s).logs = s.logs ∧
    (l.foldl (fun s w => State.areaWrite s w.1 w.2) s).freeIndex = s.freeIndex ∧
    (l.foldl (fun s w => State.areaWrite s w.1 w.2) s).intake.cursor = s.intake.cursor ∧
    (l.foldl (fun s w => State.areaWrite s w.1 w.2) s).intake.walk = s.intake.walk ∧
    (l.foldl (fun s w => State.areaWrite s w.1 w.2) s).intake.longCards = s.intake.longCards ∧
    (l.foldl (fun s w => State.areaWrite s w.1 w.2) s).intake.completions = s.intake.completions ∧
    (l.foldl (fun s w => State.areaWrite s w.1 w.2) s).intake.scanCount = s.intake.scanCount ∧
    (l.foldl (fun s w => State.areaWrite s w.1 w.2) s).regs.areaLo = s.regs.areaLo ∧
    (l.foldl (fun s w => State.areaWrite s w.1 w.2) s).regs.areaHi = s.regs.areaHi ∧
    (l.foldl (fun s w => State.areaWrite s w.1 w.2) s).regs.run = s.regs.run ∧
    (l.foldl (fun s w => State.areaWrite s w.1 w.2) s).regs.noticeMask = s.regs.noticeMask ∧
    (l.foldl (fun s w => State.areaWrite s w.1 w.2) s).link.up = s.link.up := by
  induction l generalizing s with
  | nil => simp
  | cons a l ih => simpa using ih (s.areaWrite a.1 a.2)

@[simp] theorem State.areaWrites_keeps (s : State) (ws : List (Nat × List Byte)) :
    (s.areaWrites ws).pending = s.pending ∧ (s.areaWrites ws).solves = s.solves ∧
    (s.areaWrites ws).clock = s.clock ∧
    (s.areaWrites ws).contexts = s.contexts ∧ (s.areaWrites ws).groups = s.groups ∧
    (s.areaWrites ws).serviceTimer = s.serviceTimer ∧ (s.areaWrites ws).stalenessTimer = s.stalenessTimer ∧
    (s.areaWrites ws).pages = s.pages ∧ (s.areaWrites ws).ramp = s.ramp ∧ (s.areaWrites ws).chains = s.chains ∧
    (s.areaWrites ws).filters = s.filters ∧ (s.areaWrites ws).logs = s.logs ∧
    (s.areaWrites ws).freeIndex = s.freeIndex ∧ (s.areaWrites ws).intake.cursor = s.intake.cursor ∧
    (s.areaWrites ws).intake.walk = s.intake.walk ∧ (s.areaWrites ws).intake.longCards = s.intake.longCards ∧
    (s.areaWrites ws).intake.completions = s.intake.completions ∧
    (s.areaWrites ws).intake.scanCount = s.intake.scanCount ∧ (s.areaWrites ws).regs.areaLo = s.regs.areaLo ∧
    (s.areaWrites ws).regs.areaHi = s.regs.areaHi ∧ (s.areaWrites ws).regs.run = s.regs.run ∧
    (s.areaWrites ws).regs.noticeMask = s.regs.noticeMask ∧ (s.areaWrites ws).link.up = s.link.up := by
  unfold State.areaWrites
  simp

@[simp] theorem State.releaseGeneral_keeps (s : State) :
    (s.releaseGeneral).pending = s.pending ∧ (s.releaseGeneral).solves = s.solves ∧
    (s.releaseGeneral).clock = s.clock ∧
    (s.releaseGeneral).contexts = s.contexts ∧ (s.releaseGeneral).groups = s.groups ∧
    (s.releaseGeneral).serviceTimer = s.serviceTimer ∧ (s.releaseGeneral).stalenessTimer = s.stalenessTimer ∧
    (s.releaseGeneral).pages = s.pages ∧ (s.releaseGeneral).ramp = s.ramp ∧
    (s.releaseGeneral).chains = s.chains ∧ (s.releaseGeneral).filters = s.filters ∧
    (s.releaseGeneral).intake = s.intake ∧ (s.releaseGeneral).regs = s.regs ∧
    (s.releaseGeneral).area = s.area ∧ (s.releaseGeneral).link = s.link ∧
    (s.releaseGeneral).freeIndex = s.freeIndex := by
  unfold State.releaseGeneral
  split_ifs <;> simp

@[simp] theorem State.makeRoom_keeps (s : State) :
    (s.makeRoom).pending = s.pending ∧ (s.makeRoom).solves = s.solves ∧
    (s.makeRoom).clock = s.clock ∧ (s.makeRoom).contexts = s.contexts ∧
    (s.makeRoom).groups = s.groups ∧ (s.makeRoom).serviceTimer = s.serviceTimer ∧
    (s.makeRoom).stalenessTimer = s.stalenessTimer ∧ (s.makeRoom).pages = s.pages ∧
    (s.makeRoom).ramp = s.ramp ∧ (s.makeRoom).chains = s.chains ∧ (s.makeRoom).filters = s.filters ∧
    (s.makeRoom).intake = s.intake ∧ (s.makeRoom).area = s.area ∧ (s.makeRoom).link = s.link ∧
    (s.makeRoom).freeIndex = s.freeIndex ∧ s.makeRoom.regs.areaLo = s.regs.areaLo ∧
    s.makeRoom.regs.areaHi = s.regs.areaHi ∧ s.makeRoom.regs.run = s.regs.run ∧
    s.makeRoom.regs.noticeMask = s.regs.noticeMask := by
  unfold State.makeRoom
  split_ifs <;> simp [State.notice]

@[simp] theorem State.logGeneral_keeps (s : State) (r : Report) :
    (s.logGeneral r).pending = s.pending ∧ (s.logGeneral r).solves = s.solves ∧
    (s.logGeneral r).clock = s.clock ∧
    (s.logGeneral r).contexts = s.contexts ∧ (s.logGeneral r).groups = s.groups ∧
    (s.logGeneral r).serviceTimer = s.serviceTimer ∧ (s.logGeneral r).stalenessTimer = s.stalenessTimer ∧
    (s.logGeneral r).pages = s.pages ∧ (s.logGeneral r).ramp = s.ramp ∧ (s.logGeneral r).chains = s.chains ∧
    (s.logGeneral r).filters = s.filters ∧ (s.logGeneral r).freeIndex = s.freeIndex ∧
    (s.logGeneral r).intake.cursor = s.intake.cursor ∧ (s.logGeneral r).intake.walk = s.intake.walk ∧
    (s.logGeneral r).intake.longCards = s.intake.longCards ∧
    (s.logGeneral r).intake.completions = s.intake.completions ∧
    (s.logGeneral r).intake.scanCount = s.intake.scanCount ∧ (s.logGeneral r).regs.areaLo = s.regs.areaLo ∧
    (s.logGeneral r).regs.areaHi = s.regs.areaHi ∧ (s.logGeneral r).regs.run = s.regs.run ∧
    (s.logGeneral r).regs.noticeMask = s.regs.noticeMask ∧ (s.logGeneral r).link.up = s.link.up := by
  unfold State.logGeneral
  dsimp only
  split_ifs <;> simp

@[simp] theorem State.logAlert_keeps (s : State) (r : Report) :
    (s.logAlert r).pending = s.pending ∧ (s.logAlert r).solves = s.solves ∧
    (s.logAlert r).clock = s.clock ∧
    (s.logAlert r).contexts = s.contexts ∧ (s.logAlert r).groups = s.groups ∧
    (s.logAlert r).serviceTimer = s.serviceTimer ∧ (s.logAlert r).stalenessTimer = s.stalenessTimer ∧
    (s.logAlert r).pages = s.pages ∧ (s.logAlert r).ramp = s.ramp ∧ (s.logAlert r).chains = s.chains ∧
    (s.logAlert r).filters = s.filters ∧ (s.logAlert r).freeIndex = s.freeIndex ∧
    (s.logAlert r).intake.cursor = s.intake.cursor ∧ (s.logAlert r).intake.walk = s.intake.walk ∧
    (s.logAlert r).intake.longCards = s.intake.longCards ∧
    (s.logAlert r).intake.completions = s.intake.completions ∧
    (s.logAlert r).intake.scanCount = s.intake.scanCount ∧ (s.logAlert r).regs.areaLo = s.regs.areaLo ∧
    (s.logAlert r).regs.areaHi = s.regs.areaHi ∧ (s.logAlert r).regs.run = s.regs.run ∧
    (s.logAlert r).regs.noticeMask = s.regs.noticeMask ∧ (s.logAlert r).link.up = s.link.up := by
  unfold State.logAlert
  dsimp only
  split_ifs <;> simp [State.notice]

@[simp] theorem State.writeReport_keeps (s : State) (d : Destination) (r : Report) :
    (s.writeReport d r).pending = s.pending ∧ (s.writeReport d r).solves = s.solves ∧
    (s.writeReport d r).clock = s.clock ∧
    (s.writeReport d r).contexts = s.contexts ∧ (s.writeReport d r).groups = s.groups ∧
    (s.writeReport d r).serviceTimer = s.serviceTimer ∧ (s.writeReport d r).stalenessTimer = s.stalenessTimer ∧
    (s.writeReport d r).pages = s.pages ∧ (s.writeReport d r).ramp = s.ramp ∧
    (s.writeReport d r).chains = s.chains ∧ (s.writeReport d r).filters = s.filters ∧
    (s.writeReport d r).freeIndex = s.freeIndex ∧ (s.writeReport d r).intake.cursor = s.intake.cursor ∧
    (s.writeReport d r).intake.walk = s.intake.walk ∧
    (s.writeReport d r).intake.longCards = s.intake.longCards ∧
    (s.writeReport d r).intake.completions = s.intake.completions ∧
    (s.writeReport d r).intake.scanCount = s.intake.scanCount ∧
    (s.writeReport d r).regs.areaLo = s.regs.areaLo ∧ (s.writeReport d r).regs.areaHi = s.regs.areaHi ∧
    (s.writeReport d r).regs.run = s.regs.run ∧ (s.writeReport d r).regs.noticeMask = s.regs.noticeMask ∧
    (s.writeReport d r).link.up = s.link.up := by
  unfold State.writeReport
  split_ifs <;> cases d <;> simp

@[simp] theorem State.raisePart_keeps (s : State) (k : PartKind) (ch : Fin 4) (a : Fin 64) (serial value : Word) :
    (s.raisePart k ch a serial value).pending = s.pending ∧ (s.raisePart k ch a serial value).solves = s.solves ∧
    (s.raisePart k ch a serial value).clock = s.clock ∧
    (s.raisePart k ch a serial value).contexts = s.contexts ∧
    (s.raisePart k ch a serial value).groups = s.groups ∧
    (s.raisePart k ch a serial value).serviceTimer = s.serviceTimer ∧
    (s.raisePart k ch a serial value).stalenessTimer = s.stalenessTimer ∧
    (s.raisePart k ch a serial value).pages = s.pages ∧ (s.raisePart k ch a serial value).ramp = s.ramp ∧
    (s.raisePart k ch a serial value).chains = s.chains ∧
    (s.raisePart k ch a serial value).filters = s.filters ∧
    (s.raisePart k ch a serial value).freeIndex = s.freeIndex ∧
    (s.raisePart k ch a serial value).intake.cursor = s.intake.cursor ∧
    (s.raisePart k ch a serial value).intake.walk = s.intake.walk ∧
    (s.raisePart k ch a serial value).intake.longCards = s.intake.longCards ∧
    (s.raisePart k ch a serial value).intake.completions = s.intake.completions ∧
    (s.raisePart k ch a serial value).intake.scanCount = s.intake.scanCount ∧
    (s.raisePart k ch a serial value).regs.areaLo = s.regs.areaLo ∧
    (s.raisePart k ch a serial value).regs.areaHi = s.regs.areaHi ∧
    (s.raisePart k ch a serial value).regs.run = s.regs.run ∧
    (s.raisePart k ch a serial value).regs.noticeMask = s.regs.noticeMask ∧
    (s.raisePart k ch a serial value).link.up = s.link.up := by
  unfold State.raisePart
  simp

@[simp] theorem State.unordered_keeps (s : State) {α : Type} (l : List α) :
    ((s.unordered l).2).pending = s.pending ∧ ((s.unordered l).2).solves = s.solves ∧
    ((s.unordered l).2).clock = s.clock ∧
    ((s.unordered l).2).contexts = s.contexts ∧ ((s.unordered l).2).groups = s.groups ∧
    ((s.unordered l).2).serviceTimer = s.serviceTimer ∧ ((s.unordered l).2).stalenessTimer = s.stalenessTimer ∧
    ((s.unordered l).2).pages = s.pages ∧ ((s.unordered l).2).ramp = s.ramp ∧
    ((s.unordered l).2).chains = s.chains ∧ ((s.unordered l).2).filters = s.filters ∧
    ((s.unordered l).2).logs = s.logs ∧ ((s.unordered l).2).intake = s.intake ∧
    ((s.unordered l).2).regs = s.regs ∧ ((s.unordered l).2).area = s.area ∧
    ((s.unordered l).2).link = s.link := by
  unfold State.unordered
  split_ifs <;> simp

@[simp] theorem State.foldReports_keeps (s : State) (l : List (Report)) :
    (l.foldl (fun s r => State.writeReport s .alert r) s).pending = s.pending ∧ (l.foldl (fun s r => State.writeReport s .alert r) s).solves = s.solves ∧
    (l.foldl (fun s r => State.writeReport s .alert r) s).clock = s.clock ∧
    (l.foldl (fun s r => State.writeReport s .alert r) s).contexts = s.contexts ∧
    (l.foldl (fun s r => State.writeReport s .alert r) s).groups = s.groups ∧
    (l.foldl (fun s r => State.writeReport s .alert r) s).serviceTimer = s.serviceTimer ∧
    (l.foldl (fun s r => State.writeReport s .alert r) s).stalenessTimer = s.stalenessTimer ∧
    (l.foldl (fun s r => State.writeReport s .alert r) s).pages = s.pages ∧
    (l.foldl (fun s r => State.writeReport s .alert r) s).ramp = s.ramp ∧
    (l.foldl (fun s r => State.writeReport s .alert r) s).chains = s.chains ∧
    (l.foldl (fun s r => State.writeReport s .alert r) s).filters = s.filters ∧
    (l.foldl (fun s r => State.writeReport s .alert r) s).freeIndex = s.freeIndex ∧
    (l.foldl (fun s r => State.writeReport s .alert r) s).intake.cursor = s.intake.cursor ∧
    (l.foldl (fun s r => State.writeReport s .alert r) s).intake.walk = s.intake.walk ∧
    (l.foldl (fun s r => State.writeReport s .alert r) s).intake.longCards = s.intake.longCards ∧
    (l.foldl (fun s r => State.writeReport s .alert r) s).intake.completions = s.intake.completions ∧
    (l.foldl (fun s r => State.writeReport s .alert r) s).intake.scanCount = s.intake.scanCount ∧
    (l.foldl (fun s r => State.writeReport s .alert r) s).regs.areaLo = s.regs.areaLo ∧
    (l.foldl (fun s r => State.writeReport s .alert r) s).regs.areaHi = s.regs.areaHi ∧
    (l.foldl (fun s r => State.writeReport s .alert r) s).regs.run = s.regs.run ∧
    (l.foldl (fun s r => State.writeReport s .alert r) s).regs.noticeMask = s.regs.noticeMask ∧
    (l.foldl (fun s r => State.writeReport s .alert r) s).link.up = s.link.up := by
  induction l generalizing s with
  | nil => simp
  | cons a l ih => simpa using ih (s.writeReport .alert a)

@[simp] theorem State.raiseTogether_keeps (s : State) (rs : List Report) :
    (s.raiseTogether rs).pending = s.pending ∧ (s.raiseTogether rs).solves = s.solves ∧
    (s.raiseTogether rs).clock = s.clock ∧
    (s.raiseTogether rs).contexts = s.contexts ∧ (s.raiseTogether rs).groups = s.groups ∧
    (s.raiseTogether rs).serviceTimer = s.serviceTimer ∧
    (s.raiseTogether rs).stalenessTimer = s.stalenessTimer ∧ (s.raiseTogether rs).pages = s.pages ∧
    (s.raiseTogether rs).ramp = s.ramp ∧ (s.raiseTogether rs).chains = s.chains ∧
    (s.raiseTogether rs).filters = s.filters ∧ (s.raiseTogether rs).intake.cursor = s.intake.cursor ∧
    (s.raiseTogether rs).intake.walk = s.intake.walk ∧
    (s.raiseTogether rs).intake.longCards = s.intake.longCards ∧
    (s.raiseTogether rs).intake.completions = s.intake.completions ∧
    (s.raiseTogether rs).intake.scanCount = s.intake.scanCount ∧
    (s.raiseTogether rs).regs.areaLo = s.regs.areaLo ∧ (s.raiseTogether rs).regs.areaHi = s.regs.areaHi ∧
    (s.raiseTogether rs).regs.run = s.regs.run ∧ (s.raiseTogether rs).regs.noticeMask = s.regs.noticeMask ∧
    (s.raiseTogether rs).link.up = s.link.up := by
  unfold State.raiseTogether
  simp

@[simp] theorem State.routeTile_keeps (s : State) (ch : Fin 4) (a : Fin 64) (i : Fin 256) (r : CarriedReport) :
    (s.routeTile ch a i r).pending = s.pending ∧ (s.routeTile ch a i r).solves = s.solves ∧
    (s.routeTile ch a i r).clock = s.clock ∧
    (s.routeTile ch a i r).contexts = s.contexts ∧ (s.routeTile ch a i r).groups = s.groups ∧
    (s.routeTile ch a i r).serviceTimer = s.serviceTimer ∧
    (s.routeTile ch a i r).stalenessTimer = s.stalenessTimer ∧ (s.routeTile ch a i r).pages = s.pages ∧
    (s.routeTile ch a i r).ramp = s.ramp ∧ (s.routeTile ch a i r).chains = s.chains ∧
    (s.routeTile ch a i r).filters = s.filters ∧ (s.routeTile ch a i r).freeIndex = s.freeIndex ∧
    (s.routeTile ch a i r).intake.cursor = s.intake.cursor ∧
    (s.routeTile ch a i r).intake.walk = s.intake.walk ∧
    (s.routeTile ch a i r).intake.longCards = s.intake.longCards ∧
    (s.routeTile ch a i r).intake.completions = s.intake.completions ∧
    (s.routeTile ch a i r).intake.scanCount = s.intake.scanCount ∧
    (s.routeTile ch a i r).regs.areaLo = s.regs.areaLo ∧ (s.routeTile ch a i r).regs.areaHi = s.regs.areaHi ∧
    (s.routeTile ch a i r).regs.run = s.regs.run ∧ (s.routeTile ch a i r).regs.noticeMask = s.regs.noticeMask ∧
    (s.routeTile ch a i r).link.up = s.link.up := by
  unfold State.routeTile
  split <;> simp

@[simp] theorem State.writeCompletion_keeps (s : State) (c : Completion) :
    (s.writeCompletion c).pending = s.pending ∧ (s.writeCompletion c).solves = s.solves ∧
    (s.writeCompletion c).clock = s.clock ∧
    (s.writeCompletion c).contexts = s.contexts ∧ (s.writeCompletion c).groups = s.groups ∧
    (s.writeCompletion c).serviceTimer = s.serviceTimer ∧
    (s.writeCompletion c).stalenessTimer = s.stalenessTimer ∧ (s.writeCompletion c).pages = s.pages ∧
    (s.writeCompletion c).ramp = s.ramp ∧ (s.writeCompletion c).chains = s.chains ∧
    (s.writeCompletion c).filters = s.filters ∧ (s.writeCompletion c).logs = s.logs ∧
    (s.writeCompletion c).freeIndex = s.freeIndex ∧ (s.writeCompletion c).intake.cursor = s.intake.cursor ∧
    (s.writeCompletion c).intake.walk = s.intake.walk ∧
    (s.writeCompletion c).intake.longCards = s.intake.longCards ∧
    (s.writeCompletion c).intake.completions = s.intake.completions ∧
    (s.writeCompletion c).intake.scanCount = s.intake.scanCount ∧
    (s.writeCompletion c).regs.areaLo = s.regs.areaLo ∧ (s.writeCompletion c).regs.areaHi = s.regs.areaHi ∧
    (s.writeCompletion c).regs.run = s.regs.run ∧ (s.writeCompletion c).regs.noticeMask = s.regs.noticeMask ∧
    (s.writeCompletion c).link.up = s.link.up := by
  unfold State.writeCompletion State.completionWritten
  split_ifs <;> simp [State.notice]

@[simp] theorem State.completeCard_keeps (s : State) (c : Card) (code : ResultCode) (data : List Byte) :
    (s.completeCard c code data).pending = s.pending ∧ (s.completeCard c code data).solves = s.solves ∧
    (s.completeCard c code data).clock = s.clock ∧
    (s.completeCard c code data).contexts = s.contexts ∧ (s.completeCard c code data).groups = s.groups ∧
    (s.completeCard c code data).serviceTimer = s.serviceTimer ∧
    (s.completeCard c code data).stalenessTimer = s.stalenessTimer ∧
    (s.completeCard c code data).pages = s.pages ∧ (s.completeCard c code data).ramp = s.ramp ∧
    (s.completeCard c code data).chains = s.chains ∧ (s.completeCard c code data).filters = s.filters ∧
    (s.completeCard c code data).logs = s.logs ∧ (s.completeCard c code data).freeIndex = s.freeIndex ∧
    (s.completeCard c code data).intake.cursor = s.intake.cursor ∧
    (s.completeCard c code data).intake.walk = s.intake.walk ∧
    (s.completeCard c code data).intake.longCards = s.intake.longCards ∧
    (s.completeCard c code data).intake.completions = s.intake.completions ∧
    (s.completeCard c code data).intake.scanCount = s.intake.scanCount ∧
    (s.completeCard c code data).regs.areaLo = s.regs.areaLo ∧
    (s.completeCard c code data).regs.areaHi = s.regs.areaHi ∧
    (s.completeCard c code data).regs.run = s.regs.run ∧
    (s.completeCard c code data).regs.noticeMask = s.regs.noticeMask ∧
    (s.completeCard c code data).link.up = s.link.up := by
  unfold State.completeCard
  simp

@[simp] theorem State.refuseCard_keeps (s : State) (c : Card) (code : ResultCode) :
    (s.refuseCard c code).pending = s.pending ∧ (s.refuseCard c code).solves = s.solves ∧
    (s.refuseCard c code).clock = s.clock ∧
    (s.refuseCard c code).contexts = s.contexts ∧ (s.refuseCard c code).groups = s.groups ∧
    (s.refuseCard c code).serviceTimer = s.serviceTimer ∧
    (s.refuseCard c code).stalenessTimer = s.stalenessTimer ∧ (s.refuseCard c code).pages = s.pages ∧
    (s.refuseCard c code).ramp = s.ramp ∧ (s.refuseCard c code).chains = s.chains ∧
    (s.refuseCard c code).filters = s.filters ∧ (s.refuseCard c code).logs = s.logs ∧
    (s.refuseCard c code).freeIndex = s.freeIndex ∧ (s.refuseCard c code).intake.cursor = s.intake.cursor ∧
    (s.refuseCard c code).intake.walk = s.intake.walk ∧
    (s.refuseCard c code).intake.longCards = s.intake.longCards ∧
    (s.refuseCard c code).intake.completions = s.intake.completions ∧
    (s.refuseCard c code).intake.scanCount = s.intake.scanCount ∧
    (s.refuseCard c code).regs.areaLo = s.regs.areaLo ∧ (s.refuseCard c code).regs.areaHi = s.regs.areaHi ∧
    (s.refuseCard c code).regs.run = s.regs.run ∧ (s.refuseCard c code).regs.noticeMask = s.regs.noticeMask ∧
    (s.refuseCard c code).link.up = s.link.up := by
  unfold State.refuseCard
  simp

@[simp] theorem State.holdCard_keeps (s : State) (ch : Fin 4) (c : Card) (k : Request) :
    (s.holdCard ch c k).pending = s.pending ∧ (s.holdCard ch c k).solves = s.solves ∧
    (s.holdCard ch c k).clock = s.clock ∧
    (s.holdCard ch c k).contexts = s.contexts ∧ (s.holdCard ch c k).groups = s.groups ∧
    (s.holdCard ch c k).serviceTimer = s.serviceTimer ∧ (s.holdCard ch c k).stalenessTimer = s.stalenessTimer ∧
    (s.holdCard ch c k).pages = s.pages ∧ (s.holdCard ch c k).ramp = s.ramp ∧
    (s.holdCard ch c k).chains = s.chains ∧ (s.holdCard ch c k).filters = s.filters ∧
    (s.holdCard ch c k).logs = s.logs ∧ (s.holdCard ch c k).freeIndex = s.freeIndex := by
  unfold State.holdCard
  simp

@[simp] theorem State.decideSweepOrRoll_keeps (s : State) (ch : Fin 4) (k : Request) (code : ResultCode) (data : List Byte) :
    (s.decideSweepOrRoll ch k code data).pending = s.pending ∧ (s.decideSweepOrRoll ch k code data).solves = s.solves ∧
    (s.decideSweepOrRoll ch k code data).clock = s.clock ∧
    (s.decideSweepOrRoll ch k code data).contexts = s.contexts ∧
    (s.decideSweepOrRoll ch k code data).groups = s.groups ∧
    (s.decideSweepOrRoll ch k code data).serviceTimer = s.serviceTimer ∧
    (s.decideSweepOrRoll ch k code data).stalenessTimer = s.stalenessTimer ∧
    (s.decideSweepOrRoll ch k code data).pages = s.pages ∧ (s.decideSweepOrRoll ch k code data).ramp = s.ramp ∧
    (s.decideSweepOrRoll ch k code data).chains = s.chains ∧
    (s.decideSweepOrRoll ch k code data).filters = s.filters ∧
    (s.decideSweepOrRoll ch k code data).logs = s.logs ∧ (s.decideSweepOrRoll ch k code data).regs = s.regs ∧
    (s.decideSweepOrRoll ch k code data).area = s.area ∧ (s.decideSweepOrRoll ch k code data).link = s.link ∧
    (s.decideSweepOrRoll ch k code data).freeIndex = s.freeIndex ∧
    (s.decideSweepOrRoll ch k code data).intake.cursor = s.intake.cursor ∧
    (s.decideSweepOrRoll ch k code data).intake.halted = s.intake.halted ∧
    (s.decideSweepOrRoll ch k code data).intake.scanTimer = s.intake.scanTimer ∧
    (s.decideSweepOrRoll ch k code data).intake.walk = s.intake.walk ∧
    (s.decideSweepOrRoll ch k code data).intake.follow = s.intake.follow ∧
    (s.decideSweepOrRoll ch k code data).intake.scan = s.intake.scan ∧
    (s.decideSweepOrRoll ch k code data).intake.scanCount = s.intake.scanCount := by
  unfold State.decideSweepOrRoll
  split
  · simp
  · split_ifs <;> simp [State.decideHeld, State.modEntries, State.modIntake]

@[simp] theorem State.decideStop_keeps (s : State) (ch : Fin 4) (code : ResultCode) (data : List Byte) :
    (s.decideStop ch code data).pending = s.pending ∧ (s.decideStop ch code data).solves = s.solves ∧
    (s.decideStop ch code data).clock = s.clock ∧
    (s.decideStop ch code data).contexts = s.contexts ∧ (s.decideStop ch code data).groups = s.groups ∧
    (s.decideStop ch code data).serviceTimer = s.serviceTimer ∧
    (s.decideStop ch code data).stalenessTimer = s.stalenessTimer ∧
    (s.decideStop ch code data).pages = s.pages ∧ (s.decideStop ch code data).ramp = s.ramp ∧
    (s.decideStop ch code data).chains = s.chains ∧ (s.decideStop ch code data).filters = s.filters ∧
    (s.decideStop ch code data).logs = s.logs ∧ (s.decideStop ch code data).regs = s.regs ∧
    (s.decideStop ch code data).area = s.area ∧ (s.decideStop ch code data).link = s.link ∧
    (s.decideStop ch code data).freeIndex = s.freeIndex ∧
    (s.decideStop ch code data).intake.cursor = s.intake.cursor ∧
    (s.decideStop ch code data).intake.halted = s.intake.halted ∧
    (s.decideStop ch code data).intake.scanTimer = s.intake.scanTimer ∧
    (s.decideStop ch code data).intake.walk = s.intake.walk ∧
    (s.decideStop ch code data).intake.follow = s.intake.follow ∧
    (s.decideStop ch code data).intake.scan = s.intake.scan ∧
    (s.decideStop ch code data).intake.scanCount = s.intake.scanCount := by
  unfold State.decideStop
  split <;> simp [State.decideHeld, State.modEntries, State.modIntake]

@[simp] theorem State.enqueuePush_keeps (s : State) (i : Fin 256) :
    (s.enqueuePush i).pending = s.pending ∧ (s.enqueuePush i).solves = s.solves ∧
    (s.enqueuePush i).clock = s.clock ∧
    (s.enqueuePush i).contexts = s.contexts ∧ (s.enqueuePush i).groups = s.groups ∧
    (s.enqueuePush i).serviceTimer = s.serviceTimer ∧ (s.enqueuePush i).stalenessTimer = s.stalenessTimer ∧
    (s.enqueuePush i).pages = s.pages ∧ (s.enqueuePush i).ramp = s.ramp ∧
    (s.enqueuePush i).filters = s.filters ∧ (s.enqueuePush i).logs = s.logs ∧
    (s.enqueuePush i).intake = s.intake ∧ (s.enqueuePush i).regs = s.regs ∧ (s.enqueuePush i).area = s.area ∧
    (s.enqueuePush i).link = s.link ∧ (s.enqueuePush i).freeIndex = s.freeIndex := by
  unfold State.enqueuePush
  simp

@[simp] theorem State.enqueueProbe_keeps (s : State) (i : Fin 256) :
    (s.enqueueProbe i).pending = s.pending ∧ (s.enqueueProbe i).solves = s.solves ∧
    (s.enqueueProbe i).clock = s.clock ∧
    (s.enqueueProbe i).contexts = s.contexts ∧ (s.enqueueProbe i).groups = s.groups ∧
    (s.enqueueProbe i).serviceTimer = s.serviceTimer ∧ (s.enqueueProbe i).stalenessTimer = s.stalenessTimer ∧
    (s.enqueueProbe i).pages = s.pages ∧ (s.enqueueProbe i).ramp = s.ramp ∧
    (s.enqueueProbe i).filters = s.filters ∧ (s.enqueueProbe i).logs = s.logs ∧
    (s.enqueueProbe i).intake = s.intake ∧ (s.enqueueProbe i).regs = s.regs ∧
    (s.enqueueProbe i).area = s.area ∧ (s.enqueueProbe i).link = s.link ∧
    (s.enqueueProbe i).freeIndex = s.freeIndex := by
  unfold State.enqueueProbe
  simp

@[simp] theorem State.joinPollList_keeps (s : State) (i : Fin 256) :
    (s.joinPollList i).pending = s.pending ∧ (s.joinPollList i).solves = s.solves ∧
    (s.joinPollList i).clock = s.clock ∧
    (s.joinPollList i).contexts = s.contexts ∧ (s.joinPollList i).groups = s.groups ∧
    (s.joinPollList i).serviceTimer = s.serviceTimer ∧ (s.joinPollList i).stalenessTimer = s.stalenessTimer ∧
    (s.joinPollList i).pages = s.pages ∧ (s.joinPollList i).ramp = s.ramp ∧
    (s.joinPollList i).filters = s.filters ∧ (s.joinPollList i).logs = s.logs ∧
    (s.joinPollList i).intake = s.intake ∧ (s.joinPollList i).regs = s.regs ∧
    (s.joinPollList i).area = s.area ∧ (s.joinPollList i).link = s.link ∧
    (s.joinPollList i).freeIndex = s.freeIndex := by
  unfold State.joinPollList
  simp

@[simp] theorem State.countSweep_keeps (s : State) (ch : Fin 4) (f : SweepRecord → SweepRecord) :
    (s.countSweep ch f).pending = s.pending ∧ (s.countSweep ch f).solves = s.solves ∧
    (s.countSweep ch f).clock = s.clock ∧
    (s.countSweep ch f).contexts = s.contexts ∧ (s.countSweep ch f).groups = s.groups ∧
    (s.countSweep ch f).serviceTimer = s.serviceTimer ∧ (s.countSweep ch f).stalenessTimer = s.stalenessTimer ∧
    (s.countSweep ch f).pages = s.pages ∧ (s.countSweep ch f).ramp = s.ramp ∧
    (s.countSweep ch f).filters = s.filters ∧ (s.countSweep ch f).logs = s.logs ∧
    (s.countSweep ch f).intake = s.intake ∧ (s.countSweep ch f).regs = s.regs ∧
    (s.countSweep ch f).area = s.area ∧ (s.countSweep ch f).link = s.link ∧
    (s.countSweep ch f).freeIndex = s.freeIndex := by
  unfold State.countSweep
  simp

@[simp] theorem State.endSweep_keeps (s : State) (ch : Fin 4) (code : ResultCode) :
    (s.endSweep ch code).pending = s.pending ∧ (s.endSweep ch code).solves = s.solves ∧
    (s.endSweep ch code).clock = s.clock ∧
    (s.endSweep ch code).contexts = s.contexts ∧ (s.endSweep ch code).groups = s.groups ∧
    (s.endSweep ch code).serviceTimer = s.serviceTimer ∧
    (s.endSweep ch code).stalenessTimer = s.stalenessTimer ∧ (s.endSweep ch code).pages = s.pages ∧
    (s.endSweep ch code).ramp = s.ramp ∧ (s.endSweep ch code).filters = s.filters ∧
    (s.endSweep ch code).logs = s.logs ∧ (s.endSweep ch code).regs = s.regs ∧
    (s.endSweep ch code).area = s.area ∧ (s.endSweep ch code).link = s.link ∧
    (s.endSweep ch code).freeIndex = s.freeIndex ∧ (s.endSweep ch code).intake.cursor = s.intake.cursor ∧
    (s.endSweep ch code).intake.halted = s.intake.halted ∧
    (s.endSweep ch code).intake.scanTimer = s.intake.scanTimer ∧
    (s.endSweep ch code).intake.walk = s.intake.walk ∧ (s.endSweep ch code).intake.follow = s.intake.follow ∧
    (s.endSweep ch code).intake.scan = s.intake.scan ∧
    (s.endSweep ch code).intake.scanCount = s.intake.scanCount := by
  unfold State.endSweep
  split <;> simp

@[simp] theorem State.testSweep_keeps (s : State) (ch : Fin 4) :
    (s.testSweep ch).pending = s.pending ∧ (s.testSweep ch).solves = s.solves ∧
    (s.testSweep ch).clock = s.clock ∧
    (s.testSweep ch).contexts = s.contexts ∧ (s.testSweep ch).groups = s.groups ∧
    (s.testSweep ch).serviceTimer = s.serviceTimer ∧ (s.testSweep ch).stalenessTimer = s.stalenessTimer ∧
    (s.testSweep ch).pages = s.pages ∧ (s.testSweep ch).ramp = s.ramp ∧ (s.testSweep ch).filters = s.filters ∧
    (s.testSweep ch).logs = s.logs ∧ (s.testSweep ch).regs = s.regs ∧ (s.testSweep ch).area = s.area ∧
    (s.testSweep ch).link = s.link ∧ (s.testSweep ch).freeIndex = s.freeIndex ∧
    (s.testSweep ch).intake.cursor = s.intake.cursor ∧ (s.testSweep ch).intake.halted = s.intake.halted ∧
    (s.testSweep ch).intake.scanTimer = s.intake.scanTimer ∧ (s.testSweep ch).intake.walk = s.intake.walk ∧
    (s.testSweep ch).intake.follow = s.intake.follow ∧
    (s.testSweep ch).intake.scan = s.intake.scan ∧
    (s.testSweep ch).intake.scanCount = s.intake.scanCount := by
  unfold State.testSweep
  split_ifs <;> simp

@[simp] theorem State.markDue_keeps (s : State) (ch : Fin 4) :
    (s.markDue ch).pending = s.pending ∧ (s.markDue ch).solves = s.solves ∧
    (s.markDue ch).clock = s.clock ∧ (s.markDue ch).groups = s.groups ∧
    (s.markDue ch).serviceTimer = s.serviceTimer ∧ (s.markDue ch).stalenessTimer = s.stalenessTimer ∧
    (s.markDue ch).pages = s.pages ∧ (s.markDue ch).ramp = s.ramp ∧ (s.markDue ch).chains = s.chains ∧
    (s.markDue ch).filters = s.filters ∧ (s.markDue ch).logs = s.logs ∧ (s.markDue ch).intake = s.intake ∧
    (s.markDue ch).regs = s.regs ∧ (s.markDue ch).area = s.area ∧ (s.markDue ch).link = s.link ∧
    (s.markDue ch).freeIndex = s.freeIndex := by
  unfold State.markDue
  simp

@[simp] theorem State.dropWork_keeps (s : State) (i : Fin 256) :
    (s.dropWork i).pending = s.pending ∧ (s.dropWork i).solves = s.solves ∧
    (s.dropWork i).clock = s.clock ∧ (s.dropWork i).groups = s.groups ∧
    (s.dropWork i).serviceTimer = s.serviceTimer ∧ (s.dropWork i).stalenessTimer = s.stalenessTimer ∧
    (s.dropWork i).pages = s.pages ∧ (s.dropWork i).ramp = s.ramp ∧ (s.dropWork i).filters = s.filters ∧
    (s.dropWork i).logs = s.logs ∧ (s.dropWork i).intake = s.intake ∧ (s.dropWork i).regs = s.regs ∧
    (s.dropWork i).area = s.area ∧ (s.dropWork i).link = s.link ∧ (s.dropWork i).freeIndex = s.freeIndex := by
  unfold State.dropWork
  dsimp only
  split_ifs <;> simp

@[simp] theorem State.transition_keeps (s : State) (i : Fin 256) (life : Life) (reason : FaultReason) :
    (s.transition i life reason).pending = s.pending ∧ (s.transition i life reason).solves = s.solves ∧
    (s.transition i life reason).clock = s.clock ∧
    (s.transition i life reason).serviceTimer = s.serviceTimer ∧
    (s.transition i life reason).stalenessTimer = s.stalenessTimer ∧
    (s.transition i life reason).pages = s.pages ∧ (s.transition i life reason).ramp = s.ramp ∧
    (s.transition i life reason).filters = s.filters ∧ (s.transition i life reason).logs = s.logs ∧
    (s.transition i life reason).regs = s.regs ∧ (s.transition i life reason).area = s.area ∧
    (s.transition i life reason).link = s.link ∧ (s.transition i life reason).freeIndex = s.freeIndex ∧
    (s.transition i life reason).intake.cursor = s.intake.cursor ∧
    (s.transition i life reason).intake.halted = s.intake.halted ∧
    (s.transition i life reason).intake.scanTimer = s.intake.scanTimer ∧
    (s.transition i life reason).intake.walk = s.intake.walk ∧
    (s.transition i life reason).intake.follow = s.intake.follow ∧
    (s.transition i life reason).intake.scan = s.intake.scan ∧
    (s.transition i life reason).intake.scanCount = s.intake.scanCount := by
  unfold State.transition
  dsimp only
  split_ifs <;> simp

@[simp] theorem State.enterLive_keeps (s : State) (i : Fin 256) :
    (s.enterLive i).pending = s.pending ∧ (s.enterLive i).solves = s.solves ∧
    (s.enterLive i).clock = s.clock ∧
    (s.enterLive i).serviceTimer = s.serviceTimer ∧ (s.enterLive i).stalenessTimer = s.stalenessTimer ∧
    (s.enterLive i).pages = s.pages ∧ (s.enterLive i).ramp = s.ramp ∧ (s.enterLive i).filters = s.filters ∧
    (s.enterLive i).logs = s.logs ∧ (s.enterLive i).regs = s.regs ∧ (s.enterLive i).area = s.area ∧
    (s.enterLive i).link = s.link ∧ (s.enterLive i).freeIndex = s.freeIndex ∧
    (s.enterLive i).intake.cursor = s.intake.cursor ∧ (s.enterLive i).intake.halted = s.intake.halted ∧
    (s.enterLive i).intake.scanTimer = s.intake.scanTimer ∧ (s.enterLive i).intake.walk = s.intake.walk ∧
    (s.enterLive i).intake.follow = s.intake.follow ∧
    (s.enterLive i).intake.scan = s.intake.scan ∧
    (s.enterLive i).intake.scanCount = s.intake.scanCount := by
  unfold State.enterLive
  simp

@[simp] theorem State.enterUnmatched_keeps (s : State) (i : Fin 256) (found : Word) :
    (s.enterUnmatched i found).pending = s.pending ∧ (s.enterUnmatched i found).solves = s.solves ∧
    (s.enterUnmatched i found).clock = s.clock ∧
    (s.enterUnmatched i found).serviceTimer = s.serviceTimer ∧
    (s.enterUnmatched i found).stalenessTimer = s.stalenessTimer ∧ (s.enterUnmatched i found).pages = s.pages ∧
    (s.enterUnmatched i found).ramp = s.ramp ∧ (s.enterUnmatched i found).filters = s.filters ∧
    (s.enterUnmatched i found).freeIndex = s.freeIndex ∧
    (s.enterUnmatched i found).intake.cursor = s.intake.cursor ∧
    (s.enterUnmatched i found).intake.walk = s.intake.walk ∧
    (s.enterUnmatched i found).intake.scanCount = s.intake.scanCount ∧
    (s.enterUnmatched i found).regs.areaLo = s.regs.areaLo ∧
    (s.enterUnmatched i found).regs.areaHi = s.regs.areaHi ∧ (s.enterUnmatched i found).regs.run = s.regs.run ∧
    (s.enterUnmatched i found).regs.noticeMask = s.regs.noticeMask ∧
    (s.enterUnmatched i found).link.up = s.link.up := by
  unfold State.enterUnmatched
  simp [State.notice]

@[simp] theorem State.enterFaulted_keeps (s : State) (i : Fin 256) (reason : FaultReason) :
    (s.enterFaulted i reason).pending = s.pending ∧ (s.enterFaulted i reason).solves = s.solves ∧
    (s.enterFaulted i reason).clock = s.clock ∧
    (s.enterFaulted i reason).serviceTimer = s.serviceTimer ∧
    (s.enterFaulted i reason).stalenessTimer = s.stalenessTimer ∧ (s.enterFaulted i reason).pages = s.pages ∧
    (s.enterFaulted i reason).ramp = s.ramp ∧ (s.enterFaulted i reason).filters = s.filters ∧
    (s.enterFaulted i reason).freeIndex = s.freeIndex ∧
    (s.enterFaulted i reason).intake.cursor = s.intake.cursor ∧
    (s.enterFaulted i reason).intake.walk = s.intake.walk ∧
    (s.enterFaulted i reason).intake.scanCount = s.intake.scanCount ∧
    (s.enterFaulted i reason).regs.areaLo = s.regs.areaLo ∧
    (s.enterFaulted i reason).regs.areaHi = s.regs.areaHi ∧ (s.enterFaulted i reason).regs.run = s.regs.run ∧
    (s.enterFaulted i reason).regs.noticeMask = s.regs.noticeMask ∧
    (s.enterFaulted i reason).link.up = s.link.up := by
  unfold State.enterFaulted
  simp [State.notice]

@[simp] theorem State.correctCtx_keeps (s : State) (i : Fin 256) :
    (s.correctCtx i).pending = s.pending ∧ (s.correctCtx i).solves = s.solves ∧
    (s.correctCtx i).clock = s.clock ∧
    (s.correctCtx i).groups = s.groups ∧ (s.correctCtx i).serviceTimer = s.serviceTimer ∧
    (s.correctCtx i).stalenessTimer = s.stalenessTimer ∧ (s.correctCtx i).pages = s.pages ∧
    (s.correctCtx i).ramp = s.ramp ∧ (s.correctCtx i).chains = s.chains ∧
    (s.correctCtx i).filters = s.filters ∧ (s.correctCtx i).intake.cursor = s.intake.cursor ∧
    (s.correctCtx i).intake.walk = s.intake.walk ∧ (s.correctCtx i).intake.longCards = s.intake.longCards ∧
    (s.correctCtx i).intake.completions = s.intake.completions ∧
    (s.correctCtx i).intake.scanCount = s.intake.scanCount ∧ (s.correctCtx i).regs.areaLo = s.regs.areaLo ∧
    (s.correctCtx i).regs.areaHi = s.regs.areaHi ∧ (s.correctCtx i).regs.run = s.regs.run ∧
    (s.correctCtx i).regs.noticeMask = s.regs.noticeMask ∧ (s.correctCtx i).link.up = s.link.up := by
  unfold State.correctCtx
  simp

@[simp] theorem State.takeTemperature_keeps (s : State) (i : Fin 256) (t : Int) :
    (s.takeTemperature i t).pending = s.pending ∧ (s.takeTemperature i t).solves = s.solves ∧
    (s.takeTemperature i t).clock = s.clock ∧
    (s.takeTemperature i t).groups = s.groups ∧ (s.takeTemperature i t).serviceTimer = s.serviceTimer ∧
    (s.takeTemperature i t).stalenessTimer = s.stalenessTimer ∧ (s.takeTemperature i t).pages = s.pages ∧
    (s.takeTemperature i t).ramp = s.ramp ∧ (s.takeTemperature i t).chains = s.chains ∧
    (s.takeTemperature i t).filters = s.filters ∧ (s.takeTemperature i t).freeIndex = s.freeIndex ∧
    (s.takeTemperature i t).intake.cursor = s.intake.cursor ∧
    (s.takeTemperature i t).intake.walk = s.intake.walk ∧
    (s.takeTemperature i t).intake.longCards = s.intake.longCards ∧
    (s.takeTemperature i t).intake.completions = s.intake.completions ∧
    (s.takeTemperature i t).intake.scanCount = s.intake.scanCount ∧
    (s.takeTemperature i t).regs.areaLo = s.regs.areaLo ∧ (s.takeTemperature i t).regs.areaHi = s.regs.areaHi ∧
    (s.takeTemperature i t).regs.run = s.regs.run ∧
    (s.takeTemperature i t).regs.noticeMask = s.regs.noticeMask ∧
    (s.takeTemperature i t).link.up = s.link.up := by
  unfold State.takeTemperature
  dsimp only
  split_ifs <;> simp

@[simp] theorem State.startTransaction_keeps (s : State) (ch : Fin 4) (kind : WorkKind) (i : Fin 256) :
    (s.startTransaction ch kind i).pending = s.pending ∧ (s.startTransaction ch kind i).solves = s.solves ∧
    (s.startTransaction ch kind i).clock = s.clock ∧
    (s.startTransaction ch kind i).contexts = s.contexts ∧ (s.startTransaction ch kind i).groups = s.groups ∧
    (s.startTransaction ch kind i).serviceTimer = s.serviceTimer ∧
    (s.startTransaction ch kind i).stalenessTimer = s.stalenessTimer ∧
    (s.startTransaction ch kind i).pages = s.pages ∧ (s.startTransaction ch kind i).ramp = s.ramp ∧
    (s.startTransaction ch kind i).filters = s.filters ∧ (s.startTransaction ch kind i).logs = s.logs ∧
    (s.startTransaction ch kind i).intake = s.intake ∧ (s.startTransaction ch kind i).regs = s.regs ∧
    (s.startTransaction ch kind i).area = s.area ∧ (s.startTransaction ch kind i).link = s.link ∧
    (s.startTransaction ch kind i).freeIndex = s.freeIndex := by
  unfold State.startTransaction
  simp

@[simp] theorem State.start_keeps (s : State) (ch : Fin 4) (c : Choice) :
    (s.start ch c).pending = s.pending ∧ (s.start ch c).solves = s.solves ∧
    (s.start ch c).clock = s.clock ∧ (s.start ch c).groups = s.groups ∧
    (s.start ch c).serviceTimer = s.serviceTimer ∧ (s.start ch c).stalenessTimer = s.stalenessTimer ∧
    (s.start ch c).pages = s.pages ∧ (s.start ch c).ramp = s.ramp ∧ (s.start ch c).filters = s.filters ∧
    (s.start ch c).logs = s.logs ∧ (s.start ch c).intake = s.intake ∧ (s.start ch c).regs = s.regs ∧
    (s.start ch c).area = s.area ∧ (s.start ch c).link = s.link ∧ (s.start ch c).freeIndex = s.freeIndex := by
  unfold State.start
  split <;> simp

@[simp] theorem State.arbitrate_keeps (s : State) (ch : Fin 4) :
    (s.arbitrate ch).pending = s.pending ∧ (s.arbitrate ch).solves = s.solves ∧
    (s.arbitrate ch).clock = s.clock ∧
    (s.arbitrate ch).groups = s.groups ∧ (s.arbitrate ch).serviceTimer = s.serviceTimer ∧
    (s.arbitrate ch).stalenessTimer = s.stalenessTimer ∧ (s.arbitrate ch).pages = s.pages ∧
    (s.arbitrate ch).ramp = s.ramp ∧ (s.arbitrate ch).filters = s.filters ∧ (s.arbitrate ch).logs = s.logs ∧
    (s.arbitrate ch).intake = s.intake ∧ (s.arbitrate ch).regs = s.regs ∧ (s.arbitrate ch).area = s.area ∧
    (s.arbitrate ch).link = s.link ∧ (s.arbitrate ch).freeIndex = s.freeIndex := by
  unfold State.arbitrate
  split
  · split <;> simp
  · simp

@[simp] theorem State.foldArbitrate_keeps (s : State) (l : List (Fin 4)) :
    (l.foldl (State.arbitrate) s).pending = s.pending ∧ (l.foldl (State.arbitrate) s).solves = s.solves ∧
    (l.foldl (State.arbitrate) s).clock = s.clock ∧
    (l.foldl (State.arbitrate) s).groups = s.groups ∧
    (l.foldl (State.arbitrate) s).serviceTimer = s.serviceTimer ∧
    (l.foldl (State.arbitrate) s).stalenessTimer = s.stalenessTimer ∧
    (l.foldl (State.arbitrate) s).pages = s.pages ∧ (l.foldl (State.arbitrate) s).ramp = s.ramp ∧
    (l.foldl (State.arbitrate) s).filters = s.filters ∧ (l.foldl (State.arbitrate) s).logs = s.logs ∧
    (l.foldl (State.arbitrate) s).intake = s.intake ∧ (l.foldl (State.arbitrate) s).regs = s.regs ∧
    (l.foldl (State.arbitrate) s).area = s.area ∧ (l.foldl (State.arbitrate) s).link = s.link ∧
    (l.foldl (State.arbitrate) s).freeIndex = s.freeIndex := by
  induction l generalizing s with
  | nil => simp
  | cons a l ih => simpa using ih (s.arbitrate a)

@[simp] theorem State.arbitrateAll_keeps (s : State) :
    (s.arbitrateAll).pending = s.pending ∧ (s.arbitrateAll).solves = s.solves ∧
    (s.arbitrateAll).clock = s.clock ∧
    (s.arbitrateAll).groups = s.groups ∧ (s.arbitrateAll).serviceTimer = s.serviceTimer ∧
    (s.arbitrateAll).stalenessTimer = s.stalenessTimer ∧ (s.arbitrateAll).pages = s.pages ∧
    (s.arbitrateAll).ramp = s.ramp ∧ (s.arbitrateAll).filters = s.filters ∧ (s.arbitrateAll).logs = s.logs ∧
    (s.arbitrateAll).intake = s.intake ∧ (s.arbitrateAll).regs = s.regs ∧ (s.arbitrateAll).area = s.area ∧
    (s.arbitrateAll).link = s.link ∧ (s.arbitrateAll).freeIndex = s.freeIndex := by
  unfold State.arbitrateAll
  simp

@[simp] theorem State.endFlight_keeps (s : State) (ch : Fin 4) (work : Nat) (ok : Bool) :
    (s.endFlight ch work ok).pending = s.pending ∧ (s.endFlight ch work ok).solves = s.solves ∧
    (s.endFlight ch work ok).clock = s.clock ∧
    (s.endFlight ch work ok).groups = s.groups ∧ (s.endFlight ch work ok).serviceTimer = s.serviceTimer ∧
    (s.endFlight ch work ok).stalenessTimer = s.stalenessTimer ∧ (s.endFlight ch work ok).pages = s.pages ∧
    (s.endFlight ch work ok).ramp = s.ramp ∧ (s.endFlight ch work ok).filters = s.filters ∧
    (s.endFlight ch work ok).logs = s.logs ∧ (s.endFlight ch work ok).regs = s.regs ∧
    (s.endFlight ch work ok).area = s.area ∧ (s.endFlight ch work ok).link = s.link ∧
    (s.endFlight ch work ok).freeIndex = s.freeIndex ∧
    (s.endFlight ch work ok).intake.cursor = s.intake.cursor ∧
    (s.endFlight ch work ok).intake.halted = s.intake.halted ∧
    (s.endFlight ch work ok).intake.scanTimer = s.intake.scanTimer ∧
    (s.endFlight ch work ok).intake.walk = s.intake.walk ∧
    (s.endFlight ch work ok).intake.follow = s.intake.follow ∧
    (s.endFlight ch work ok).intake.scan = s.intake.scan ∧
    (s.endFlight ch work ok).intake.scanCount = s.intake.scanCount := by
  unfold State.endFlight
  dsimp only
  split <;> simp

@[simp] theorem State.setFlight_keeps (s : State) (ch : Fin 4) (t : Transaction) :
    (s.setFlight ch t).pending = s.pending ∧ (s.setFlight ch t).solves = s.solves ∧
    (s.setFlight ch t).clock = s.clock ∧
    (s.setFlight ch t).contexts = s.contexts ∧ (s.setFlight ch t).groups = s.groups ∧
    (s.setFlight ch t).serviceTimer = s.serviceTimer ∧ (s.setFlight ch t).stalenessTimer = s.stalenessTimer ∧
    (s.setFlight ch t).pages = s.pages ∧ (s.setFlight ch t).ramp = s.ramp ∧
    (s.setFlight ch t).filters = s.filters ∧ (s.setFlight ch t).logs = s.logs ∧
    (s.setFlight ch t).intake = s.intake ∧ (s.setFlight ch t).regs = s.regs ∧
    (s.setFlight ch t).area = s.area ∧ (s.setFlight ch t).link = s.link ∧
    (s.setFlight ch t).freeIndex = s.freeIndex := by
  unfold State.setFlight
  simp

@[simp] theorem State.leaveHold_keeps (s : State) (ch : Fin 4) :
    (s.leaveHold ch).pending = s.pending ∧ (s.leaveHold ch).solves = s.solves ∧
    (s.leaveHold ch).clock = s.clock ∧
    (s.leaveHold ch).contexts = s.contexts ∧ (s.leaveHold ch).groups = s.groups ∧
    (s.leaveHold ch).serviceTimer = s.serviceTimer ∧ (s.leaveHold ch).stalenessTimer = s.stalenessTimer ∧
    (s.leaveHold ch).pages = s.pages ∧ (s.leaveHold ch).ramp = s.ramp ∧ (s.leaveHold ch).filters = s.filters ∧
    (s.leaveHold ch).logs = s.logs ∧ (s.leaveHold ch).intake = s.intake ∧ (s.leaveHold ch).regs = s.regs ∧
    (s.leaveHold ch).area = s.area ∧ (s.leaveHold ch).link = s.link ∧
    (s.leaveHold ch).freeIndex = s.freeIndex := by
  unfold State.leaveHold
  simp

@[simp] theorem State.clearFailures_keeps (s : State) (i : Fin 256) :
    (s.clearFailures i).pending = s.pending ∧ (s.clearFailures i).solves = s.solves ∧
    (s.clearFailures i).clock = s.clock ∧
    (s.clearFailures i).groups = s.groups ∧ (s.clearFailures i).serviceTimer = s.serviceTimer ∧
    (s.clearFailures i).stalenessTimer = s.stalenessTimer ∧ (s.clearFailures i).pages = s.pages ∧
    (s.clearFailures i).ramp = s.ramp ∧ (s.clearFailures i).chains = s.chains ∧
    (s.clearFailures i).filters = s.filters ∧ (s.clearFailures i).logs = s.logs ∧
    (s.clearFailures i).intake = s.intake ∧ (s.clearFailures i).regs = s.regs ∧
    (s.clearFailures i).area = s.area ∧ (s.clearFailures i).link = s.link ∧
    (s.clearFailures i).freeIndex = s.freeIndex := by
  unfold State.clearFailures
  simp

@[simp] theorem State.probeAnswered_keeps (s : State) (i : Fin 256) (serial : Word) :
    (s.probeAnswered i serial).pending = s.pending ∧ (s.probeAnswered i serial).solves = s.solves ∧
    (s.probeAnswered i serial).clock = s.clock ∧
    (s.probeAnswered i serial).serviceTimer = s.serviceTimer ∧
    (s.probeAnswered i serial).stalenessTimer = s.stalenessTimer ∧ (s.probeAnswered i serial).pages = s.pages ∧
    (s.probeAnswered i serial).ramp = s.ramp ∧ (s.probeAnswered i serial).filters = s.filters ∧
    (s.probeAnswered i serial).freeIndex = s.freeIndex ∧
    (s.probeAnswered i serial).intake.cursor = s.intake.cursor ∧
    (s.probeAnswered i serial).intake.walk = s.intake.walk ∧
    (s.probeAnswered i serial).intake.scanCount = s.intake.scanCount ∧
    (s.probeAnswered i serial).regs.areaLo = s.regs.areaLo ∧
    (s.probeAnswered i serial).regs.areaHi = s.regs.areaHi ∧ (s.probeAnswered i serial).regs.run = s.regs.run ∧
    (s.probeAnswered i serial).regs.noticeMask = s.regs.noticeMask ∧
    (s.probeAnswered i serial).link.up = s.link.up := by
  unfold State.probeAnswered
  dsimp only
  split_ifs <;> simp

@[simp] theorem State.pushAnswered_keeps (s : State) (ch : Fin 4) (t : Transaction) :
    (s.pushAnswered ch t).pending = s.pending ∧ (s.pushAnswered ch t).solves = s.solves ∧
    (s.pushAnswered ch t).clock = s.clock ∧
    (s.pushAnswered ch t).serviceTimer = s.serviceTimer ∧
    (s.pushAnswered ch t).stalenessTimer = s.stalenessTimer ∧ (s.pushAnswered ch t).pages = s.pages ∧
    (s.pushAnswered ch t).ramp = s.ramp ∧ (s.pushAnswered ch t).filters = s.filters ∧
    (s.pushAnswered ch t).freeIndex = s.freeIndex ∧ (s.pushAnswered ch t).intake.cursor = s.intake.cursor ∧
    (s.pushAnswered ch t).intake.walk = s.intake.walk ∧
    (s.pushAnswered ch t).intake.scanCount = s.intake.scanCount ∧
    (s.pushAnswered ch t).regs.areaLo = s.regs.areaLo ∧ (s.pushAnswered ch t).regs.areaHi = s.regs.areaHi ∧
    (s.pushAnswered ch t).regs.run = s.regs.run ∧ (s.pushAnswered ch t).regs.noticeMask = s.regs.noticeMask ∧
    (s.pushAnswered ch t).link.up = s.link.up := by
  unfold State.pushAnswered
  simp

@[simp] theorem State.pollAnswered_keeps (s : State) (ch : Fin 4) (i : Fin 256) (t : Int) :
    (s.pollAnswered ch i t).pending = s.pending ∧ (s.pollAnswered ch i t).solves = s.solves ∧
    (s.pollAnswered ch i t).clock = s.clock ∧
    (s.pollAnswered ch i t).serviceTimer = s.serviceTimer ∧
    (s.pollAnswered ch i t).stalenessTimer = s.stalenessTimer ∧ (s.pollAnswered ch i t).pages = s.pages ∧
    (s.pollAnswered ch i t).ramp = s.ramp ∧ (s.pollAnswered ch i t).filters = s.filters ∧
    (s.pollAnswered ch i t).freeIndex = s.freeIndex ∧ (s.pollAnswered ch i t).intake.cursor = s.intake.cursor ∧
    (s.pollAnswered ch i t).intake.walk = s.intake.walk ∧
    (s.pollAnswered ch i t).intake.scanCount = s.intake.scanCount ∧
    (s.pollAnswered ch i t).regs.areaLo = s.regs.areaLo ∧ (s.pollAnswered ch i t).regs.areaHi = s.regs.areaHi ∧
    (s.pollAnswered ch i t).regs.run = s.regs.run ∧
    (s.pollAnswered ch i t).regs.noticeMask = s.regs.noticeMask ∧
    (s.pollAnswered ch i t).link.up = s.link.up := by
  unfold State.pollAnswered
  simp

@[simp] theorem State.readbackMismatch_keeps (s : State) (ch : Fin 4) (i : Fin 256) (w : Half) :
    (s.readbackMismatch ch i w).pending = s.pending ∧ (s.readbackMismatch ch i w).solves = s.solves ∧
    (s.readbackMismatch ch i w).clock = s.clock ∧
    (s.readbackMismatch ch i w).serviceTimer = s.serviceTimer ∧
    (s.readbackMismatch ch i w).stalenessTimer = s.stalenessTimer ∧
    (s.readbackMismatch ch i w).pages = s.pages ∧ (s.readbackMismatch ch i w).ramp = s.ramp ∧
    (s.readbackMismatch ch i w).filters = s.filters ∧ (s.readbackMismatch ch i w).freeIndex = s.freeIndex ∧
    (s.readbackMismatch ch i w).intake.cursor = s.intake.cursor ∧
    (s.readbackMismatch ch i w).intake.walk = s.intake.walk ∧
    (s.readbackMismatch ch i w).intake.scanCount = s.intake.scanCount ∧
    (s.readbackMismatch ch i w).regs.areaLo = s.regs.areaLo ∧
    (s.readbackMismatch ch i w).regs.areaHi = s.regs.areaHi ∧
    (s.readbackMismatch ch i w).regs.run = s.regs.run ∧
    (s.readbackMismatch ch i w).regs.noticeMask = s.regs.noticeMask ∧
    (s.readbackMismatch ch i w).link.up = s.link.up := by
  unfold State.readbackMismatch
  dsimp only
  split_ifs <;> simp

@[simp] theorem State.readbackMatch_keeps (s : State) (ch : Fin 4) (i : Fin 256) :
    (s.readbackMatch ch i).pending = s.pending ∧ (s.readbackMatch ch i).solves = s.solves ∧
    (s.readbackMatch ch i).clock = s.clock ∧
    (s.readbackMatch ch i).serviceTimer = s.serviceTimer ∧
    (s.readbackMatch ch i).stalenessTimer = s.stalenessTimer ∧ (s.readbackMatch ch i).pages = s.pages ∧
    (s.readbackMatch ch i).ramp = s.ramp ∧ (s.readbackMatch ch i).filters = s.filters ∧
    (s.readbackMatch ch i).freeIndex = s.freeIndex ∧ (s.readbackMatch ch i).intake.cursor = s.intake.cursor ∧
    (s.readbackMatch ch i).intake.walk = s.intake.walk ∧
    (s.readbackMatch ch i).intake.scanCount = s.intake.scanCount ∧
    (s.readbackMatch ch i).regs.areaLo = s.regs.areaLo ∧ (s.readbackMatch ch i).regs.areaHi = s.regs.areaHi ∧
    (s.readbackMatch ch i).regs.run = s.regs.run ∧ (s.readbackMatch ch i).regs.noticeMask = s.regs.noticeMask ∧
    (s.readbackMatch ch i).link.up = s.link.up := by
  unfold State.readbackMatch
  simp

@[simp] theorem State.readbackAnswered_keeps (s : State) (ch : Fin 4) (i : Fin 256) (w : Half) :
    (s.readbackAnswered ch i w).pending = s.pending ∧ (s.readbackAnswered ch i w).solves = s.solves ∧
    (s.readbackAnswered ch i w).clock = s.clock ∧
    (s.readbackAnswered ch i w).serviceTimer = s.serviceTimer ∧
    (s.readbackAnswered ch i w).stalenessTimer = s.stalenessTimer ∧
    (s.readbackAnswered ch i w).pages = s.pages ∧ (s.readbackAnswered ch i w).ramp = s.ramp ∧
    (s.readbackAnswered ch i w).filters = s.filters ∧ (s.readbackAnswered ch i w).freeIndex = s.freeIndex ∧
    (s.readbackAnswered ch i w).intake.cursor = s.intake.cursor ∧
    (s.readbackAnswered ch i w).intake.walk = s.intake.walk ∧
    (s.readbackAnswered ch i w).intake.scanCount = s.intake.scanCount ∧
    (s.readbackAnswered ch i w).regs.areaLo = s.regs.areaLo ∧
    (s.readbackAnswered ch i w).regs.areaHi = s.regs.areaHi ∧
    (s.readbackAnswered ch i w).regs.run = s.regs.run ∧
    (s.readbackAnswered ch i w).regs.noticeMask = s.regs.noticeMask ∧
    (s.readbackAnswered ch i w).link.up = s.link.up := by
  unfold State.readbackAnswered
  split_ifs <;> simp

@[simp] theorem State.succeeded_keeps (s : State) (ch : Fin 4) (t : Transaction) (f : TileFrame) :
    (s.succeeded ch t f).pending = s.pending ∧ (s.succeeded ch t f).solves = s.solves ∧
    (s.succeeded ch t f).clock = s.clock ∧
    (s.succeeded ch t f).serviceTimer = s.serviceTimer ∧
    (s.succeeded ch t f).stalenessTimer = s.stalenessTimer ∧ (s.succeeded ch t f).pages = s.pages ∧
    (s.succeeded ch t f).ramp = s.ramp ∧ (s.succeeded ch t f).filters = s.filters ∧
    (s.succeeded ch t f).freeIndex = s.freeIndex ∧ (s.succeeded ch t f).intake.cursor = s.intake.cursor ∧
    (s.succeeded ch t f).intake.walk = s.intake.walk ∧
    (s.succeeded ch t f).intake.scanCount = s.intake.scanCount ∧
    (s.succeeded ch t f).regs.areaLo = s.regs.areaLo ∧ (s.succeeded ch t f).regs.areaHi = s.regs.areaHi ∧
    (s.succeeded ch t f).regs.run = s.regs.run ∧ (s.succeeded ch t f).regs.noticeMask = s.regs.noticeMask ∧
    (s.succeeded ch t f).link.up = s.link.up := by
  cases f <;> simp [State.succeeded]

@[simp] theorem State.sendBack_keeps (s : State) (ch : Fin 4) (t : Transaction) :
    (s.sendBack ch t).pending = s.pending ∧ (s.sendBack ch t).solves = s.solves ∧
    (s.sendBack ch t).clock = s.clock ∧
    (s.sendBack ch t).serviceTimer = s.serviceTimer ∧ (s.sendBack ch t).stalenessTimer = s.stalenessTimer ∧
    (s.sendBack ch t).pages = s.pages ∧ (s.sendBack ch t).ramp = s.ramp ∧
    (s.sendBack ch t).filters = s.filters ∧ (s.sendBack ch t).freeIndex = s.freeIndex ∧
    (s.sendBack ch t).intake.cursor = s.intake.cursor ∧ (s.sendBack ch t).intake.walk = s.intake.walk ∧
    (s.sendBack ch t).intake.scanCount = s.intake.scanCount ∧ (s.sendBack ch t).regs.areaLo = s.regs.areaLo ∧
    (s.sendBack ch t).regs.areaHi = s.regs.areaHi ∧ (s.sendBack ch t).regs.run = s.regs.run ∧
    (s.sendBack ch t).regs.noticeMask = s.regs.noticeMask ∧ (s.sendBack ch t).link.up = s.link.up := by
  unfold State.sendBack
  split <;> simp

@[simp] theorem State.countFailure_keeps (s : State) (ch : Fin 4) (t : Transaction) :
    (s.countFailure ch t).pending = s.pending ∧ (s.countFailure ch t).solves = s.solves ∧
    (s.countFailure ch t).clock = s.clock ∧
    (s.countFailure ch t).serviceTimer = s.serviceTimer ∧
    (s.countFailure ch t).stalenessTimer = s.stalenessTimer ∧ (s.countFailure ch t).pages = s.pages ∧
    (s.countFailure ch t).ramp = s.ramp ∧ (s.countFailure ch t).filters = s.filters ∧
    (s.countFailure ch t).freeIndex = s.freeIndex ∧ (s.countFailure ch t).intake.cursor = s.intake.cursor ∧
    (s.countFailure ch t).intake.walk = s.intake.walk ∧
    (s.countFailure ch t).intake.scanCount = s.intake.scanCount ∧
    (s.countFailure ch t).regs.areaLo = s.regs.areaLo ∧ (s.countFailure ch t).regs.areaHi = s.regs.areaHi ∧
    (s.countFailure ch t).regs.run = s.regs.run ∧ (s.countFailure ch t).regs.noticeMask = s.regs.noticeMask ∧
    (s.countFailure ch t).link.up = s.link.up := by
  unfold State.countFailure
  dsimp only
  split <;> simp

@[simp] theorem State.failed_keeps (s : State) (ch : Fin 4) (t : Transaction) (reason : FaultReason) :
    (s.failed ch t reason).pending = s.pending ∧ (s.failed ch t reason).solves = s.solves ∧
    (s.failed ch t reason).clock = s.clock ∧
    (s.failed ch t reason).serviceTimer = s.serviceTimer ∧
    (s.failed ch t reason).stalenessTimer = s.stalenessTimer ∧ (s.failed ch t reason).pages = s.pages ∧
    (s.failed ch t reason).ramp = s.ramp ∧ (s.failed ch t reason).filters = s.filters ∧
    (s.failed ch t reason).freeIndex = s.freeIndex ∧ (s.failed ch t reason).intake.cursor = s.intake.cursor ∧
    (s.failed ch t reason).intake.walk = s.intake.walk ∧
    (s.failed ch t reason).intake.scanCount = s.intake.scanCount ∧
    (s.failed ch t reason).regs.areaLo = s.regs.areaLo ∧ (s.failed ch t reason).regs.areaHi = s.regs.areaHi ∧
    (s.failed ch t reason).regs.run = s.regs.run ∧ (s.failed ch t reason).regs.noticeMask = s.regs.noticeMask ∧
    (s.failed ch t reason).link.up = s.link.up := by
  unfold State.failed
  dsimp only
  split_ifs <;> simp

@[simp] theorem State.routeCarried_keeps (s : State) (ch : Fin 4) (t : Transaction) (e : Ending) :
    (s.routeCarried ch t e).pending = s.pending ∧ (s.routeCarried ch t e).solves = s.solves ∧
    (s.routeCarried ch t e).clock = s.clock ∧
    (s.routeCarried ch t e).serviceTimer = s.serviceTimer ∧
    (s.routeCarried ch t e).stalenessTimer = s.stalenessTimer ∧ (s.routeCarried ch t e).pages = s.pages ∧
    (s.routeCarried ch t e).ramp = s.ramp ∧ (s.routeCarried ch t e).filters = s.filters ∧
    (s.routeCarried ch t e).freeIndex = s.freeIndex ∧ (s.routeCarried ch t e).intake.cursor = s.intake.cursor ∧
    (s.routeCarried ch t e).intake.walk = s.intake.walk ∧
    (s.routeCarried ch t e).intake.scanCount = s.intake.scanCount ∧
    (s.routeCarried ch t e).regs.areaLo = s.regs.areaLo ∧ (s.routeCarried ch t e).regs.areaHi = s.regs.areaHi ∧
    (s.routeCarried ch t e).regs.run = s.regs.run ∧
    (s.routeCarried ch t e).regs.noticeMask = s.regs.noticeMask ∧
    (s.routeCarried ch t e).link.up = s.link.up := by
  unfold State.routeCarried
  split <;> simp

@[simp] theorem State.handOver_keeps (s : State) (ch : Fin 4) (t : Transaction) (e : Ending) :
    (s.handOver ch t e).pending = s.pending ∧ (s.handOver ch t e).solves = s.solves ∧
    (s.handOver ch t e).clock = s.clock ∧
    (s.handOver ch t e).serviceTimer = s.serviceTimer ∧ (s.handOver ch t e).stalenessTimer = s.stalenessTimer ∧
    (s.handOver ch t e).pages = s.pages ∧ (s.handOver ch t e).ramp = s.ramp ∧
    (s.handOver ch t e).filters = s.filters ∧ (s.handOver ch t e).freeIndex = s.freeIndex ∧
    (s.handOver ch t e).intake.cursor = s.intake.cursor ∧ (s.handOver ch t e).intake.walk = s.intake.walk ∧
    (s.handOver ch t e).intake.scanCount = s.intake.scanCount ∧
    (s.handOver ch t e).regs.areaLo = s.regs.areaLo ∧ (s.handOver ch t e).regs.areaHi = s.regs.areaHi ∧
    (s.handOver ch t e).regs.run = s.regs.run ∧ (s.handOver ch t e).regs.noticeMask = s.regs.noticeMask ∧
    (s.handOver ch t e).link.up = s.link.up := by
  unfold State.handOver
  dsimp only
  split_ifs <;> cases e <;> simp

@[simp] theorem State.attemptFailed_keeps (s : State) (ch : Fin 4) (t : Transaction) (reason : FaultReason) :
    (s.attemptFailed ch t reason).pending = s.pending ∧ (s.attemptFailed ch t reason).solves = s.solves ∧
    (s.attemptFailed ch t reason).clock = s.clock ∧
    (s.attemptFailed ch t reason).serviceTimer = s.serviceTimer ∧
    (s.attemptFailed ch t reason).stalenessTimer = s.stalenessTimer ∧
    (s.attemptFailed ch t reason).pages = s.pages ∧ (s.attemptFailed ch t reason).ramp = s.ramp ∧
    (s.attemptFailed ch t reason).filters = s.filters ∧ (s.attemptFailed ch t reason).freeIndex = s.freeIndex ∧
    (s.attemptFailed ch t reason).intake.cursor = s.intake.cursor ∧
    (s.attemptFailed ch t reason).intake.walk = s.intake.walk ∧
    (s.attemptFailed ch t reason).intake.scanCount = s.intake.scanCount ∧
    (s.attemptFailed ch t reason).regs.areaLo = s.regs.areaLo ∧
    (s.attemptFailed ch t reason).regs.areaHi = s.regs.areaHi ∧
    (s.attemptFailed ch t reason).regs.run = s.regs.run ∧
    (s.attemptFailed ch t reason).regs.noticeMask = s.regs.noticeMask ∧
    (s.attemptFailed ch t reason).link.up = s.link.up := by
  unfold State.attemptFailed
  split_ifs <;> simp

@[simp] theorem State.setDirty_keeps (s : State) (i : Fin 256) (d : Bool) :
    (s.setDirty i d).pending = s.pending ∧ (s.setDirty i d).solves = s.solves ∧
    (s.setDirty i d).clock = s.clock ∧
    (s.setDirty i d).groups = s.groups ∧ (s.setDirty i d).serviceTimer = s.serviceTimer ∧
    (s.setDirty i d).stalenessTimer = s.stalenessTimer ∧ (s.setDirty i d).pages = s.pages ∧
    (s.setDirty i d).ramp = s.ramp ∧ (s.setDirty i d).chains = s.chains ∧
    (s.setDirty i d).filters = s.filters ∧ (s.setDirty i d).logs = s.logs ∧
    (s.setDirty i d).intake = s.intake ∧ (s.setDirty i d).regs = s.regs ∧ (s.setDirty i d).area = s.area ∧
    (s.setDirty i d).link = s.link ∧ (s.setDirty i d).freeIndex = s.freeIndex := by
  unfold State.setDirty
  simp

@[simp] theorem State.writeMirror_keeps (s : State) (i : Fin 256) :
    (s.writeMirror i).pending = s.pending ∧ (s.writeMirror i).solves = s.solves ∧
    (s.writeMirror i).clock = s.clock ∧
    (s.writeMirror i).groups = s.groups ∧ (s.writeMirror i).serviceTimer = s.serviceTimer ∧
    (s.writeMirror i).stalenessTimer = s.stalenessTimer ∧ (s.writeMirror i).pages = s.pages ∧
    (s.writeMirror i).ramp = s.ramp ∧ (s.writeMirror i).chains = s.chains ∧
    (s.writeMirror i).filters = s.filters ∧ (s.writeMirror i).logs = s.logs ∧
    (s.writeMirror i).freeIndex = s.freeIndex ∧ (s.writeMirror i).intake.cursor = s.intake.cursor ∧
    (s.writeMirror i).intake.walk = s.intake.walk ∧ (s.writeMirror i).intake.longCards = s.intake.longCards ∧
    (s.writeMirror i).intake.completions = s.intake.completions ∧
    (s.writeMirror i).intake.scanCount = s.intake.scanCount ∧ (s.writeMirror i).regs.areaLo = s.regs.areaLo ∧
    (s.writeMirror i).regs.areaHi = s.regs.areaHi ∧ (s.writeMirror i).regs.run = s.regs.run ∧
    (s.writeMirror i).regs.noticeMask = s.regs.noticeMask ∧ (s.writeMirror i).link.up = s.link.up := by
  unfold State.writeMirror
  dsimp only
  split_ifs <;> simp

theorem snd_of_eq {α β : Type} {x : α × β} {a : α} {b : β} (h : x = (a, b)) : x.2 = b := by rw [h]

@[simp] theorem State.readHostWords_keeps (s : State) :
    (s.readHostWords).pending = s.pending ∧ (s.readHostWords).solves = s.solves ∧
    (s.readHostWords).clock = s.clock ∧
    (s.readHostWords).contexts = s.contexts ∧ (s.readHostWords).groups = s.groups ∧
    (s.readHostWords).serviceTimer = s.serviceTimer ∧ (s.readHostWords).stalenessTimer = s.stalenessTimer ∧
    (s.readHostWords).pages = s.pages ∧ (s.readHostWords).ramp = s.ramp ∧ (s.readHostWords).chains = s.chains ∧
    (s.readHostWords).filters = s.filters ∧ (s.readHostWords).area = s.area ∧
    (s.readHostWords).freeIndex = s.freeIndex ∧ (s.readHostWords).intake.cursor = s.intake.cursor ∧
    (s.readHostWords).intake.walk = s.intake.walk ∧ (s.readHostWords).intake.longCards = s.intake.longCards ∧
    (s.readHostWords).intake.completions = s.intake.completions ∧
    (s.readHostWords).intake.scanCount = s.intake.scanCount ∧ (s.readHostWords).regs.areaLo = s.regs.areaLo ∧
    (s.readHostWords).regs.areaHi = s.regs.areaHi ∧ (s.readHostWords).regs.run = s.regs.run ∧
    (s.readHostWords).regs.noticeMask = s.regs.noticeMask ∧ (s.readHostWords).link.up = s.link.up := by
  unfold State.readHostWords
  split <;> (next h => rw [← snd_of_eq h]; simp)

@[simp] theorem State.setScan_keeps (s : State) (p : Option ScanPhase) :
    (s.setScan p).pending = s.pending ∧ (s.setScan p).solves = s.solves ∧ (s.setScan p).clock = s.clock ∧
    (s.setScan p).contexts = s.contexts ∧ (s.setScan p).groups = s.groups ∧
    (s.setScan p).serviceTimer = s.serviceTimer ∧ (s.setScan p).stalenessTimer = s.stalenessTimer ∧
    (s.setScan p).pages = s.pages ∧ (s.setScan p).ramp = s.ramp ∧ (s.setScan p).chains = s.chains ∧
    (s.setScan p).filters = s.filters ∧ (s.setScan p).logs = s.logs ∧ (s.setScan p).regs = s.regs ∧
    (s.setScan p).area = s.area ∧ (s.setScan p).link = s.link ∧ (s.setScan p).freeIndex = s.freeIndex ∧
    (s.setScan p).intake.cursor = s.intake.cursor ∧ (s.setScan p).intake.halted = s.intake.halted ∧
    (s.setScan p).intake.scanTimer = s.intake.scanTimer ∧ (s.setScan p).intake.walk = s.intake.walk ∧
    (s.setScan p).intake.follow = s.intake.follow ∧ (s.setScan p).intake.longCards = s.intake.longCards ∧
    (s.setScan p).intake.completions = s.intake.completions ∧
    (s.setScan p).intake.scanCount = s.intake.scanCount := by
  simp [State.setScan, State.modIntake]

@[simp] theorem State.scanTo_keeps (s : State) (p : ScanPhase) :
    (s.scanTo p).pending = s.pending ∧ (s.scanTo p).solves = s.solves ∧ (s.scanTo p).clock = s.clock ∧
    (s.scanTo p).contexts = s.contexts ∧ (s.scanTo p).groups = s.groups ∧ (s.scanTo p).serviceTimer = s.serviceTimer ∧
    (s.scanTo p).stalenessTimer = s.stalenessTimer ∧ (s.scanTo p).pages = s.pages ∧ (s.scanTo p).ramp = s.ramp ∧
    (s.scanTo p).chains = s.chains ∧ (s.scanTo p).filters = s.filters ∧ (s.scanTo p).logs = s.logs ∧
    (s.scanTo p).regs = s.regs ∧ (s.scanTo p).area = s.area ∧ (s.scanTo p).link = s.link ∧
    (s.scanTo p).freeIndex = s.freeIndex ∧ (s.scanTo p).intake.cursor = s.intake.cursor ∧
    (s.scanTo p).intake.halted = s.intake.halted ∧ (s.scanTo p).intake.scanTimer = s.intake.scanTimer ∧
    (s.scanTo p).intake.walk = s.intake.walk ∧ (s.scanTo p).intake.follow = s.intake.follow ∧
    (s.scanTo p).intake.longCards = s.intake.longCards ∧ (s.scanTo p).intake.completions = s.intake.completions ∧
    (s.scanTo p).intake.scanCount = s.intake.scanCount := by
  simp [State.scanTo]

@[simp] theorem State.completionWritten_keeps (s : State) (c : Completion) :
    (s.completionWritten c).pending = s.pending ∧ (s.completionWritten c).solves = s.solves ∧
    (s.completionWritten c).clock = s.clock ∧ (s.completionWritten c).contexts = s.contexts ∧
    (s.completionWritten c).groups = s.groups ∧ (s.completionWritten c).serviceTimer = s.serviceTimer ∧
    (s.completionWritten c).stalenessTimer = s.stalenessTimer ∧ (s.completionWritten c).pages = s.pages ∧
    (s.completionWritten c).ramp = s.ramp ∧ (s.completionWritten c).chains = s.chains ∧
    (s.completionWritten c).filters = s.filters ∧ (s.completionWritten c).logs = s.logs ∧
    (s.completionWritten c).intake = s.intake ∧ (s.completionWritten c).area = s.area ∧
    (s.completionWritten c).link = s.link ∧ (s.completionWritten c).freeIndex = s.freeIndex ∧
    (s.completionWritten c).regs.areaLo = s.regs.areaLo ∧ (s.completionWritten c).regs.areaHi = s.regs.areaHi ∧
    (s.completionWritten c).regs.run = s.regs.run ∧ (s.completionWritten c).regs.noticeMask = s.regs.noticeMask := by
  unfold State.completionWritten
  split_ifs <;> simp [State.notice]

@[simp] theorem State.delivered_keeps (s : State) (c : Completion) :
    (s.delivered c).pending = s.pending ∧ (s.delivered c).solves = s.solves ∧ (s.delivered c).clock = s.clock ∧
    (s.delivered c).contexts = s.contexts ∧ (s.delivered c).groups = s.groups ∧
    (s.delivered c).serviceTimer = s.serviceTimer ∧ (s.delivered c).stalenessTimer = s.stalenessTimer ∧
    (s.delivered c).pages = s.pages ∧ (s.delivered c).ramp = s.ramp ∧ (s.delivered c).chains = s.chains ∧
    (s.delivered c).filters = s.filters ∧ (s.delivered c).logs = s.logs ∧ (s.delivered c).freeIndex = s.freeIndex ∧
    (s.delivered c).regs.areaLo = s.regs.areaLo ∧ (s.delivered c).regs.areaHi = s.regs.areaHi ∧
    (s.delivered c).regs.run = s.regs.run ∧ (s.delivered c).regs.noticeMask = s.regs.noticeMask ∧
    (s.delivered c).link = s.link ∧ (s.delivered c).area = s.area ∧ (s.delivered c).intake.cursor = s.intake.cursor ∧
    (s.delivered c).intake.walk = s.intake.walk ∧ (s.delivered c).intake.halted = s.intake.halted ∧
    (s.delivered c).intake.scanTimer = s.intake.scanTimer ∧ (s.delivered c).intake.scan = s.intake.scan ∧
    (s.delivered c).intake.follow = s.intake.follow ∧ (s.delivered c).intake.longCards = s.intake.longCards ∧
    (s.delivered c).intake.scanCount = s.intake.scanCount := by
  unfold State.delivered
  split_ifs <;> simp [State.modIntake]

@[simp] theorem State.writeCompletionPart_keeps (s : State) (c : Completion) (rest : List Completion) (w : AreaWrite)
    (ws : List AreaWrite) :
    (s.writeCompletionPart c rest w ws).pending = s.pending ∧ (s.writeCompletionPart c rest w ws).solves = s.solves ∧
    (s.writeCompletionPart c rest w ws).clock = s.clock ∧ (s.writeCompletionPart c rest w ws).contexts = s.contexts ∧
    (s.writeCompletionPart c rest w ws).groups = s.groups ∧
    (s.writeCompletionPart c rest w ws).serviceTimer = s.serviceTimer ∧
    (s.writeCompletionPart c rest w ws).stalenessTimer = s.stalenessTimer ∧
    (s.writeCompletionPart c rest w ws).pages = s.pages ∧ (s.writeCompletionPart c rest w ws).ramp = s.ramp ∧
    (s.writeCompletionPart c rest w ws).chains = s.chains ∧ (s.writeCompletionPart c rest w ws).filters = s.filters ∧
    (s.writeCompletionPart c rest w ws).logs = s.logs ∧ (s.writeCompletionPart c rest w ws).freeIndex = s.freeIndex ∧
    (s.writeCompletionPart c rest w ws).regs.areaLo = s.regs.areaLo ∧
    (s.writeCompletionPart c rest w ws).regs.areaHi = s.regs.areaHi ∧
    (s.writeCompletionPart c rest w ws).regs.run = s.regs.run ∧
    (s.writeCompletionPart c rest w ws).regs.noticeMask = s.regs.noticeMask ∧
    (s.writeCompletionPart c rest w ws).link.up = s.link.up ∧
    (s.writeCompletionPart c rest w ws).intake.cursor = s.intake.cursor ∧
    (s.writeCompletionPart c rest w ws).intake.walk = s.intake.walk ∧
    (s.writeCompletionPart c rest w ws).intake.longCards = s.intake.longCards ∧
    (s.writeCompletionPart c rest w ws).intake.scanCount = s.intake.scanCount := by
  unfold State.writeCompletionPart
  dsimp only
  split_ifs <;> simp

@[simp] theorem State.writeStatusPart_keeps (s : State) (w : AreaWrite) (ws : List AreaWrite) :
    (s.writeStatusPart w ws).pending = s.pending ∧ (s.writeStatusPart w ws).solves = s.solves ∧
    (s.writeStatusPart w ws).clock = s.clock ∧ (s.writeStatusPart w ws).contexts = s.contexts ∧
    (s.writeStatusPart w ws).groups = s.groups ∧ (s.writeStatusPart w ws).serviceTimer = s.serviceTimer ∧
    (s.writeStatusPart w ws).stalenessTimer = s.stalenessTimer ∧ (s.writeStatusPart w ws).pages = s.pages ∧
    (s.writeStatusPart w ws).ramp = s.ramp ∧ (s.writeStatusPart w ws).chains = s.chains ∧
    (s.writeStatusPart w ws).filters = s.filters ∧ (s.writeStatusPart w ws).logs = s.logs ∧
    (s.writeStatusPart w ws).freeIndex = s.freeIndex ∧ (s.writeStatusPart w ws).regs.areaLo = s.regs.areaLo ∧
    (s.writeStatusPart w ws).regs.areaHi = s.regs.areaHi ∧ (s.writeStatusPart w ws).regs.run = s.regs.run ∧
    (s.writeStatusPart w ws).regs.noticeMask = s.regs.noticeMask ∧ (s.writeStatusPart w ws).link.up = s.link.up ∧
    (s.writeStatusPart w ws).intake.cursor = s.intake.cursor ∧ (s.writeStatusPart w ws).intake.walk = s.intake.walk ∧
    (s.writeStatusPart w ws).intake.longCards = s.intake.longCards ∧
    (s.writeStatusPart w ws).intake.scanCount = s.intake.scanCount ∧
    (s.writeStatusPart w ws).intake.completions = s.intake.completions := by
  unfold State.writeStatusPart
  simp

@[simp] theorem State.copyStatus_keeps (s : State) :
    s.copyStatus.pending = s.pending ∧ s.copyStatus.solves = s.solves ∧ s.copyStatus.clock = s.clock ∧
    s.copyStatus.contexts = s.contexts ∧ s.copyStatus.groups = s.groups ∧ s.copyStatus.serviceTimer = s.serviceTimer ∧
    s.copyStatus.stalenessTimer = s.stalenessTimer ∧ s.copyStatus.pages = s.pages ∧ s.copyStatus.ramp = s.ramp ∧
    s.copyStatus.chains = s.chains ∧ s.copyStatus.filters = s.filters ∧ s.copyStatus.logs = s.logs ∧
    s.copyStatus.freeIndex = s.freeIndex ∧ s.copyStatus.regs.areaLo = s.regs.areaLo ∧
    s.copyStatus.regs.areaHi = s.regs.areaHi ∧ s.copyStatus.regs.run = s.regs.run ∧
    s.copyStatus.regs.noticeMask = s.regs.noticeMask ∧ s.copyStatus.link.up = s.link.up ∧
    s.copyStatus.intake.cursor = s.intake.cursor ∧ s.copyStatus.intake.walk = s.intake.walk ∧
    s.copyStatus.intake.longCards = s.intake.longCards ∧ s.copyStatus.intake.completions = s.intake.completions := by
  unfold State.copyStatus
  dsimp only
  split <;> simp [State.modIntake]

@[simp] theorem State.mirrorPart_keeps (s : State) (rest : List (Fin 256)) :
    (s.mirrorPart rest).pending = s.pending ∧ (s.mirrorPart rest).solves = s.solves ∧
    (s.mirrorPart rest).clock = s.clock ∧ (s.mirrorPart rest).groups = s.groups ∧
    (s.mirrorPart rest).serviceTimer = s.serviceTimer ∧ (s.mirrorPart rest).stalenessTimer = s.stalenessTimer ∧
    (s.mirrorPart rest).pages = s.pages ∧ (s.mirrorPart rest).ramp = s.ramp ∧ (s.mirrorPart rest).chains = s.chains ∧
    (s.mirrorPart rest).filters = s.filters ∧ (s.mirrorPart rest).logs = s.logs ∧
    (s.mirrorPart rest).freeIndex = s.freeIndex ∧ (s.mirrorPart rest).regs.areaLo = s.regs.areaLo ∧
    (s.mirrorPart rest).regs.areaHi = s.regs.areaHi ∧ (s.mirrorPart rest).regs.run = s.regs.run ∧
    (s.mirrorPart rest).regs.noticeMask = s.regs.noticeMask ∧ (s.mirrorPart rest).link.up = s.link.up ∧
    (s.mirrorPart rest).intake.cursor = s.intake.cursor ∧ (s.mirrorPart rest).intake.walk = s.intake.walk ∧
    (s.mirrorPart rest).intake.longCards = s.intake.longCards ∧
    (s.mirrorPart rest).intake.scanCount = s.intake.scanCount ∧
    (s.mirrorPart rest).intake.completions = s.intake.completions := by
  unfold State.mirrorPart
  split <;> simp

@[simp] theorem State.takeCard_keeps (s : State) (c : Card) (left : Nat) (solved : Bool) :
    (s.takeCard c left solved).pending = s.pending ∧ (s.takeCard c left solved).solves = s.solves ∧
    (s.takeCard c left solved).clock = s.clock ∧ (s.takeCard c left solved).contexts = s.contexts ∧
    (s.takeCard c left solved).groups = s.groups ∧ (s.takeCard c left solved).serviceTimer = s.serviceTimer ∧
    (s.takeCard c left solved).stalenessTimer = s.stalenessTimer ∧ (s.takeCard c left solved).pages = s.pages ∧
    (s.takeCard c left solved).ramp = s.ramp ∧ (s.takeCard c left solved).chains = s.chains ∧
    (s.takeCard c left solved).filters = s.filters ∧ (s.takeCard c left solved).logs = s.logs ∧
    (s.takeCard c left solved).freeIndex = s.freeIndex ∧ (s.takeCard c left solved).regs.areaLo = s.regs.areaLo ∧
    (s.takeCard c left solved).regs.areaHi = s.regs.areaHi ∧ (s.takeCard c left solved).regs.run = s.regs.run ∧
    (s.takeCard c left solved).regs.noticeMask = s.regs.noticeMask ∧ (s.takeCard c left solved).link.up = s.link.up ∧
    (s.takeCard c left solved).intake.longCards = s.intake.longCards ∧
    (s.takeCard c left solved).intake.completions = s.intake.completions ∧
    (s.takeCard c left solved).intake.scanCount = s.intake.scanCount := by
  unfold State.takeCard
  dsimp only
  split_ifs
  · split <;> simp [State.modIntake]
  · simp [State.modIntake]
  · simp

@[simp] theorem State.readCard_keeps (s : State) (left : Nat) (solved : Bool) :
    (s.readCard left solved).pending = s.pending ∧ (s.readCard left solved).solves = s.solves ∧
    (s.readCard left solved).clock = s.clock ∧ (s.readCard left solved).contexts = s.contexts ∧
    (s.readCard left solved).groups = s.groups ∧ (s.readCard left solved).serviceTimer = s.serviceTimer ∧
    (s.readCard left solved).stalenessTimer = s.stalenessTimer ∧ (s.readCard left solved).pages = s.pages ∧
    (s.readCard left solved).ramp = s.ramp ∧ (s.readCard left solved).chains = s.chains ∧
    (s.readCard left solved).filters = s.filters ∧ (s.readCard left solved).logs = s.logs ∧
    (s.readCard left solved).freeIndex = s.freeIndex ∧ (s.readCard left solved).regs.areaLo = s.regs.areaLo ∧
    (s.readCard left solved).regs.areaHi = s.regs.areaHi ∧ (s.readCard left solved).regs.run = s.regs.run ∧
    (s.readCard left solved).regs.noticeMask = s.regs.noticeMask ∧ (s.readCard left solved).link.up = s.link.up ∧
    (s.readCard left solved).intake.longCards = s.intake.longCards ∧
    (s.readCard left solved).intake.completions = s.intake.completions ∧
    (s.readCard left solved).intake.scanCount = s.intake.scanCount := by
  unfold State.readCard
  split <;> (next h => rw [← snd_of_eq h]; simp)

@[simp] theorem State.scanAccess_keeps (s : State) :
    s.scanAccess.pending = s.pending ∧ s.scanAccess.solves = s.solves ∧ s.scanAccess.clock = s.clock ∧
    s.scanAccess.groups = s.groups ∧ s.scanAccess.serviceTimer = s.serviceTimer ∧
    s.scanAccess.stalenessTimer = s.stalenessTimer ∧ s.scanAccess.pages = s.pages ∧ s.scanAccess.ramp = s.ramp ∧
    s.scanAccess.chains = s.chains ∧ s.scanAccess.filters = s.filters ∧ s.scanAccess.freeIndex = s.freeIndex ∧
    s.scanAccess.regs.areaLo = s.regs.areaLo ∧ s.scanAccess.regs.areaHi = s.regs.areaHi ∧
    s.scanAccess.regs.run = s.regs.run ∧ s.scanAccess.regs.noticeMask = s.regs.noticeMask ∧
    s.scanAccess.link.up = s.link.up ∧ s.scanAccess.intake.longCards = s.intake.longCards := by
  unfold State.scanAccess
  split <;> simp

@[simp] theorem State.advanceScan_keeps (s : State) (n : Nat) :
    (State.advanceScan n s).pending = s.pending ∧ (State.advanceScan n s).solves = s.solves ∧
    (State.advanceScan n s).clock = s.clock ∧ (State.advanceScan n s).groups = s.groups ∧
    (State.advanceScan n s).serviceTimer = s.serviceTimer ∧
    (State.advanceScan n s).stalenessTimer = s.stalenessTimer ∧ (State.advanceScan n s).pages = s.pages ∧
    (State.advanceScan n s).ramp = s.ramp ∧ (State.advanceScan n s).chains = s.chains ∧
    (State.advanceScan n s).filters = s.filters ∧ (State.advanceScan n s).freeIndex = s.freeIndex ∧
    (State.advanceScan n s).regs.areaLo = s.regs.areaLo ∧ (State.advanceScan n s).regs.areaHi = s.regs.areaHi ∧
    (State.advanceScan n s).regs.run = s.regs.run ∧ (State.advanceScan n s).regs.noticeMask = s.regs.noticeMask ∧
    (State.advanceScan n s).link.up = s.link.up ∧ (State.advanceScan n s).intake.longCards = s.intake.longCards := by
  induction n generalizing s with
  | zero => simp [State.advanceScan]
  | succ n ih => simp [State.advanceScan, ih]

@[simp] theorem State.goOn_keeps (s : State) :
    s.goOn.pending = s.pending ∧ s.goOn.solves = s.solves ∧ s.goOn.clock = s.clock ∧ s.goOn.groups = s.groups ∧
    s.goOn.serviceTimer = s.serviceTimer ∧ s.goOn.stalenessTimer = s.stalenessTimer ∧ s.goOn.pages = s.pages ∧
    s.goOn.ramp = s.ramp ∧ s.goOn.chains = s.chains ∧ s.goOn.filters = s.filters ∧
    s.goOn.regs.areaLo = s.regs.areaLo ∧ s.goOn.regs.areaHi = s.regs.areaHi ∧ s.goOn.regs.run = s.regs.run ∧
    s.goOn.regs.noticeMask = s.regs.noticeMask ∧ s.goOn.link.up = s.link.up ∧
    s.goOn.intake.longCards = s.intake.longCards := by
  unfold State.goOn
  simp

@[simp] theorem State.startScan_keeps (s : State) :
    s.startScan.pending = s.pending ∧ s.startScan.solves = s.solves ∧ s.startScan.clock = s.clock ∧
    s.startScan.groups = s.groups ∧ s.startScan.serviceTimer = s.serviceTimer ∧
    s.startScan.stalenessTimer = s.stalenessTimer ∧ s.startScan.pages = s.pages ∧ s.startScan.ramp = s.ramp ∧
    s.startScan.chains = s.chains ∧ s.startScan.filters = s.filters ∧ s.startScan.regs.areaLo = s.regs.areaLo ∧
    s.startScan.regs.areaHi = s.regs.areaHi ∧ s.startScan.regs.run = s.regs.run ∧
    s.startScan.regs.noticeMask = s.regs.noticeMask ∧ s.startScan.link.up = s.link.up ∧
    s.startScan.intake.longCards = s.intake.longCards := by
  unfold State.startScan
  simp

@[simp] theorem State.requestScan_keeps (s : State) :
    s.requestScan.pending = s.pending ∧ s.requestScan.solves = s.solves ∧ s.requestScan.clock = s.clock ∧
    s.requestScan.groups = s.groups ∧ s.requestScan.serviceTimer = s.serviceTimer ∧
    s.requestScan.stalenessTimer = s.stalenessTimer ∧ s.requestScan.pages = s.pages ∧ s.requestScan.ramp = s.ramp ∧
    s.requestScan.chains = s.chains ∧ s.requestScan.filters = s.filters ∧ s.requestScan.regs.areaLo = s.regs.areaLo ∧
    s.requestScan.regs.areaHi = s.regs.areaHi ∧ s.requestScan.regs.run = s.regs.run ∧
    s.requestScan.regs.noticeMask = s.regs.noticeMask ∧ s.requestScan.link.up = s.link.up ∧
    s.requestScan.intake.longCards = s.intake.longCards := by
  unfold State.requestScan
  split_ifs <;> simp [State.modIntake]

@[simp] theorem State.startScanTimer_keeps (s : State) :
    (s.startScanTimer).pending = s.pending ∧ (s.startScanTimer).solves = s.solves ∧
    (s.startScanTimer).clock = s.clock ∧
    (s.startScanTimer).contexts = s.contexts ∧ (s.startScanTimer).groups = s.groups ∧
    (s.startScanTimer).serviceTimer = s.serviceTimer ∧ (s.startScanTimer).stalenessTimer = s.stalenessTimer ∧
    (s.startScanTimer).pages = s.pages ∧ (s.startScanTimer).ramp = s.ramp ∧
    (s.startScanTimer).chains = s.chains ∧ (s.startScanTimer).filters = s.filters ∧
    (s.startScanTimer).logs = s.logs ∧ (s.startScanTimer).regs = s.regs ∧ (s.startScanTimer).area = s.area ∧
    (s.startScanTimer).link = s.link ∧ (s.startScanTimer).freeIndex = s.freeIndex := by
  unfold State.startScanTimer
  simp

@[simp] theorem State.intakeRestart_keeps (s : State) :
    (s.intakeRestart).pending = s.pending ∧ (s.intakeRestart).solves = s.solves ∧
    (s.intakeRestart).clock = s.clock ∧
    (s.intakeRestart).groups = s.groups ∧ (s.intakeRestart).serviceTimer = s.serviceTimer ∧
    (s.intakeRestart).stalenessTimer = s.stalenessTimer ∧ (s.intakeRestart).pages = s.pages ∧
    (s.intakeRestart).ramp = s.ramp ∧ (s.intakeRestart).chains = s.chains ∧
    (s.intakeRestart).filters = s.filters ∧
    (s.intakeRestart).regs.areaLo = s.regs.areaLo ∧ (s.intakeRestart).regs.areaHi = s.regs.areaHi ∧
    (s.intakeRestart).regs.run = s.regs.run ∧ (s.intakeRestart).regs.noticeMask = s.regs.noticeMask ∧
    (s.intakeRestart).link.up = s.link.up := by
  unfold State.intakeRestart
  dsimp only
  split_ifs <;> simp [State.modIntake]

@[simp] theorem State.chainRestart_keeps (s : State) (ch : Fin 4) :
    (s.chainRestart ch).pending = s.pending ∧ (s.chainRestart ch).solves = s.solves ∧
    (s.chainRestart ch).clock = s.clock ∧
    (s.chainRestart ch).groups = s.groups ∧ (s.chainRestart ch).serviceTimer = s.serviceTimer ∧
    (s.chainRestart ch).stalenessTimer = s.stalenessTimer ∧ (s.chainRestart ch).pages = s.pages ∧
    (s.chainRestart ch).ramp = s.ramp ∧ (s.chainRestart ch).filters = s.filters ∧
    (s.chainRestart ch).logs = s.logs ∧ (s.chainRestart ch).intake = s.intake ∧
    (s.chainRestart ch).regs = s.regs ∧ (s.chainRestart ch).area = s.area ∧ (s.chainRestart ch).link = s.link ∧
    (s.chainRestart ch).freeIndex = s.freeIndex := by
  unfold State.chainRestart
  dsimp only
  split
  · simp
  · split_ifs
    · split <;> simp
    · simp

@[simp] theorem State.foldRestart_keeps (s : State) (l : List (Fin 4)) :
    (l.foldl (State.chainRestart) s).pending = s.pending ∧ (l.foldl (State.chainRestart) s).solves = s.solves ∧
    (l.foldl (State.chainRestart) s).clock = s.clock ∧
    (l.foldl (State.chainRestart) s).groups = s.groups ∧
    (l.foldl (State.chainRestart) s).serviceTimer = s.serviceTimer ∧
    (l.foldl (State.chainRestart) s).stalenessTimer = s.stalenessTimer ∧
    (l.foldl (State.chainRestart) s).pages = s.pages ∧ (l.foldl (State.chainRestart) s).ramp = s.ramp ∧
    (l.foldl (State.chainRestart) s).filters = s.filters ∧ (l.foldl (State.chainRestart) s).logs = s.logs ∧
    (l.foldl (State.chainRestart) s).intake = s.intake ∧ (l.foldl (State.chainRestart) s).regs = s.regs ∧
    (l.foldl (State.chainRestart) s).area = s.area ∧ (l.foldl (State.chainRestart) s).link = s.link ∧
    (l.foldl (State.chainRestart) s).freeIndex = s.freeIndex := by
  induction l generalizing s with
  | nil => simp
  | cons a l ih => simpa using ih (s.chainRestart a)

@[simp] theorem State.chainRestarts_keeps (s : State) :
    s.chainRestarts.pending = s.pending ∧ s.chainRestarts.solves = s.solves ∧
    s.chainRestarts.clock = s.clock ∧
    s.chainRestarts.groups = s.groups ∧
    s.chainRestarts.serviceTimer = s.serviceTimer ∧
    s.chainRestarts.stalenessTimer = s.stalenessTimer ∧
    s.chainRestarts.pages = s.pages ∧ s.chainRestarts.ramp = s.ramp ∧
    s.chainRestarts.filters = s.filters ∧ s.chainRestarts.logs = s.logs ∧
    s.chainRestarts.intake = s.intake ∧ s.chainRestarts.regs = s.regs ∧
    s.chainRestarts.area = s.area ∧ s.chainRestarts.link = s.link ∧
    s.chainRestarts.freeIndex = s.freeIndex := by
  unfold State.chainRestarts
  simp

@[simp] theorem State.afterCard_keeps (s : State) (w : Walk) :
    (s.afterCard w).pending = s.pending ∧ (s.afterCard w).solves = s.solves ∧
    (s.afterCard w).clock = s.clock ∧ (s.afterCard w).groups = s.groups ∧
    (s.afterCard w).serviceTimer = s.serviceTimer ∧ (s.afterCard w).stalenessTimer = s.stalenessTimer ∧
    (s.afterCard w).pages = s.pages ∧ (s.afterCard w).ramp = s.ramp ∧
    (s.afterCard w).filters = s.filters ∧
    (s.afterCard w).regs.areaLo = s.regs.areaLo ∧ (s.afterCard w).regs.areaHi = s.regs.areaHi ∧
    (s.afterCard w).regs.run = s.regs.run ∧ (s.afterCard w).regs.noticeMask = s.regs.noticeMask ∧
    (s.afterCard w).link.up = s.link.up := by
  unfold State.afterCard
  split_ifs <;> simp

@[simp] theorem State.markLate_keeps (s : State) (ch : Fin 4) :
    (s.markLate ch).pending = s.pending ∧ (s.markLate ch).solves = s.solves ∧ (s.markLate ch).clock = s.clock ∧
    (s.markLate ch).contexts = s.contexts ∧ (s.markLate ch).groups = s.groups ∧
    (s.markLate ch).serviceTimer = s.serviceTimer ∧ (s.markLate ch).stalenessTimer = s.stalenessTimer ∧
    (s.markLate ch).pages = s.pages ∧ (s.markLate ch).ramp = s.ramp ∧ (s.markLate ch).filters = s.filters ∧
    (s.markLate ch).logs = s.logs ∧ (s.markLate ch).intake = s.intake ∧ (s.markLate ch).regs = s.regs ∧
    (s.markLate ch).area = s.area ∧ (s.markLate ch).link = s.link ∧ (s.markLate ch).freeIndex = s.freeIndex := by
  unfold State.markLate
  split_ifs <;> simp

@[simp] theorem State.restart_keeps (s : State) :
    (s.restart).pending = s.pending ∧ (s.restart).solves = s.solves ∧
    (s.restart).clock = s.clock ∧ (s.restart).groups = s.groups ∧
    (s.restart).serviceTimer = s.serviceTimer ∧ (s.restart).stalenessTimer = s.stalenessTimer ∧
    (s.restart).pages = s.pages ∧ (s.restart).filters = s.filters ∧
    (s.restart).regs.areaLo = s.regs.areaLo ∧ (s.restart).regs.areaHi = s.regs.areaHi ∧
    (s.restart).regs.run = s.regs.run ∧ (s.restart).regs.noticeMask = s.regs.noticeMask ∧
    (s.restart).link.up = s.link.up := by
  unfold State.restart
  dsimp only
  split <;> simp

end Sys2Proof.Machine
end

