-- ==== Sys2Proof/Laws/Bytes.lean ====
section
/-! SUPPORT. The lengths of what the part writes: fields, reports, mirror records, the status block, link sets. -/

namespace Sys2Proof.Machine

@[simp] theorem bytes8_length (n : Nat) : (bytes8 n).length = 1 := rfl

@[simp] theorem bytes16_length (n : Nat) : (bytes16 n).length = 2 := rfl

@[simp] theorem bytes32_length (n : Nat) : (bytes32 n).length = 4 := rfl

@[simp] theorem bytesInt16_length (i : Int) : (bytesInt16 i).length = 2 := rfl

@[simp] theorem zeros_length (n : Nat) : (zeros n).length = n := List.length_replicate

@[simp] theorem padTo_length (n : Nat) (bs : List Byte) : (padTo n bs).length = n := by simp [padTo]

@[simp] theorem Rgb_bytes16_length (v : Rgb Nat) : (v.toList.flatMap bytes16).length = 6 := by simp [Rgb.toList]

@[simp] theorem Rgb_bytes32_length (v : Rgb Nat) : (v.toList.flatMap bytes32).length = 12 := by simp [Rgb.toList]

@[simp] theorem bytesSet_length (t : TermSet) : (bytesSet t).length = 18 := by
  unfold bytesSet
  simp only [Rgb.toList, List.flatMap_cons, List.flatMap_nil, List.length_append, bytesInt16_length, List.length_nil]

@[simp] theorem bytesSetKnown_length (t : Option TermSet) : (bytesSetKnown t).length = 18 := bytesSet_length _

/-- The set of a WRITE_SET is eighteen bytes (R100). -/
@[simp] theorem linkSet_length (t : TermSet) : (linkSet t).length = 18 := by
  unfold linkSet link16
  simp only [Rgb.toList, List.flatMap_cons, List.flatMap_nil, List.length_append, List.length_cons, List.length_nil]

/-- A report record is 16 bytes (section 10.2.4). -/
@[simp] theorem Report.bytes_length (r : Report) : r.bytes.length = 16 := by
  unfold Report.bytes
  simp only [List.length_append, bytes8_length, bytes32_length]

/-- A mirror record is 128 bytes (section 10.2.5). -/
@[simp] theorem Context.mirrorBytes_length (c : Context) : c.mirrorBytes.length = 128 := by
  unfold Context.mirrorBytes
  simp only [List.length_append, bytes8_length, bytes16_length, bytes32_length, bytesInt16_length, bytesSet_length,
    bytesSetKnown_length, zeros_length, Rgb_bytes16_length, Rgb_bytes32_length]

@[simp] theorem State.targetBytes_length (g : Group) : (State.targetBytes g).length = 12 := by
  unfold State.targetBytes; split <;> simp [Rgb.toList]

/-- The status block's body is the bytes 0x08..0xBB (section 10.2.1). -/
@[simp] theorem State.statusBody_length (s : State) : s.statusBody.length = 180 := by
  have e : (s.groups.cells.flatMap State.targetBytes).length = 96 := by
    rw [List.length_flatMap]; simp [s.groups.size]
  unfold State.statusBody
  simp only [List.length_append, e]
  simp [s.chains.size, List.length_flatMap]

end Sys2Proof.Machine
end

