-- ==== Sys2Proof/Laws/Layout.lean ====
section
/-! SUPPORT. The bytes that the machine writes and the fields that it reads are those of the layouts of section 10.2. -/

namespace Sys2Proof.Machine

/-! ## Codes -/

@[simp] theorem ResultCode.code_number (c : ResultCode) : c.code = c.number := by cases c <;> rfl

@[simp] theorem Life.code_number (l : Life) : l.code = l.number := by cases l <;> rfl

@[simp] theorem Verify.code_number (v : Verify) : v.code = v.number := by cases v <;> rfl

@[simp] theorem FaultReason.code_number (r : FaultReason) : r.code = r.number := by cases r <;> rfl

@[simp] theorem ChainState.code_number (c : ChainState) : c.code = c.number := by cases c <;> rfl

@[simp] theorem FrameState.code_number (f : FrameState) : f.code = f.number := by cases f <;> rfl

@[simp] theorem Mode.code_number (m : Mode) : m.code = m.number := by cases m <;> rfl

@[simp] theorem BitRate.code_number (b : BitRate) : b.code = b.number := by cases b <;> rfl

@[simp] theorem NakPolicy.code_number (p : NakPolicy) : p.code = p.number := by cases p <;> rfl

@[simp] theorem Destination.code_number (d : Destination) : d.code = d.number := by cases d <;> rfl

@[simp] theorem WorkKind.code_number (k : WorkKind) : k.code = k.number := by cases k <;> rfl

@[simp] theorem RollEnd.code_number (e : RollEnd) : e.code = e.number := by cases e <;> rfl

@[simp] theorem PartKind.code_number (k : PartKind) : k.code = k.number := by cases k <;> rfl

/-- The request that a kind byte names is the one of that number (section 10.2.2). -/
theorem Request.ofCode_iff (n : Nat) (r : Request) : Request.ofCode n = some r ↔ n = r.number := by
  constructor
  · intro h
    unfold Request.ofCode at h
    split at h <;> cases h <;> rfl
  · rintro rfl
    cases r <;> rfl

/-- A kind byte outside 1..15 names no request (R168). -/
theorem Request.ofCode_none (n : Nat) (h : ¬(1 ≤ n ∧ n ≤ 15)) : Request.ofCode n = none := by
  unfold Request.ofCode
  split <;> first | rfl | omega

/-! ## Fields and rows -/

/-- The bytes of a row. -/
def fieldBytes (f : Nat × Nat) : List Byte := (List.range f.1).map (leByte f.2)

/-- Rows that follow one another from an offset on, from their widths and numbers. -/
def rowsFrom : Nat → List (Nat × Nat) → List Field
  | _, [] => []
  | o, f :: fs => ⟨o, f.1, f.2⟩ :: rowsFrom (o + f.1) fs

/-- The byte at an offset of rows that follow one another is that of their bytes joined. -/
theorem layoutByte_rowsFrom (o k : Nat) (fs : List (Nat × Nat)) :
    layoutByte (rowsFrom o fs) (o + k) = (fs.flatMap fieldBytes).getD k 0 := by
  induction fs generalizing o k with
  | nil => simp [rowsFrom, layoutByte]
  | cons f fs ih =>
    have l : (fieldBytes f).length = f.1 := by simp [fieldBytes]
    rw [List.flatMap_cons]
    by_cases h : k < f.1
    · rw [List.getD_append _ _ _ _ (by omega)]
      simp [rowsFrom, layoutByte, h, fieldBytes]
    · rw [List.getD_append_right _ _ _ _ (by omega), l, ← ih (o + f.1) (k - f.1)]
      have e : o + f.1 + (k - f.1) = o + k := by omega
      simp [rowsFrom, layoutByte, h, e]

theorem layoutByte_fields (k : Nat) (fs : List (Nat × Nat)) :
    layoutByte (rowsFrom 0 fs) k = (fs.flatMap fieldBytes).getD k 0 := by
  have h := layoutByte_rowsFrom 0 k fs
  rwa [Nat.zero_add] at h

theorem bytes8_field (n : Nat) : bytes8 n = fieldBytes (1, n) := by
  simp [bytes8, fieldBytes, leByte, List.range_succ]

theorem bytes16_field (n : Nat) : bytes16 n = fieldBytes (2, n) := by
  simp [bytes16, fieldBytes, leByte, List.range_succ]

theorem bytes32_field (n : Nat) : bytes32 n = fieldBytes (4, n) := by
  simp [bytes32, bytes16, fieldBytes, leByte, List.range_succ, Nat.div_div_eq_div_mul]

theorem bytesInt16_field (i : Int) : bytesInt16 i = fieldBytes (2, twosComplement i) := by
  rw [bytesInt16, bytes16_field, BitVec.toNat_ofInt]; rfl

theorem zeros_field (n : Nat) : zeros n = fieldBytes (n, 0) := by
  apply List.ext_getElem <;> simp [zeros, fieldBytes, leByte]

/-- The tags of a freeze set as a card shows them, zero-filled (R93, R94). -/
theorem padTo_tags (tags : List Nat) :
    padTo 4 (tags.flatMap bytes8) = (List.range 4).map fun k => BitVec.ofNat 8 (tags.getD k 0) := by
  rcases tags with _ | ⟨a, _ | ⟨b, _ | ⟨c, _ | ⟨d, l⟩⟩⟩⟩ <;>
    simp [padTo, bytes8, zeros, List.range_succ, List.replicate_succ]

/-- Flag n of a card's flags is bit n. -/
theorem bitsOf_testBit (flags : List Bool) (n : Nat) : (bitsOf flags).testBit n = flags.getD n false := by
  induction flags generalizing n with
  | nil => simp [bitsOf]
  | cons b bs ih =>
    cases n with
    | zero => cases b <;> simp [bitsOf, Nat.testBit_zero]
    | succ n =>
      have : (b.toNat + 2 * bitsOf bs) / 2 = bitsOf bs := by cases b <;> simp; omega
      rw [Nat.testBit_succ, bitsOf, this, ih, List.getD_cons_succ]

theorem bytes16_getD (n k : Nat) (h : k < 2) : (bytes16 n).getD k 0 = leByte n k := by
  rw [bytes16_field]; simp [fieldBytes, h]

theorem bytes32_getD (n k : Nat) (h : k < 4) : (bytes32 n).getD k 0 = leByte n k := by
  rw [bytes32_field]; simp [fieldBytes, h]

theorem bytesSetKnown_shown (a : Option TermSet) : bytesSetKnown a = bytesSet (shownSet a) := by
  cases a <;> rfl

/-! ## What the part writes -/

theorem bit_value (b : Bool) (n : Nat) : (if b = true then n else 0) = n * b.toNat := by cases b <;> simp

theorem none_value {α : Type} [DecidableEq α] (o : Option α) (n : Nat) :
    (if o = none then n else 0) = n * o.isNone.toNat := by cases o <;> simp

theorem some_value {α : Type} [DecidableEq α] (o : Option α) (n : Nat) :
    (if o ≠ none then n else 0) = n * o.isSome.toNat := by cases o <;> simp

/-- The widths and numbers of a set's terms. -/
def setFields (a : TermSet) : List (Nat × Nat) :=
  [(2, twosComplement a.r.r), (2, twosComplement a.r.g), (2, twosComplement a.r.b),
    (2, twosComplement a.g.r), (2, twosComplement a.g.g), (2, twosComplement a.g.b),
    (2, twosComplement a.b.r), (2, twosComplement a.b.g), (2, twosComplement a.b.b)]

/-- A set as nine numbers of two bytes. -/
theorem bytesSet_fields (a : TermSet) : bytesSet a = (setFields a).flatMap fieldBytes := by
  simp [bytesSet, setFields, Rgb.toList, bytesInt16_field]

/-- The widths and numbers of a mirror record. -/
def Context.mirrorFields (c : Context) : List (Nat × Nat) :=
  [(1, c.life.number), (1, c.generation.toNat), (1, c.chain.val), (1, c.address.val), (4, c.serial.toNat),
    (1, c.group.val), (1, c.page.val),
    (1, bitsOf [c.noVote, c.stale, c.short, c.ageClamped, c.curveFallback, c.sensorSuspect, c.temp.isNone]),
    (1, bitsOf [c.applied.isSome, c.sent.isSome, c.latched.isSome]), (2, twosComplement (c.temp.getD 0)),
    (1, c.failCount), (1, c.mismatchCount), (4, c.tempTick.toNat), (1, c.verify.number),
    (1, c.faultReason.number), (2, c.pushCount), (2, c.age.r), (2, c.age.g), (2, c.age.b), (2, 0),
    (4, c.effective.r), (4, c.effective.g), (4, c.effective.b), (2, c.gain.r), (2, c.gain.g), (2, c.gain.b)] ++
    (setFields c.target ++ (setFields (shownSet c.applied) ++ (setFields (shownSet c.sent) ++
      (setFields (shownSet c.latched) ++ [(6, 0)]))))

theorem Context.mirrorRows_eq (c : Context) : c.mirrorRows = rowsFrom 0 c.mirrorFields := by
  have f1 : bitsOf [c.noVote, c.stale, c.short, c.ageClamped, c.curveFallback, c.sensorSuspect, c.temp.isNone] =
      (if c.noVote then 1 else 0) + (if c.stale then 2 else 0) + (if c.short then 4 else 0) +
        (if c.ageClamped then 8 else 0) + (if c.curveFallback then 16 else 0) +
        (if c.sensorSuspect then 32 else 0) + (if c.temp = none then 64 else 0) := by
    simp only [bit_value, none_value, bitsOf]; omega
  have f2 : bitsOf [c.applied.isSome, c.sent.isSome, c.latched.isSome] =
      (if c.applied ≠ none then 1 else 0) + (if c.sent ≠ none then 2 else 0) +
        (if c.latched ≠ none then 4 else 0) := by
    simp only [some_value, bitsOf]; omega
  have f3 : c.temp.getD 0 = shownTemp c.temp := by cases c.temp <;> rfl
  unfold Context.mirrorFields Context.mirrorRows
  rw [f1, f2, f3]
  simp only [rowsFrom, setRows, setFields, List.cons_append, List.nil_append, Nat.reduceAdd]

theorem Context.mirrorBytes_fields (c : Context) : c.mirrorBytes = c.mirrorFields.flatMap fieldBytes := by
  unfold Context.mirrorBytes Context.mirrorFields
  simp only [List.flatMap_append, List.flatMap_cons, List.flatMap_nil, bytes8_field, bytes16_field, bytes32_field,
    bytesInt16_field, zeros_field, bytesSetKnown_shown, bytesSet_fields, Rgb.toList, Life.code_number,
    Verify.code_number, FaultReason.code_number, List.append_assoc, List.append_nil]

/-- The mirror record of the machine is laid out as section 10.2.5 gives it. -/
theorem Context.mirrorBytes_layout (c : Context) (k : Nat) :
    c.mirrorBytes.getD k 0 = layoutByte c.mirrorRows k := by
  rw [c.mirrorBytes_fields, c.mirrorRows_eq, layoutByte_fields]

/-- A log record of the machine is laid out as section 10.2.4 gives it. -/
theorem Report.bytes_layout (r : Report) (k : Nat) : r.bytes.getD k 0 = layoutByte r.rows k := by
  have e : r.rows = rowsFrom 0
      [(4, r.tick.toNat), (1, r.kind), (1, r.chain.val + if r.rolled then 128 else 0), (1, r.address.val),
        (1, r.source), (4, r.serial.toNat), (4, r.value.toNat)] := rfl
  rw [e, layoutByte_fields]
  simp only [Report.bytes, List.flatMap_cons, List.flatMap_nil, bytes8_field, bytes32_field, List.append_assoc,
    List.append_nil]

theorem State.targetBytes_fields (g : Group) :
    State.targetBytes g = ([(4, g.shownTargets.r), (4, g.shownTargets.g), (4, g.shownTargets.b)] :
      List (Nat × Nat)).flatMap fieldBytes := by
  unfold State.targetBytes Group.shownTargets
  rcases g.targets with _ | T
  · decide
  · simp [Rgb.toList, bytes32_field]

theorem State.chains_cells (s : State) : s.chains.cells = (List.finRange 4).map s.chain := by
  rw [s.chains.cells_eq_ofFn, List.ofFn_eq_map]; rfl

theorem State.groups_cells (s : State) : s.groups.cells = (List.finRange 8).map s.group := by
  rw [s.groups.cells_eq_ofFn, List.ofFn_eq_map]; rfl

/-- The widths and numbers of a status block. -/
def State.statusFields (s : State) : List (Nat × Nat) :=
  [(4, s.tick.toNat), (4, (s.intake.scanCount + 1).toNat), (1, s.ramp.mode.number),
    (1, s.ramp.freezeSet.length), (1, if s.ramp.freezeIn then 1 else 0), (1, s.ramp.frameState.number),
    (1, s.intake.cursor.val), (3, 0)] ++
    (((List.finRange 4).map fun ch => (1, (s.chain ch).state.number)) ++
      (((List.finRange 4).map fun ch => (2, (s.chain ch).pollOverrun)) ++
        ([(2, s.logs.alertWrite.val), (2, s.logs.generalWrite.val), (2, s.logs.oldest.val), (2, s.logs.overwrites),
          (2, s.logs.rollovers), (2, s.logs.unlogged), (2, s.logs.alertCopy.val), (2, s.logs.generalCopy.val),
          (20, 0)] ++
          (((List.finRange 8).flatMap fun g =>
            [(4, (s.group g).shownTargets.r), (4, (s.group g).shownTargets.g), (4, (s.group g).shownTargets.b)]) ++
            [(28, 0), (4, (s.intake.scanCount + 1).toNat)]))))

theorem State.statusRows_eq (s : State) : s.statusRows = rowsFrom 0 s.statusFields := by
  have r4 : List.finRange 4 = [0, 1, 2, 3] := by decide
  have r8 : List.finRange 8 = [0, 1, 2, 3, 4, 5, 6, 7] := by decide
  unfold State.statusRows State.statusFields
  simp only [r4, r8, List.map_cons, List.map_nil, List.flatMap_cons, List.flatMap_nil, List.cons_append,
    List.nil_append, List.append_nil, rowsFrom, Nat.reduceAdd]
  rfl

theorem State.statusBody_fields (s : State) :
    bytes32 s.tick.toNat ++ bytes32 (s.intake.scanCount + 1).toNat ++ s.statusBody ++
      bytes32 (s.intake.scanCount + 1).toNat = s.statusFields.flatMap fieldBytes := by
  have b : s.ramp.freezeIn.toNat = if s.ramp.freezeIn then 1 else 0 := by cases s.ramp.freezeIn <;> rfl
  unfold State.statusBody State.statusFields
  simp only [s.chains_cells, s.groups_cells, List.flatMap_append, List.flatMap_cons, List.flatMap_nil,
    List.flatMap_map, List.flatMap_assoc, State.targetBytes_fields, bytes8_field, bytes16_field, bytes32_field,
    zeros_field, Mode.code_number, FrameState.code_number, ChainState.code_number, b, List.append_assoc,
    List.append_nil]

/-- The status block of the machine is laid out as section 10.2.1 gives it. -/
theorem State.statusBody_layout (s : State) (k : Nat) :
    (bytes32 s.tick.toNat ++ bytes32 (s.intake.scanCount + 1).toNat ++ s.statusBody ++
      bytes32 (s.intake.scanCount + 1).toNat).getD k 0 = layoutByte s.statusRows k := by
  rw [s.statusBody_fields, s.statusRows_eq, layoutByte_fields]

/-- What a completion writes, as the machine computes it (R169). -/
theorem Completion.byte_eq (c : Completion) (g k : Nat) :
    c.byte g k =
      if (4 ≤ k ∧ k < 6) ∧ 1 ≤ g then some ((bytes16 c.tag.toNat).getD (k - 4) 0)
      else if (6 ≤ k ∧ k < 8) ∧ 2 ≤ g then some ((bytes16 c.code.code).getD (k - 6) 0)
      else if (48 ≤ k ∧ k < 64) ∧ 3 ≤ g then some (c.data.getD (k - 48) 0)
      else if (8 ≤ k ∧ k < 12) ∧ 4 ≤ g then some ((bytes32 c.doneTick.toNat).getD (k - 8) 0)
      else if k = 0 ∧ 5 ≤ g then some 3
      else none := by
  unfold Completion.byte
  split_ifs
  · rw [bytes16_getD _ _ (by omega)]
  · rw [bytes16_getD _ _ (by omega), ResultCode.code_number]
  · rfl
  · rw [bytes32_getD _ _ (by omega)]
  all_goals rfl

/-- What the last step of a scan writes, as the machine computes it (R171). -/
theorem State.scannedByte_eq (s : State) (g a : Nat) :
    s.scannedByte g a =
      let o := a - s.areaBase
      let count := bytes32 (s.intake.scanCount + 1).toNat
      if a < s.areaBase then s.area.read a
      else if o < 0x04 ∧ 2 ≤ g then (bytes32 s.tick.toNat).getD o 0
      else if (0x04 ≤ o ∧ o < 0x08) ∧ 1 ≤ g then count.getD (o - 0x04) 0
      else if (0x08 ≤ o ∧ o < 0xBC) ∧ 3 ≤ g then s.statusBody.getD (o - 0x08) 0
      else if (0xBC ≤ o ∧ o < 0xC0) ∧ 4 ≤ g then count.getD (o - 0xBC) 0
      else if 0x7000 ≤ o ∧ o < 0xF000 ∧ Fin.ofNat 256 ((o - 0x7000) / 128) ∈ s.mirroredBy g then
        (s.ctx (Fin.ofNat 256 ((o - 0x7000) / 128))).mirrorBytes.getD ((o - 0x7000) % 128) 0
      else s.area.read a := by
  unfold State.scannedByte
  simp only [Context.mirrorBytes_layout, ← State.statusBody_layout]
  have lb := s.statusBody_length
  have l1 := bytes32_length s.tick.toNat
  have l2 := bytes32_length (s.intake.scanCount + 1).toNat
  generalize bytes32 s.tick.toNat = x at l1 ⊢
  generalize bytes32 (s.intake.scanCount + 1).toNat = y at l2 ⊢
  generalize s.statusBody = b at lb ⊢
  generalize a - s.areaBase = o
  have e1 : o < 4 → (x ++ y ++ b ++ y).getD o 0 = x.getD o 0 := fun h => by
    rw [List.getD_append _ _ _ _ (by simp; omega), List.getD_append _ _ _ _ (by simp; omega),
      List.getD_append _ _ _ _ (by omega)]
  have e2 : 4 ≤ o → o < 8 → (x ++ y ++ b ++ y).getD o 0 = y.getD (o - 4) 0 := fun h h' => by
    rw [List.getD_append _ _ _ _ (by simp; omega), List.getD_append _ _ _ _ (by simp; omega),
      List.getD_append_right _ _ _ _ (by omega), l1]
  have e3 : 8 ≤ o → o < 0xBC → (x ++ y ++ b ++ y).getD o 0 = b.getD (o - 8) 0 := fun h h' => by
    rw [List.getD_append _ _ _ _ (by simp; omega), List.getD_append_right _ _ _ _ (by simp; omega)]
    simp [l1, l2]
  have e4 : 0xBC ≤ o → (x ++ y ++ b ++ y).getD o 0 = y.getD (o - 0xBC) 0 := fun h => by
    rw [List.getD_append_right _ _ _ _ (by simp; omega)]
    simp [l1, l2, lb]
  by_cases h0 : a < s.areaBase
  · simp [h0]
  rw [if_neg h0, if_neg h0]
  rcases (show o < 4 ∨ 4 ≤ o ∧ o < 8 ∨ 8 ≤ o ∧ o < 0xBC ∨ 0xBC ≤ o ∧ o < 0xC0 ∨ 0xC0 ≤ o by omega) with
    h | ⟨h, h'⟩ | ⟨h, h'⟩ | ⟨h, h'⟩ | h
  · simp only [e1 h, h, show ¬4 ≤ o by omega, show ¬8 ≤ o by omega, show ¬0xBC ≤ o by omega, show ¬0x7000 ≤ o by omega]
    simp
  · simp only [e2 h h', h, h', show ¬o < 4 by omega, show ¬8 ≤ o by omega, show ¬0xBC ≤ o by omega,
      show ¬0x7000 ≤ o by omega]
    simp
  · simp only [e3 h h', h, h', show ¬o < 4 by omega, show ¬o < 8 by omega, show ¬0xBC ≤ o by omega,
      show ¬0x7000 ≤ o by omega]
    simp
  · simp only [e4 h, h, h', show ¬o < 4 by omega, show ¬o < 8 by omega, show ¬o < 0xBC by omega,
      show ¬0x7000 ≤ o by omega]
    simp
  · simp only [show ¬o < 4 by omega, show ¬o < 8 by omega, show ¬o < 0xBC by omega, show ¬o < 0xC0 by omega]
    simp

/-! ## What the part reads -/

theorem Memory.readBytes_getD (m : Memory) (a n k : Nat) (h : k < n) : (m.readBytes a n).getD k 0 = m.read (a + k) := by
  simp [Memory.readBytes, h]

theorem State.areaField_one (s : State) (off : Nat) : s.areaField off 1 = (s.area.read (s.areaBase + off)).toNat := by
  simp [State.areaField]

theorem State.areaField_two (s : State) (off : Nat) :
    s.areaField off 2 =
      (s.area.read (s.areaBase + off)).toNat + 256 * (s.area.read (s.areaBase + (off + 1))).toNat := by
  simp [State.areaField]

/-- A field of one, two or four bytes of a region that has been read. -/
theorem State.field_area (s : State) (off n k : Nat) :
    (k < n → field8 (s.area.readBytes (s.areaBase + off) n) k = s.areaField (off + k) 1) ∧
      (k + 1 < n → field16 (s.area.readBytes (s.areaBase + off) n) k = s.areaField (off + k) 2) ∧
      (k + 3 < n → field32 (s.area.readBytes (s.areaBase + off) n) k = s.areaField (off + k) 4) := by
  have a : ∀ j, s.areaBase + off + j = s.areaBase + (off + j) := fun j => Nat.add_assoc _ _ _
  refine ⟨fun h => ?_, fun h => ?_, fun h => ?_⟩
  · simp only [field8, byteAt, Memory.readBytes_getD _ _ _ _ h, State.areaField, a]
    omega
  · simp only [field16, field8, byteAt, State.areaField]
    rw [Memory.readBytes_getD _ _ _ _ (by omega), Memory.readBytes_getD _ _ _ _ h, a, a]
    simp only [Nat.add_assoc]
    omega
  · simp only [field32, field16, field8, byteAt, State.areaField]
    rw [Memory.readBytes_getD _ _ _ _ (by omega), Memory.readBytes_getD _ _ _ _ (by omega),
      Memory.readBytes_getD _ _ _ _ (by omega), Memory.readBytes_getD _ _ _ _ (by omega), a, a, a, a]
    simp only [Nat.add_assoc, Nat.reduceAdd]
    omega

/-- The card that the machine reads at the cursor. -/
theorem State.cardAtCursor_eq (s : State) :
    Card.ofBytes s.intake.cursor (s.area.readBytes (s.areaBase + State.cardOffset s.intake.cursor) 64) =
      s.cardAtCursor := by
  have a : ∀ j, s.areaBase + State.cardOffset s.intake.cursor + j =
      s.areaBase + (0x0100 + 64 * s.intake.cursor.val + j) := fun j => Nat.add_assoc _ _ _
  unfold Card.ofBytes State.cardAtCursor
  simp only [byteAt, field16, field8]
  iterate 6 rw [Memory.readBytes_getD _ _ _ _ (by omega)]
  simp only [a, Card.mk.injEq, Nat.add_zero, true_and]
  refine ⟨?_, ?_⟩
  · generalize s.area.read _ = x
    generalize s.area.read _ = y
    apply BitVec.eq_of_toNat_eq
    have hx := x.isLt
    have hy := y.isLt
    rw [BitVec.toNat_ofNat, BitVec.toNat_append, Nat.shiftLeft_eq, Nat.mul_comm (y.toNat), ← Nat.two_pow_add_eq_or_of_lt hx]
    omega
  · apply List.ext_getElem
    · simp [Memory.readBytes]
    · intro n h1 h2
      have : n < 36 := by simpa using h2
      simp only [Memory.readBytes, List.getElem_take, List.getElem_drop, List.getElem_map, List.getElem_range, a]

/-- The term that two bytes hold. -/
theorem signedTerm_eq (n : Nat) (h : n < 65536) : (BitVec.ofNat 16 n).toInt = signedTerm n := by
  rw [BitVec.toInt_eq_toNat_cond, BitVec.toNat_ofNat, Nat.mod_eq_of_lt (by simpa using h)]
  unfold signedTerm
  split_ifs <;> omega

theorem State.areaField_two_lt (s : State) (off : Nat) : s.areaField off 2 < 65536 := by
  rw [s.areaField_two]
  have := (s.area.read (s.areaBase + off)).isLt
  have := (s.area.read (s.areaBase + (off + 1))).isLt
  omega

/-- The sheet that the machine reads for a context. -/
theorem State.sheetOf_eq (s : State) (i : Fin 256) :
    Sheet.ofBytes (s.area.readBytes (s.areaBase + (0x3000 + 64 * i.val)) 64) = s.sheetOf i := by
  have f := s.field_area (0x3000 + 64 * i.val) 64
  have t : ∀ k, k + 1 < 64 → fieldInt16 (s.area.readBytes (s.areaBase + (0x3000 + 64 * i.val)) 64) k =
      signedTerm (s.areaField (0x3000 + 64 * i.val + k) 2) := by
    intro k h
    rw [fieldInt16, (f k).2.1 h, signedTerm_eq _ (s.areaField_two_lt _)]
  have b : ∀ x : Byte, x.getLsbD 0 = decide (x.toNat % 2 = 1) := by
    intro x
    rw [BitVec.getLsbD, Nat.testBit_zero]
  unfold Sheet.ofBytes State.sheetOf
  simp only [rgb16, rgbInt16]
  rw [b, show (byteAt (s.area.readBytes (s.areaBase + (0x3000 + 64 * i.val)) 64) 8).toNat = _ from (f 8).1 (by omega)]
  simp only [(f _).1 (show 0x04 < 64 by omega), (f _).1 (show 0x05 < 64 by omega), (f _).1 (show 0x06 < 64 by omega),
    (f _).1 (show 0x07 < 64 by omega), (f _).2.2 (show 0 + 3 < 64 by omega)]
  iterate 6 rw [(f _).2.1 (by omega)]
  iterate 9 rw [t _ (by omega)]

/-- The checks of R32. -/
theorem Sheet.checked_iff (sh : Sheet) (p : Position) : sh.checked = some p ↔ sh.passes p := by
  obtain ⟨ch, a, g, q⟩ := p
  have l : sh.luminance.toList.all (fun y => decide (1 ≤ y ∧ y ≤ 16000)) = true ↔
      ∀ q, 1 ≤ sh.luminance.get q ∧ sh.luminance.get q ≤ 16000 := by
    simp only [Rgb.toList, List.all_cons, List.all_nil, Bool.and_true, Bool.and_eq_true, decide_eq_true_eq]
    constructor
    · rintro ⟨r, g, b⟩ (_ | _ | _) <;> assumption
    · exact fun h => ⟨h .red, h .green, h .blue⟩
  have ix : ∀ {n : Nat} (k : Nat) (j : Fin n), indexBelow n k = some j ↔ k = j.val := by
    intro n k j
    unfold indexBelow
    split_ifs with h
    · simp [Fin.ext_iff]
    · have := j.isLt
      simp; omega
  unfold Sheet.checked Sheet.passes
  constructor
  · intro h
    split at h
    · rename_i ch' a' g' q' h1 h2 h3 h4
      split_ifs at h with c
      simp only [Option.some.injEq, Position.mk.injEq] at h
      obtain ⟨rfl, rfl, rfl, rfl⟩ := h
      rw [ix] at h1 h2 h3 h4
      refine ⟨c.1, h1, h2, fun z => c.2.1 (Fin.ext (h2.symm.trans z)), h3, h4, l.1 c.2.2⟩
    · cases h
  · rintro ⟨c1, c2, c3, c4, c5, c6, c7⟩
    rw [(ix _ _).2 c2, (ix _ _).2 c3, (ix _ _).2 c5, (ix _ _).2 c6]
    have : a ≠ 0 := fun z => c4 (by rw [c3, z]; rfl)
    exact if_pos ⟨c1, this, l.2 c7⟩

/-- The entries that the machine reads from a staging slot. -/
theorem State.slotEntries_get (s : State) (slot : Fin 4) (k : Fin 99) :
    (slotEntries (s.area.readBytes (s.areaBase + (0x0900 + 256 * slot.val)) 198)).get k =
      s.stagedEntry slot k.val := by
  have h := (s.field_area (0x0900 + 256 * slot.val) 198 (2 * k.val)).2.1 (by omega)
  unfold State.stagedEntry
  rw [← h]
  simp [slotEntries, Table.get]

end Sys2Proof.Machine
end

