-- ==== Sys2Proof/Laws/Memory.lean ====
section
/-! SUPPORT. Laws of the host's memory: the canonical form is kept, and what a read finds after a write. -/

namespace Sys2Proof.Machine

theorem Memory.reset_wf : Memory.wf [] := by simp [Memory.wf]

theorem Memory.cellsOf_range (bs : List Byte) :
    ∀ (a : Nat) (c : Host.Cell), c ∈ Memory.cellsOf a bs → a ≤ c.1 ∧ c.1 < a + bs.length := by
  induction bs with
  | nil => intro a c h; simp [Memory.cellsOf] at h
  | cons b bs ih =>
    intro a c h
    unfold Memory.cellsOf at h
    split at h
    · have := ih _ _ h; simp only [List.length_cons]; omega
    · rcases List.mem_cons.1 h with rfl | h
      · simp
      · have := ih _ _ h; simp only [List.length_cons]; omega

theorem Memory.cellsOf_wf (bs : List Byte) : ∀ a : Nat, Memory.wf (Memory.cellsOf a bs) := by
  induction bs with
  | nil => intro a; simp [Memory.cellsOf, Memory.wf]
  | cons b bs ih =>
    intro a
    unfold Memory.cellsOf
    split
    · exact ih _
    · next hb =>
      refine ⟨List.pairwise_cons.2 ⟨fun c hc => ?_, (ih _).1⟩, ?_⟩
      · have := Memory.cellsOf_range bs _ c hc; simp only; omega
      · intro c hc
        rcases List.mem_cons.1 hc with rfl | hc
        · exact hb
        · exact (ih _).2 c hc

/-- Every write keeps the canonical form. -/
theorem Memory.writeBytes_wf {m : Memory} (h : Memory.wf m) (a : Nat) (bs : List Byte) :
    Memory.wf (Memory.writeBytes m a bs) := by
  have hc := Memory.cellsOf_wf bs a
  have hr := Memory.cellsOf_range bs a
  constructor
  · unfold Memory.writeBytes
    refine List.pairwise_append.2 ⟨h.1.filter _, List.pairwise_append.2 ⟨hc.1, h.1.filter _, ?_⟩, ?_⟩
    · intro x hx y hy
      have := hr x hx
      simp only [List.mem_filter, decide_eq_true_eq] at hy
      omega
    · intro x hx y hy
      simp only [List.mem_filter, decide_eq_true_eq] at hx
      rcases List.mem_append.1 hy with hy | hy
      · have := hr y hy; omega
      · simp only [List.mem_filter, decide_eq_true_eq] at hy; omega
  · intro c hc'
    unfold Memory.writeBytes at hc'
    simp only [List.mem_append, List.mem_filter] at hc'
    rcases hc' with h1 | h1 | h1
    · exact h.2 c h1.1
    · exact hc.2 c h1
    · exact h.2 c h1.1

theorem Memory.read_append (m n : Memory) (a : Nat) (h : ∀ c ∈ m, c.1 ≠ a) :
    Memory.read (m ++ n) a = Memory.read n a := by
  unfold Memory.read
  rw [List.find?_append]
  have : m.find? (fun c => c.1 == a) = none := by
    rw [List.find?_eq_none]; intro c hc; simpa using h c hc
  simp [this]

theorem Memory.read_filter (m : Memory) (p : Nat → Bool) (a : Nat) (h : p a = true) :
    Memory.read (m.filter fun c => p c.1) a = Memory.read m a := by
  unfold Memory.read
  congr 1
  induction m with
  | nil => rfl
  | cons c m ih =>
    by_cases hc : p c.1 = true
    · rw [List.filter_cons_of_pos (by simpa using hc), List.find?_cons, List.find?_cons, ih]
    · rw [List.filter_cons_of_neg (by simpa using hc), List.find?_cons, ih]
      have : (c.1 == a) = false := by
        simp only [beq_eq_false_iff_ne]; rintro rfl; exact hc h
      rw [this]

theorem Memory.read_append_of_no_later (m n : Memory) (a : Nat) (h : ∀ c ∈ n, c.1 ≠ a) :
    Memory.read (m ++ n) a = Memory.read m a := by
  unfold Memory.read
  rw [List.find?_append]
  have : n.find? (fun c => c.1 == a) = none := by
    rw [List.find?_eq_none]; intro c hc; simpa using h c hc
  simp [this]

theorem Memory.read_cellsOf (bs : List Byte) : ∀ (a k : Nat), k < bs.length →
    Memory.read (Memory.cellsOf a bs) (a + k) = bs.getD k 0 := by
  induction bs with
  | nil => intro a k h; simp at h
  | cons b bs ih =>
    intro a k h
    unfold Memory.cellsOf
    cases k with
    | zero =>
      have hnot : ∀ c ∈ Memory.cellsOf (a + 1) bs, c.1 ≠ a := fun c hc => by
        have := Memory.cellsOf_range bs _ c hc; omega
      split
      · next hb =>
        have := Memory.read_append_of_no_later [] _ (a + 0) (by simpa using hnot)
        simp only [List.nil_append] at this
        rw [this]; simp [Memory.read, hb, Memory.unlisted]
      · simp [Memory.read]
    | succ k =>
      have hk : k < bs.length := by simpa using h
      have e : a + (k + 1) = a + 1 + k := by omega
      split
      · rw [e, ih _ _ hk]; simp
      · have : Memory.read ((a, b) :: Memory.cellsOf (a + 1) bs) (a + (k + 1))
            = Memory.read (Memory.cellsOf (a + 1) bs) (a + (k + 1)) := by
          have := Memory.read_append [(a, b)] (Memory.cellsOf (a + 1) bs) (a + (k + 1)) (by simp)
          simpa using this
        rw [this, e, ih _ _ hk]; simp

/-- What a read finds after a write: the byte written there, or what was there before. -/
theorem Memory.read_writeBytes (m : Memory) (a : Nat) (bs : List Byte) (x : Nat) :
    Memory.read (Memory.writeBytes m a bs) x =
      if a ≤ x ∧ x < a + bs.length then bs.getD (x - a) 0 else Memory.read m x := by
  have hr := Memory.cellsOf_range bs a
  unfold Memory.writeBytes
  split
  · next h =>
    rw [Memory.read_append _ _ x (fun c hc => by
        simp only [List.mem_filter, decide_eq_true_eq] at hc; omega),
      Memory.read_append_of_no_later _ _ x (fun c hc => by
        simp only [List.mem_filter, decide_eq_true_eq] at hc; omega)]
    have := Memory.read_cellsOf bs a (x - a) (by omega)
    rwa [Nat.add_sub_cancel' h.1] at this
  · next h =>
    by_cases hx : x < a
    · rw [Memory.read_append_of_no_later _ _ x (fun c hc => by
        rcases List.mem_append.1 hc with hc | hc
        · have := hr c hc; omega
        · simp only [List.mem_filter, decide_eq_true_eq] at hc; omega)]
      exact Memory.read_filter m (fun k => decide (k < a)) x (by simpa using hx)
    · rw [Memory.read_append _ _ x (fun c hc => by
        simp only [List.mem_filter, decide_eq_true_eq] at hc; omega),
        Memory.read_append _ _ x (fun c hc => by have := hr c hc; omega)]
      exact Memory.read_filter m (fun k => decide (a + bs.length ≤ k)) x (by simp; omega)

theorem Memory.read_writeBytes_outside (m : Memory) (a : Nat) (bs : List Byte) (x : Nat)
    (h : x < a ∨ a + bs.length ≤ x) : Memory.read (Memory.writeBytes m a bs) x = Memory.read m x := by
  rw [Memory.read_writeBytes, if_neg (by omega)]

/-- Memories in canonical form are equal when every read of them is. -/
theorem Memory.ext_read {m n : Memory} (hm : Memory.wf m) (hn : Memory.wf n)
    (h : ∀ a, Memory.read m a = Memory.read n a) : m = n := by
  have key : ∀ (m : Memory), Memory.wf m → ∀ c ∈ m, Memory.read m c.1 = c.2 := by
    intro m hm c hc
    induction m with
    | nil => simp at hc
    | cons d m ih =>
      have hp := List.pairwise_cons.1 hm.1
      rcases List.mem_cons.1 hc with rfl | hc
      · simp [Memory.read]
      · have hlt := hp.1 c hc
        have := ih ⟨hp.2, fun e he => hm.2 e (List.mem_cons_of_mem _ he)⟩ hc
        have e := Memory.read_append [d] m c.1 (by simp; omega)
        simp only [List.singleton_append] at e
        rw [e, this]
  have back : ∀ (m : Memory) (a : Nat), Memory.read m a ≠ Memory.unlisted → (a, Memory.read m a) ∈ m := by
    intro m a h
    unfold Memory.read at h ⊢
    cases e : m.find? (fun c => c.1 == a) with
    | none => simp [e] at h
    | some c =>
      have h1 := List.mem_of_find?_eq_some e
      have h2 := List.find?_some e
      simp only [beq_iff_eq] at h2
      subst h2; exact h1
  have sub : ∀ (m n : Memory), Memory.wf m → (∀ a, Memory.read m a = Memory.read n a) → ∀ c ∈ m, c ∈ n := by
    intro m n hm h c hc
    have h1 := key m hm c hc
    have h2 := back n c.1 (by rw [← h, h1]; exact hm.2 c hc)
    rw [← h, h1] at h2; exact h2
  have nd : ∀ m : Memory, Memory.wf m → m.Nodup := fun m hm =>
    hm.1.imp (fun h e => by subst e; omega)
  have perm : m.Perm n := (List.perm_ext_iff_of_nodup (nd m hm) (nd n hn)).2 fun c =>
    ⟨sub m n hm h c, sub n m hn (fun a => (h a).symm) c⟩
  exact perm.eq_of_pairwise (le := fun c d => c.1 < d.1) (fun a b _ _ h1 h2 => by omega) hm.1 hn.1

end Sys2Proof.Machine
end

