-- ==== Sys2Proof/Laws/Area.lean ====
section
/-! SUPPORT. What an access to the exchange area can do, and what a card's completion leaves in it. -/

namespace Sys2Proof.Machine

/-! ## One access -/

theorem State.areaBusFault_eq (s : State) : s.areaBusFault = s.busFaulted := rfl

theorem State.countAccess_eq (s : State) :
    s.countAccess = { s with link := { s.link with failAfter := s.link.failAfter.map (· - 1) } } := rfl

theorem State.goodAccesses_le (s : State) (k : Nat) : s.goodAccesses k ≤ k := by
  unfold State.goodAccesses
  split_ifs
  · exact Nat.zero_le _
  · split
    · exact Nat.le_refl _
    · exact Nat.min_le_right _ _

theorem State.goodAccesses_halted {s : State} (h : s.intake.halted = true) (k : Nat) : s.goodAccesses k = 0 := by
  simp [State.goodAccesses, h]

theorem State.goodAccesses_works {s : State} (h : s.areaWorks) (k : Nat) : s.goodAccesses k = k := by
  simp [State.goodAccesses, h.1, h.2.1, h.2.2]

theorem State.readable_works {s : State} (h : s.areaWorks) (k : Nat) : s.readable k :=
  ⟨h.1, h.2.1, s.goodAccesses_works h k⟩

theorem State.accessed_halted {s : State} (h : s.intake.halted = true) (k : Nat) : s.accessed k = s := by
  simp [State.accessed, h]

/-- An access of a part that is not halted fails if none of the next one ends well. -/
theorem State.accessFails_iff {s : State} (h : s.intake.halted = false) :
    s.accessFails = true ↔ s.goodAccesses 1 = 0 := by
  unfold State.accessFails State.goodAccesses
  cases s.link.up <;> cases s.link.failAfter <;> simp [h]

/-- One write: its bytes are left if it ends well, and the part accounts for the access (R172). -/
theorem State.areaWrite_eq (s : State) (off : Nat) (bs : List Byte) :
    s.areaWrite off bs =
      { s.accessed 1 with
        area := if s.goodAccesses 1 = 1 then s.area.writeBytes (s.areaBase + off) bs else s.area } := by
  unfold State.areaWrite State.accessed
  by_cases h : s.intake.halted = true
  · simp [h, s.goodAccesses_halted h]
  · have h' : s.intake.halted = false := by simpa using h
    have := s.accessFails_iff h'
    have l := s.goodAccesses_le 1
    by_cases f : s.accessFails = true
    · have g : s.goodAccesses 1 = 0 := this.1 f
      simp [h', f, g, State.areaBusFault_eq, State.busFaulted]
    · have g : s.goodAccesses 1 = 1 := by
        have : s.goodAccesses 1 ≠ 0 := fun e => f (this.2 e)
        omega
      simp [h', f, g, State.countAccess]

/-- One read: its bytes if it ends well, and the part accounts for the access (R172). -/
theorem State.areaRead_eq (s : State) (off n : Nat) :
    s.areaRead off n =
      (if s.goodAccesses 1 = 1 then some (s.area.readBytes (s.areaBase + off) n) else none, s.accessed 1) := by
  unfold State.areaRead State.accessed
  by_cases h : s.intake.halted = true
  · simp [h, s.goodAccesses_halted h]
  · have h' : s.intake.halted = false := by simpa using h
    have := s.accessFails_iff h'
    have l := s.goodAccesses_le 1
    by_cases f : s.accessFails = true
    · have g : s.goodAccesses 1 = 0 := this.1 f
      simp [h', f, g, State.areaBusFault_eq]
    · have g : s.goodAccesses 1 = 1 := by
        have : s.goodAccesses 1 ≠ 0 := fun e => f (this.2 e)
        omega
      simp [h', f, g, State.countAccess]

/-- A read of a working area gives the bytes there and changes nothing. -/
theorem State.areaRead_works {s : State} (h : s.areaWorks) (off n : Nat) :
    s.areaRead off n = (some (s.area.readBytes (s.areaBase + off) n), s) := by
  rw [State.areaRead_eq, s.goodAccesses_works h 1]
  have e : s.accessed 1 = s := by
    unfold State.accessed
    rw [if_neg (by simp [h.1]), if_pos (s.goodAccesses_works h 1)]
    have f := h.2.2
    rcases s with ⟨_, _, _, _, _, _, _, _, _, _, _, _, _, _, _, ⟨_, _⟩, _⟩
    simp_all
  simp [e]

/-- An access is not made while intake is halted (R166). -/
theorem State.areaWrite_halted {s : State} (h : s.intake.halted = true) (off : Nat) (bs : List Byte) :
    s.areaWrite off bs = s := by
  simp [State.areaWrite, h]

/-! ## Several accesses -/

theorem State.areaWrites_nil (s : State) : s.areaWrites [] = s := rfl

theorem State.areaWrites_cons (s : State) (w : Nat × List Byte) (ws : List (Nat × List Byte)) :
    s.areaWrites (w :: ws) = (s.areaWrite w.1 w.2).areaWrites ws := rfl

theorem State.accessed_zero (s : State) : s.accessed 0 = s := by
  unfold State.accessed
  have l : s.goodAccesses 0 = 0 := Nat.le_zero.1 (s.goodAccesses_le 0)
  by_cases h : s.intake.halted = true
  · simp [h]
  · rw [if_neg h, if_pos l]
    have : s.link.failAfter.map (· - 0) = s.link.failAfter := by cases s.link.failAfter <;> simp
    rw [this]

/-- The account of one access and of those after it is the account of them all. -/
theorem State.accessed_succ (s : State) (m : Memory) (k : Nat) :
    (({ s.accessed 1 with area := m } : State).goodAccesses k =
        if s.goodAccesses 1 = 1 then s.goodAccesses (k + 1) - 1 else 0) ∧
      (s.goodAccesses 1 = 0 → s.goodAccesses (k + 1) = 0) ∧
      (s.goodAccesses 1 = 1 → 1 ≤ s.goodAccesses (k + 1)) ∧
      ∀ m', { ({ s.accessed 1 with area := m } : State).accessed k with area := m' } =
        { s.accessed (k + 1) with area := m' } := by
  rcases s with ⟨_, _, _, _, _, _, _, _, _, _, _, _, ⟨_, _, _, halted, _, _, _, _⟩, _, _, ⟨up, fail⟩, _⟩
  cases halted
  · cases up
    · simp [State.accessed, State.goodAccesses, State.busFaulted]
    · cases fail with
      | none => simp [State.accessed, State.goodAccesses]
      | some n =>
        cases n with
        | zero => simp [State.accessed, State.goodAccesses, State.busFaulted]
        | succ n =>
          simp only [State.accessed, State.goodAccesses, State.busFaulted]
          by_cases h : k ≤ n
          · simp [h]
          · have e : ¬ min n k = k := by omega
            simp [e]
  · simp [State.accessed, State.goodAccesses]

/-- Several writes, one after another: those that end well leave their bytes, and the part accounts for them all
(R172). -/
theorem State.areaWrites_eq (s : State) (ws : List (Nat × List Byte)) :
    s.areaWrites ws =
      { s.accessed ws.length with
        area := (ws.take (s.goodAccesses ws.length)).foldl (fun m w => m.writeBytes (s.areaBase + w.1) w.2) s.area } := by
  induction ws generalizing s with
  | nil => simp [State.areaWrites_nil, State.accessed_zero]
  | cons w ws ih =>
    rw [State.areaWrites_cons, ih, State.areaWrite_eq]
    obtain ⟨h1, h2, h3, h4⟩ := s.accessed_succ
      (if s.goodAccesses 1 = 1 then s.area.writeBytes (s.areaBase + w.1) w.2 else s.area) ws.length
    rw [h1, h4, List.length_cons]
    have b : ({ s.accessed 1 with
        area := if s.goodAccesses 1 = 1 then s.area.writeBytes (s.areaBase + w.1) w.2 else s.area } : State).areaBase =
        s.areaBase := by
      unfold State.accessed State.busFaulted State.areaBase
      split_ifs <;> rfl
    rw [b]
    have l := s.goodAccesses_le 1
    rcases (show s.goodAccesses 1 = 0 ∨ s.goodAccesses 1 = 1 by omega) with g | g
    · simp [g, h2 g]
    · obtain ⟨m, hm⟩ : ∃ m, s.goodAccesses (ws.length + 1) = m + 1 := ⟨_, (Nat.sub_add_cancel (h3 g)).symm⟩
      simp [g, hm]

/-! ## Cards -/

/-- The five writes of a completion (R169). -/
theorem State.writeCompletion_writes (s : State) (c : Completion) (a : Nat) (g : Nat) (hg : g ≤ 5) :
    Memory.read
      (((State.completionWrites c).take g).foldl (fun m w => m.writeBytes (s.areaBase + w.1) w.2) s.area) a =
        s.completedByte c g a := by
  unfold State.completedByte State.completionWrites
  rw [show 0x0100 + 64 * c.index.val = State.cardOffset c.index from rfl]
  simp only [Completion.byte_eq]
  have l16 : ∀ n, (bytes16 n).length = 2 := fun n => rfl
  have l32 : ∀ n, (bytes32 n).length = 4 := fun n => rfl
  have l8 : ∀ n, (bytes8 n).length = 1 := fun n => rfl
  have lp : (padTo 16 c.data).length = 16 := by simp [padTo, zeros]
  have hb : ∀ k, s.areaBase + (State.cardOffset c.index + k) = s.areaBase + State.cardOffset c.index + k :=
    fun k => (Nat.add_assoc _ _ _).symm
  have hp : ∀ k, k < 16 → (padTo 16 c.data).getD k 0 = c.data.getD k 0 := by
    intro k hk
    simp only [padTo, zeros, List.getD_eq_getElem?_getD, List.getElem?_take, hk, if_true]
    by_cases hl : k < c.data.length
    · rw [List.getElem?_append_left hl]
    · rw [List.getElem?_append_right (by omega), List.getElem?_replicate,
        List.getElem?_eq_none (by omega : c.data.length ≤ k)]
      split_ifs <;> rfl
  obtain rfl | rfl | rfl | rfl | rfl | rfl : g = 0 ∨ g = 1 ∨ g = 2 ∨ g = 3 ∨ g = 4 ∨ g = 5 := by omega
  all_goals
    simp only [List.take_succ_cons, List.take_zero, List.foldl_cons, List.foldl_nil, Memory.read_writeBytes, l16, l32,
      l8, lp, hb]
    generalize s.areaBase + State.cardOffset c.index = b
    by_cases h0 : b ≤ a ∧ a < b + 64
    · obtain ⟨k, rfl⟩ : ∃ k, a = b + k := ⟨a - b, by omega⟩
      have hk : k < 64 := by omega
      simp only [Nat.add_sub_cancel_left, Nat.add_lt_add_iff_left, Nat.le_add_right, true_and, hk, if_true,
        Nat.add_le_add_iff_left, Nat.add_assoc]
      have s4 : ∀ m, b + k - (b + m) = k - m := fun m => by omega
      try simp only [s4]
      by_cases k0 : k = 0
      · subst k0; simp [bytes8]
      · by_cases k4 : 4 ≤ k ∧ k < 6
        · simp [k0, k4, show ¬(8 ≤ k) by omega, show ¬ (48 ≤ k) by omega, show ¬ (6 ≤ k) by omega]
        · by_cases k6 : 6 ≤ k ∧ k < 8
          · simp [k0, k6, k4, show ¬(8 ≤ k) by omega, show ¬ (48 ≤ k) by omega]
          · by_cases k8 : 8 ≤ k ∧ k < 12
            · simp [k0, k6, k4, k8, show ¬ 48 ≤ k by omega]
            · by_cases k48 : 48 ≤ k ∧ k < 64
              · have e48 := hp (k - 48) (by omega)
                rw [List.getD_eq_getElem?_getD, List.getD_eq_getElem?_getD] at e48
                simpa [k0, k6, k4, k8, k48] using e48
              · simp [k0, k6, k4, k8, show ¬ 48 ≤ k by omega]
    · simp only [h0, if_false]
      repeat rw [if_neg (by omega)]

/-- The intake unit is halted after `k` accesses if one of them did not end well, or if it was halted before. -/
theorem State.accessed_halted_iff (s : State) (k : Nat) (hk : 0 < k) :
    (s.accessed k).intake.halted = true ↔ s.goodAccesses k ≠ k := by
  unfold State.accessed
  by_cases h : s.intake.halted = true
  · simp [h, s.goodAccesses_halted h, Nat.ne_of_lt hk]
  · by_cases e : s.goodAccesses k = k <;> simp [h, e, State.busFaulted]

/-- What writing a completion does (R169). -/
theorem State.writeCompletion_writesCompletion (s : State) (c : Completion) :
    s.writesCompletion (s.writeCompletion c) c := by
  have hh := s.accessed_halted_iff 5 (by decide)
  have hr := fun a => s.writeCompletion_writes c a _ (s.goodAccesses_le 5)
  unfold State.writesCompletion State.writeCompletion State.completionWritten
  rw [s.areaWrites_eq, show (State.completionWrites c).length = 5 from rfl]
  generalize hm : List.foldl _ s.area _ = m at hr ⊢
  clear hm
  by_cases n : c.notify = true <;> by_cases e : s.goodAccesses 5 = 5 <;>
    simp_all [State.notice, Cause.bit]

/-- What completing a card does (R169). -/
theorem State.completeCard_completes (s : State) (c : Card) (code : ResultCode) (data : List Byte) :
    s.completes (s.completeCard c code data) c code data := s.writeCompletion_writesCompletion _

theorem State.refuseCard_completes (s : State) (c : Card) (code : ResultCode) :
    s.completes (s.refuseCard c code) c code [] := s.completeCard_completes c code []

/-- Every dispatch that ends with a completion is a `dispatches`. -/
theorem dispatches_of_eq {c : Instr} {s u : State} {w : Walk} {code : ResultCode} {data : List Byte}
    (h : exec c s = .next ((u.completeCard w.card code data).afterCard w)) : dispatches c s w u code data :=
  ⟨_, u.completeCard_completes _ _ _, h⟩

/-- What the TAKEN write of a long card does (R169). -/
theorem State.areaWrite_takes (s : State) (c : Card) :
    s.takes (s.areaWrite (State.cardOffset c.index) (bytes8 2)) c := by
  rw [State.areaWrite_eq]
  refine ⟨rfl, fun a => ?_⟩
  by_cases g : s.goodAccesses 1 = 1
  · rw [show 0x0100 + 64 * c.index.val = State.cardOffset c.index from rfl]
    simp only [g, if_true, true_and, Memory.read_writeBytes, bytes8, List.length_cons, List.length_nil]
    split_ifs with h1 h2 h2
    · subst h2; simp
    · omega
    · omega
    · rfl
  · simp [g]

/-! ## The canonical form of the host's memory -/

theorem State.areaWrite_wf {s : State} (h : Memory.wf s.area) (off : Nat) (bs : List Byte) :
    Memory.wf (s.areaWrite off bs).area := by
  unfold State.areaWrite
  split_ifs
  · exact h
  · exact h
  · exact Memory.writeBytes_wf h _ _

theorem State.hostWrites_wf {s : State} (h : Memory.wf s.area) (ws : List HostWrite) :
    Memory.wf (s.hostWrites ws).area := by
  show Memory.wf (ws.foldl (fun m w => m.writeBytes (s.areaBase + w.offset) w.bytes) s.area)
  generalize s.areaBase = b
  generalize s.area = m at h ⊢
  clear s
  induction ws generalizing m with
  | nil => exact h
  | cons w ws ih => exact ih _ (Memory.writeBytes_wf h _ _)

end Sys2Proof.Machine
end

