-- ==== Sys2Proof/Laws/Contexts.lean ====
section
/-! SUPPORT. What the operations of the tile context table do to one context and to one chain. -/

namespace Sys2Proof.Machine

/-! ## Chains -/

@[simp] theorem State.modCtx_chain (s : State) (i : Fin 256) (f : Context → Context) (j : Fin 4) :
    (s.modCtx i f).chain j = s.chain j := rfl

@[simp] theorem State.solvePending_chain (s : State) (g : Fin 8) (j : Fin 4) :
    (s.solvePending g).chain j = s.chain j := rfl

@[simp] theorem State.modChain_ctx (s : State) (ch : Fin 4) (f : Chain → Chain) (i : Fin 256) :
    (s.modChain ch f).ctx i = s.ctx i := rfl

@[simp] theorem State.solvePending_ctx (s : State) (g : Fin 8) (i : Fin 256) :
    (s.solvePending g).ctx i = s.ctx i := rfl

@[simp] theorem State.decideSweepOrRoll_chain (s : State) (ch : Fin 4) (k : Request) (code : ResultCode)
    (data : List Byte) (j : Fin 4) : (s.decideSweepOrRoll ch k code data).chain j = s.chain j :=
  State.chain_congr (by simp) j

@[simp] theorem State.decideStop_chain (s : State) (ch : Fin 4) (code : ResultCode) (data : List Byte)
    (j : Fin 4) : (s.decideStop ch code data).chain j = s.chain j :=
  State.chain_congr (by simp) j

@[simp] theorem State.countSweep_ctx (s : State) (ch : Fin 4) (f : SweepRecord → SweepRecord) (i : Fin 256) :
    (s.countSweep ch f).ctx i = s.ctx i := State.ctx_congr (by simp) i

@[simp] theorem State.testSweep_ctx (s : State) (ch : Fin 4) (i : Fin 256) :
    (s.testSweep ch).ctx i = s.ctx i := State.ctx_congr (by simp) i

@[simp] theorem State.enqueuePush_ctx (s : State) (i j : Fin 256) :
    (s.enqueuePush i).ctx j = s.ctx j := State.ctx_congr (by simp) j

@[simp] theorem State.enqueueProbe_ctx (s : State) (i j : Fin 256) :
    (s.enqueueProbe i).ctx j = s.ctx j := State.ctx_congr (by simp) j

@[simp] theorem State.joinPollList_ctx (s : State) (i j : Fin 256) :
    (s.joinPollList i).ctx j = s.ctx j := State.ctx_congr (by simp) j

@[simp] theorem State.countSweep_chain_keeps (s : State) (ch : Fin 4) (f : SweepRecord → SweepRecord) (j : Fin 4) :
    ((s.countSweep ch f).chain j).state = (s.chain j).state ∧
    ((s.countSweep ch f).chain j).config = (s.chain j).config ∧
    ((s.countSweep ch f).chain j).flight = (s.chain j).flight ∧
    ((s.countSweep ch f).chain j).holdTimer = (s.chain j).holdTimer ∧
    ((s.countSweep ch f).chain j).probeQueue = (s.chain j).probeQueue ∧
    ((s.countSweep ch f).chain j).pushQueue = (s.chain j).pushQueue ∧
    ((s.countSweep ch f).chain j).pollList = (s.chain j).pollList ∧
    ((s.countSweep ch f).chain j).pollTimer = (s.chain j).pollTimer ∧
    ((s.countSweep ch f).chain j).pollOverrun = (s.chain j).pollOverrun ∧
    ((s.countSweep ch f).chain j).latchPending = (s.chain j).latchPending ∧
    ((s.countSweep ch f).chain j).framesSinceLatch = (s.chain j).framesSinceLatch ∧
    ((s.countSweep ch f).chain j).sweepTimer = (s.chain j).sweepTimer ∧
    ((s.countSweep ch f).chain j).readbackPosition = (s.chain j).readbackPosition ∧
    ((s.countSweep ch f).chain j).roll = (s.chain j).roll := by
  unfold State.countSweep
  rw [State.modChain_chain]
  split_ifs with h
  · subst h; simp
  · simp

@[simp] theorem State.endSweep_chain_keeps (s : State) (ch : Fin 4) (code : ResultCode) (j : Fin 4) :
    ((s.endSweep ch code).chain j).state = (s.chain j).state ∧
    ((s.endSweep ch code).chain j).config = (s.chain j).config ∧
    ((s.endSweep ch code).chain j).flight = (s.chain j).flight ∧
    ((s.endSweep ch code).chain j).holdTimer = (s.chain j).holdTimer ∧
    ((s.endSweep ch code).chain j).probeQueue = (s.chain j).probeQueue ∧
    ((s.endSweep ch code).chain j).pushQueue = (s.chain j).pushQueue ∧
    ((s.endSweep ch code).chain j).pollList = (s.chain j).pollList ∧
    ((s.endSweep ch code).chain j).pollTimer = (s.chain j).pollTimer ∧
    ((s.endSweep ch code).chain j).pollOverrun = (s.chain j).pollOverrun ∧
    ((s.endSweep ch code).chain j).latchPending = (s.chain j).latchPending ∧
    ((s.endSweep ch code).chain j).framesSinceLatch = (s.chain j).framesSinceLatch ∧
    ((s.endSweep ch code).chain j).sweepTimer = (s.chain j).sweepTimer ∧
    ((s.endSweep ch code).chain j).readbackPosition = (s.chain j).readbackPosition ∧
    ((s.endSweep ch code).chain j).roll = (s.chain j).roll := by
  unfold State.endSweep
  split
  · simp
  · simp only [State.decideSweepOrRoll_chain]
    rw [State.modChain_chain]
    split_ifs with h
    · subst h; simp
    · simp

@[simp] theorem State.testSweep_chain_keeps (s : State) (ch : Fin 4) (j : Fin 4) :
    ((s.testSweep ch).chain j).state = (s.chain j).state ∧
    ((s.testSweep ch).chain j).config = (s.chain j).config ∧
    ((s.testSweep ch).chain j).flight = (s.chain j).flight ∧
    ((s.testSweep ch).chain j).holdTimer = (s.chain j).holdTimer ∧
    ((s.testSweep ch).chain j).probeQueue = (s.chain j).probeQueue ∧
    ((s.testSweep ch).chain j).pushQueue = (s.chain j).pushQueue ∧
    ((s.testSweep ch).chain j).pollList = (s.chain j).pollList ∧
    ((s.testSweep ch).chain j).pollTimer = (s.chain j).pollTimer ∧
    ((s.testSweep ch).chain j).pollOverrun = (s.chain j).pollOverrun ∧
    ((s.testSweep ch).chain j).latchPending = (s.chain j).latchPending ∧
    ((s.testSweep ch).chain j).framesSinceLatch = (s.chain j).framesSinceLatch ∧
    ((s.testSweep ch).chain j).sweepTimer = (s.chain j).sweepTimer ∧
    ((s.testSweep ch).chain j).readbackPosition = (s.chain j).readbackPosition ∧
    ((s.testSweep ch).chain j).roll = (s.chain j).roll := by
  unfold State.testSweep
  split_ifs <;> simp

@[simp] theorem State.enqueuePush_chain_keeps (s : State) (i : Fin 256) (j : Fin 4) :
    ((s.enqueuePush i).chain j).state = (s.chain j).state ∧
    ((s.enqueuePush i).chain j).config = (s.chain j).config ∧
    ((s.enqueuePush i).chain j).flight = (s.chain j).flight ∧
    ((s.enqueuePush i).chain j).holdTimer = (s.chain j).holdTimer ∧
    ((s.enqueuePush i).chain j).probeQueue = (s.chain j).probeQueue ∧
    ((s.enqueuePush i).chain j).pollList = (s.chain j).pollList ∧
    ((s.enqueuePush i).chain j).pollTimer = (s.chain j).pollTimer ∧
    ((s.enqueuePush i).chain j).pollOverrun = (s.chain j).pollOverrun ∧
    ((s.enqueuePush i).chain j).latchPending = (s.chain j).latchPending ∧
    ((s.enqueuePush i).chain j).framesSinceLatch = (s.chain j).framesSinceLatch ∧
    ((s.enqueuePush i).chain j).sweepTimer = (s.chain j).sweepTimer ∧
    ((s.enqueuePush i).chain j).readbackPosition = (s.chain j).readbackPosition ∧
    ((s.enqueuePush i).chain j).sweep = (s.chain j).sweep ∧
    ((s.enqueuePush i).chain j).roll = (s.chain j).roll := by
  unfold State.enqueuePush
  rw [State.modChain_chain]
  split_ifs with h
  · subst h; simp
  · subst h; simp
  · simp

@[simp] theorem State.enqueueProbe_chain_keeps (s : State) (i : Fin 256) (j : Fin 4) :
    ((s.enqueueProbe i).chain j).state = (s.chain j).state ∧
    ((s.enqueueProbe i).chain j).config = (s.chain j).config ∧
    ((s.enqueueProbe i).chain j).flight = (s.chain j).flight ∧
    ((s.enqueueProbe i).chain j).holdTimer = (s.chain j).holdTimer ∧
    ((s.enqueueProbe i).chain j).pushQueue = (s.chain j).pushQueue ∧
    ((s.enqueueProbe i).chain j).pollList = (s.chain j).pollList ∧
    ((s.enqueueProbe i).chain j).pollTimer = (s.chain j).pollTimer ∧
    ((s.enqueueProbe i).chain j).pollOverrun = (s.chain j).pollOverrun ∧
    ((s.enqueueProbe i).chain j).latchPending = (s.chain j).latchPending ∧
    ((s.enqueueProbe i).chain j).framesSinceLatch = (s.chain j).framesSinceLatch ∧
    ((s.enqueueProbe i).chain j).sweepTimer = (s.chain j).sweepTimer ∧
    ((s.enqueueProbe i).chain j).readbackPosition = (s.chain j).readbackPosition ∧
    ((s.enqueueProbe i).chain j).sweep = (s.chain j).sweep ∧
    ((s.enqueueProbe i).chain j).roll = (s.chain j).roll := by
  unfold State.enqueueProbe
  rw [State.modChain_chain]
  split_ifs with h
  · subst h; simp
  · subst h; simp
  · simp

@[simp] theorem State.joinPollList_chain_keeps (s : State) (i : Fin 256) (j : Fin 4) :
    ((s.joinPollList i).chain j).state = (s.chain j).state ∧
    ((s.joinPollList i).chain j).config = (s.chain j).config ∧
    ((s.joinPollList i).chain j).flight = (s.chain j).flight ∧
    ((s.joinPollList i).chain j).holdTimer = (s.chain j).holdTimer ∧
    ((s.joinPollList i).chain j).probeQueue = (s.chain j).probeQueue ∧
    ((s.joinPollList i).chain j).pushQueue = (s.chain j).pushQueue ∧
    ((s.joinPollList i).chain j).pollTimer = (s.chain j).pollTimer ∧
    ((s.joinPollList i).chain j).pollOverrun = (s.chain j).pollOverrun ∧
    ((s.joinPollList i).chain j).latchPending = (s.chain j).latchPending ∧
    ((s.joinPollList i).chain j).framesSinceLatch = (s.chain j).framesSinceLatch ∧
    ((s.joinPollList i).chain j).sweepTimer = (s.chain j).sweepTimer ∧
    ((s.joinPollList i).chain j).readbackPosition = (s.chain j).readbackPosition ∧
    ((s.joinPollList i).chain j).sweep = (s.chain j).sweep ∧
    ((s.joinPollList i).chain j).roll = (s.chain j).roll := by
  unfold State.joinPollList
  rw [State.modChain_chain]
  split_ifs with h
  · subst h; simp
  · simp

@[simp] theorem State.dropWork_chain_keeps (s : State) (i : Fin 256) (j : Fin 4) :
    ((s.dropWork i).chain j).state = (s.chain j).state ∧ ((s.dropWork i).chain j).config = (s.chain j).config ∧
    ((s.dropWork i).chain j).flight = (s.chain j).flight ∧
    ((s.dropWork i).chain j).holdTimer = (s.chain j).holdTimer ∧
    ((s.dropWork i).chain j).pollTimer = (s.chain j).pollTimer ∧
    ((s.dropWork i).chain j).pollOverrun = (s.chain j).pollOverrun ∧
    ((s.dropWork i).chain j).latchPending = (s.chain j).latchPending ∧
    ((s.dropWork i).chain j).framesSinceLatch = (s.chain j).framesSinceLatch ∧
    ((s.dropWork i).chain j).sweepTimer = (s.chain j).sweepTimer ∧
    ((s.dropWork i).chain j).readbackPosition = (s.chain j).readbackPosition ∧
    ((s.dropWork i).chain j).roll = (s.chain j).roll := by
  unfold State.dropWork
  dsimp only
  split_ifs
  · simp only [State.modCtx_chain, State.countSweep_chain_keeps]
    rw [State.modChain_chain]
    split_ifs with h
    · subst h; simp
    · simp
  · rw [State.modChain_chain]
    split_ifs with h
    · subst h; simp
    · simp

@[simp] theorem State.transition_chain_keeps (s : State) (i : Fin 256) (life : Life) (reason : FaultReason) (j : Fin 4) :
    ((s.transition i life reason).chain j).state = (s.chain j).state ∧
    ((s.transition i life reason).chain j).config = (s.chain j).config ∧
    ((s.transition i life reason).chain j).flight = (s.chain j).flight ∧
    ((s.transition i life reason).chain j).holdTimer = (s.chain j).holdTimer ∧
    ((s.transition i life reason).chain j).pollTimer = (s.chain j).pollTimer ∧
    ((s.transition i life reason).chain j).pollOverrun = (s.chain j).pollOverrun ∧
    ((s.transition i life reason).chain j).latchPending = (s.chain j).latchPending ∧
    ((s.transition i life reason).chain j).framesSinceLatch = (s.chain j).framesSinceLatch ∧
    ((s.transition i life reason).chain j).sweepTimer = (s.chain j).sweepTimer ∧
    ((s.transition i life reason).chain j).readbackPosition = (s.chain j).readbackPosition ∧
    ((s.transition i life reason).chain j).roll = (s.chain j).roll := by
  unfold State.transition
  dsimp only
  simp only [State.testSweep_chain_keeps]
  split_ifs
  · simp
  · simp

@[simp] theorem State.enterLive_chain_keeps (s : State) (i : Fin 256) (j : Fin 4) :
    ((s.enterLive i).chain j).state = (s.chain j).state ∧
    ((s.enterLive i).chain j).config = (s.chain j).config ∧
    ((s.enterLive i).chain j).flight = (s.chain j).flight ∧
    ((s.enterLive i).chain j).holdTimer = (s.chain j).holdTimer ∧
    ((s.enterLive i).chain j).pollTimer = (s.chain j).pollTimer ∧
    ((s.enterLive i).chain j).pollOverrun = (s.chain j).pollOverrun ∧
    ((s.enterLive i).chain j).latchPending = (s.chain j).latchPending ∧
    ((s.enterLive i).chain j).framesSinceLatch = (s.chain j).framesSinceLatch ∧
    ((s.enterLive i).chain j).sweepTimer = (s.chain j).sweepTimer ∧
    ((s.enterLive i).chain j).readbackPosition = (s.chain j).readbackPosition ∧
    ((s.enterLive i).chain j).roll = (s.chain j).roll := by
  unfold State.enterLive
  dsimp only
  simp only [State.joinPollList_chain_keeps, State.enqueuePush_chain_keeps]
  simp

/-- A context that becomes UNMATCHED or FAULTED does to the chains what its transition does. -/
theorem State.enterUnmatched_chains (s : State) (i : Fin 256) (found : Word) :
    (s.enterUnmatched i found).chains = (s.transition i .unmatched .none).chains := by
  unfold State.enterUnmatched; simp

theorem State.enterFaulted_chains (s : State) (i : Fin 256) (reason : FaultReason) :
    (s.enterFaulted i reason).chains = (s.transition i .faulted reason).chains := by
  unfold State.enterFaulted; simp

/-- The queues of a chain after a context has been taken out of its work (R29). -/
theorem State.dropWork_queues (s : State) (i : Fin 256) (j : Fin 4) :
    ((s.dropWork i).chain j).pushQueue =
        (if (s.ctx i).chain = j then (s.chain j).pushQueue.filter fun k => !decide (k = i)
          else (s.chain j).pushQueue) ∧
      ((s.dropWork i).chain j).probeQueue =
        (if (s.ctx i).chain = j then (s.chain j).probeQueue.filter fun k => !decide (k = i)
          else (s.chain j).probeQueue) ∧
      ((s.dropWork i).chain j).pollList =
        (if (s.ctx i).chain = j then (s.chain j).pollList.filter fun e => !decide (e.ctx = i)
          else (s.chain j).pollList) := by
  unfold State.dropWork
  dsimp only
  split_ifs with h1 h2 h2
  · subst h2
    simp
  · simp [State.modChain_chain_other _ h2]
  · subst h2; simp
  · simp [State.modChain_chain_other _ h2]

/-- A transition does to the queues what taking the context out of its work does. -/
theorem State.transition_queues (s : State) (i : Fin 256) (life : Life) (reason : FaultReason) (j : Fin 4) :
    ((s.transition i life reason).chain j).pushQueue = ((s.dropWork i).chain j).pushQueue ∧
      ((s.transition i life reason).chain j).probeQueue = ((s.dropWork i).chain j).probeQueue ∧
      ((s.transition i life reason).chain j).pollList = ((s.dropWork i).chain j).pollList := by
  unfold State.transition
  dsimp only
  simp only [State.testSweep_chain_keeps]
  split_ifs
  · simp
  · simp

theorem State.enqueuePush_queue (s : State) (i : Fin 256) (j : Fin 4) :
    ((s.enqueuePush i).chain j).pushQueue =
      if (s.ctx i).chain = j ∧ i ∉ (s.chain j).pushQueue then (s.chain j).pushQueue ++ [i]
      else (s.chain j).pushQueue := by
  unfold State.enqueuePush
  rw [State.modChain_chain]
  by_cases h : (s.ctx i).chain = j
  · subst h
    simp only [if_true, true_and]
    split_ifs <;> simp_all
  · simp [h]

theorem State.enqueueProbe_queue (s : State) (i : Fin 256) (j : Fin 4) :
    ((s.enqueueProbe i).chain j).probeQueue =
      if (s.ctx i).chain = j ∧ i ∉ (s.chain j).probeQueue then (s.chain j).probeQueue ++ [i]
      else (s.chain j).probeQueue := by
  unfold State.enqueueProbe
  rw [State.modChain_chain]
  by_cases h : (s.ctx i).chain = j
  · subst h
    simp only [if_true, true_and]
    split_ifs <;> simp_all
  · simp [h]

theorem State.joinPollList_list (s : State) (i : Fin 256) (j : Fin 4) :
    ((s.joinPollList i).chain j).pollList =
      if (s.ctx i).chain = j then (s.chain j).pollList ++ [{ ctx := i, overdue := false, inFlight := false }]
      else (s.chain j).pollList := by
  unfold State.joinPollList
  rw [State.modChain_chain]
  by_cases h : (s.ctx i).chain = j
  · subst h; simp
  · simp [h]

/-! ## One context -/

/-- A changed context that is dirty either way is the new one. -/
theorem Context.touched_dirty (old : Context) {new : Context} (h : new.dirty = true) : old.touched new = new := by
  unfold Context.touched; split
  · rfl
  · rw [← h]

theorem State.dropWork_ctx_same (s : State) (i : Fin 256) :
    (s.dropWork i).ctx i =
      if (s.ctx i).awaitsReadback then (s.ctx i).touched { s.ctx i with verify := .none } else s.ctx i := by
  unfold State.dropWork
  dsimp only
  split_ifs
  · rw [State.modCtx_ctx_same, State.countSweep_ctx]
    rfl
  · rfl

theorem State.dropWork_ctx_other (s : State) {i j : Fin 256} (h : i ≠ j) : (s.dropWork i).ctx j = s.ctx j := by
  unfold State.dropWork
  dsimp only
  split_ifs
  · rw [State.modCtx_ctx_other _ h, State.countSweep_ctx]
    rfl
  · rfl

/-- What a transition leaves of the context it moves (R29). -/
theorem State.transition_ctx_same (s : State) (i : Fin 256) (life : Life) (reason : FaultReason) :
    (s.transition i life reason).ctx i =
      { s.ctx i with
        life := life, faultReason := reason, dirty := true
        verify := if (s.ctx i).awaitsReadback then .none else (s.ctx i).verify } := by
  have h : ((s.dropWork i).modCtx i fun c => { c with life := life, faultReason := reason, dirty := true }).ctx i =
      { s.ctx i with
        life := life, faultReason := reason, dirty := true
        verify := if (s.ctx i).awaitsReadback then .none else (s.ctx i).verify } := by
    rw [State.modCtx_ctx_same, Context.touched_eq, State.dropWork_ctx_same]
    split_ifs <;> simp [Context.touched_eq]
  unfold State.transition
  dsimp only
  rw [State.testSweep_ctx, ← h]
  split
  · rfl
  · rw [State.solvePending_ctx]

theorem State.transition_ctx_other (s : State) {i j : Fin 256} (h : i ≠ j) (life : Life) (reason : FaultReason) :
    (s.transition i life reason).ctx j = s.ctx j := by
  unfold State.transition
  dsimp only
  rw [State.testSweep_ctx]
  split
  · rw [State.modCtx_ctx_other _ h, State.dropWork_ctx_other _ h]
  · rw [State.solvePending_ctx, State.modCtx_ctx_other _ h,
      State.dropWork_ctx_other _ h]

/-- What entry into LIVE leaves of the context (R38, R91). -/
theorem State.enterLive_ctx_same (s : State) (i : Fin 256) :
    (s.enterLive i).ctx i =
      { s.ctx i with
        life := .live, faultReason := .none, dirty := true, applied := some (s.ctx i).target
        verify := if (s.ctx i).awaitsReadback then .none else (s.ctx i).verify } := by
  unfold State.enterLive
  dsimp only
  rw [State.joinPollList_ctx, State.enqueuePush_ctx, State.modCtx_ctx_same,
    Context.touched_dirty _ (by rfl), State.transition_ctx_same]

theorem State.enterLive_ctx_other (s : State) {i j : Fin 256} (h : i ≠ j) : (s.enterLive i).ctx j = s.ctx j := by
  unfold State.enterLive
  dsimp only
  rw [State.joinPollList_ctx, State.enqueuePush_ctx, State.modCtx_ctx_other _ h, State.transition_ctx_other _ h]

theorem State.enterUnmatched_ctx (s : State) (i j : Fin 256) (found : Word) :
    (s.enterUnmatched i found).ctx j = (s.transition i .unmatched .none).ctx j := by
  unfold State.enterUnmatched
  exact State.ctx_congr (by simp) j

theorem State.enterFaulted_ctx (s : State) (i j : Fin 256) (reason : FaultReason) :
    (s.enterFaulted i reason).ctx j = (s.transition i .faulted reason).ctx j := by
  unfold State.enterFaulted
  exact State.ctx_congr (by simp) j

/-- What a tile correction leaves of its context (R17). -/
theorem State.correctCtx_ctx (s : State) (i j : Fin 256) :
    (s.correctCtx i).ctx j =
      if i = j then
        (s.ctx i).touched ((s.ctx i).corrected ((s.ctx i).correction s.pages (s.group (s.ctx i).group).targets))
      else s.ctx j := by
  unfold State.correctCtx
  dsimp only
  exact (State.ctx_congr (by simp) j).trans (State.setCtx_ctx s i j _)

/-! ## The arbiter -/

/-- Only the start of a readback changes a context: its verify becomes READING (R137). -/
theorem State.start_ctx (s : State) (ch : Fin 4) (c : Choice) (j : Fin 256) :
    (s.start ch c).ctx j =
      if c = .readback j then (s.ctx j).touched { s.ctx j with verify := .reading } else s.ctx j := by
  cases c with
  | readback i =>
    simp only [State.start, State.startTransaction, State.modChain_ctx]
    by_cases h : i = j
    · subst h; simp
    · rw [State.modCtx_ctx_other _ h, if_neg (by simpa using h)]
  | _ => exact State.ctx_congr (by simp [State.start]) j

theorem State.arbitrate_eq (s : State) (ch : Fin 4) :
    s.arbitrate ch = s ∨
      ((s.chain ch).state = .idle ∧ ∃ c, s.choice ch = some c ∧ s.arbitrate ch = s.start ch c) := by
  unfold State.arbitrate
  split
  · next h =>
    split
    · next c hc => exact Or.inr ⟨h, c, hc, rfl⟩
    · exact Or.inl rfl
  · exact Or.inl rfl

/-- A chain's arbiter leaves the other chains as they were. -/
theorem State.start_chain_other (s : State) {ch j : Fin 4} (h : ch ≠ j) (c : Choice) :
    (s.start ch c).chain j = s.chain j := by
  cases c <;> simp only [State.start, State.startTransaction] <;>
    simp only [State.modChain_chain_other _ h]
  exact State.chain_congr (by simp) j

theorem State.arbitrate_chain_other (s : State) {ch j : Fin 4} (h : ch ≠ j) :
    (s.arbitrate ch).chain j = s.chain j := by
  rcases s.arbitrate_eq ch with e | ⟨_, c, _, e⟩
  · rw [e]
  · rw [e, State.start_chain_other _ h]

end Sys2Proof.Machine
end

