-- ==== Sys2Proof/Laws/HostSide.lean ====
section
/-! SUPPORT. Every shared operation keeps the laws of what the part shares with the host. -/

namespace Sys2Proof.Machine

theorem countUp_le {top n : Nat} (h : n ≤ top) : countUp top n ≤ top := by
  unfold countUp; split <;> omega

/-- The laws read eight things of a state and nothing else. -/
theorem State.hostLawful_congr {s t : State} (h : s.hostLawful) (ha : t.area = s.area) (hl : t.logs = s.logs)
    (hr : t.regs.run = s.regs.run) (hh : t.intake.halted = s.intake.halted)
    (ht : t.intake.scanTimer = s.intake.scanTimer) (hf : t.intake.follow = s.intake.follow)
    (hw : t.intake.walk = s.intake.walk) (hp : t.intake.scan = s.intake.scan) : t.hostLawful := by
  refine ⟨?_, ?_, ?_⟩
  · unfold State.memoryLawful; rw [ha]; exact h.1
  · rw [hl]; exact h.2.1
  · unfold State.intakeLawful; rw [hr, hh, ht, hf, hw, hp]; exact h.2.2

theorem State.notice_host {s : State} (h : s.hostLawful) (k : Cause) : (State.notice k s).hostLawful :=
  State.hostLawful_congr h rfl rfl rfl rfl rfl rfl rfl rfl

theorem State.countAccess_host {s : State} (h : s.hostLawful) : s.countAccess.hostLawful :=
  State.hostLawful_congr h rfl rfl rfl rfl rfl rfl rfl rfl

theorem State.areaBusFault_host {s : State} (h : s.hostLawful) : s.areaBusFault.hostLawful :=
  ⟨h.1, h.2.1, fun _ => ⟨rfl, rfl, rfl⟩, .inr rfl⟩

theorem State.areaRead_host {s : State} (h : s.hostLawful) (off n : Nat) : (s.areaRead off n).2.hostLawful := by
  unfold State.areaRead
  split_ifs
  · exact h
  · exact State.areaBusFault_host h
  · exact State.countAccess_host h

theorem State.areaWrite_host {s : State} (h : s.hostLawful) (off : Nat) (bs : List Byte) :
    (s.areaWrite off bs).hostLawful := by
  unfold State.areaWrite
  split_ifs
  · exact h
  · exact State.areaBusFault_host h
  · exact ⟨Memory.writeBytes_wf h.1 _ _, h.2.1, h.2.2⟩

theorem State.areaWrites_host {s : State} (h : s.hostLawful) (ws : List (Nat × List Byte)) :
    (s.areaWrites ws).hostLawful := by
  induction ws generalizing s with
  | nil => exact h
  | cons w ws ih => exact ih (State.areaWrite_host h _ _)

theorem State.hostWrites_host {s : State} (h : s.hostLawful) (ws : List HostWrite) :
    (s.hostWrites ws).hostLawful := ⟨State.hostWrites_wf h.1 ws, h.2.1, h.2.2⟩

theorem State.modLogs_host {s : State} (h : s.hostLawful) {f : Logs → Logs} (hf : (f s.logs).countsLawful) :
    (s.modLogs f).hostLawful := ⟨h.1, hf, h.2.2⟩

theorem State.countUnlogged_host {s : State} (h : s.hostLawful) : s.countUnlogged.hostLawful :=
  State.modLogs_host h ⟨h.2.1.1, h.2.1.2.1, countUp_le h.2.1.2.2⟩

theorem State.releaseGeneral_host {s : State} (h : s.hostLawful) : s.releaseGeneral.hostLawful := by
  unfold State.releaseGeneral
  split_ifs
  · exact h
  · exact State.modLogs_host h h.2.1

theorem State.makeRoom_host {s : State} (h : s.hostLawful) : s.makeRoom.hostLawful := by
  unfold State.makeRoom
  split_ifs
  · exact State.notice_host (State.modLogs_host h ⟨countUp_le h.2.1.1, h.2.1.2⟩) _
  · exact h

theorem State.logGeneral_host {s : State} (h : s.hostLawful) (r : Report) : (s.logGeneral r).hostLawful := by
  have h1 := State.makeRoom_host (State.releaseGeneral_host h)
  have h2 := State.areaWrite_host h1 (State.generalSlot s.releaseGeneral.makeRoom.logs.generalWrite) r.bytes
  unfold State.logGeneral
  dsimp only
  split_ifs
  · exact State.countUnlogged_host h2
  · exact State.modLogs_host h2 h2.2.1

theorem State.logAlert_host {s : State} (h : s.hostLawful) (r : Report) : (s.logAlert r).hostLawful := by
  have h1 := State.areaWrite_host h (State.alertSlot s.logs.alertWrite) r.bytes
  have h2 := State.logGeneral_host h { r with rolled := true }
  unfold State.logAlert
  dsimp only
  split_ifs
  · exact State.countUnlogged_host h1
  · exact State.notice_host (State.modLogs_host h1 h1.2.1) _
  · exact h2
  · exact State.notice_host (State.modLogs_host h2 ⟨h2.2.1.1, countUp_le h2.2.1.2.1, h2.2.1.2.2⟩) _

theorem State.writeReport_host {s : State} (h : s.hostLawful) (d : Destination) (r : Report) :
    (s.writeReport d r).hostLawful := by
  unfold State.writeReport
  split_ifs
  · cases d
    · exact State.logGeneral_host h r
    · exact State.logAlert_host h r
  · exact State.countUnlogged_host h

theorem State.raisePart_host {s : State} (h : s.hostLawful) (k : PartKind) (ch : Fin 4) (a : Fin 64)
    (serial value : Word) : (s.raisePart k ch a serial value).hostLawful := State.writeReport_host h _ _

theorem State.unordered_host {α : Type} {s : State} (h : s.hostLawful) (l : List α) :
    (s.unordered l).2.hostLawful := by
  unfold State.unordered
  split_ifs
  · exact h
  · exact State.hostLawful_congr h rfl rfl rfl rfl rfl rfl rfl rfl

theorem State.raiseTogether_host {s : State} (h : s.hostLawful) (rs : List Report) :
    (s.raiseTogether rs).hostLawful := by
  unfold State.raiseTogether
  dsimp only
  generalize (s.unordered rs).1 = l
  have h1 := State.unordered_host h rs
  generalize (s.unordered rs).2 = t at h1
  clear h
  induction l generalizing t with
  | nil => exact h1
  | cons r l ih => exact ih _ (State.writeReport_host h1 _ _)

theorem State.routeTile_host {s : State} (h : s.hostLawful) (ch : Fin 4) (a : Fin 64) (i : Fin 256)
    (r : CarriedReport) : (s.routeTile ch a i r).hostLawful := by
  unfold State.routeTile
  split
  · exact h
  · exact State.writeReport_host h _ _

theorem State.writeCompletion_host {s : State} (h : s.hostLawful) (c : Completion) :
    (s.writeCompletion c).hostLawful := by
  unfold State.writeCompletion State.completionWritten
  split_ifs
  · exact State.notice_host (State.areaWrites_host h _) _
  · exact State.areaWrites_host h _

theorem State.completeCard_host {s : State} (h : s.hostLawful) (c : Card) (code : ResultCode)
    (data : List Byte) : (s.completeCard c code data).hostLawful := State.writeCompletion_host h _

theorem State.refuseCard_host {s : State} (h : s.hostLawful) (c : Card) (code : ResultCode) :
    (s.refuseCard c code).hostLawful := State.writeCompletion_host h _

theorem State.holdCard_host {s : State} (h : s.hostLawful) (ch : Fin 4) (c : Card) (k : Request) :
    (s.holdCard ch c k).hostLawful :=
  State.hostLawful_congr (State.areaWrite_host h (State.cardOffset c.index) (bytes8 2)) rfl rfl rfl rfl rfl rfl rfl rfl

theorem State.transition_host {s : State} (h : s.hostLawful) (i : Fin 256) (life : Life) (reason : FaultReason) : (s.transition i life reason).hostLawful :=
  State.hostLawful_congr h (by simp) (by simp) (by simp) (by simp) (by simp) (by simp)
    (by simp) (by simp)

theorem State.enterLive_host {s : State} (h : s.hostLawful) (i : Fin 256) : (s.enterLive i).hostLawful :=
  State.hostLawful_congr h (by simp) (by simp) (by simp) (by simp) (by simp) (by simp)
    (by simp) (by simp)

theorem State.endFlight_host {s : State} (h : s.hostLawful) (ch : Fin 4) (work : Nat) (ok : Bool) : (s.endFlight ch work ok).hostLawful :=
  State.hostLawful_congr h (by simp) (by simp) (by simp) (by simp) (by simp) (by simp)
    (by simp) (by simp)

theorem State.modCtx_host {s : State} (h : s.hostLawful) (i : Fin 256) (f : Context → Context) : (s.modCtx i f).hostLawful :=
  State.hostLawful_congr h (by simp) (by simp) (by simp) (by simp) (by simp) (by simp)
    (by simp) (by simp)

theorem State.modChain_host {s : State} (h : s.hostLawful) (ch : Fin 4) (f : Chain → Chain) : (s.modChain ch f).hostLawful :=
  State.hostLawful_congr h (by simp) (by simp) (by simp) (by simp) (by simp) (by simp)
    (by simp) (by simp)

theorem State.modGroup_host {s : State} (h : s.hostLawful) (g : Fin 8) (f : Group → Group) : (s.modGroup g f).hostLawful :=
  State.hostLawful_congr h (by simp) (by simp) (by simp) (by simp) (by simp) (by simp)
    (by simp) (by simp)

theorem State.modRamp_host {s : State} (h : s.hostLawful) (f : RampUnit → RampUnit) : (s.modRamp f).hostLawful :=
  State.hostLawful_congr h (by simp) (by simp) (by simp) (by simp) (by simp) (by simp)
    (by simp) (by simp)

theorem State.countSweep_host {s : State} (h : s.hostLawful) (ch : Fin 4) (f : SweepRecord → SweepRecord) : (s.countSweep ch f).hostLawful :=
  State.hostLawful_congr h (by simp) (by simp) (by simp) (by simp) (by simp) (by simp)
    (by simp) (by simp)

theorem State.testSweep_host {s : State} (h : s.hostLawful) (ch : Fin 4) : (s.testSweep ch).hostLawful :=
  State.hostLawful_congr h (by simp) (by simp) (by simp) (by simp) (by simp) (by simp)
    (by simp) (by simp)

theorem State.endSweep_host {s : State} (h : s.hostLawful) (ch : Fin 4) (code : ResultCode) : (s.endSweep ch code).hostLawful :=
  State.hostLawful_congr h (by simp) (by simp) (by simp) (by simp) (by simp) (by simp)
    (by simp) (by simp)

theorem State.arbitrate_host {s : State} (h : s.hostLawful) (ch : Fin 4) : (s.arbitrate ch).hostLawful :=
  State.hostLawful_congr h (by simp) (by simp) (by simp) (by simp) (by simp) (by simp)
    (by simp) (by simp)

theorem State.enqueuePush_host {s : State} (h : s.hostLawful) (i : Fin 256) : (s.enqueuePush i).hostLawful :=
  State.hostLawful_congr h (by simp) (by simp) (by simp) (by simp) (by simp) (by simp)
    (by simp) (by simp)

theorem State.enterUnmatched_host {s : State} (h : s.hostLawful) (i : Fin 256) (found : Word) :
    (s.enterUnmatched i found).hostLawful :=
  State.notice_host (State.raisePart_host (State.transition_host h _ _ _) _ _ _ _ _) _

theorem State.enterFaulted_host {s : State} (h : s.hostLawful) (i : Fin 256) (reason : FaultReason) :
    (s.enterFaulted i reason).hostLawful :=
  State.notice_host (State.raisePart_host (State.transition_host h _ _ _) _ _ _ _ _) _

theorem State.correctCtx_host {s : State} (h : s.hostLawful) (i : Fin 256) : (s.correctCtx i).hostLawful :=
  State.raiseTogether_host (State.hostLawful_congr h (by simp) (by simp) (by simp) (by simp) (by simp) (by simp)
    (by simp) (by simp)) _

theorem State.takeTemperature_host {s : State} (h : s.hostLawful) (i : Fin 256) (t : Int) :
    (s.takeTemperature i t).hostLawful := by
  unfold State.takeTemperature
  dsimp only
  split_ifs
  · exact State.modCtx_host h _ _
  · exact h
  · exact State.raisePart_host (State.modCtx_host h _ _) _ _ _ _ _

theorem State.probeAnswered_host {s : State} (h : s.hostLawful) (i : Fin 256) (serial : Word) :
    (s.probeAnswered i serial).hostLawful := by
  unfold State.probeAnswered
  dsimp only
  split_ifs
  · exact State.enterLive_host (State.modCtx_host h _ _) _
  · exact State.enterUnmatched_host (State.modCtx_host h _ _) _ _

theorem State.readbackMismatch_host {s : State} (h : s.hostLawful) (ch : Fin 4) (i : Fin 256) (w : Half) :
    (s.readbackMismatch ch i w).hostLawful := by
  unfold State.readbackMismatch
  dsimp only
  split_ifs
  · exact State.enqueuePush_host (State.raisePart_host (State.countSweep_host (State.modCtx_host h _ _) _ _) _ _ _ _ _) _
  · exact State.enterFaulted_host (State.raisePart_host (State.countSweep_host (State.modCtx_host h _ _) _ _) _ _ _ _ _) _ _

theorem State.readbackAnswered_host {s : State} (h : s.hostLawful) (ch : Fin 4) (i : Fin 256) (w : Half) :
    (s.readbackAnswered ch i w).hostLawful := by
  unfold State.readbackAnswered
  refine State.testSweep_host ?_ _
  split_ifs
  · exact State.countSweep_host (State.modCtx_host h _ _) _ _
  · exact State.readbackMismatch_host h _ _ _

theorem State.succeeded_host {s : State} (h : s.hostLawful) (ch : Fin 4) (t : Transaction) (f : TileFrame) :
    (s.succeeded ch t f).hostLawful := by
  cases f <;> simp only [State.succeeded]
  · exact State.modChain_host (State.modCtx_host h _ _) _ _
  · exact h
  · exact h
  · exact State.readbackAnswered_host h _ _ _
  · exact State.probeAnswered_host h _ _
  · exact State.takeTemperature_host (State.modChain_host (State.modCtx_host h _ _) _ _) _ _
  · exact h

theorem State.sendBack_host {s : State} (h : s.hostLawful) (ch : Fin 4) (t : Transaction) :
    (s.sendBack ch t).hostLawful := by
  unfold State.sendBack
  split <;> exact State.hostLawful_congr h (by simp) (by simp) (by simp) (by simp) (by simp) (by simp)
    (by simp) (by simp)

theorem State.countFailure_host {s : State} (h : s.hostLawful) (ch : Fin 4) (t : Transaction) :
    (s.countFailure ch t).hostLawful := by
  unfold State.countFailure
  dsimp only
  split
  · exact State.countSweep_host (State.modCtx_host h _ _) _ _
  · exact State.modCtx_host h _ _

theorem State.failed_host {s : State} (h : s.hostLawful) (ch : Fin 4) (t : Transaction) (reason : FaultReason) :
    (s.failed ch t reason).hostLawful := by
  unfold State.failed
  dsimp only
  split_ifs
  · exact State.sendBack_host (State.countFailure_host h _ _) _ _
  · exact State.enterFaulted_host (State.countFailure_host h _ _) _ _

theorem State.routeCarried_host {s : State} (h : s.hostLawful) (ch : Fin 4) (t : Transaction) (e : Ending) :
    (s.routeCarried ch t e).hostLawful := by
  unfold State.routeCarried
  split
  · exact State.routeTile_host h _ _ _ _
  · exact h

theorem State.handOver_host {s : State} (h : s.hostLawful) (ch : Fin 4) (t : Transaction) (e : Ending) :
    (s.handOver ch t e).hostLawful := by
  unfold State.handOver
  dsimp only
  refine State.endFlight_host (State.routeCarried_host ?_ _ _ _) _ _ _
  split_ifs
  · cases e
    · exact State.succeeded_host h _ _ _
    · exact State.failed_host h _ _ _
  · exact h

theorem State.attemptFailed_host {s : State} (h : s.hostLawful) (ch : Fin 4) (t : Transaction)
    (reason : FaultReason) : (s.attemptFailed ch t reason).hostLawful := by
  unfold State.attemptFailed
  split_ifs
  · exact State.hostLawful_congr h (by simp) (by simp) (by simp) (by simp) (by simp) (by simp)
      (by simp) (by simp)
  · exact State.handOver_host h _ _ _

/-! ## The intake unit -/

theorem State.setDirty_host {s : State} (h : s.hostLawful) (i : Fin 256) (d : Bool) : (s.setDirty i d).hostLawful :=
  State.hostLawful_congr h rfl rfl rfl rfl rfl rfl rfl rfl

theorem State.writeMirror_host {s : State} (h : s.hostLawful) (i : Fin 256) : (s.writeMirror i).hostLawful := by
  have h1 := State.areaWrite_host (State.setDirty_host h i false) (State.mirrorOffset i) (s.ctx i).mirrorBytes
  unfold State.writeMirror
  dsimp only
  split_ifs
  · exact State.setDirty_host h1 _ _
  · exact h1
  · exact h

theorem State.readHostWords_host {s : State} (h : s.hostLawful) : s.readHostWords.hostLawful := by
  have h1 := State.areaRead_host h 0xC0 4
  unfold State.readHostWords
  split
  · next e => rw [snd_of_eq e] at h1; exact h1
  · next e => rw [snd_of_eq e] at h1; exact State.modLogs_host h1 h1.2.1

theorem State.completionWritten_host {s : State} (h : s.hostLawful) (c : Completion) :
    (s.completionWritten c).hostLawful := by
  unfold State.completionWritten
  split_ifs
  · exact State.notice_host h _
  · exact h

theorem State.delivered_host {s : State} (h : s.hostLawful) (c : Completion) : (s.delivered c).hostLawful := by
  unfold State.delivered
  split_ifs
  · exact h
  · exact State.hostLawful_congr (State.completionWritten_host h c) rfl rfl rfl rfl rfl rfl rfl rfl

/-- The end of a scan keeps the laws. -/
theorem State.setScan_none_host {s : State} (h : s.hostLawful) : (s.setScan none).hostLawful :=
  ⟨h.1, h.2.1, fun e => ⟨(h.2.2.1 e).1, (h.2.2.1 e).2.1, rfl⟩, .inr rfl⟩

/-- A scan that goes on keeps the laws while RUN is set and no card is under way. -/
theorem State.scanTo_host {s : State} (h : s.hostLawful) (hr : s.regs.run = true) (hw : s.intake.walk = none)
    (p : ScanPhase) : (s.scanTo p).hostLawful := by
  unfold State.scanTo
  split_ifs with e
  · exact State.setScan_none_host h
  · refine ⟨h.1, h.2.1, fun f => ?_, .inl hw⟩
    rcases f with f | f
    · exact absurd (hr.symm.trans f) (by simp)
    · exact absurd f e

theorem State.writeCompletionPart_host {s : State} (h : s.hostLawful) (hr : s.regs.run = true)
    (hw : s.intake.walk = none) (c : Completion) (rest : List Completion) (w : AreaWrite) (ws : List AreaWrite) :
    (s.writeCompletionPart c rest w ws).hostLawful := by
  have h1 := State.areaWrite_host h w.1 w.2
  unfold State.writeCompletionPart
  dsimp only
  split_ifs
  · exact State.scanTo_host (State.delivered_host h1 c) (by simpa using hr) (by simpa using hw) _
  · exact State.scanTo_host h1 (by simpa using hr) (by simpa using hw) _

theorem State.writeStatusPart_host {s : State} (h : s.hostLawful) (hr : s.regs.run = true)
    (hw : s.intake.walk = none) (w : AreaWrite) (ws : List AreaWrite) : (s.writeStatusPart w ws).hostLawful :=
  State.scanTo_host (State.areaWrite_host h _ _) (by simpa using hr) (by simpa using hw) _

theorem State.copyStatus_host {s : State} (h : s.hostLawful) (hr : s.regs.run = true) (hw : s.intake.walk = none) :
    s.copyStatus.hostLawful := by
  have h1 : (s.modIntake fun k => { k with scanCount := k.scanCount + 1 }).hostLawful :=
    State.hostLawful_congr h rfl rfl rfl rfl rfl rfl rfl rfl
  unfold State.copyStatus
  dsimp only
  split
  · exact State.setScan_none_host h1
  · exact State.writeStatusPart_host h1 hr hw _ _

theorem State.mirrorPart_host {s : State} (h : s.hostLawful) (hr : s.regs.run = true) (hw : s.intake.walk = none)
    (rest : List (Fin 256)) : (s.mirrorPart rest).hostLawful := by
  unfold State.mirrorPart
  split
  · exact State.setScan_none_host h
  · exact State.scanTo_host (State.writeMirror_host h _) (by simpa using hr) (by simpa using hw) _

theorem State.takeCard_host {s : State} (h : s.hostLawful) (hr : s.regs.run = true) (hw : s.intake.walk = none)
    (c : Card) (left : Nat) (solved : Bool) : (s.takeCard c left solved).hostLawful := by
  have h1 : (s.modIntake fun k => { k with cursor := k.cursor + 1 }).hostLawful :=
    State.hostLawful_congr h rfl rfl rfl rfl rfl rfl rfl rfl
  have h2 : ∀ code, ((s.modIntake fun k => { k with cursor := k.cursor + 1 }).refuseCard c code).hostLawful :=
    fun _ => State.refuseCard_host h1 _ _
  unfold State.takeCard
  dsimp only
  split_ifs
  · split
    · exact State.scanTo_host (h2 _) (by simpa [State.modIntake] using hr) (by simpa [State.modIntake] using hw) _
    · exact ⟨h.1, h.2.1, fun e => ⟨(h.2.2.1 e).1, (h.2.2.1 e).2.1, rfl⟩, .inr rfl⟩
  · exact State.scanTo_host (h2 _) (by simpa [State.modIntake] using hr) (by simpa [State.modIntake] using hw) _
  · exact State.scanTo_host h hr hw _

theorem State.readCard_host {s : State} (h : s.hostLawful) (hr : s.regs.run = true) (hw : s.intake.walk = none)
    (left : Nat) (solved : Bool) : (s.readCard left solved).hostLawful := by
  have h1 := State.areaRead_host h (State.cardOffset s.intake.cursor) 64
  unfold State.readCard
  split
  · next e => rw [snd_of_eq e] at h1; exact State.setScan_none_host h1
  · next e =>
    have k := snd_of_eq e
    rw [k] at h1
    exact State.takeCard_host h1 (by rw [← k]; simpa using hr) (by rw [← k]; simpa using hw) _ _ _

/-- Every access of a scan keeps the laws. -/
theorem State.scanAccess_host {s : State} (h : s.hostLawful) : s.scanAccess.hostLawful := by
  have live : s.intake.scan ≠ none → s.regs.run = true ∧ s.intake.walk = none := by
    intro e
    refine ⟨?_, h.2.2.2.resolve_right e⟩
    by_contra r
    exact e (h.2.2.1 (.inl (by simpa using r))).2.2
  unfold State.scanAccess
  split
  · exact h
  · next e =>
    obtain ⟨hr, hw⟩ := live (by simp [e])
    exact State.scanTo_host (State.readHostWords_host h) (by simpa using hr) (by simpa using hw) _
  all_goals
    next e =>
      obtain ⟨hr, hw⟩ := live (by simp [e])
      first
        | exact State.writeCompletionPart_host h hr hw _ _ _ _
        | exact State.writeStatusPart_host h hr hw _ _
        | exact State.readCard_host h hr hw _ _
        | exact State.copyStatus_host h hr hw
        | exact State.mirrorPart_host h hr hw _
        | exact State.scanTo_host h hr hw _

theorem State.advanceScan_host (n : Nat) : ∀ {s : State}, s.hostLawful → (State.advanceScan n s).hostLawful := by
  induction n with
  | zero => exact id
  | succ n ih => exact fun h => ih (State.scanAccess_host h)

theorem State.goOn_host {s : State} (h : s.hostLawful) : s.goOn.hostLawful :=
  State.advanceScan_host _ (State.hostLawful_congr h rfl rfl rfl rfl rfl rfl rfl rfl)

/-- A scan that starts, or goes on after a card, keeps the laws. -/
theorem State.setScan_goOn_host {s : State} (h : s.hostLawful) (hr : s.regs.run = true)
    (hh : s.intake.halted = false) (hw : s.intake.walk = none) (p : ScanPhase) :
    (s.setScan (some p)).goOn.hostLawful := by
  have k := State.scanTo_host h hr hw p
  unfold State.scanTo at k
  rw [if_neg (by simp [hh])] at k
  exact State.goOn_host k

theorem State.requestScan_host {s : State} (h : s.hostLawful) : s.requestScan.hostLawful := by
  unfold State.requestScan
  split_ifs with h1 h2
  · simp only [Bool.and_eq_true, Bool.not_eq_true'] at h1
    exact ⟨h.1, h.2.1, fun e => by rcases e with e | e <;> simp_all, h.2.2.2⟩
  · simp only [Bool.and_eq_true, Bool.not_eq_true'] at h1
    simp only [State.scanning, Bool.or_eq_true, not_or, Option.not_isSome_iff_eq_none] at h2
    exact State.setScan_goOn_host h h1.1 h1.2 h2.1 _
  · exact h

/-- The scan timer is started only with RUN set and HALTED clear, and then a scan is requested. -/
theorem State.startScanTimer_host {s : State} (h : s.hostLawful) (hr : s.regs.run = true)
    (hh : s.intake.halted = false) : s.startScanTimer.hostLawful :=
  ⟨h.1, h.2.1, fun e => by
    rcases e with e | e
    · exact absurd (hr.symm.trans e) (by simp)
    · exact absurd (hh.symm.trans e) (by simp), h.2.2.2⟩

/-- A restart of the intake unit keeps the laws: a stopped timer stays stopped unless it is started with RUN set. -/
theorem State.intakeRestart_host {s : State} (h : s.hostLawful) : s.intakeRestart.hostLawful := by
  unfold State.intakeRestart
  dsimp only
  split_ifs with h1
  · refine State.requestScan_host (State.startScanTimer_host ⟨h.1, h.2.1, fun _ => ⟨?_, rfl, rfl⟩, .inr rfl⟩ ?_ rfl) <;>
      simp_all [State.modIntake]
  · refine ⟨h.1, h.2.1, fun e => ⟨?_, rfl, rfl⟩, .inr rfl⟩
    rcases e with e | e
    · exact (h.2.2.1 (.inl e)).1
    · exact absurd e (by simp)

theorem State.chainRestarts_host {s : State} (h : s.hostLawful) : s.chainRestarts.hostLawful :=
  State.hostLawful_congr h (by simp) (by simp) (by simp) (by simp) (by simp) (by simp) (by simp) (by simp)

/-- What comes after a card keeps the laws; the card is no longer under way then. -/
theorem State.afterCard_host {s : State} (h : s.hostLawful) (hw : s.intake.walk = none) (w : Walk) :
    (s.afterCard w).hostLawful := by
  have r := State.intakeRestart_host (State.chainRestarts_host h)
  unfold State.afterCard
  generalize s.chainRestarts.intakeRestart = u at r ⊢
  split_ifs with _ _ h3
  · exact State.requestScan_host r
  · exact r
  · exact h
  · simp only [Bool.or_eq_true, not_or, Bool.not_eq_true', Bool.not_eq_true, Bool.not_eq_false] at h3
    exact State.setScan_goOn_host h h3.2 h3.1.2 hw _

end Sys2Proof.Machine
end

