-- ==== Sys2Proof/Laws/Solves.lean ====
section
/-! SUPPORT. What the beginning and the end of a solve do, and what they leave. -/

namespace Sys2Proof.Machine

/-! ## Frames -/

@[simp] theorem State.beginSolve_keeps (s : State) (g : Fin 8) :
    (s.beginSolve g).pending = s.pending ∧ (s.beginSolve g).clock = s.clock ∧
    (s.beginSolve g).contexts = s.contexts ∧ (s.beginSolve g).serviceTimer = s.serviceTimer ∧
    (s.beginSolve g).stalenessTimer = s.stalenessTimer ∧ (s.beginSolve g).pages = s.pages ∧
    (s.beginSolve g).ramp = s.ramp ∧ (s.beginSolve g).chains = s.chains ∧
    (s.beginSolve g).filters = s.filters ∧ (s.beginSolve g).logs = s.logs ∧
    (s.beginSolve g).intake = s.intake ∧ (s.beginSolve g).regs = s.regs ∧ (s.beginSolve g).area = s.area ∧
    (s.beginSolve g).link = s.link ∧ (s.beginSolve g).freeIndex = s.freeIndex :=
  ⟨rfl, rfl, rfl, rfl, rfl, rfl, rfl, rfl, rfl, rfl, rfl, rfl, rfl, rfl, rfl⟩

@[simp] theorem State.writeMember_keeps (s : State) (m : MemberResult) :
    (s.writeMember m).pending = s.pending ∧ (s.writeMember m).solves = s.solves ∧
    (s.writeMember m).clock = s.clock ∧ (s.writeMember m).groups = s.groups ∧
    (s.writeMember m).serviceTimer = s.serviceTimer ∧ (s.writeMember m).stalenessTimer = s.stalenessTimer ∧
    (s.writeMember m).pages = s.pages ∧ (s.writeMember m).ramp = s.ramp ∧ (s.writeMember m).chains = s.chains ∧
    (s.writeMember m).filters = s.filters ∧ (s.writeMember m).logs = s.logs ∧
    (s.writeMember m).intake = s.intake ∧ (s.writeMember m).regs = s.regs ∧ (s.writeMember m).area = s.area ∧
    (s.writeMember m).link = s.link ∧ (s.writeMember m).freeIndex = s.freeIndex := by
  unfold State.writeMember
  split_ifs <;> simp

@[simp] theorem State.foldMembers_keeps (s : State) (l : List MemberResult) :
    (l.foldl State.writeMember s).pending = s.pending ∧ (l.foldl State.writeMember s).solves = s.solves ∧
    (l.foldl State.writeMember s).clock = s.clock ∧ (l.foldl State.writeMember s).groups = s.groups ∧
    (l.foldl State.writeMember s).serviceTimer = s.serviceTimer ∧
    (l.foldl State.writeMember s).stalenessTimer = s.stalenessTimer ∧
    (l.foldl State.writeMember s).pages = s.pages ∧ (l.foldl State.writeMember s).ramp = s.ramp ∧
    (l.foldl State.writeMember s).chains = s.chains ∧ (l.foldl State.writeMember s).filters = s.filters ∧
    (l.foldl State.writeMember s).logs = s.logs ∧ (l.foldl State.writeMember s).intake = s.intake ∧
    (l.foldl State.writeMember s).regs = s.regs ∧ (l.foldl State.writeMember s).area = s.area ∧
    (l.foldl State.writeMember s).link = s.link ∧ (l.foldl State.writeMember s).freeIndex = s.freeIndex := by
  induction l generalizing s with
  | nil => simp
  | cons a l ih => simpa using ih (s.writeMember a)

@[simp] theorem State.writeSolve_keeps (s : State) (v : Solve) :
    (s.writeSolve v).pending = s.pending ∧ (s.writeSolve v).clock = s.clock ∧
    (s.writeSolve v).serviceTimer = s.serviceTimer ∧ (s.writeSolve v).stalenessTimer = s.stalenessTimer ∧
    (s.writeSolve v).pages = s.pages ∧ (s.writeSolve v).ramp = s.ramp ∧ (s.writeSolve v).chains = s.chains ∧
    (s.writeSolve v).filters = s.filters ∧ (s.writeSolve v).logs = s.logs ∧
    (s.writeSolve v).intake = s.intake ∧ (s.writeSolve v).regs = s.regs ∧ (s.writeSolve v).area = s.area ∧
    (s.writeSolve v).link = s.link ∧ (s.writeSolve v).freeIndex = s.freeIndex := by
  unfold State.writeSolve
  simp [State.modGroup]

@[simp] theorem State.foldSolves_keeps (s : State) (l : List Solve) :
    (l.foldl State.writeSolve s).pending = s.pending ∧ (l.foldl State.writeSolve s).clock = s.clock ∧
    (l.foldl State.writeSolve s).serviceTimer = s.serviceTimer ∧
    (l.foldl State.writeSolve s).stalenessTimer = s.stalenessTimer ∧
    (l.foldl State.writeSolve s).pages = s.pages ∧ (l.foldl State.writeSolve s).ramp = s.ramp ∧
    (l.foldl State.writeSolve s).chains = s.chains ∧ (l.foldl State.writeSolve s).filters = s.filters ∧
    (l.foldl State.writeSolve s).logs = s.logs ∧ (l.foldl State.writeSolve s).intake = s.intake ∧
    (l.foldl State.writeSolve s).regs = s.regs ∧ (l.foldl State.writeSolve s).area = s.area ∧
    (l.foldl State.writeSolve s).link = s.link ∧ (l.foldl State.writeSolve s).freeIndex = s.freeIndex := by
  induction l generalizing s with
  | nil => simp
  | cons a l ih => simpa using ih (s.writeSolve a)

@[simp] theorem State.endSolves_keeps (s : State) (vs : List Solve) :
    (s.endSolves vs).pending = s.pending ∧ (s.endSolves vs).clock = s.clock ∧
    (s.endSolves vs).serviceTimer = s.serviceTimer ∧ (s.endSolves vs).stalenessTimer = s.stalenessTimer ∧
    (s.endSolves vs).pages = s.pages ∧ (s.endSolves vs).ramp = s.ramp ∧ (s.endSolves vs).chains = s.chains ∧
    (s.endSolves vs).filters = s.filters ∧ (s.endSolves vs).intake.cursor = s.intake.cursor ∧
    (s.endSolves vs).intake.walk = s.intake.walk ∧ (s.endSolves vs).intake.longCards = s.intake.longCards ∧
    (s.endSolves vs).intake.completions = s.intake.completions ∧
    (s.endSolves vs).intake.scanCount = s.intake.scanCount ∧ (s.endSolves vs).regs.areaLo = s.regs.areaLo ∧
    (s.endSolves vs).regs.areaHi = s.regs.areaHi ∧ (s.endSolves vs).regs.run = s.regs.run ∧
    (s.endSolves vs).regs.noticeMask = s.regs.noticeMask ∧ (s.endSolves vs).link.up = s.link.up := by
  unfold State.endSolves
  simp

theorem State.endSolves_host {s : State} (h : s.hostLawful) (vs : List Solve) : (s.endSolves vs).hostLawful :=
  State.raiseTogether_host (State.hostLawful_congr h (by simp) (by simp) (by simp) (by simp) (by simp) (by simp)
    (by simp) (by simp)) _

/-! ## Effects -/

theorem State.newSolve_group (s : State) (g : Fin 8) : (s.newSolve g).group = g := rfl

/-- A solve that begins has read the table, and no page (R49, R52, R54). -/
theorem State.newSolve_reads (s : State) (g : Fin 8) (m : SolveMember) :
    m ∈ (s.newSolve g).members ↔
      m.tile = s.ctx m.ctx ∧ (s.ctx m.ctx).memberOf g = true ∧ m.reading = none := by
  show m ∈ List.map _ _ ↔ _
  simp only [List.mem_map, List.mem_filter, Prod.exists, Table.mem_enum]
  constructor
  · rintro ⟨i, c, ⟨rfl, hm⟩, rfl⟩
    exact ⟨rfl, hm, rfl⟩
  · rintro ⟨a, b, c⟩
    refine ⟨m.ctx, s.ctx m.ctx, ⟨rfl, b⟩, ?_⟩
    rcases m with ⟨x, y, z⟩
    simp only at a c ⊢
    rw [a, c]

/-- The beginning of a solve changes its group's pending flag and adds what it has read. -/
theorem State.beginSolve_group (s : State) (g h : Fin 8) :
    (s.beginSolve g).group h = if g = h then { s.group g with pending := false } else s.group h :=
  State.modGroup_group s g h fun r => { r with pending := false }

theorem State.beginSolve_solves (s : State) (g : Fin 8) : (s.beginSolve g).solves = s.solves ++ [s.newSolve g] := rfl

/-- A member's result changes its context alone, and only if the generation is the one that was read (R52). -/
theorem State.writeMember_ctx (s : State) (m : MemberResult) (i : Fin 256) :
    (s.writeMember m).ctx i =
      if m.ctx = i ∧ (s.ctx i).generation = m.generation then (s.ctx i).touched ((s.ctx i).corrected m.result)
      else s.ctx i := by
  unfold State.writeMember State.stillMember
  by_cases h : m.ctx = i
  · subst h
    by_cases g : (s.ctx m.ctx).generation = m.generation <;> simp [g]
  · by_cases g : (s.ctx m.ctx).generation = m.generation <;> simp [g, h, State.modCtx_ctx_other _ h]

/-- The members of a solve that do not name a context leave it. -/
theorem State.foldMembers_ctx_other (l : List MemberResult) (s : State) (i : Fin 256) (h : ∀ m ∈ l, m.ctx ≠ i) :
    (l.foldl State.writeMember s).ctx i = s.ctx i := by
  induction l generalizing s with
  | nil => rfl
  | cons m l ih =>
    rw [List.foldl_cons, ih _ fun n hn => h n (List.mem_cons_of_mem _ hn), State.writeMember_ctx]
    simp [h m List.mem_cons_self]

/-- A member named once has its result written, if its generation is the one that was read (R17, R52). -/
theorem State.foldMembers_ctx (l : List MemberResult) (s : State) (m : MemberResult) (hm : m ∈ l)
    (hn : (l.map MemberResult.ctx).Nodup) :
    (l.foldl State.writeMember s).ctx m.ctx =
      if (s.ctx m.ctx).generation = m.generation then (s.ctx m.ctx).touched ((s.ctx m.ctx).corrected m.result)
      else s.ctx m.ctx := by
  induction l generalizing s with
  | nil => cases hm
  | cons n l ih =>
    simp only [List.map_cons, List.nodup_cons, List.mem_map, not_exists, not_and] at hn
    rw [List.foldl_cons]
    rcases List.mem_cons.1 hm with rfl | h
    · rw [State.foldMembers_ctx_other l _ _ fun k hk => hn.1 k hk, State.writeMember_ctx]
      simp
    · have e : (s.writeMember n).ctx m.ctx = s.ctx m.ctx := by
        rw [State.writeMember_ctx, if_neg fun e => hn.1 m h e.1.symm]
      rw [ih _ h hn.2, e]

/-- The reading of pages changes the solves under way alone, and leaves what they write into (R70). -/
theorem State.readPages_keeps (s : State) (which : Fin 256 → Bool) :
    s.readPages which = { s with solves := (s.readPages which).solves } ∧
      (s.readPages which).solves.map Solve.group = s.solves.map Solve.group :=
  ⟨rfl, by simp [State.readPages, Solve.readSome]⟩

theorem State.readMember_keeps (s : State) (g : Fin 8) (i : Fin 256) :
    s.readMember g i = { s with solves := (s.readMember g i).solves } ∧
      (s.readMember g i).solves.map Solve.group = s.solves.map Solve.group := by
  refine ⟨rfl, ?_⟩
  simp only [State.readMember, List.map_map]
  refine List.map_congr_left fun v _ => ?_
  simp only [Function.comp]
  split_ifs <;> rfl

/-- A reading of some members' pages leaves the members, and what has been read (R70). -/
theorem Solve.readSome_members (pages : Table Page 16) (which : Fin 256 → Bool) (v : Solve) :
    (v.readSome pages which).members.map SolveMember.ctx = v.members.map SolveMember.ctx ∧
      (v.readSome pages which).members.map SolveMember.tile = v.members.map SolveMember.tile ∧
      (v.readSome pages which).members.map (SolveMember.readingBy pages) =
        v.members.map (SolveMember.readingBy pages) := by
  simp only [Solve.readSome, List.map_map]
  refine ⟨?_, ?_, ?_⟩ <;>
    · refine List.map_congr_left fun m _ => ?_
      simp only [Function.comp]
      split_ifs <;> simp [SolveMember.readingBy]

/-- The contexts that a solve writes are those of its members. -/
theorem Solve.results_ctx (pages : Table Page 16) (T : Option (Rgb Nat)) (v : Solve) :
    (v.results pages T).map MemberResult.ctx = v.members.map SolveMember.ctx := by
  simp [Solve.results]

/-- The end of a solve changes the targets and the timer of its group (R50, R52). -/
theorem State.writeSolve_group (s : State) (v : Solve) (g : Fin 8) :
    (s.writeSolve v).group g = if v.group = g then (s.group g).solved (s.solveTargets v) else s.group g := by
  have e (h : Fin 8) : ((s.solveResults v).foldl State.writeMember s).group h = s.group h :=
    State.group_congr (by simp) h
  have := State.modGroup_group ((s.solveResults v).foldl State.writeMember s) v.group g fun r => r.solved (s.solveTargets v)
  rw [e, e] at this
  refine Eq.trans this ?_
  split_ifs with h
  · rw [h]
  · rfl

theorem State.writeSolve_solves (s : State) (v : Solve) :
    (s.writeSolve v).solves = s.solves.filter fun u => !decide (u.group = v.group) := by
  simp [State.writeSolve, State.modGroup]

theorem State.writeSolve_ctx (s : State) (v : Solve) (i : Fin 256) :
    (s.writeSolve v).ctx i = ((s.solveResults v).foldl State.writeMember s).ctx i := rfl

end Sys2Proof.Machine
end

