-- ==== Sys2Proof/Laws/Effects.lean ====
section
/-! SUPPORT. What the shared operations do, said in the terms of Safety. -/

namespace Sys2Proof.Machine

/-! ## Changed contexts -/

/-- The machine's changed context is the one of the claims (R45, R46). -/
theorem Context.becoming_eq (old new : Context) : old.becoming new = old.touched new := by
  have e : old.mirrored = new.mirrored ↔ old.shownAlike new := by
    unfold Context.mirrored Context.shownAlike
    rw [Context.mk.injEq]
    constructor <;> intro h <;> simp_all
  unfold Context.becoming
  rw [Context.touched_eq]
  simp only [e]

/-! ## Held cards and sweeps -/

theorem State.modEntries_entries (s : State) (ch j : Fin 4) (f : LongEntries → LongEntries) :
    (s.modEntries ch f).entries j = if j = ch then f (s.entries ch) else s.entries j := by
  show (s.intake.longCards.set ch (f (s.intake.longCards.get ch))).get j = _
  rw [Table.get_set]
  by_cases h : j = ch
  · simp [h, State.entries]
  · simp [h, Ne.symm h, State.entries]

theorem State.decideSweepOrRoll_answersHeld (s : State) (ch : Fin 4) (k : Request) (code : ResultCode)
    (data : List Byte) : s.answersHeld (s.decideSweepOrRoll ch k code data) ch k code data := by
  unfold State.answersHeld State.decideSweepOrRoll
  cases e : (s.entries ch).sweepOrRoll with
  | none => simp
  | some h =>
    by_cases hk : h.kind = k
    · refine ⟨fun n => absurd hk (n h rfl), ?_⟩
      intro h' e' _
      injection e' with e'; subst e'
      simp only [hk, if_true]
      refine ⟨fun j => ?_, rfl⟩
      refine (s.modEntries_entries ch j fun e => { e with sweepOrRoll := none }).trans ?_
      by_cases hj : j = ch
      · subst hj; rfl
      · rw [if_neg hj, if_neg hj]
    · refine ⟨fun _ => by simp [hk], ?_⟩
      intro h' e' hk'
      injection e' with e'; subst e'
      exact absurd hk' hk

theorem State.endSweep_sweepEnds (s : State) (ch : Fin 4) (code : ResultCode) :
    s.sweepEnds (s.endSweep ch code) ch code := by
  unfold State.sweepEnds State.endSweep
  cases e : (s.chain ch).sweep with
  | none => simp
  | some r =>
    refine ⟨by simp, fun r' e' => ?_⟩
    injection e' with e'; subst e'
    exact State.decideSweepOrRoll_answersHeld _ _ _ _ _

theorem State.sweepMet_iff (s : State) (ch : Fin 4) :
    s.sweepMet ch = true ↔ ¬∃ i, (s.ctx i).chain = ch ∧ ((s.ctx i).verify = .due ∨ (s.ctx i).verify = .reading) := by
  unfold State.sweepMet
  rw [Table.all_cells]
  simp [Context.ofChain, Context.awaitsReadback, State.ctx, imp_iff_not_or]

/-- What the test of a held VERIFY card does (R141). -/
theorem State.testSweep_sweepTested (s : State) (ch : Fin 4) : s.sweepTested (s.testSweep ch) ch := by
  have m := s.sweepMet_iff ch
  unfold State.sweepTested State.testSweep
  by_cases h : s.sweepMet ch = true
  · have hn := m.1 h
    simp only [h, if_true]
    exact ⟨fun w => absurd w hn, fun _ => s.endSweep_sweepEnds ch .ok⟩
  · have hw := not_not.1 (fun n => h (m.2 n))
    simp only [h]
    exact ⟨fun _ => rfl, fun n => absurd hw n⟩

/-! ## Reports raised together -/

theorem Config.putAt_perm {α : Type} (n : Nat) (x : α) (l : List α) : (Config.putAt n x l).Perm (x :: l) := by
  induction l generalizing n with
  | nil => exact List.Perm.refl _
  | cons y ys ih =>
    unfold Config.putAt
    split_ifs
    · exact List.Perm.refl _
    · exact ((ih (n - 1)).cons y).trans (List.Perm.swap x y ys)

theorem Config.arrange_perm {α : Type} (code : Nat) (l : List α) : (Config.arrange code l).Perm l := by
  induction l generalizing code with
  | nil => exact List.Perm.refl _
  | cons x xs ih => exact (Config.putAt_perm _ _ _).trans ((ih _).cons x)

theorem State.unordered_eq {α : Type} (s : State) (l : List α) :
    ∃ n, (s.unordered l).1.Perm l ∧ (s.unordered l).2 = { s with freeIndex := n } := by
  unfold State.unordered
  split_ifs
  · exact ⟨s.freeIndex, List.Perm.refl _, rfl⟩
  · exact ⟨s.freeIndex + 1, Config.arrange_perm _ _, rfl⟩

theorem State.foldReports_freeIndex (s : State) (rs : List Report) :
    (rs.foldl (fun s r => s.writeReport .alert r) s).freeIndex = s.freeIndex := by
  induction rs generalizing s with
  | nil => rfl
  | cons r rs ih => rw [List.foldl_cons, ih]; simp

/-- Reports raised together come in some order (R157). -/
theorem State.raiseTogether_raises (s : State) (rs : List Report) : s.raises (s.raiseTogether rs) rs := by
  obtain ⟨n, p, e⟩ := s.unordered_eq rs
  refine ⟨_, p, ?_⟩
  have f : (s.raiseTogether rs).freeIndex = n := by
    unfold State.raiseTogether; rw [State.foldReports_freeIndex, e]
  rw [f]
  exact congrArg (fun u => List.foldl (fun s r => State.writeReport s .alert r) u (s.unordered rs).1) e

theorem Context.newReports_eq (tick : Tick) (c : Context) (k : Correction) :
    c.newReports tick k = c.correctionReports tick k := by
  have m : k.shortMask = k.shorts.r.toNat + 2 * k.shorts.g.toNat + 4 * k.shorts.b.toNat := by
    simp only [Correction.shortMask, Rgb.toList, bitsOf]; omega
  unfold Context.newReports Context.correctionReports
  rw [m]
  simp [PartKind.code, Correction.fallbackValue]

/-! ## Entering life states -/

/-- What leaving its work does to the chains (R29, R141). -/
theorem State.dropWork_chain (s : State) (i : Fin 256) (j : Fin 4) :
    (s.dropWork i).chain j = if j = (s.ctx i).chain then (s.chain j).without i (s.ctx i) else s.chain j := by
  unfold State.dropWork Chain.without
  by_cases v : (s.ctx i).verify = .due ∨ (s.ctx i).verify = .reading
  · have a : (s.ctx i).awaitsReadback = true := by simpa [Context.awaitsReadback] using v
    have k (t : State) (f : Context → Context) : (t.modCtx i f).chain j = t.chain j := rfl
    simp only [a, if_true, v, State.countSweep, k, State.modChain_chain]
    by_cases h : j = (s.ctx i).chain
    · subst h; simp [countUp, Config.countMax]; rfl
    · simp [h, Ne.symm h]
  · have a : (s.ctx i).awaitsReadback = false := by simpa [Context.awaitsReadback] using v
    simp only [a, v, if_false, Bool.false_eq_true, State.modChain_chain]
    by_cases h : j = (s.ctx i).chain
    · subst h; simp
    · simp [h, Ne.symm h]

theorem State.dropWork_eq (s : State) (i : Fin 256) :
    s.dropWork i = { s with contexts := (s.dropWork i).contexts, chains := (s.dropWork i).chains } := by
  unfold State.dropWork
  dsimp only
  split_ifs <;> rfl

theorem State.decideSweepOrRoll_modChain (s : State) (ch j : Fin 4) (f : Chain → Chain) (k : Request)
    (code : ResultCode) (data : List Byte) :
    (s.modChain j f).decideSweepOrRoll ch k code data = (s.decideSweepOrRoll ch k code data).modChain j f := by
  unfold State.decideSweepOrRoll
  rw [show (s.modChain j f).entries ch = s.entries ch from rfl]
  cases (s.entries ch).sweepOrRoll with
  | none => rfl
  | some h => dsimp only; split_ifs <;> rfl

/-- The test of a sweep and a change of a chain that leaves its sweep record alone come in either order. -/
theorem State.testSweep_modChain (s : State) (ch j : Fin 4) (f : Chain → Chain) (hs : ∀ k, (f k).sweep = k.sweep)
    (hf : ∀ k, f { k with sweep := none } = { f k with sweep := none }) :
    (s.modChain j f).testSweep ch = (s.testSweep ch).modChain j f := by
  have e : (s.modChain j f).endSweep ch .ok = (s.endSweep ch .ok).modChain j f := by
    have hc : ((s.modChain j f).chain ch).sweep = (s.chain ch).sweep := by
      rw [State.modChain_chain]; split_ifs with h
      · subst h; exact hs _
      · rfl
    unfold State.endSweep
    rw [hc]
    cases e : (s.chain ch).sweep with
    | none => rfl
    | some r =>
      have c : ((s.modChain j f).modChain ch fun k => { k with sweep := none }) =
          ((s.modChain ch fun k => { k with sweep := none }).modChain j f) := by
        have : ((s.modChain j f).modChain ch fun k => { k with sweep := none }).chains =
            ((s.modChain ch fun k => { k with sweep := none }).modChain j f).chains := by
          refine Table.ext_get fun k => ?_
          show (State.chain _ k) = State.chain _ k
          simp only [State.modChain_chain]
          by_cases h1 : ch = k <;> by_cases h2 : j = k <;> by_cases h3 : j = ch <;> simp_all
        exact congrArg (fun x : Table Chain 4 => ({ s with chains := x } : State)) this
      dsimp only
      rw [c]
      exact State.decideSweepOrRoll_modChain _ _ _ _ _ _ _
  unfold State.testSweep
  rw [show (s.modChain j f).sweepMet ch = s.sweepMet ch from rfl, e]
  split_ifs <;> rfl

theorem State.testSweep_modCtx (s : State) (ch : Fin 4) (i : Fin 256) (f : Context → Context)
    (hf : ∀ c, (f c).chain = c.chain ∧ (f c).verify = c.verify) :
    (s.modCtx i f).testSweep ch = (s.testSweep ch).modCtx i f := by
  have m : (s.modCtx i f).sweepMet ch = s.sweepMet ch := by
    rw [Bool.eq_iff_iff, State.sweepMet_iff, State.sweepMet_iff]
    have k : ∀ j, ((s.modCtx i f).ctx j).chain = (s.ctx j).chain ∧ ((s.modCtx i f).ctx j).verify = (s.ctx j).verify := by
      intro j
      by_cases h : i = j
      · subst h
        rw [State.modCtx_ctx_same, Context.touched_eq]
        exact hf _
      · rw [State.modCtx_ctx_other _ h]; exact ⟨rfl, rfl⟩
    simp only [fun j => (k j).1, fun j => (k j).2]
  unfold State.testSweep
  rw [m]
  split_ifs
  · unfold State.endSweep
    rw [show (s.modCtx i f).chain ch = s.chain ch from rfl]
    cases (s.chain ch).sweep with
    | none => rfl
    | some r =>
      dsimp only
      unfold State.decideSweepOrRoll
      rw [show (((s.modCtx i f).modChain ch fun k => { k with sweep := none })).entries ch = s.entries ch from rfl,
        show ((s.modChain ch fun k => { k with sweep := none })).entries ch = s.entries ch from rfl]
      cases (s.entries ch).sweepOrRoll with
      | none => rfl
      | some h => dsimp only; split_ifs <;> rfl
  · rfl

/-- A transition, before the test of a held VERIFY card. -/
def State.moved (s : State) (i : Fin 256) (life : Life) (reason : FaultReason) : State :=
  let s1 := (s.dropWork i).modCtx i fun c => { c with life := life, faultReason := reason, dirty := true }
  if (s1.ctx i).eligible = (s.ctx i).eligible then s1 else s1.solvePending (s1.ctx i).group

theorem State.moved_ctx (s : State) (i j : Fin 256) (life : Life) (reason : FaultReason) :
    (s.moved i life reason).ctx j =
      if j = i then
        { s.ctx i with life := life, faultReason := reason, dirty := true, verify := (s.ctx i).verifyLeft }
      else s.ctx j := by
  have v : (s.ctx i).verifyLeft = if (s.ctx i).awaitsReadback then .none else (s.ctx i).verify := by
    simp [Context.verifyLeft, Context.awaitsReadback]
  have t := s.transition_ctx_same i life reason
  have e : ∀ j, (s.transition i life reason).ctx j = (s.moved i life reason).ctx j := by
    intro j
    unfold State.transition State.moved
    dsimp only
    rw [State.testSweep_ctx]
  by_cases h : j = i
  · subst h; rw [← e, t, v]; simp
  · rw [← e, if_neg h, State.transition_ctx_other _ (Ne.symm h)]

theorem State.moved_group (s : State) (i : Fin 256) (life : Life) (reason : FaultReason) (g : Fin 8) (c : Context)
    (hc : c.life = life ∧ c.noVote = (s.ctx i).noVote) :
    (s.moved i life reason).group g =
      if g = (s.ctx i).group ∧ (s.ctx i).eligible ≠ c.eligible then { s.group g with pending := true }
      else s.group g := by
  have k : ((s.dropWork i).modCtx i fun c => { c with life := life, faultReason := reason, dirty := true }).ctx i =
      { s.ctx i with life := life, faultReason := reason, dirty := true, verify := (s.ctx i).verifyLeft } := by
    have := s.moved_ctx i i life reason
    rw [if_pos rfl] at this
    rw [← this]
    unfold State.moved
    dsimp only
    split_ifs <;> rfl
  have d : ∀ g, (s.dropWork i).group g = s.group g := fun g => State.group_congr (by rw [State.dropWork_eq]) g
  have el : ({ s.ctx i with life := life, faultReason := reason, dirty := true, verify := (s.ctx i).verifyLeft } :
      Context).eligible = c.eligible := by
    simp [Context.eligible, hc.1, hc.2]
  unfold State.moved
  dsimp only
  rw [k, el]
  by_cases h : c.eligible = (s.ctx i).eligible
  · rw [if_pos h, if_neg (fun x => x.2 h.symm)]
    exact d g
  · rw [if_neg h]
    show (State.modGroup _ _ _).group g = _
    rw [State.modGroup_group]
    by_cases hg : g = (s.ctx i).group
    · subst hg; rw [if_pos rfl, if_pos ⟨rfl, Ne.symm h⟩]; exact congrArg (fun r : Group => { r with pending := true }) (d _)
    · rw [if_neg (Ne.symm hg), if_neg (fun x => hg x.1)]; exact d g

theorem State.moved_chains (s : State) (i : Fin 256) (life : Life) (reason : FaultReason) :
    (s.moved i life reason).chains = (s.dropWork i).chains := by
  unfold State.moved
  dsimp only
  split_ifs <;> rfl

theorem State.moved_eq (s : State) (i : Fin 256) (life : Life) (reason : FaultReason) :
    s.moved i life reason =
      { s with
        contexts := (s.moved i life reason).contexts, groups := (s.moved i life reason).groups
        chains := (s.moved i life reason).chains } := by
  unfold State.moved State.dropWork
  dsimp only
  split_ifs <;> rfl

/-- A context enters UNMATCHED or FAULTED: what the transition does (R29, R30, R141). -/
theorem State.transition_entersLife (s : State) (i : Fin 256) (life : Life) (reason : FaultReason) (h : life ≠ .live) :
    s.entersLife (s.transition i life reason) i
      { s.ctx i with life := life, faultReason := reason, dirty := true, verify := (s.ctx i).verifyLeft } := by
  refine ⟨s.moved i life reason, fun j => s.moved_ctx i j life reason,
    fun g => s.moved_group i life reason g _ ⟨rfl, rfl⟩, fun j => ?_, ?_, ?_⟩
  · rw [State.chain_congr (s.moved_chains i life reason), State.dropWork_chain]
    simp [h]
  · exact s.moved_eq i life reason
  · have : s.transition i life reason = (s.moved i life reason).testSweep (s.ctx i).chain := by
      have e : ((s.moved i life reason).ctx i).chain = (s.ctx i).chain := by rw [State.moved_ctx, if_pos rfl]
      rw [← e]
      unfold State.transition State.moved
      dsimp only
      split_ifs <;> rfl
    rw [this]
    exact State.testSweep_sweepTested _ _

/-- A context enters LIVE: what the entry does (R29, R30, R38, R91, R122, R141). -/
theorem State.enterLive_entersLife (s : State) (i : Fin 256) :
    s.entersLife (s.enterLive i) i (s.ctx i).enteringLive := by
  have e : ((s.moved i .live .none).ctx i).chain = (s.ctx i).chain := by rw [State.moved_ctx, if_pos rfl]
  have tr : s.transition i .live .none = (s.moved i .live .none).testSweep (s.ctx i).chain := by
    rw [← e]
    unfold State.transition State.moved
    dsimp only
    split_ifs <;> rfl
  have q : ∀ (t : State) (c : Fin 4), (t.ctx i).chain = c → (t.enqueuePush i).joinPollList i =
      t.modChain c fun k =>
        { (if i ∈ k.pushQueue then k else { k with pushQueue := k.pushQueue ++ [i] }) with
          pollList := k.pollList ++ [{ ctx := i, overdue := false, inFlight := false }] } := by
    rintro t c rfl
    have : ((t.enqueuePush i).joinPollList i).chains = (t.modChain (t.ctx i).chain fun k =>
        { (if i ∈ k.pushQueue then k else { k with pushQueue := k.pushQueue ++ [i] }) with
          pollList := k.pollList ++ [{ ctx := i, overdue := false, inFlight := false }] }).chains := by
      refine Table.ext_get fun k => ?_
      show State.chain _ k = State.chain _ k
      unfold State.joinPollList
      rw [State.modChain_chain, State.enqueuePush_ctx, State.modChain_chain]
      unfold State.enqueuePush
      by_cases h : (t.ctx i).chain = k
      · subst h; simp only [if_true, State.modChain_chain_same]; split_ifs <;> rfl
      · rw [if_neg h, if_neg h, State.modChain_chain, if_neg h]
    exact congrArg (fun x : Table Chain 4 => ({ t with chains := x } : State)) this
  let y := (s.moved i .live .none).modCtx i fun c => { c with applied := some c.target, dirty := true }
  let f : Chain → Chain := fun k =>
    { (if i ∈ k.pushQueue then k else { k with pushQueue := k.pushQueue ++ [i] }) with
      pollList := k.pollList ++ [{ ctx := i, overdue := false, inFlight := false }] }
  have yi : y.ctx i = (s.ctx i).enteringLive := by
    rw [State.modCtx_ctx_same, Context.touched_dirty _ rfl, State.moved_ctx, if_pos rfl]; rfl
  refine ⟨y.modChain (s.ctx i).chain f, fun j => ?_, fun g => ?_, fun j => ?_, ?_, ?_⟩
  · show y.ctx j = _
    by_cases h : j = i
    · subst h; rw [if_pos rfl, yi]
    · rw [State.modCtx_ctx_other _ (Ne.symm h), State.moved_ctx, if_neg h, if_neg h]
  · exact s.moved_group i .live .none g _ ⟨rfl, rfl⟩
  · have d : ∀ j, y.chain j = if j = (s.ctx i).chain then (s.chain j).without i (s.ctx i) else s.chain j := by
      intro j
      refine Eq.trans ?_ (s.dropWork_chain i j)
      exact State.chain_congr (s.moved_chains i .live .none) j
    rw [State.modChain_chain, d, d]
    by_cases h : j = (s.ctx i).chain
    · subst h
      simp only [if_true]
      have n : i ∉ ((s.chain (s.ctx i).chain).without i (s.ctx i)).pushQueue := by simp [Chain.without]
      simp [f, n, Context.enteringLive]
    · rw [if_neg (Ne.symm h), if_neg h]; simp [h]
  · have := s.moved_eq i .live .none
    have : y = { s with contexts := y.contexts, groups := y.groups, chains := y.chains } :=
      congrArg (fun u => State.modCtx u i fun c => { c with applied := some c.target, dirty := true }) this
    exact congrArg (fun u => State.modChain u (s.ctx i).chain f) this
  · have ec : s.enterLive i = (y.modChain (s.ctx i).chain f).testSweep (s.ctx i).chain := by
      rw [State.testSweep_modChain _ _ _ _ (fun k => by simp only [f]; split_ifs <;> rfl)
        (fun k => by simp only [f]; split_ifs <;> rfl),
        show y.testSweep (s.ctx i).chain = _ from State.testSweep_modCtx _ _ _ _ (fun c => ⟨rfl, rfl⟩), ← tr]
      unfold State.enterLive
      dsimp only
      refine q _ _ ?_
      rw [State.modCtx_ctx_same, Context.touched_dirty _ rfl, State.transition_ctx_same]
    rw [ec]
    exact State.testSweep_sweepTested _ _

/-- Entering a life state does not ask how the counts of the context stood. -/
theorem State.entersLife_of {s s1 t : State} {i : Fin 256} {c : Context} (h : s1.entersLife t i c)
    (e : s1 = { s with contexts := s1.contexts }) (o : ∀ j, j ≠ i → s1.ctx j = s.ctx j)
    (p : (s1.ctx i).chain = (s.ctx i).chain ∧ (s1.ctx i).group = (s.ctx i).group ∧
      (s1.ctx i).verify = (s.ctx i).verify ∧ (s1.ctx i).eligible = (s.ctx i).eligible) : s.entersLife t i c := by
  obtain ⟨x, h1, h2, h3, h4, h5⟩ := h
  have hg : ∀ g, s1.group g = s.group g := fun g => State.group_congr (by rw [e]) g
  have hk : ∀ j, s1.chain j = s.chain j := fun j => State.chain_congr (by rw [e]) j
  have w : ∀ k : Chain, k.without i (s1.ctx i) = k.without i (s.ctx i) := by
    intro k; simp [Chain.without, p.2.2.1]
  refine ⟨x, fun j => ?_, fun g => ?_, fun j => ?_, ?_, ?_⟩
  · rw [h1]; split_ifs with hj
    · rfl
    · exact o j hj
  · rw [h2, hg, p.2.1, p.2.2.2]
  · rw [h3, hk, p.1]; simp only [w]
  · rw [h4, e]
  · rw [← p.1]; exact h5

/-! ## Solves -/

theorem leastEffective_some (es : List (Rgb Nat)) (h : es ≠ []) :
    ∃ m, leastEffective es = some m ∧ ∀ p, (∃ e ∈ es, m.get p = e.get p) ∧ ∀ e ∈ es, m.get p ≤ e.get p := by
  induction es with
  | nil => exact absurd rfl h
  | cons e es ih =>
    by_cases n : es = []
    · subst n
      exact ⟨e, rfl, fun p => ⟨⟨e, List.mem_cons_self, rfl⟩, fun x hx => by
        rw [List.mem_singleton.1 hx]⟩⟩
    · obtain ⟨m, hm, hp⟩ := ih n
      refine ⟨lesser e m, by simp [leastEffective, hm], fun p => ?_⟩
      obtain ⟨⟨x, hx, ex⟩, le⟩ := hp p
      have g : (lesser e m).get p = min (e.get p) (m.get p) := by cases p <;> rfl
      rw [g]
      refine ⟨?_, fun y hy => ?_⟩
      · by_cases c : e.get p ≤ m.get p
        · exact ⟨e, List.mem_cons_self, by omega⟩
        · exact ⟨x, List.mem_cons_of_mem _ hx, by omega⟩
      · rcases List.mem_cons.1 hy with rfl | hy
        · omega
        · have := le y hy; omega

theorem State.readingOf_eq (s : State) (m : SolveMember) : s.readingOf m = m.readingBy s.pages := by
  unfold State.readingOf SolveMember.readingBy
  cases m.reading <;> rfl

/-- A solve that begins, with some of its members' pages read at once (R49, R52, R54, R70). -/
theorem State.newSolve_begins (s : State) (g : Fin 8) (which : Fin 256 → Bool) :
    s.beginsSolve ((s.newSolve g).readSome s.pages which) := by
  obtain ⟨hc, -, -⟩ := (s.newSolve g).readSome_members s.pages which
  have mem (m : SolveMember) : m ∈ ((s.newSolve g).readSome s.pages which).members →
      m.tile = s.ctx m.ctx ∧ (s.ctx m.ctx).memberOf g = true ∧
        (m.reading = none ∨ m.reading = some ((s.ctx m.ctx).readPage s.pages)) := by
    intro h
    obtain ⟨k, hk, e⟩ := List.mem_map.1 h
    obtain ⟨h1, h2, h3⟩ := (s.newSolve_reads g k).1 hk
    subst e
    split_ifs
    · exact ⟨h1, h2, .inr (by simp [SolveMember.readingBy, h3, h1])⟩
    · exact ⟨h1, h2, .inl h3⟩
  refine ⟨rfl, rfl, ?_, fun i => ?_, fun m hm => ⟨(mem m hm).1, (mem m hm).2.2⟩⟩
  · rw [hc]
    show (List.map SolveMember.ctx (List.map _ _)).Pairwise _
    rw [List.map_map]
    have : (s.contexts.enum.map Prod.fst).Pairwise (· < ·) := by
      rw [Table.enum_map_fst]; exact List.pairwise_lt_finRange 256
    rw [List.pairwise_map] at this
    exact List.pairwise_map.2 (this.filter _)
  · have ex : (∃ m ∈ ((s.newSolve g).readSome s.pages which).members, m.ctx = i) ↔ (s.ctx i).memberOf g = true := by
      have : (∃ m ∈ ((s.newSolve g).readSome s.pages which).members, m.ctx = i) ↔
          i ∈ (s.newSolve g).members.map SolveMember.ctx := by
        rw [← hc]; simp
      rw [this, List.mem_map]
      constructor
      · rintro ⟨m, hm, rfl⟩; exact ((s.newSolve_reads g m).1 hm).2.1
      · intro h; exact ⟨⟨i, s.ctx i, none⟩, (s.newSolve_reads g _).2 ⟨rfl, h, rfl⟩, rfl⟩
    rw [ex]
    simp only [Context.memberOf, Bool.and_eq_true, decide_eq_true_eq, Bool.not_eq_true', decide_eq_false_iff_not]
    exact and_comm

/-- The targets with which a solve ends (R10 to R12). -/
theorem State.solveTargets_solvesTo (s : State) (v : Solve) : s.solvesTo v (s.solveTargets v) := by
  have mem (e : Rgb Nat) : e ∈ ((v.members.filter fun m => m.tile.eligible).map fun m =>
      (m.readingBy s.pages).effective) ↔ ∃ m ∈ v.members, m.tile.eligible = true ∧ (s.readingOf m).effective = e := by
    simp [State.readingOf_eq, and_assoc]
  unfold State.solveTargets Solve.targets
  generalize hl : ((v.members.filter fun m => m.tile.eligible).map fun m => (m.readingBy s.pages).effective) = l
    at mem ⊢
  refine ⟨fun h => ?_, fun ⟨m, hm, he⟩ => ?_⟩
  · have : l = [] := by
      rw [List.eq_nil_iff_forall_not_mem]
      intro e he
      obtain ⟨m, hm, x, -⟩ := (mem e).1 he
      rw [h m hm] at x; cases x
    rw [this]; rfl
  · have ne : l ≠ [] := by
      intro h
      have := (mem _).2 ⟨m, hm, he, rfl⟩
      rw [h] at this; cases this
    obtain ⟨u, hu, hp⟩ := leastEffective_some _ ne
    refine ⟨u.map fun e => targetOf e v.headroom v.cap, by simp [targetsFrom, hu], fun p => ?_⟩
    obtain ⟨⟨e, he, ep⟩, le⟩ := hp p
    obtain ⟨k, hk, hv, rfl⟩ := (mem e).1 he
    refine ⟨k, hk, hv, ?_, fun n hn hv' => ?_⟩
    · rw [← ep]; cases p <;> rfl
    · rw [← ep]; exact le _ ((mem _).2 ⟨n, hn, hv', rfl⟩)

theorem State.foldMembers_results (s : State) (l : List MemberResult) (nd : (l.map MemberResult.ctx).Nodup) :
    (∀ m ∈ l, (s.ctx m.ctx).generation = m.generation →
      (l.foldl State.writeMember s).ctx m.ctx = (s.ctx m.ctx).touched ((s.ctx m.ctx).corrected m.result)) ∧
    ∀ i, (∀ m ∈ l, m.ctx = i → (s.ctx i).generation ≠ m.generation) → (l.foldl State.writeMember s).ctx i = s.ctx i := by
  induction l generalizing s with
  | nil => exact ⟨fun m hm => (by cases hm), fun i _ => rfl⟩
  | cons a l ih =>
    rw [List.map_cons, List.nodup_cons] at nd
    obtain ⟨h1, h2⟩ := ih (s.writeMember a) nd.2
    have same : ∀ i, i ≠ a.ctx → (s.writeMember a).ctx i = s.ctx i := by
      intro i hi
      unfold State.writeMember
      split_ifs
      · exact State.modCtx_ctx_other _ (Ne.symm hi) _
      · rfl
    have na : ∀ m ∈ l, m.ctx ≠ a.ctx := fun m hm e => nd.1 (e ▸ List.mem_map_of_mem hm)
    refine ⟨fun m hm hg => ?_, fun i hi => ?_⟩
    · rw [List.foldl_cons]
      rcases List.mem_cons.1 hm with rfl | hm
      · rw [h2 _ (fun m' hm' e => absurd e (na m' hm'))]
        unfold State.writeMember State.stillMember
        rw [if_pos (by simpa using hg), State.modCtx_ctx_same]
      · have e := same m.ctx (na m hm)
        have := h1 m hm (by rw [e]; exact hg)
        rw [this, e]
    · rw [List.foldl_cons]
      by_cases ha : i = a.ctx
      · subst ha
        rw [h2 _ (fun m' hm' e => absurd e (na m' hm'))]
        unfold State.writeMember State.stillMember
        rw [if_neg (by simpa using hi a List.mem_cons_self rfl)]
      · rw [h2 i (fun m hm e => by rw [same i ha]; exact hi m (List.mem_cons_of_mem _ hm) e), same i ha]

/-- What the end of a solve does (R17, R50, R52, R53). -/
theorem State.writeSolve_writesSolve (s : State) (v : Solve) (nd : (v.members.map SolveMember.ctx).Nodup) :
    s.writesSolve (s.writeSolve v) v (s.solveTargets v) := by
  obtain ⟨h1, h2⟩ := s.foldMembers_results (s.solveResults v) (by
    unfold State.solveResults; rw [Solve.results_ctx]; exact nd)
  have k := s.foldMembers_keeps (s.solveResults v)
  refine ⟨fun m hm hg => ?_, fun i hi => ?_, fun g => ?_, ?_⟩
  · have := h1 _ (List.mem_map_of_mem hm) hg
    rw [← State.readingOf_eq] at this
    exact this.trans (Context.becoming_eq _ _).symm
  · refine h2 i fun r hr => ?_
    obtain ⟨m, hm, rfl⟩ := List.mem_map.1 hr
    exact hi m hm
  · rw [State.writeSolve_group]
    by_cases h : g = v.group
    · subst h
      simp only [if_true, Group.solved, solveTimerFor, Config.seconds]
      split_ifs <;> rfl
    · rw [if_neg (Ne.symm h), if_neg h]
  · unfold State.writeSolve State.modGroup
    simp

/-- Several solves that end together, of one group each, end with the targets that each has alone. -/
theorem State.foldSolves_writesSolves (T : Solve → Option (Rgb Nat)) (s : State) (vs : List Solve)
    (ng : (vs.map Solve.group).Nodup) (nd : ∀ v ∈ vs, (v.members.map SolveMember.ctx).Nodup)
    (hT : ∀ v ∈ vs, T v = s.solveTargets v) : State.writesSolves T vs s (vs.foldl State.writeSolve s) := by
  induction vs generalizing s with
  | nil => rfl
  | cons v vs ih =>
    rw [List.map_cons, List.nodup_cons] at ng
    refine ⟨_, by rw [hT v List.mem_cons_self]; exact s.writeSolve_writesSolve v (nd v List.mem_cons_self),
      ih _ ng.2 (fun w hw => nd w (List.mem_cons_of_mem _ hw)) fun w hw => ?_⟩
    rw [hT w (List.mem_cons_of_mem _ hw)]
    have hp : (s.writeSolve v).pages = s.pages := by simp
    have hg : v.group ≠ w.group := fun e => ng.1 (e ▸ List.mem_map_of_mem hw)
    unfold State.solveTargets
    rw [hp, State.writeSolve_group, if_neg hg]

/-! ## The restart of the chains (R111, R142, R155) -/

theorem State.modChain_comm (s : State) {a b : Fin 4} (h : a ≠ b) (f g : Chain → Chain) :
    (s.modChain a f).modChain b g = (s.modChain b g).modChain a f := by
  have : ((s.modChain a f).modChain b g).chains = ((s.modChain b g).modChain a f).chains := by
    refine Table.ext_get fun k => ?_
    show State.chain _ k = State.chain _ k
    simp only [State.modChain_chain]
    by_cases h1 : a = k <;> by_cases h2 : b = k <;> simp_all
  exact congrArg (fun x : Table Chain 4 => ({ s with chains := x } : State)) this

/-- The arbiter of one chain and a change of another come in either order (R114). -/
theorem State.arbitrate_modChain (s : State) {ch j : Fin 4} (h : ch ≠ j) (f : Chain → Chain) :
    (s.modChain j f).arbitrate ch = (s.arbitrate ch).modChain j f := by
  have k : (s.modChain j f).chain ch = s.chain ch := State.modChain_chain_other _ (Ne.symm h) _
  have c : (s.modChain j f).choice ch = s.choice ch := by
    unfold State.choice State.nextReadback
    rw [k]; rfl
  unfold State.arbitrate
  rw [k, c]
  cases (s.chain ch).state <;> try rfl
  cases s.choice ch with
  | none => rfl
  | some x =>
    have m (t : State) (g : Chain → Chain) : (t.modChain j f).modChain ch g = (t.modChain ch g).modChain j f :=
      State.modChain_comm _ (Ne.symm h) _ _
    have st (t : State) (kind : WorkKind) (i : Fin 256) :
        (t.modChain j f).startTransaction ch kind i = (t.startTransaction ch kind i).modChain j f := by
      unfold State.startTransaction; rw [m]; rfl
    have mc (t : State) (i : Fin 256) (g : Context → Context) :
        (t.modChain j f).modCtx i g = (t.modCtx i g).modChain j f := rfl
    cases x <;> simp only [State.start, m, st, mc] <;> rfl

/-- What the restart does at one chain (R111, R142, R155). -/
theorem State.chainRestart_eq (s : State) (ch : Fin 4) :
    s.chainRestart ch =
      if (s.chain ch).retrying then (s.modChain ch Chain.restarted).arbitrate ch else s.modChain ch Chain.restarted := by
  have key (k k' : Chain) (f g : Chain → Chain) (hk : g (f (s.chain ch)) = k) (_ : k = k') :
      (s.modChain ch f).modChain ch g = s.modChain ch fun _ => k := by
    have : ((s.modChain ch f).modChain ch g).chains = (s.modChain ch fun _ => k).chains := by
      refine Table.ext_get fun j => ?_
      show State.chain _ j = State.chain _ j
      simp only [State.modChain_chain]
      by_cases h1 : ch = j
      · subst h1; simp [hk]
      · simp [h1]
    exact congrArg (fun x : Table Chain 4 => ({ s with chains := x } : State)) this
  have one (f g : Chain → Chain) (h : f (s.chain ch) = g (s.chain ch)) : s.modChain ch f = s.modChain ch g := by
    unfold State.modChain; rw [h]
  unfold State.chainRestart Chain.retrying
  simp only [State.modChain_chain_same]
  cases e : (s.chain ch).roll with
  | none =>
    simp only
    rw [if_neg (by simp)]
    exact one _ _ (by simp [Chain.restarted, Chain.retrying, e])
  | some r =>
    simp only
    obtain ⟨begun, _, _, _, phase, _, _⟩ := r
    cases begun <;> cases phase <;>
      simp only [Bool.true_and, Bool.false_and, decide_true, decide_false, if_true, if_false, Bool.false_eq_true,
        reduceCtorEq] <;>
      rw [key _ _ _ _ rfl rfl] <;>
      first
        | exact one _ _ (by simp [Chain.restarted, Chain.retrying, e])
        | exact congrArg (fun t => State.arbitrate t ch) (one _ _ (by simp [Chain.restarted, Chain.retrying, e]))

/-- What the restart does at the four chains. -/
theorem State.chainRestarts_eq (s : State) : s.chainRestarts = s.chainsRestarted := by
  have l : List.finRange 4 = [0, 1, 2, 3] := by decide
  have all : ({ s with chains := s.chains.map Chain.restarted } : State) =
      (((s.modChain 0 Chain.restarted).modChain 1 Chain.restarted).modChain 2 Chain.restarted).modChain 3
        Chain.restarted := by
    have : s.chains.map Chain.restarted = ((((s.modChain 0 Chain.restarted).modChain 1 Chain.restarted).modChain 2
        Chain.restarted).modChain 3 Chain.restarted).chains := by
      refine Table.ext_get fun j => ?_
      show _ = State.chain _ j
      simp only [State.modChain_chain, Table.get_map]
      fin_cases j <;> rfl
    exact congrArg (fun x : Table Chain 4 => ({ s with chains := x } : State)) this
  let arb (t : State) (ch : Fin 4) : State := if (s.chain ch).retrying then t.arbitrate ch else t
  have ac (t : State) (a b : Fin 4) (h : a ≠ b) (f : Chain → Chain) : (arb t a).modChain b f = arb (t.modChain b f) a := by
    simp only [arb]
    split_ifs
    · exact (State.arbitrate_modChain _ h _).symm
    · rfl
  have ak (t : State) (a b : Fin 4) (h : a ≠ b) : (arb t a).chain b = t.chain b := by
    simp only [arb]
    split_ifs
    · exact State.arbitrate_chain_other _ h
    · rfl
  have st (t : State) (ch : Fin 4) (h : t.chain ch = s.chain ch) :
      t.chainRestart ch = arb (t.modChain ch Chain.restarted) ch := by
    rw [State.chainRestart_eq, h]
  unfold State.chainRestarts State.chainsRestarted
  rw [l, all]
  simp only [List.foldl_cons, List.foldl_nil]
  have mo (t : State) {a b : Fin 4} (h : a ≠ b) : (t.modChain a Chain.restarted).chain b = t.chain b :=
    State.modChain_chain_other _ h _
  rw [st s 0 rfl, st _ 1 (by rw [ak _ _ _ (by decide), mo _ (by decide)]),
    st _ 2 (by rw [ak _ _ _ (by decide), mo _ (by decide), ak _ _ _ (by decide), mo _ (by decide)]),
    st _ 3 (by rw [ak _ _ _ (by decide), mo _ (by decide), ak _ _ _ (by decide), mo _ (by decide),
      ak _ _ _ (by decide), mo _ (by decide)])]
  rw [ac _ 0 1 (by decide), ac _ 1 2 (by decide), ac _ 0 2 (by decide), ac _ 2 3 (by decide), ac _ 1 3 (by decide),
    ac _ 0 3 (by decide)]

/-- The restart at the blocks other than the intake unit (R28, R92, R111, R155, R165). -/
theorem State.restart_eq (s : State) :
    s.restart =
      match s.intake.walk with
      | some w => { s.blocksRestarted with
          intake := { s.intake with walk := some { w with ending := true, restart := true, rescan := false } } }
      | none => s.blocksRestarted.intakeRestart := by
  unfold State.restart State.blocksRestarted
  dsimp only
  rw [State.chainRestarts_eq]
  have i : ∀ t : State, t.chainsRestarted.intake = t.intake := by
    intro t; rw [← State.chainRestarts_eq]; simp
  have e : ((s.dirtyAll.modRamp fun r => { r with freezeSet := [] }).modLogs fun _ => Logs.reset) =
      ({ s with
        contexts := s.contexts.map fun c => { c with dirty := true }
        ramp := { s.ramp with freezeSet := [] }
        logs :=
          { alertWrite := 0, generalWrite := 0, oldest := 0, alertCopy := 0, generalCopy := 0, released := 0
            overwrites := 0, rollovers := 0, unlogged := 0, ready := false } } : State) := rfl
  rw [e, i]
  dsimp only
  cases s.intake.walk with
  | none => rfl
  | some w =>
    show State.modIntake _ _ = _
    unfold State.modIntake
    rw [i]

/-! ## The comparison of a roll (R43, R148, R149) -/

theorem State.holder_some (s : State) (ch : Fin 4) (a : Fin 64) (i : Fin 256) (h : s.holder ch a = some i) :
    (s.ctx i).life ≠ .absent ∧ (s.ctx i).chain = ch ∧ (s.ctx i).address = a := by
  unfold State.holder at h
  obtain ⟨x, hx, rfl⟩ := Option.map_eq_some_iff.1 h
  have m := List.mem_of_find?_eq_some hx
  have p := List.find?_some hx
  have e := (Table.mem_enum _ _).1 m
  simp only [Context.holds, Context.ofChain, Bool.and_eq_true, Bool.not_eq_true', decide_eq_true_eq,
    decide_eq_false_iff_not] at p
  rw [State.ctx, e]
  exact ⟨p.1.1, p.1.2, p.2⟩

theorem State.holder_none (s : State) (ch : Fin 4) (a : Fin 64) (h : s.holder ch a = none) (i : Fin 256) :
    ¬((s.ctx i).life ≠ .absent ∧ (s.ctx i).chain = ch ∧ (s.ctx i).address = a) := by
  unfold State.holder at h
  rw [Option.map_eq_none_iff, List.find?_eq_none] at h
  have := h (i, s.ctx i) ((Table.mem_enum _ _).2 rfl)
  simpa [Context.holds, Context.ofChain, and_assoc] using this

theorem State.knownAs_some (s : State) (w : Word) (i : Fin 256) (h : s.knownAs w = some i) :
    ((s.ctx i).life ≠ .absent ∧ (s.ctx i).serial = w) ∧
      ∀ j, j < i → ¬((s.ctx j).life ≠ .absent ∧ (s.ctx j).serial = w) := by
  unfold State.knownAs at h
  obtain ⟨x, hx, rfl⟩ := Option.map_eq_some_iff.1 h
  rw [Table.enum_eq_ofFn] at hx
  have p := List.find?_some hx
  have m := List.mem_of_find?_eq_some hx
  obtain ⟨k, rfl⟩ := List.mem_ofFn.1 m
  simp only [Bool.and_eq_true, Bool.not_eq_true', decide_eq_true_eq, decide_eq_false_iff_not] at p
  refine ⟨p, fun j hj hk => ?_⟩
  rw [List.find?_eq_some_iff_getElem] at hx
  obtain ⟨-, n, hn, e, before⟩ := hx
  have hn' : n < 256 := by rw [List.length_ofFn] at hn; exact hn
  have en : (⟨n, hn'⟩ : Fin 256) = k := by
    rw [List.getElem_ofFn] at e; exact congrArg Prod.fst e
  have q := before j.val (by rw [← en] at hj; exact hj)
  rw [List.getElem_ofFn] at q
  have : (!decide ((s.ctx j).life = .absent) && decide ((s.ctx j).serial = w)) = true := by
    rw [Bool.and_eq_true, Bool.not_eq_true', decide_eq_false_iff_not, decide_eq_true_eq]; exact hk
  rw [Bool.not_eq_true'] at q
  exact absurd (this.symm.trans q) (by decide)

theorem State.knownAs_none (s : State) (w : Word) (h : s.knownAs w = none) (i : Fin 256) :
    ¬((s.ctx i).life ≠ .absent ∧ (s.ctx i).serial = w) := by
  unfold State.knownAs at h
  rw [Option.map_eq_none_iff, List.find?_eq_none] at h
  have := h (i, s.ctx i) ((Table.mem_enum _ _).2 rfl)
  simpa using this

/-- What one position of a comparison does (R43, R148, R149). -/
theorem State.comparePosition_compares (s : State) (hp : s.positionsLawful) (ch : Fin 4) (serials : List Word)
    (n : RollCounts) (a : Fin 64) :
    s.comparesPosition (State.comparePosition ch serials (s, n) a).1 ch serials.length a (heardAt serials a) := by
  unfold State.comparePosition heardAt
  dsimp only
  cases hh : s.holder ch a with
  | none =>
    have no := s.holder_none ch a hh
    refine ⟨fun i hi => absurd hi (no i), fun _ => ?_⟩
    cases serials[a.val - 1]? with
    | none => exact ⟨fun _ => rfl, fun w h => by cases h⟩
    | some w =>
      refine ⟨fun h => (by cases h), fun w' h' => ?_⟩
      injection h' with h'; subst h'
      dsimp only
      cases hk : s.knownAs w with
      | none =>
        have no' := s.knownAs_none w hk
        exact ⟨fun i hi => absurd hi (no' i), fun _ => rfl⟩
      | some k =>
        obtain ⟨kn, lo⟩ := s.knownAs_some w k hk
        refine ⟨fun i hi hl => ?_, fun h => absurd kn (h k)⟩
        have : i = k := by
          rcases lt_trichotomy i k with h | h | h
          · exact absurd hi (lo i h)
          · exact h
          · exact absurd kn (hl k h)
        rw [this]
  | some k =>
    have hk := s.holder_some ch a k hh
    refine ⟨fun i hi => ?_, fun no => absurd hk (no k)⟩
    have ik : i = k := by
      by_contra ne
      exact hp i k ne hi.1 hk.1 ⟨hi.2.1.trans hk.2.1.symm, hi.2.2.trans hk.2.2.symm⟩
    subst ik
    have cc := hi.2.1
    have ca := hi.2.2
    have tm (f : Context → Context) (j : Fin 256) : ((s.modCtx i f).ctx j) =
        if j = i then (s.ctx j).becoming (f (s.ctx j)) else s.ctx j := by
      by_cases h : j = i
      · subst h; simp [Context.becoming_eq]
      · rw [State.modCtx_ctx_other _ (Ne.symm h), if_neg h]
    cases hw : serials[a.val - 1]? with
    | none =>
      refine ⟨fun h => (by cases h), fun h => (by cases h), fun w h => (by cases h), fun w h => (by cases h), ?_, ?_⟩
      · intro _ hl
        refine ⟨s.modCtx i fun c => { c with faultReason := .missing }, rfl, fun j => tm _ j, ?_⟩
        simp only [Context.finding, State.applyFinding, hl, cc, ca]
      · intro _ hl
        refine ⟨_, s.transition_entersLife i .faulted .missing (by decide), ?_⟩
        simp only [Context.finding, State.applyFinding]
        cases hc : (s.ctx i).life <;> simp_all
    | some w =>
      dsimp only
      by_cases own : w = (s.ctx i).serial
      · have f : (s.ctx i).finding (some w) = .own := by simp [Context.finding, own]
        refine ⟨?_, ?_, fun v h n => absurd ((Option.some.inj h).symm.trans own) n,
          fun v h n => absurd ((Option.some.inj h).symm.trans own) n, fun h => (by cases h), fun h => (by cases h)⟩
        · intro _ hl
          rw [f]; simp only [State.applyFinding, hl]
        · intro _ hl
          have e : s.applyFinding i serials.length .own =
              (s.modCtx i fun c => { c with failCount := 0, mismatchCount := 0 }).enterLive i := by
            unfold State.applyFinding
            cases hc : (s.ctx i).life <;> simp_all
          rw [f, e]
          have h := (s.modCtx i fun c => { c with failCount := 0, mismatchCount := 0 }).enterLive_entersLife i
          have mi : (s.modCtx i fun c => { c with failCount := 0, mismatchCount := 0 }).ctx i =
              (s.ctx i).touched { s.ctx i with failCount := 0, mismatchCount := 0 } := by simp
          have h2 := State.entersLife_of h rfl (fun j hj => by rw [tm, if_neg hj])
            (by rw [mi, Context.touched_eq]; exact ⟨rfl, rfl, rfl, rfl⟩)
          rw [mi, Context.touched_eq] at h2
          exact h2
      · have f : (s.ctx i).finding (some w) = .other w := by simp [Context.finding, own]
        refine ⟨fun h => absurd (Option.some.inj h) own, fun h => absurd (Option.some.inj h) own, ?_, ?_,
          fun h => (by cases h), fun h => (by cases h)⟩
        · intro v h _ hl
          rw [f]; simp only [State.applyFinding, hl]
        · intro v h _ hl
          injection h with h; subst h
          have e : s.applyFinding i serials.length (.other w) = s.enterUnmatched i w := by
            unfold State.applyFinding
            cases hc : (s.ctx i).life <;> simp_all
          rw [f, e]
          have t := s.transition_entersLife i .unmatched .none (by decide)
          refine ⟨_, t, ?_⟩
          unfold State.enterUnmatched
          dsimp only
          rw [State.transition_ctx_same]
          simp [cc, ca]

/-! ## The filters in force -/

/-- What a SET_FILTER card replaces, in the terms of its parameters (R159). -/
theorem Walk.replacedFilter_iff (w : Walk) (n : Fin 6) (f : Filter) (h : w.request = .setFilter) :
    w.replacedFilter = some (n, f) ↔ w.givesFilter n f := by
  unfold Walk.givesFilter Walk.replacedFilter Walk.filterEntry indexBelow
  generalize w.param8 0 = a
  generalize w.param8 1 = b
  generalize w.param8 2 = c
  generalize w.param16 4 = d
  generalize w.param16 6 = e
  obtain ⟨en, mask, pat, dest⟩ := f
  have m := mask.isLt
  have p := pat.isLt
  constructor
  · intro k
    split at k <;> rename_i x y <;> try cases k
    split at x <;> cases x
    split at y <;> rename_i u v <;> try cases y
    split at u <;> cases u
    split at y <;> cases y
    rename_i hb de
    refine ⟨h, rfl, ?_, ?_, ?_, ?_⟩
    · simp [Fin.ext_iff]; rcases b with _ | _ | b <;> simp_all
    · unfold Destination.ofCode at v
      split at v <;> cases v <;> rfl
    · simp; omega
    · simp; omega
  · rintro ⟨-, rfl, rfl, rfl, rfl, rfl⟩
    have l : en.toNat < 2 := by cases en <;> decide
    have q : Destination.ofCode dest.number = some dest := by cases dest <;> rfl
    have r : mask.toNat ≤ 4095 ∧ pat.toNat ≤ 4095 := ⟨by omega, by omega⟩
    simp only [dif_pos l, q, if_pos r, dif_pos n.isLt]
    cases en <;> simp

/-- The filters in force are those by which the part judges reports (R159). -/
theorem State.judgesBy_iff (s : State) (n : Fin 6) (f : Filter) : s.judgesBy n f ↔ s.filtersInForce.get n = f := by
  unfold State.judgesBy State.filtersInForce
  cases h : s.intake.walk with
  | none => simp [eq_comm]
  | some w =>
    have own : (∀ v g, some w = some v → ¬v.givesFilter n g) ↔ ∀ g, ¬w.givesFilter n g :=
      ⟨fun h g => h w g rfl, fun h v g e => Option.some.inj e ▸ h g⟩
    rw [own]
    simp only [Option.some.injEq, exists_eq_left']
    by_cases r : w.request = .setFilter
    · simp only [← fun g => w.replacedFilter_iff n g r, if_pos r]
      cases w.replacedFilter with
      | none => simp [eq_comm]
      | some q =>
        obtain ⟨k, g⟩ := q
        by_cases a : k = n
        · subst a; simp
        · simp [a, Table.get_set, @eq_comm _ f]
    · simp [Walk.givesFilter, r, @eq_comm _ f]

end Sys2Proof.Machine
end

