-- ==== Sys2Proof/Laws/Choices.lean ====
section
/-! SUPPORT. What a chain's choice is read from, and when a chain has nothing more to choose (R114). -/

namespace Sys2Proof.Machine

/-- A chain that has chosen is no longer IDLE (R114). -/
theorem State.start_not_idle (s : State) (ch : Fin 4) (c : Choice) : ((s.start ch c).chain ch).state ≠ .idle := by
  cases c <;> simp [State.start, State.startTransaction]

/-- A chain that has chosen has nothing more to choose (R114). -/
theorem State.arbitrate_arbitrate (s : State) (ch : Fin 4) : (s.arbitrate ch).arbitrate ch = s.arbitrate ch := by
  rcases s.arbitrate_eq ch with e | ⟨_, c, _, e⟩
  · rw [e, e]
  · rw [e]
    have := s.start_not_idle ch c
    rcases (s.start ch c).arbitrate_eq ch with k | ⟨k, _⟩
    · exact k
    · exact absurd k this

/-- The choice of a chain is read from its record and from the contexts on it. -/
theorem State.choice_congr {s t : State} {ch : Fin 4} (k : t.chain ch = s.chain ch)
    (c : ∀ i, t.ctx i = s.ctx i ∨ (s.ctx i).chain ≠ ch ∧ (t.ctx i).chain ≠ ch) : t.choice ch = s.choice ch := by
  have ready : (t.contexts.enum.filter fun x => (s.chain ch).readbackReady ch x.1 x.2) =
      s.contexts.enum.filter fun x => (s.chain ch).readbackReady ch x.1 x.2 := by
    rw [Table.enum_eq_ofFn, Table.enum_eq_ofFn, List.ofFn_eq_map, List.ofFn_eq_map]
    generalize List.finRange 256 = l
    induction l with
    | nil => rfl
    | cons i l ih =>
      simp only [List.map_cons, List.filter_cons]
      rcases c i with h | ⟨h1, h2⟩
      · rw [show t.contexts.get i = s.contexts.get i from h, ih]
      · have off : ∀ c : Context, c.chain ≠ ch → (s.chain ch).readbackReady ch i c = false := fun c h => by
          simp [Chain.readbackReady, Context.liveOn, Context.ofChain, h]
        rw [if_neg (by simp [off _ h2, show t.contexts.get i = t.ctx i from rfl]),
          if_neg (by simp [off _ h1, show s.contexts.get i = s.ctx i from rfl]), ih]
  unfold State.choice State.nextReadback
  rw [k]
  simp only [ready]

/-- What happens on another chain alone leaves a chain that has chosen as it is. -/
theorem State.chosen_congr {s t : State} {ch : Fin 4} (h : s.arbitrate ch = s) (k : t.chain ch = s.chain ch)
    (c : ∀ i, t.ctx i = s.ctx i ∨ (s.ctx i).chain ≠ ch ∧ (t.ctx i).chain ≠ ch) : t.arbitrate ch = t := by
  rcases t.arbitrate_eq ch with e | ⟨i, x, hx, -⟩
  · exact e
  · rw [State.choice_congr k c] at hx
    rw [k] at i
    have := s.start_not_idle ch x
    unfold State.arbitrate at h
    simp only [i, hx] at h
    rw [h] at this
    exact absurd i this

theorem lowestAddress_mem {l : List (Fin 256 × Context)} {x : Fin 256 × Context} (h : lowestAddress l = some x) :
    x ∈ l := by
  induction l generalizing x with
  | nil => cases h
  | cons y l ih =>
    unfold lowestAddress at h
    cases e : lowestAddress l with
    | none => rw [e] at h; cases h; exact List.mem_cons_self
    | some z =>
      rw [e] at h
      dsimp only at h
      split at h <;> cases h
      · exact List.mem_cons_self
      · exact List.mem_cons_of_mem _ (ih e)

/-- The context that a chain would read back is on that chain (R136). -/
theorem State.nextReadback_on (s : State) {ch : Fin 4} {i : Fin 256} (h : s.nextReadback ch = some i) :
    (s.ctx i).chain = ch := by
  have on : ∀ x ∈ s.contexts.enum.filter fun x => (s.chain ch).readbackReady ch x.1 x.2, (s.ctx x.1).chain = ch := by
    intro x hx
    obtain ⟨m, r⟩ := List.mem_filter.1 hx
    have e : s.ctx x.1 = x.2 := (Table.mem_enum _ _).1 m
    rw [e]
    unfold Chain.readbackReady Context.liveOn Context.ofChain at r
    simp_all
  unfold State.nextReadback at h
  dsimp only at h
  split at h
  · next x hx => cases h; exact on x (List.mem_filter.1 (lowestAddress_mem hx)).1
  · rw [Option.map_eq_some_iff] at h
    obtain ⟨x, hx, rfl⟩ := h
    exact on x (lowestAddress_mem hx)

theorem State.choice_readback {s : State} {ch : Fin 4} {i : Fin 256} (h : s.choice ch = some (.readback i)) :
    s.nextReadback ch = some i := by
  unfold State.choice at h
  dsimp only at h
  repeat' split at h
  all_goals first
    | cases h; assumption
    | simp at h

theorem State.arbitrate_other {s : State} {ch j : Fin 4} (ne : j ≠ ch) (h : s.arbitrate ch = s) :
    (s.arbitrate j).arbitrate ch = s.arbitrate j := by
  refine State.chosen_congr h (s.arbitrate_chain_other ne) fun i => ?_
  rcases s.arbitrate_eq j with e | ⟨hi, c, hc, e⟩
  · exact .inl (by rw [e])
  · rw [e, State.start_ctx]
    by_cases k : c = .readback i
    · subst k
      have on : (s.ctx i).chain = j := by
        exact s.nextReadback_on (State.choice_readback hc)
      rw [if_pos rfl, Context.touched_eq]
      exact .inr ⟨fun h => ne (on.symm.trans h), fun h => ne (on.symm.trans h)⟩
    · exact .inl (if_neg k)

/-- A chain that has chosen stays so while another chooses. -/
theorem State.arbitrate_chosen {s : State} {ch : Fin 4} (j : Fin 4) (h : s.arbitrate ch = s) :
    (s.arbitrate j).arbitrate ch = s.arbitrate j := by
  by_cases e : j = ch
  · subst e; exact s.arbitrate_arbitrate j
  · exact State.arbitrate_other e h

theorem State.arbitrateAll_chosen (s : State) (ch : Fin 4) : s.arbitrateAll.arbitrate ch = s.arbitrateAll := by
  have go : ∀ (l : List (Fin 4)) (s : State), (s.arbitrate ch = s ∨ ch ∈ l) →
      (l.foldl State.arbitrate s).arbitrate ch = l.foldl State.arbitrate s := by
    intro l
    induction l with
    | nil => intro s h; simpa using h
    | cons j l ih =>
      intro s h
      refine ih _ ?_
      rcases h with h | h
      · exact .inl (State.arbitrate_chosen j h)
      · rcases List.mem_cons.1 h with rfl | h
        · exact .inl (s.arbitrate_arbitrate _)
        · exact .inr h
  exact go _ s (.inr (List.mem_finRange ch))

theorem State.takeCounts_chosen (s : State) (l : List (Fin 4)) (ch : Fin 4) (h : s.arbitrate ch = s ∨ ch ∈ l) :
    (s.takeCounts l).arbitrate ch = s.takeCounts l := by
  unfold State.takeCounts
  induction l generalizing s with
  | nil => simpa using h
  | cons j l ih =>
    refine ih _ ?_
    by_cases e : j = ch
    · subst e; exact .inl (State.arbitrate_arbitrate _ _)
    · rcases h with h | h
      · exact .inl (State.arbitrate_other e (State.chosen_congr h (State.modChain_chain_other _ e _) fun i => .inl rfl))
      · exact .inr (by simpa [Ne.symm e] using h)

/-- After a frame event no chain has anything more to choose (R114, R132). -/
theorem State.frameEvent_chosen (s : State) (ch : Fin 4) : s.frameEvent.arbitrate ch = s.frameEvent := by
  unfold State.frameEvent
  dsimp only
  split
  · refine State.takeCounts_chosen _ _ _ (.inl ?_)
    exact State.arbitrateAll_chosen _ _
  · exact State.takeCounts_chosen _ _ _ (.inr (List.mem_finRange ch))
end Sys2Proof.Machine
end

