-- ==== Sys2Proof/Laws/Scan.lean ====
section
/-! SUPPORT. What an access of a scan does, place by place, and what the accesses of a scan come to with nothing between
them. -/

namespace Sys2Proof.Machine

/-! ## One access -/

theorem State.goodAccesses_one (s : State) : s.goodAccesses 1 = 0 ∨ s.goodAccesses 1 = 1 := by
  have := s.goodAccesses_le 1; omega

/-- An access that ends well, as the part accounts for it (R172). -/
theorem State.accessed_good {s : State} (g : s.goodAccesses 1 = 1) :
    s.accessed 1 = { s with link := { s.link with failAfter := s.link.failAfter.map (· - 1) } } := by
  have h : ¬s.intake.halted = true := fun h => by rw [s.goodAccesses_halted h] at g; cases g
  unfold State.accessed
  rw [if_neg h, if_pos g]

/-- An access that does not end well is a bus error (R172). -/
theorem State.accessed_bad {s : State} (h : s.intake.halted = false) (g : s.goodAccesses 1 = 0) :
    s.accessed 1 = s.busFaulted := by
  unfold State.accessed
  rw [if_neg (by simp [h]), if_neg (by omega)]

theorem State.not_halted {s : State} {k : Nat} (hk : 0 < k) (g : s.goodAccesses k = k) : s.intake.halted = false := by
  by_contra h
  rw [s.goodAccesses_halted (by simpa using h)] at g
  omega

theorem State.areaWrite_good {s : State} (g : s.goodAccesses 1 = 1) (off : Nat) (bs : List Byte) :
    s.areaWrite off bs = { s.accessed 1 with area := s.area.writeBytes (s.areaBase + off) bs } := by
  rw [State.areaWrite_eq, if_pos g]

theorem State.areaWrite_bad {s : State} (h : s.intake.halted = false) (g : s.goodAccesses 1 = 0) (off : Nat)
    (bs : List Byte) : s.areaWrite off bs = s.busFaulted := by
  rw [State.areaWrite_eq, if_neg (by omega), State.accessed_bad h g]; rfl

theorem State.areaRead_good {s : State} (g : s.goodAccesses 1 = 1) (off n : Nat) :
    s.areaRead off n = (some (s.area.readBytes (s.areaBase + off) n), s.accessed 1) := by
  rw [State.areaRead_eq, if_pos g]

theorem State.areaRead_bad {s : State} (h : s.intake.halted = false) (g : s.goodAccesses 1 = 0) (off n : Nat) :
    s.areaRead off n = (none, s.busFaulted) := by
  rw [State.areaRead_eq, if_neg (by omega), State.accessed_bad h g]

/-! ## The places of a scan -/

theorem State.setScan_eq (s : State) (p : Option ScanPhase) : s.setScan p = s.scanAt p := rfl

theorem State.scanTo_eq (s : State) (p : ScanPhase) :
    s.scanTo p = s.scanAt (if s.intake.halted then none else some p) := rfl

theorem State.scanTo_busFaulted (s : State) (p : ScanPhase) : s.busFaulted.scanTo p = s.busFaulted := rfl

theorem State.scanTo_running {s : State} (h : s.intake.halted = false) (p : ScanPhase) :
    s.scanTo p = s.scanAt (some p) := by
  rw [State.scanTo_eq, h]; rfl

theorem State.writeStatusPart_bad {s : State} (h : s.intake.halted = false) (g : s.goodAccesses 1 = 0) (w : AreaWrite)
    (ws : List AreaWrite) : s.writeStatusPart w ws = s.busFaulted := by
  unfold State.writeStatusPart
  rw [State.areaWrite_bad h g, State.scanTo_busFaulted]

/-- A write of the status block that ends well leaves its bytes, and the next one or the mirror follows (R171). -/
theorem State.writeStatusPart_good {s : State} (g : s.goodAccesses 1 = 1) (w : AreaWrite) (ws : List AreaWrite) :
    s.writeStatusPart w ws =
      { s.accessed 1 with
        area := s.area.writeBytes (s.areaBase + w.1) w.2
        intake := { s.intake with
          scan := some (if ws = [] then .mirror (List.finRange 256) else .status ws) } } := by
  have h : s.intake.halted = false := State.not_halted (by decide) g
  unfold State.writeStatusPart
  rw [State.areaWrite_good g, State.accessed_good g]
  refine (State.scanTo_running (by exact h) _).trans ?_
  simp only [List.isEmpty_iff]
  rfl

theorem State.copyStatus_bad {s : State} (h : s.intake.halted = false) (g : s.goodAccesses 1 = 0) :
    s.copyStatus = ({ s with intake := { s.intake with scanCount := s.intake.scanCount + 1 } } : State).busFaulted := by
  unfold State.copyStatus State.statusWrites
  exact State.writeStatusPart_bad (s := s.modIntake fun k => { k with scanCount := k.scanCount + 1 }) h g _ _

/-- The copy of the status block, with its first write (R171). -/
theorem State.copyStatus_good {s : State} (g : s.goodAccesses 1 = 1) :
    s.copyStatus =
      { s.accessed 1 with
        area := s.area.writeBytes (s.areaBase + 4) (bytes32 (s.intake.scanCount + 1).toNat)
        intake := { s.intake with
          scanCount := s.intake.scanCount + 1
          scan := some (.status [(0, bytes32 s.tick.toNat), (8, s.statusBody),
            (0xBC, bytes32 (s.intake.scanCount + 1).toNat)]) } } := by
  unfold State.copyStatus State.statusWrites
  refine (State.writeStatusPart_good (s := s.modIntake fun k => { k with scanCount := k.scanCount + 1 }) g _ _).trans ?_
  rw [State.accessed_good g,
    State.accessed_good (s := s.modIntake fun k => { k with scanCount := k.scanCount + 1 }) g]
  rfl

theorem State.setDirty_ctx (s : State) (i j : Fin 256) (b : Bool) :
    (s.setDirty i b).ctx j = if j = i then { s.ctx j with dirty := b } else s.ctx j := by
  show (Table.set _ _ _).get j = _
  rw [Table.get_set]
  by_cases h : j = i
  · subst h; simp
  · rw [if_neg (Ne.symm h), if_neg h]; rfl

theorem State.contexts_ext {s t : State} (h : ∀ i, s.ctx i = t.ctx i) : s.contexts = t.contexts := Table.ext_get h

/-- With no dirty context left the scan has ended (R171). -/
theorem State.mirrorPart_clean {s : State} {rest : List (Fin 256)} (d : ∀ i ∈ rest, (s.ctx i).dirty = false) :
    s.mirrorPart rest = s.scanAt none := by
  unfold State.mirrorPart
  have e : (rest.dropWhile fun i => !(s.ctx i).dirty) = [] := by
    rw [List.dropWhile_eq_nil_iff]
    intro i hi; simp [d i hi]
  rw [e]; rfl

theorem State.mirrorPart_dirty {s : State} {before later : List (Fin 256)} {i : Fin 256}
    (c : ∀ j ∈ before, (s.ctx j).dirty = false) (d : (s.ctx i).dirty = true) :
    s.mirrorPart (before ++ i :: later) = (s.writeMirror i).scanTo (.mirror later) := by
  unfold State.mirrorPart
  have e : ((before ++ i :: later).dropWhile fun i => !(s.ctx i).dirty) = i :: later := by
    rw [List.dropWhile_append_of_pos (fun j hj => by simp [c j hj])]
    simp [d]
  rw [e]

theorem State.writeMirror_bad {s : State} {i : Fin 256} (h : s.intake.halted = false) (d : (s.ctx i).dirty = true)
    (g : s.goodAccesses 1 = 0) : s.writeMirror i = s.busFaulted := by
  unfold State.writeMirror
  have w := State.areaWrite_bad (s := s.setDirty i false) h g (State.mirrorOffset i) (s.ctx i).mirrorBytes
  rw [if_pos (by simp [d, h])]
  dsimp only
  rw [w, if_pos (show (s.setDirty i false).busFaulted.intake.halted = true from rfl)]
  have e : ((s.setDirty i false).busFaulted.setDirty i true).contexts = s.contexts := by
    refine State.contexts_ext (s := (s.setDirty i false).busFaulted.setDirty i true) fun j => ?_
    rw [State.setDirty_ctx, show (s.setDirty i false).busFaulted.ctx j = (s.setDirty i false).ctx j from rfl,
      State.setDirty_ctx]
    split_ifs with h
    · subst h; rw [← d]
    · rfl
  exact congrArg (fun c => ({ s.busFaulted with contexts := c } : State)) e

theorem State.writeMirror_good {s : State} {i : Fin 256} (d : (s.ctx i).dirty = true) (g : s.goodAccesses 1 = 1) :
    s.writeMirror i =
      { s.accessed 1 with
        contexts := (s.setDirty i false).contexts
        area := s.area.writeBytes (s.areaBase + State.mirrorOffset i) (s.ctx i).mirrorBytes } := by
  have h : s.intake.halted = false := State.not_halted (by decide) g
  unfold State.writeMirror
  rw [if_pos (by simp [d, h])]
  dsimp only
  rw [State.areaWrite_good (s := s.setDirty i false) g, State.accessed_good (s := s.setDirty i false) g,
    State.accessed_good g, if_neg (by show ¬s.intake.halted = true; simp [h])]
  rfl

theorem State.mirrorPart_bad {s : State} {before later : List (Fin 256)} {i : Fin 256}
    (h : s.intake.halted = false) (c : ∀ j ∈ before, (s.ctx j).dirty = false) (d : (s.ctx i).dirty = true)
    (g : s.goodAccesses 1 = 0) : s.mirrorPart (before ++ i :: later) = s.busFaulted := by
  rw [State.mirrorPart_dirty c d, State.writeMirror_bad h d g, State.scanTo_busFaulted]

/-- The mirror record of the first dirty context that is left is written, and it is clean (R46, R171). -/
theorem State.mirrorPart_good {s : State} {before later : List (Fin 256)} {i : Fin 256}
    (c : ∀ j ∈ before, (s.ctx j).dirty = false) (d : (s.ctx i).dirty = true) (g : s.goodAccesses 1 = 1) :
    s.mirrorPart (before ++ i :: later) =
      { s.accessed 1 with
        contexts := (s.setDirty i false).contexts
        area := s.area.writeBytes (s.areaBase + State.mirrorOffset i) (s.ctx i).mirrorBytes
        intake := { s.intake with scan := some (.mirror later) } } := by
  have h : s.intake.halted = false := State.not_halted (by decide) g
  rw [State.mirrorPart_dirty c d, State.writeMirror_good d g, State.accessed_good g]
  exact State.scanTo_running (by exact h) _

/-! ## Cards -/

theorem State.readCard_bad {s : State} (h : s.intake.halted = false) (g : s.goodAccesses 1 = 0) (left : Nat)
    (solved : Bool) : s.readCard left solved = s.busFaulted := by
  unfold State.readCard
  rw [State.areaRead_bad h g]; rfl

/-- A card that has been read is the one at the cursor (R168). -/
theorem State.readCard_good {s : State} (g : s.goodAccesses 1 = 1) (left : Nat) (solved : Bool) :
    s.readCard left solved = (s.accessed 1).takeCard s.cardAtCursor left solved := by
  unfold State.readCard
  rw [State.areaRead_good g]
  show (s.accessed 1).takeCard (Card.ofBytes (s.accessed 1).intake.cursor _) left solved = _
  rw [State.accessed_good g, s.cardAtCursor_eq]

/-! ## Completions -/

theorem State.delivered_eq {s : State} (h : s.intake.halted = false) (c : Completion) :
    s.delivered c =
      { s with
        regs := { s.regs with noticeRaw := if c.notify then s.regs.noticeRaw ||| 1 else s.regs.noticeRaw }
        intake := { s.intake with completions := s.intake.completions.erase c } } := by
  unfold State.delivered State.completionWritten
  rw [if_neg (by simp [h])]
  cases c.notify <;> simp [h, State.modIntake, State.notice, Cause.bit]

theorem State.writeCompletionPart_bad {s : State} (h : s.intake.halted = false) (g : s.goodAccesses 1 = 0)
    (c : Completion) (rest : List Completion) (w : AreaWrite) (ws : List AreaWrite) :
    s.writeCompletionPart c rest w ws = s.busFaulted := by
  unfold State.writeCompletionPart
  rw [State.areaWrite_bad h g]
  have e : s.busFaulted.delivered c = s.busFaulted := rfl
  simp only [e, State.scanTo_busFaulted, ite_self]

/-- A write of a completion that ends well leaves its bytes; with the last one it leaves the list (R169, R170). -/
theorem State.writeCompletionPart_good {s : State} (g : s.goodAccesses 1 = 1) (c : Completion)
    (rest : List Completion) (w : AreaWrite) (ws : List AreaWrite) :
    s.writeCompletionPart c rest w ws =
      let t : State := { s.accessed 1 with area := s.area.writeBytes (s.areaBase + w.1) w.2 }
      if ws = [] then
        { t with
          regs := { s.regs with noticeRaw := if c.notify then s.regs.noticeRaw ||| 1 else s.regs.noticeRaw }
          intake := { s.intake with
            completions := s.intake.completions.erase c
            scan := some (State.completionsPhase rest) } }
      else t.scanAt (some (.completions (c :: rest) ws)) := by
  have h : s.intake.halted = false := State.not_halted (by decide) g
  unfold State.writeCompletionPart
  rw [State.areaWrite_good g, State.accessed_good g]
  dsimp only
  by_cases e : ws = []
  · rw [if_pos (by simp [e]), if_pos e, State.delivered_eq (by exact h)]
    exact State.scanTo_running (by exact h) _
  · rw [if_neg (by simpa using e), if_neg e]
    exact State.scanTo_running (by exact h) _

theorem State.readHostWords_bad {s : State} (h : s.intake.halted = false) (g : s.goodAccesses 1 = 0) :
    s.readHostWords = s.busFaulted := by
  unfold State.readHostWords
  rw [State.areaRead_bad h g]

/-- The host words that have been read are the copies of the host's read indices (R167). -/
theorem State.readHostWords_good {s : State} (g : s.goodAccesses 1 = 1) :
    s.readHostWords = s.withHostWords.accessed 1 := by
  unfold State.readHostWords
  rw [State.areaRead_good g, State.accessed_good g, State.accessed_good (s := s.withHostWords) g]
  unfold State.withHostWords State.modLogs
  simp only [(s.field_area 0xC0 4 0).2.1 (by decide), (s.field_area 0xC0 4 2).2.1 (by decide)]

/-- A scan that has read the host words goes on with the completions that wait (R167, R170). -/
theorem State.hostWords_good {s : State} (e : s.intake.scan = some .hostWords) (g : s.goodAccesses 1 = 1) :
    s.scanAccess = (s.withHostWords.accessed 1).scanAt (some (State.completionsPhase s.completionsInOrder)) := by
  have h : s.intake.halted = false := State.not_halted (by decide) g
  have a : s.scanAccess = s.readHostWords.scanTo (State.completionsPhase s.readHostWords.completionsInOrder) := by
    unfold State.scanAccess; rw [e]
  rw [a, State.readHostWords_good g, State.accessed_good (s := s.withHostWords) g]
  exact State.scanTo_running (by exact h) _

theorem State.hostWords_bad {s : State} (e : s.intake.scan = some .hostWords) (h : s.intake.halted = false)
    (g : s.goodAccesses 1 = 0) : s.scanAccess = s.busFaulted := by
  have a : s.scanAccess = s.readHostWords.scanTo (State.completionsPhase s.readHostWords.completionsInOrder) := by
    unfold State.scanAccess; rw [e]
  rw [a, State.readHostWords_bad h g, State.scanTo_busFaulted]

/-- The account of some accesses and of those after them is the account of them all. -/
theorem State.goodAccesses_add (s : State) (j k : Nat) (hj : 0 < j) :
    (s.goodAccesses j = j → (s.accessed j).goodAccesses k + j = s.goodAccesses (j + k)) ∧
      (s.goodAccesses j ≠ j → s.goodAccesses (j + k) = s.goodAccesses j) := by
  by_cases h : s.intake.halted = true
  · rw [s.goodAccesses_halted h, s.goodAccesses_halted h]
    exact ⟨fun e => by omega, fun _ => rfl⟩
  · constructor
    · intro g
      have a : s.accessed j = { s with link := { s.link with failAfter := s.link.failAfter.map (· - j) } } := by
        unfold State.accessed; rw [if_neg h, if_pos g]
      rw [a]
      unfold State.goodAccesses at g ⊢
      dsimp only
      split_ifs at g ⊢ with c
      · omega
      · cases hf : s.link.failAfter with
        | none => simp [Nat.add_comm]
        | some m =>
          rw [hf] at g
          simp only [Option.map_some] at g ⊢
          omega
    · intro g
      unfold State.goodAccesses at g ⊢
      split_ifs at g ⊢ with c
      · rfl
      · cases hf : s.link.failAfter with
        | none => rw [hf] at g; exact absurd rfl g
        | some m =>
          rw [hf] at g
          simp only at g ⊢
          omega

theorem State.accessed_add (s : State) (j k : Nat) (hj : 0 < j) (g : s.goodAccesses j = j) (D : Table Context 256)
    (m n : Memory) (p q : Option ScanPhase) :
    { (({ s.accessed j with area := m } : State).scanAt p).accessed k with
        contexts := D, area := n
        intake := { ((({ s.accessed j with area := m } : State).scanAt p).accessed k).intake with scan := q } } =
      { s.accessed (j + k) with contexts := D, area := n, intake := { (s.accessed (j + k)).intake with scan := q } } := by
  have h : ¬s.intake.halted = true := by simp [State.not_halted hj g]
  obtain ⟨a1, -⟩ := s.goodAccesses_add j k hj
  have a1 := a1 g
  have a : s.accessed j = { s with link := { s.link with failAfter := s.link.failAfter.map (· - j) } } := by
    unfold State.accessed; rw [if_neg h, if_pos g]
  generalize hv : ({ s.accessed j with area := m } : State).scanAt p = v
  have vg : v.goodAccesses k = (s.accessed j).goodAccesses k := by rw [← hv]; rfl
  have vh : v.intake.halted = s.intake.halted := by rw [← hv, a]; rfl
  unfold State.accessed
  rw [vh, if_neg h, if_neg h]
  by_cases e : v.goodAccesses k = k
  · have e2 : s.goodAccesses (j + k) = j + k := by omega
    rw [if_pos e, if_pos e2, ← hv, a]
    have : (s.link.failAfter.map (· - j)).map (· - k) = s.link.failAfter.map (· - (j + k)) := by
      cases s.link.failAfter <;> simp [Nat.sub_sub]
    show ({ s with
      contexts := D, area := n, intake := { s.intake with scan := q },
      link := { s.link with failAfter := (s.link.failAfter.map (· - j)).map (· - k) } } : State) = _
    rw [this]
  · have e2 : ¬s.goodAccesses (j + k) = j + k := by omega
    rw [if_neg e, if_neg e2, ← hv, a]
    rfl

/-! ## A scan with nothing between its accesses -/

/-- Accounts of accesses do not depend on where the scan stands, nor on the contexts. -/
theorem State.accessed_scanAt (s : State) (p q : Option ScanPhase) (C D : Table Context 256) (m : Memory) (k : Nat) :
    { ({ s.scanAt p with contexts := C } : State).accessed k with
        contexts := D, area := m
        intake := { (({ s.scanAt p with contexts := C } : State).accessed k).intake with scan := q } } =
      { s.accessed k with contexts := D, area := m, intake := { (s.accessed k).intake with scan := q } } := by
  have g : ({ s.scanAt p with contexts := C } : State).goodAccesses k = s.goodAccesses k := rfl
  have h : ({ s.scanAt p with contexts := C } : State).intake.halted = s.intake.halted := rfl
  unfold State.accessed
  rw [g, h]
  split_ifs <;> rfl

theorem State.areaWrites_scanAt (s : State) (p q : Option ScanPhase) (ws : List AreaWrite) :
    ((s.scanAt p).areaWrites ws).scanAt q = (s.areaWrites ws).scanAt q ∧
      ((s.scanAt p).areaWrites ws).intake.halted = (s.areaWrites ws).intake.halted := by
  rw [State.areaWrites_eq, State.areaWrites_eq]
  have g : (s.scanAt p).goodAccesses ws.length = s.goodAccesses ws.length := rfl
  have h : (s.scanAt p).intake.halted = s.intake.halted := rfl
  have b : (s.scanAt p).areaBase = s.areaBase := rfl
  unfold State.accessed
  rw [g, h, b]
  refine ⟨?_, ?_⟩ <;> split_ifs <;> rfl

theorem State.areaWrites_scanTo (s : State) (p : Option ScanPhase) (q : ScanPhase) (ws : List AreaWrite) :
    ((s.scanAt p).areaWrites ws).scanTo q = (s.areaWrites ws).scanTo q := by
  obtain ⟨e, h⟩ := s.areaWrites_scanAt p (if (s.areaWrites ws).intake.halted then none else some q) ws
  rw [State.scanTo_eq, State.scanTo_eq, h, e]

theorem State.areaWrites_halted {s : State} (h : s.intake.halted = true) (ws : List AreaWrite) : s.areaWrites ws = s := by
  induction ws with
  | nil => rfl
  | cons w ws ih => rw [State.areaWrites_cons, State.areaWrite_halted h, ih]

/-- A scan that has ended makes no access. -/
theorem State.scanAccess_none {s : State} (h : s.intake.scan = none) : s.scanAccess = s := by
  unfold State.scanAccess; rw [h]

theorem State.iterate_none {s : State} (h : s.intake.scan = none) (n : Nat) : State.scanAccess^[n] s = s := by
  induction n with
  | zero => rfl
  | succ n ih => rw [Function.iterate_succ_apply, State.scanAccess_none h, ih]

theorem State.comesTo_none {s : State} (h : s.intake.scan = none) : s.comesTo s := ⟨h, 0, rfl⟩

theorem State.comesTo_iterate {s t : State} (n : Nat) (h : (State.scanAccess^[n] s).comesTo t) : s.comesTo t := by
  obtain ⟨e, m, h⟩ := h
  exact ⟨e, m + n, by rw [Function.iterate_add_apply, h]⟩

/-- Where a scan comes to is one state. -/
theorem State.comesTo_unique {s t u : State} (h : s.comesTo t) (k : s.comesTo u) : t = u := by
  obtain ⟨a, n, rfl⟩ := h
  obtain ⟨b, m, rfl⟩ := k
  rcases Nat.le_total n m with l | l
  · obtain ⟨d, rfl⟩ := Nat.exists_eq_add_of_le l
    rw [Nat.add_comm, Function.iterate_add_apply, State.iterate_none a]
  · obtain ⟨d, rfl⟩ := Nat.exists_eq_add_of_le l
    rw [Nat.add_comm, Function.iterate_add_apply, State.iterate_none b]

theorem State.advanceScan_iterate (n : Nat) (s : State) : State.advanceScan n s = State.scanAccess^[n] s := by
  induction n generalizing s with
  | zero => rfl
  | succ n ih => exact ih _

theorem State.goOn_goesOn (s : State) : s.goesOn s.goOn := ⟨_, _, State.advanceScan_iterate _ _⟩

/-- The writes of the status block, one after another (R171). -/
theorem State.status_iterate (ws : List AreaWrite) : ∀ {s : State}, ws ≠ [] → s.intake.scan = some (.status ws) →
    ∃ n, State.scanAccess^[n] s = (s.areaWrites ws).scanTo (.mirror (List.finRange 256)) := by
  induction ws with
  | nil => exact fun h => absurd rfl h
  | cons w ws ih =>
    intro s _ e
    have a : s.scanAccess = s.writeStatusPart w ws := by unfold State.scanAccess; rw [e]
    unfold State.writeStatusPart at a
    rw [State.areaWrites_cons]
    by_cases h : ws = []
    · subst h
      exact ⟨1, a⟩
    · rw [if_neg (by simpa using h)] at a
      by_cases k : (s.areaWrite w.1 w.2).intake.halted = true
      · refine ⟨1, ?_⟩
        rw [Function.iterate_one, a, State.areaWrites_halted k, State.scanTo_eq, State.scanTo_eq, k]; rfl
      · rw [State.scanTo_eq, if_neg k] at a
        obtain ⟨n, hn⟩ := ih (s := s.scanAccess) h (by rw [a]; rfl)
        refine ⟨n + 1, ?_⟩
        rw [Function.iterate_succ_apply, hn, a, State.areaWrites_scanTo]

/-- The account of the accesses that follow a good one, wherever the scan then stands. -/
theorem State.accessed_after {s : State} (g : s.goodAccesses 1 = 1) (p q : Option ScanPhase)
    (C D : Table Context 256) (m n : Memory) (k : Nat) :
    let u : State := { s.accessed 1 with contexts := C, area := m, intake := { s.intake with scan := p } }
    { u.accessed k with contexts := D, area := n, intake := { (u.accessed k).intake with scan := q } } =
      { s.accessed (k + 1) with contexts := D, area := n, intake := { (s.accessed (k + 1)).intake with scan := q } } := by
  intro u
  obtain ⟨-, -, -, b⟩ := s.accessed_succ m k
  have ue : u = { ({ s.accessed 1 with area := m } : State).scanAt p with contexts := C } := by
    show ({ s.accessed 1 with contexts := C, area := m, intake := { s.intake with scan := p } } : State) = _
    rw [State.accessed_good g]; rfl
  rw [ue, State.accessed_scanAt]
  exact congrArg (fun x : State => ({ x with
    contexts := D, intake := { x.intake with scan := q } } : State)) (b n)

/-- Mirror records are those of the contexts that they show. -/
theorem State.mirrors_congr (s u : State) (L : List (Fin 256)) (M : Memory) (h : ∀ x ∈ L, u.ctx x = s.ctx x) :
    L.foldl (fun m j => m.writeBytes (s.areaBase + State.mirrorOffset j) (u.ctx j).mirrorBytes) M =
      L.foldl (fun m j => m.writeBytes (s.areaBase + State.mirrorOffset j) (s.ctx j).mirrorBytes) M := by
  induction L generalizing M with
  | nil => rw [List.foldl_nil, List.foldl_nil]
  | cons x L ih =>
    rw [List.foldl_cons, List.foldl_cons, h x List.mem_cons_self]
    exact ih _ fun y hy => h y (List.mem_cons_of_mem _ hy)

/-- The mirror records of the dirty ones of some contexts, one after another (R46, R171). -/
theorem State.mirror_comesTo (ids : List (Fin 256)) : ∀ {s : State} {rest : List (Fin 256)}, s.intake.halted = false →
    rest.Nodup → s.intake.scan = some (.mirror rest) → (rest.filter fun i => (s.ctx i).dirty) = ids →
    ∃ t, s.comesTo t ∧
      t = { s.accessed ids.length with
        contexts := t.contexts, area := t.area, intake := { (s.accessed ids.length).intake with scan := none } } ∧
      (∀ i, t.ctx i =
        { s.ctx i with dirty := (s.ctx i).dirty && !decide (i ∈ ids.take (s.goodAccesses ids.length)) }) ∧
      t.area = (ids.take (s.goodAccesses ids.length)).foldl
        (fun m i => m.writeBytes (s.areaBase + State.mirrorOffset i) (s.ctx i).mirrorBytes) s.area := by
  induction ids with
  | nil =>
    intro s rest h nd e hi
    have d : ∀ i ∈ rest, (s.ctx i).dirty = false := by
      intro i hr
      have := (List.filter_eq_nil_iff.1 hi) i hr
      simpa using this
    have a : s.scanAccess = s.scanAt none := by
      rw [← State.mirrorPart_clean d]; unfold State.scanAccess; rw [e]
    refine ⟨s.scanAt none, ⟨rfl, 1, a⟩, ?_, fun i => ?_, ?_⟩
    · rw [List.length_nil, State.accessed_zero]; rfl
    · simp only [List.take_nil, List.not_mem_nil, decide_false, Bool.not_false, Bool.and_true]; rfl
    · simp only [List.take_nil, List.foldl_nil]; rfl
  | cons i ids ih =>
    intro s rest h nd e hi
    obtain ⟨before, later, rfl, c, d, hl⟩ := List.filter_eq_cons_iff.1 hi
    have c' : ∀ j ∈ before, (s.ctx j).dirty = false := fun j hj => by simpa using c j hj
    have a : s.scanAccess = s.mirrorPart (before ++ i :: later) := by unfold State.scanAccess; rw [e]
    obtain ⟨b1, b2, b3, -⟩ := s.accessed_succ (s.area.writeBytes (s.areaBase + State.mirrorOffset i) (s.ctx i).mirrorBytes)
      ids.length
    have nl := (List.nodup_append.1 nd).2.1
    rw [List.nodup_cons] at nl
    have ni : i ∉ ids := fun hm => nl.1 (List.mem_of_mem_filter (hl ▸ hm))
    rw [List.length_cons]
    rcases s.goodAccesses_one with g | g
    · rw [State.mirrorPart_bad h c' d g] at a
      have kg := b2 g
      have bf : s.accessed (ids.length + 1) = s.busFaulted := by
        unfold State.accessed; rw [if_neg (by simp [h]), if_neg (by omega)]
      refine ⟨s.busFaulted, ⟨rfl, 1, a⟩, ?_, fun j => ?_, ?_⟩
      · rw [bf]; rfl
      · rw [kg]; simp; rfl
      · rw [kg]; rfl
    · rw [State.mirrorPart_good c' d g] at a
      obtain ⟨m, hm⟩ : ∃ m, s.goodAccesses (ids.length + 1) = m + 1 := ⟨_, (Nat.sub_add_cancel (b3 g)).symm⟩
      rw [if_pos g, hm] at b1
      generalize hu : s.scanAccess = u at a
      have uc : ∀ j, u.ctx j = if j = i then { s.ctx j with dirty := false } else s.ctx j := by
        intro j; rw [a]; exact State.setDirty_ctx s i j false
      have ag := State.accessed_good g
      have uh : u.intake.halted = false := by rw [a]; exact h
      have ub : u.areaBase = s.areaBase := by rw [a, ag]; rfl
      have ua : u.area = s.area.writeBytes (s.areaBase + State.mirrorOffset i) (s.ctx i).mirrorBytes := by rw [a]
      have ug : u.goodAccesses ids.length = m := by
        rw [show m = m + 1 - 1 from rfl, ← b1, a, ag]; rfl
      obtain ⟨t, t1, t2, t3, t4⟩ := ih (s := u) uh nl.2 (by rw [a]) (by
        rw [← hl]
        refine List.filter_congr fun j hj => ?_
        have ne : j ≠ i := fun e => nl.1 (e ▸ hj)
        rw [uc, if_neg ne])
      refine ⟨t, State.comesTo_iterate 1 (by rw [Function.iterate_one, hu]; exact t1), ?_, fun j => ?_, ?_⟩
      · refine t2.trans ?_
        rw [a]
        exact State.accessed_after g _ _ _ _ _ _ _
      · rw [t3, uc, ug, hm, List.take_succ_cons]
        by_cases hj : j = i
        · subst hj
          simp [d]
        · simp [hj]
      · rw [t4, ua, ub, ug, hm, List.take_succ_cons, List.foldl_cons]
        exact State.mirrors_congr s u _ _ fun x hx => by
          rw [uc, if_neg fun e => ni (by rw [← e]; exact List.mem_of_mem_take hx)]


/-- The last step of a scan with nothing between its accesses: the four writes of the status block, then the mirror records. -/
theorem State.copy_iterate {s : State} (e : s.intake.scan = some .copy) :
    ∃ n, State.scanAccess^[n] s =
      ((s.modIntake fun k => { k with scanCount := k.scanCount + 1 }).areaWrites
        (s.modIntake fun k => { k with scanCount := k.scanCount + 1 }).statusWrites).scanTo
          (.mirror (List.finRange 256)) := by
  have a : s.scanAccess = s.copyStatus := by unfold State.scanAccess; rw [e]
  generalize hs : (s.modIntake fun k => { k with scanCount := k.scanCount + 1 }) = s1
  have a1 : s.copyStatus = match s1.statusWrites with
    | [] => s1.setScan none
    | w :: ws => s1.writeStatusPart w ws := by rw [← hs]; rfl
  unfold State.statusWrites at a1 ⊢
  dsimp only at a1 ⊢
  have st : ∀ ws : List AreaWrite, ∀ w : AreaWrite, ws ≠ [] →
      ∃ n, State.scanAccess^[n] (s1.writeStatusPart w ws) = (s1.areaWrites (w :: ws)).scanTo (.mirror (List.finRange 256)) := by
    intro ws w hw
    unfold State.writeStatusPart
    rw [if_neg (by simpa using hw), State.areaWrites_cons]
    by_cases k : (s1.areaWrite w.1 w.2).intake.halted = true
    · refine ⟨0, ?_⟩
      rw [State.areaWrites_halted k, State.scanTo_eq, State.scanTo_eq, k]; rfl
    · obtain ⟨n, hn⟩ := State.status_iterate ws (s := (s1.areaWrite w.1 w.2).scanTo (.status ws)) hw
        (by rw [State.scanTo_eq, if_neg k]; rfl)
      refine ⟨n, ?_⟩
      rw [hn, State.scanTo_eq (s1.areaWrite w.1 w.2), if_neg k, State.areaWrites_scanTo]
  obtain ⟨n, hn⟩ := st _ (0x04, bytes32 s1.intake.scanCount.toNat) (by
    show [(0x00, bytes32 s1.tick.toNat), (0x08, s1.statusBody), (0xBC, bytes32 s1.intake.scanCount.toNat)] ≠ []
    simp)
  refine ⟨n + 1, ?_⟩
  rw [Function.iterate_succ_apply, a, a1]
  exact hn

theorem State.delivered_scanAt (z : State) (p : Option ScanPhase) (c : Completion) (q : ScanPhase) :
    ((z.scanAt p).delivered c).scanTo q = (z.delivered c).scanTo q := by
  unfold State.delivered State.completionWritten
  have : (z.scanAt p).intake.halted = z.intake.halted := rfl
  rw [this]
  by_cases h : z.intake.halted = true
  · rw [if_pos h, if_pos h, State.scanTo_eq, State.scanTo_eq, this]; rfl
  · rw [if_neg h, if_neg h]
    rcases hc : c.notify with _ | _
    · simp [State.scanTo_eq, State.modIntake, State.scanAt]
    · simp [State.scanTo_eq, State.modIntake, State.scanAt, h, State.notice]

theorem State.delivered_scanTo (s : State) (p : Option ScanPhase) (ws : List AreaWrite) (c : Completion) (q : ScanPhase) :
    (((s.scanAt p).areaWrites ws).delivered c).scanTo q = ((s.areaWrites ws).delivered c).scanTo q := by
  obtain ⟨h, -⟩ := s.areaWrites_scanAt p none ws
  have e : (s.scanAt p).areaWrites ws = (s.areaWrites ws).scanAt ((s.scanAt p).areaWrites ws).intake.scan := by
    generalize (s.scanAt p).areaWrites ws = y at h ⊢
    have := congrArg (fun t : State => t.scanAt y.intake.scan) h
    exact this
  rw [e, State.delivered_scanAt]

/-- The writes of a completion, one after another, and then it leaves the list (R169, R170). -/
theorem State.completions_iterate (ws : List AreaWrite) : ∀ {s : State} {c : Completion} {rest : List Completion}
    {w : AreaWrite}, s.intake.scan = some (.completions (c :: rest) (w :: ws)) →
    ∃ n, State.scanAccess^[n] s = ((s.areaWrites (w :: ws)).delivered c).scanTo (State.completionsPhase rest) := by
  induction ws with
  | nil =>
    intro s c rest w e
    exact ⟨1, by
      have a : s.scanAccess = s.writeCompletionPart c rest w [] := by unfold State.scanAccess; rw [e]
      rw [Function.iterate_one, a]; rfl⟩
  | cons v ws ih =>
    intro s c rest w e
    have a : s.scanAccess = (s.areaWrite w.1 w.2).scanTo (.completions (c :: rest) (v :: ws)) := by
      unfold State.scanAccess; rw [e]; rfl
    rw [State.areaWrites_cons]
    by_cases k : (s.areaWrite w.1 w.2).intake.halted = true
    · refine ⟨1, ?_⟩
      have d : (s.areaWrite w.1 w.2).delivered c = s.areaWrite w.1 w.2 := by
        unfold State.delivered; rw [if_pos k]
      rw [Function.iterate_one, a, State.areaWrites_halted k, d, State.scanTo_eq, State.scanTo_eq, k]; rfl
    · rw [State.scanTo_eq, if_neg k] at a
      obtain ⟨n, hn⟩ := ih (s := s.scanAccess) (by rw [a]; rfl)
      refine ⟨n + 1, ?_⟩
      rw [Function.iterate_succ_apply, hn, a]
      exact State.delivered_scanTo _ _ _ _ _

/-! ## What a scan leaves -/

/-- The scan, if one stands between two accesses, has taken its first two steps. -/
def State.pastDelivery (s : State) : Prop :=
  ∀ p, s.intake.scan = some p → p ≠ .hostWords ∧ ∀ cs ws, p ≠ .completions cs ws

theorem State.scanTo_past (s : State) {p : ScanPhase} (h : p ≠ .hostWords ∧ ∀ cs ws, p ≠ .completions cs ws) :
    (s.scanTo p).pastDelivery := by
  intro q e
  unfold State.scanTo at e
  split_ifs at e
  · exact absurd e (by simp [State.setScan, State.modIntake])
  · exact Option.some.inj e ▸ h

/-- After its first two steps a scan leaves the logs and the completions that wait as they are (R167). -/
theorem State.scanAccess_past {s : State} (h : s.pastDelivery) :
    s.scanAccess.logs = s.logs ∧ s.scanAccess.intake.completions = s.intake.completions ∧ s.scanAccess.pastDelivery := by
  have walk : ∀ n b, walkPhase n b ≠ .hostWords ∧ ∀ cs ws, walkPhase n b ≠ .completions cs ws := by
    intro n b; unfold walkPhase; split_ifs <;> simp
  unfold State.scanAccess
  split
  · exact ⟨rfl, rfl, h⟩
  · next e => exact absurd rfl (h _ e).1
  · next e => exact absurd rfl ((h _ e).2 _ _)
  · next e => exact absurd rfl ((h _ e).2 _ _)
  · exact ⟨by simp, by simp, State.scanTo_past _ (by simp)⟩
  · refine ⟨by simp, by simp, ?_⟩
    unfold State.readCard
    split
    · exact fun q e => absurd e (by simp [State.setScan, State.modIntake])
    · unfold State.takeCard
      dsimp only
      split_ifs
      · split
        · exact State.scanTo_past _ (walk _ _)
        · exact fun q e => absurd e (by simp [State.modIntake])
      · exact State.scanTo_past _ (walk _ _)
      · exact State.scanTo_past _ (by simp)
  · refine ⟨by simp, by simp, ?_⟩
    unfold State.copyStatus State.statusWrites
    exact State.scanTo_past _ (by simp)
  · refine ⟨by simp, by simp, State.scanTo_past _ ?_⟩
    split_ifs <;> simp
  · exact ⟨by simp, by simp, State.scanTo_past _ (by simp)⟩
  · refine ⟨by simp, by simp, ?_⟩
    unfold State.mirrorPart
    split
    · exact fun q e => absurd e (by simp [State.setScan, State.modIntake])
    · exact State.scanTo_past _ (by simp)

/-! ## What other accesses leave of a scan -/

theorem State.areaWrite_scan (s : State) (off : Nat) (bs : List Byte) :
    (s.areaWrite off bs).intake.scan = s.intake.scan ∨ (s.areaWrite off bs).intake.scan = none := by
  unfold State.areaWrite
  split_ifs
  · exact .inl rfl
  · exact .inr rfl
  · exact .inl rfl

/-- A report leaves the scan where it stands, or ends it by a bus error (R165, R172). -/
theorem State.writeReport_scan (s : State) (d : Destination) (r : Report) :
    (s.writeReport d r).intake.scan = s.intake.scan ∨ (s.writeReport d r).intake.scan = none := by
  have gen : ∀ r : Report, (s.logGeneral r).intake.scan = s.intake.scan ∨ (s.logGeneral r).intake.scan = none := by
    intro r
    have e : s.releaseGeneral.makeRoom.intake = s.intake := by
      unfold State.makeRoom State.releaseGeneral
      split_ifs <;> rfl
    have w := s.releaseGeneral.makeRoom.areaWrite_scan
      (State.generalSlot s.releaseGeneral.makeRoom.logs.generalWrite) r.bytes
    rw [e] at w
    unfold State.logGeneral
    dsimp only
    split_ifs <;> exact w
  unfold State.writeReport
  split_ifs
  · cases d
    · exact gen r
    · show (s.logAlert r).intake.scan = _ ∨ (s.logAlert r).intake.scan = _
      unfold State.logAlert
      dsimp only
      split_ifs
      · exact s.areaWrite_scan _ _
      · exact s.areaWrite_scan _ _
      · exact gen _
      · exact gen _
  · exact .inl rfl

/-- The ends of solves leave a scan where it stands, or end it by a bus error (R52, R172). -/
theorem State.endSolves_scan (s : State) (vs : List Solve) :
    (s.endSolves vs).intake.scan = s.intake.scan ∨ (s.endSolves vs).intake.scan = none := by
  have fold : ∀ (l : List Report) (u : State),
      (l.foldl (fun s r => s.writeReport .alert r) u).intake.scan = u.intake.scan ∨
        (l.foldl (fun s r => s.writeReport .alert r) u).intake.scan = none := by
    intro l
    induction l with
    | nil => exact fun _ => .inl rfl
    | cons r l ih =>
      intro u
      rcases ih (u.writeReport .alert r) with e | e
      · rcases u.writeReport_scan .alert r with f | f
        · exact .inl (e.trans f)
        · exact .inr (e.trans f)
      · exact .inr e
  unfold State.endSolves State.raiseTogether
  have e : ((vs.foldl State.writeSolve s).unordered (vs.flatMap s.solveReports)).2.intake = s.intake := by simp
  rw [← e]
  exact fold _ _

/-- When a service waits (R54, R58). -/
theorem State.serviceWaits_iff (s : State) : s.serviceWaits = true ↔ s.holdsService := by
  unfold State.serviceWaits State.holdsService
  rcases s.intake.walk with _ | w <;> rcases s.intake.scan with _ | p
  · simp
  · cases p <;> simp
  · simp
  · cases p <;> simp

end Sys2Proof.Machine
end

