-- ==== Sys2Proof/WellFormed.lean ====
section
/-! DEFINITION. Which commands can arise. A meaning is total: an ill-formed command has one too. -/

namespace Sys2Proof

/-- The host writes inside one of its own regions of the area plan: host words, request board and
staging slots (0x00C0..0x0CFF), or calibration sheets (0x3000..0x6FFF) (section 10.1). -/
def HostWrite.wf (w : HostWrite) : Bool :=
  (decide (0xC0 ≤ w.offset) && decide (w.offset + w.bytes.length ≤ 0xD00)) ||
  (decide (0x3000 ≤ w.offset) && decide (w.offset + w.bytes.length ≤ 0x7000))

/-- An answer has at least the byte whose start bit fell in the window (R103). -/
def answerWf (bytes : List Byte) : Bool := !bytes.isEmpty

/-- A bus error comes during a command of the part, not during another bus error: a second one cannot
arrive while halted (R172). -/
def Instr.isBusError : Instr → Bool
  | .areaBusError _ _ => true
  | _ => false

/-- The commands that can arise. -/
def Instr.wf : Instr → Bool
  | .restart _ _ host => host.all HostWrite.wf
  | .run _ host => host.all HostWrite.wf
  | .scan _ host => host.all HostWrite.wf
  | .scanTimerExpiry host => host.all HostWrite.wf
  | .followingScan host => host.all HostWrite.wf
  | .areaBusError _ c => !c.isBusError && c.wf
  | .tileAnswer _ bytes _ => answerWf bytes
  | .holdAnswer _ bytes _ => answerWf bytes
  | .rollSlotAnswer _ bytes _ => answerWf bytes
  | _ => true

end Sys2Proof
end

