-- ==== Sys2Proof/Tests/Slice0.lean ====
section
/-! SUPPORT. Small tests: the worked figures of the manual, one step of each command, the checks of WellFormed, and
for each obligation with hypotheses a concrete state that meets them. -/

namespace Sys2Proof.Tests

open Sys2Proof.Machine

set_option maxRecDepth 20000
set_option Elab.async false

/-! ## Helpers: small states -/

/-- The state after a command. -/
def after (c : Instr) (s : State) : State :=
  match exec c s with
  | .next t => t
  | _ => s

/-- A mix matrix whose rows are nearly the unit rows. -/
def unitMix : TermSet := ⟨⟨32767, 0, 0⟩, ⟨0, 32767, 0⟩, ⟨0, 0, 32767⟩⟩

/-- A set of zeros. -/
def blank : TermSet := ⟨⟨0, 0, 0⟩, ⟨0, 0, 0⟩, ⟨0, 0, 0⟩⟩

/-- An ADOPTED tile on chain 1 at address 7, in group 2, with page 3. -/
def adoptedTile : Context :=
  { Context.reset with
    life := .adopted, generation := 9, serial := 0x00C0FFEE, chain := 1, address := 7, group := 2, page := 3
    luminance := ⟨1000, 1000, 1000⟩, age := ⟨32768, 32768, 32768⟩, mix := unitMix, target := unitMix
    dirty := false }

/-- The same tile LIVE, with all its sets known. -/
def liveTile : Context :=
  { adoptedTile with life := .live, applied := some blank, sent := some unitMix, latched := some unitMix }

/-- The part after reset with one tile, context 5. -/
def wall (c : Context) : State := { State.reset with contexts := State.reset.contexts.set 5 c }

/-- A part with chain 1 changed. -/
def chained (f : Chain → Chain) (s : State) : State := s.modChain 1 f

/-- A part with every group changed. -/
def grouped (f : Group → Group) (s : State) : State := { s with groups := s.groups.map f }

/-- Card 3 of a kind, of version 1, with NOTIFY and some parameters. -/
def card (kind : Byte) (params : List Byte) : Card :=
  { index := 3, state := 1, version := 1, kind := kind, flags := 1, tag := 0xBEEF, params := padTo 36 params }

/-- The card under way of a scan that ends with it. -/
def taken (r : Request) (params : List Byte) : Walk :=
  { card := card 0 params, request := r, takenTick := 0, flags := Table.replicate 8 false
    longCards := Table.replicate 4 ⟨none, none⟩, left := 5, solved := false
    ending := true, restart := false, rescan := false }

/-- The card as it is when it has found these entries of every chain in the long-card table. -/
def found (e : LongEntries) (w : Walk) : Walk := { w with longCards := Table.replicate 4 e }

/-- A part with a card under way. -/
def under (r : Request) (params : List Byte) (s : State) : State :=
  { s with
    regs := { s.regs with run := true }
    intake := { s.intake with walk := some (taken r params), scanTimer := some 1000 } }

/-- A running part. -/
def running (s : State) : State :=
  { s with regs := { s.regs with run := true }, intake := { s.intake with scanTimer := some 1000 } }

/-- A part whose scan stands at some place. -/
def scanAt (p : ScanPhase) (s : State) : State := s.setScan (some p)

/-- A part of which a scan has made its first accesses, with nothing between them. -/
def scanned (n : Nat) (s : State) : State := State.advanceScan n (scanAt .hostWords s)

/-- A part whose area holds some bytes at an offset. -/
def holding (off : Nat) (bs : List Byte) (s : State) : State :=
  { s with area := s.area.writeBytes (s.areaBase + off) bs }

/-- The byte at an offset of card 3. -/
def shown (s : State) (off : Nat) : Byte := s.area.read (s.areaBase + 0x01C0 + off)

/-- A transaction for context 5 in a phase. -/
def transaction (kind : WorkKind) (phase : Phase) : Transaction :=
  { kind := kind, ctx := 5, generation := 9, address := 7, payload := some blank
    settings := ChainConfig.reset.recorded, attempts := 1, phase := phase }

/-- A BUSY chain 1 with that transaction. -/
def busy (kind : WorkKind) (phase : Phase) (s : State) : State :=
  chained (fun k => { k with state := .busy, flight := .transaction (transaction kind phase) }) s

/-- A HOLDING chain 1 with a push in a hold. -/
def inHold (s : State) : State :=
  chained (fun k =>
    { k with state := .holding, flight := .transaction (transaction .push .holding), holdTimer := some 7 }) s

/-- A roll with its slot 1 open, or one that has found some tiles. -/
def rollAt (phase : RollPhase) (serials : List Word) : Roll :=
  { begun := true, attempts := 1, retryLimit := 2, serials := serials, phase := phase, ending := false
    again := false }

/-- A ROLLING chain 1. -/
def rolling (phase : RollPhase) (serials : List Word) (s : State) : State :=
  chained (fun k => { k with state := .rolling, roll := some (rollAt phase serials) }) s

/-- A held card of chain 1. -/
def held (r : Request) (s : State) : State :=
  s.modEntries 1 fun e => { e with sweepOrRoll := some (State.heldCard (card 0 []) r) }

/-- The bytes of a calibration sheet: its first ten, the luminances, the age factors, and a mix matrix of zeros. -/
def sheet (serial : Word) (chain address group page : Byte) : List Byte :=
  bytes32 serial.toNat ++ [chain, address, group, page, 0, 0] ++ bytes16 1000 ++ bytes16 16000 ++ bytes16 1 ++
    bytes16 40000 ++ bytes16 30000 ++ bytes16 100

/-- A staging slot of 99 entries of 1.0. -/
def fullSlot : List Byte := (List.replicate 99 (bytes16 32768)).flatten

/-! ## WellFormed refuses each kind of ill-formed command -/

theorem test_wf_host_write_outside_the_host_regions :
    (Instr.scan true [⟨0x0D00, [1]⟩]).wf = false ∧ (Instr.run true [⟨0xBF, [1]⟩]).wf = false ∧
      (Instr.restart true true [⟨0x2FFF, [1, 2]⟩]).wf = false ∧
      (Instr.scanTimerExpiry [⟨0x6FFF, [1, 2]⟩]).wf = false ∧ (Instr.followingScan [⟨0x7000, [1]⟩]).wf = false := by
  decide

theorem test_wf_host_write_inside_the_host_regions :
    (Instr.scan true [⟨0xC0, [1]⟩, ⟨0xCFF, [1]⟩, ⟨0x3000, [1]⟩, ⟨0x6FFF, [1]⟩]).wf = true := by decide

theorem test_wf_bus_error_within_a_bus_error :
    (Instr.areaBusError 0 (.areaBusError 1 .frameEdge)).wf = false ∧
      (Instr.areaBusError 0 (.tileAnswer 0 [] true)).wf = false ∧ (Instr.areaBusError 0 .frameEdge).wf = true := by
  decide

theorem test_wf_answer_without_a_byte :
    (Instr.tileAnswer 0 [] true).wf = false ∧ (Instr.holdAnswer 0 [] true).wf = false ∧
      (Instr.rollSlotAnswer 0 [] true).wf = false ∧ (Instr.rollSlotAnswer 0 [0] true).wf = true := by decide

/-! ## The worked figures of the manual -/

/-- R99: the frame check of the nine bytes of 123456789. -/
theorem test_frame_check_of_R99 :
    frameCheck [0x31, 0x32, 0x33, 0x34, 0x35, 0x36, 0x37, 0x38, 0x39] = 0x29B1 := by decide +kernel

/-- Section 1.10: tile 17's red primary, from the temperature to its gain. -/
theorem test_tile_17_of_section_1_10 :
    gridIndex (some 413) = 20 ∧ gridRemainder (some 413) = 13 ∧
      (29000 * (25 - gridRemainder (some 413)) + 28700 * gridRemainder (some 413) + 12) / 25 = 28844 ∧
      compensated 1500 28844 = 10563 ∧ effectiveOf 10563 31130 = 10035 ∧ targetOf 9710 31457 262143 = 9321 ∧
      gainOf (some 9321) 10035 = 30437 ∧ termOf 30437 16800 = 15605 ∧ termOf 30437 (-410) = -381 ∧
      termOf 30437 95 = 88 := by decide +kernel

/-- Section 1.10: the red row's beats 1, 2 and 6. -/
theorem test_ramp_of_section_1_10 :
    rampTerm 16 15700 15605 = 15684 ∧ rampTerm 16 (-350) (-381) = -366 ∧ rampTerm 16 88 88 = 88 ∧
      rampTerm 16 (-366) (-381) = -381 ∧ rampTerm 16 15620 15605 = 15605 ∧ rampTerm 16 15620 15650 = 15636 := by
  decide +kernel

/-- Section 1.12: the edges of the gain and of the signed floor. -/
theorem test_edges_of_section_1_12 :
    gainOf none 10035 = 32768 ∧ gainOf (some 0) 10035 = 1 ∧ gainOf (some 10035) 10035 = 32768 ∧
      gainOf (some 7000) 6575 = 32768 ∧ shortIn (some 7000) 6575 = true ∧ shortIn (some 10035) 10035 = false ∧
      termOf 16384 (-1) = 0 ∧ termOf 16384 (-3) = -1 ∧ termOf 32768 (-32768) = -32768 ∧ termOf 1 (-32768) = -1 ∧
      effectiveOf (compensated 1 2000) 32768 = 1 := by decide +kernel

/-- Section 1.11: tile 40 takes its factor from page 15, since its own page 6 is not loaded, and is SHORT. -/
theorem test_tile_40_of_section_1_11 :
    let wallPage : Page := { loaded := true, entries := ⟨List.replicate 47 1 ++ [32768, 32600] ++ List.replicate 50 1, rfl⟩ }
    let pages := (State.reset.pages).set 15 wallPage
    let tile := { adoptedTile with page := 6, temp := some 262, luminance := ⟨1, 900, 1⟩, age := ⟨30000, 30000, 30000⟩ }
    let k := tile.correction pages (some ⟨7000, 7000, 7000⟩)
    k.effective.g = 6575 ∧ k.gain.g = 32768 ∧ k.fallback = true ∧ k.shorts.g = true := by decide +kernel

/-- Section 3.9: the gains of the four members. -/
theorem test_gains_of_section_3_9 :
    gainOf (some 9321) 9800 = 31166 ∧ gainOf (some 9321) 9710 = 31455 ∧ gainOf (some 9321) 9350 = 32666 ∧
      gainOf (some 9321) 10400 = 29368 := by decide +kernel

/-- Section 9.6, event 2: filter 0 routes the report with key 872 to the alert log. -/
theorem test_filter_of_section_9_6 :
    reportKey 3 1 40 = 872 ∧
      (({ State.reset with filters := (State.reset.filters.set 0 ⟨true, 3840, 768, .alert⟩).set 1 ⟨true, 0, 0, .general⟩ } :
        State).routingFilter 872).map (fun f => f.1) = some 0 := by decide +kernel

/-- Section 9.6, event 1: the third MISSING report is rolled into slot 99 of a full general log. -/
theorem test_rolled_alert_of_section_9_6 :
    let crowded : State := { running State.reset with
      logs := { Logs.reset with
        alertWrite := 2, alertCopy := 3, generalWrite := 99, oldest := 100, generalCopy := 100, released := 100
        overwrites := 5, ready := true } }
    let t := crowded.raisePart .missing 2 22 7 0
    t.logs.generalWrite = 100 ∧ t.logs.oldest = 101 ∧ t.logs.overwrites = 6 ∧ t.logs.rollovers = 1 ∧
      t.logs.alertWrite = 2 ∧ t.regs.noticeRaw = 0x06 ∧ t.area.read (0x1000 + 16 * 99 + 5) = 0x82 := by decide +kernel

/-! ## One step of each command -/

/-- R27, R95: a power-on reset empties the table and leaves the level of FREEZE_IN. -/
theorem test_power_on_reset :
    let t := after .powerOnReset { wall liveTile with ramp := { RampUnit.reset with freezeIn := true } }
    (t.ctx 5).life = .absent ∧ (t.ctx 5).dirty = true ∧ t.ramp.freezeIn = true := by decide +kernel

/-- R173: PERST_N takes the link down, and the next area access ends in a bus error. -/
theorem test_perst :
    let t := after (.perstN true) (running State.reset)
    t.link.up = false ∧ (scanned 1 t).intake.halted = true ∧ t.regs.run = true := by decide +kernel

/-- R173: AREA_LO stores bits 31:16 alone. -/
theorem test_area_lo :
    (after (.areaLoWrite 0x12345678) State.reset).readRegister 0x04 = 0x12340000 ∧
      (after (.areaLoWrite 0x12345678) (running State.reset)).regs.noticeRaw = 0x40 := by decide +kernel

/-- R173: AREA_HI makes every context dirty. -/
theorem test_area_hi :
    let t := after (.areaHiWrite 1) (wall liveTile)
    t.areaBase = 0x100000000 ∧ (t.ctx 5).dirty = true := by decide +kernel

/-- R173: a write to PART_ID is ignored. -/
theorem test_part_id :
    (after (.partIdWrite 0) State.reset).readRegister 0 = 0x00025C31 := by decide +kernel

/-- R175, R155, R165: a restart zeroes the log indices and the notices, and makes contexts dirty; a roll with a step
under way ends with that step, and one that waits for the line ends at once. -/
theorem test_restart :
    let t := after (.restart false false []) (rolling .slot [] (State.notice .fault
      { wall liveTile with logs := { Logs.reset with alertWrite := 3 } }))
    t.regs.noticeRaw = 0 ∧ t.logs.alertWrite = 0 ∧ (t.ctx 5).dirty = true ∧ (t.chain 1).state = .rolling ∧
      ((after (.rollSlotClose 1) t).chain 1).state = .idle := by decide +kernel

/-- R142, R155, R175: a roll that waits for the line ends at the RESTART; a sweep that the card under way begins after it,
and a scan marked since, are discarded with the intake unit's part. R174, R175: what the write's own RUN and SCAN bits ask
for is kept until that part. -/
theorem test_restart_of_a_waiting_roll_and_with_a_card_under_way :
    let s := under .verify [1] (wall liveTile)
    let v := after (.restart true false []) s
    let t := after .verify { v with intake := { v.intake with follow := true } }
    ((after (.restart false false []) (rolling .toRetry [] (wall liveTile))).chain 1).roll = none ∧
      (t.ctx 5).verify = .due ∧ (t.chain 1).sweep = none ∧ (t.entries 1).sweepOrRoll = none ∧
      t.intake.follow = false ∧ t.intake.scanCount = 0 ∧
      (after (.restart true true []) s).intake.walk.map Walk.rescan = some true ∧
      let a := after (.restart true false []) (after (.run false []) s)
      a.intake.scanTimer = none ∧ a.regs.run = true := by decide +kernel

/-- R174: RUN's change to set starts the scan timer and a scan. -/
theorem test_run :
    exec (.run true []) State.reset =
      .next (State.advanceScan (Config.freeOrder 0) { scanAt .hostWords (running State.reset) with freeIndex := 1 }) :=
  rfl

/-- R167: a scan reads the host words; and R167, R171: RUN's clearing between two of its later accesses leaves the body of
the status block and the second count unwritten. -/
theorem test_run_cleared_during_a_scan :
    let t := scanned 4 (holding 0xC0 [3, 0, 100, 1] (running (wall liveTile)))
    let u := State.advanceScan 9 (after (.run false []) t)
    t.logs.alertCopy = 3 ∧ t.logs.generalCopy = 356 ∧ t.intake.scan.isSome = true ∧ u.intake.scan = none ∧
      u.area.read 0x04 = 1 ∧ u.area.read 0xBC = 0 ∧ (State.advanceScan 9 t).area.read 0xBC = 1 := by
  decide +kernel

/-- R168: a scan that finds a POSTED card takes it, and the cursor advances. -/
theorem test_scan_takes_a_card :
    let t := scanned 2 (holding 0x100 [1, 1, 6, 1, 0xEF, 0xBE] (running State.reset))
    t.intake.walk.map Walk.request = some .setMode ∧ t.intake.cursor = 1 := by decide +kernel

/-- R169: the version is checked before the kind. -/
theorem test_scan_refuses_a_bad_version :
    let t := scanned 2 (holding 0x100 [1, 2, 99, 0, 0xEF, 0xBE] (running State.reset))
    t.area.read 0x100 = 3 ∧ t.area.read 0x106 = 1 ∧ t.area.read 0x104 = 0xEF ∧ t.intake.cursor = 1 := by
  decide +kernel

/-- R176: a 1 written to NOTICE_RAW clears its bit. -/
theorem test_notice_raw :
    (after (.noticeRawWrite 0x08) { State.reset with regs := { Registers.reset with noticeRaw := 0x18 } }).regs.noticeRaw
      = 0x10 := by decide +kernel

theorem test_notice_mask :
    (after (.noticeMaskWrite 0xFFFFFF90) { State.reset with regs := { Registers.reset with noticeRaw := 0x10 } }).noticeOut
      = true := by decide +kernel

/-- R167: an expiry while a scan is under way, at a card or between two accesses, marks one scan to follow. -/
theorem test_scan_timer_marks_a_following_scan :
    (after (.scanTimerExpiry []) (under .solve [0] State.reset)).intake.follow = true ∧
      (after (.scanTimerExpiry []) (scanned 3 (running State.reset))).intake.follow = true := by decide +kernel

/-- R167: the scan that follows waits for the end of the one under way. -/
theorem test_following_scan :
    let s := scanned 3 (running State.reset)
    (after (.followingScan []) { s with intake := { s.intake with follow := true } }).intake.follow = true := by
  decide +kernel

/-- R172: a bus error at the status block, after the host words and the card have been read, halts intake, be it an
access that is made after the command. -/
theorem test_area_bus_error :
    let t := State.advanceScan 3 (after (.areaBusError 2 (.partIdWrite 0)) (scanAt .hostWords (running State.reset)))
    t.intake.halted = true ∧ t.regs.noticeRaw = 0x20 ∧ t.logs.ready = true ∧ t.link.failAfter = none ∧
      t.area.read 0x04 = 0 := by decide +kernel

/-- R171, R172: a scan that a bus error has halted at its last card does not reach its last step. -/
theorem test_bus_error_before_the_last_step :
    let w : Walk := { taken .retire [6, 0] with ending := false, left := 0 }
    let s := running (wall liveTile)
    let t := after (.areaBusError 0 .retire) { s with intake := { s.intake with walk := some w } }
    t.intake.halted = true ∧ t.intake.scanCount = 0 := by decide +kernel

/-- R33 to R36: an ADOPT takes the sheet, clamps the age factors and makes the probe wait. -/
theorem test_adopt :
    let t := after .adopt (under .adopt [5, 0] (holding 0x3140 (sheet 0xABCD 1 63 7 15) State.reset))
    (t.ctx 5).life = .adopted ∧ (t.ctx 5).age = ⟨32768, 30000, 16384⟩ ∧ (t.ctx 5).ageClamped = true ∧
      (t.chain 1).probeQueue = [5] ∧ (t.group 7).pending = true ∧ (t.ctx 5).curveFallback = true ∧
      shown t 0x30 = 5 ∧ shown t 0x32 = 1 ∧ shown t 0x34 = 1 := by decide +kernel

theorem test_adopt_refuses_address_0 :
    let t := after .adopt (under .adopt [5, 0] (holding 0x3140 (sheet 0xABCD 1 0 7 15) State.reset))
    (t.ctx 5).life = .absent ∧ shown t 0 = 3 ∧ shown t 6 = 3 ∧ shown t 4 = 0xEF ∧ t.regs.noticeRaw = 1 := by
  decide +kernel

/-- R44: RETIRE shows the new generation and the state before. -/
theorem test_retire :
    let t := after .retire (under .retire [5, 0] (wall liveTile))
    (t.ctx 5).life = .absent ∧ (t.ctx 5).serial = 0x00C0FFEE ∧ (t.ctx 5).applied = none ∧
      (t.group 2).pending = true ∧ shown t 0x32 = 10 ∧ shown t 0x33 = 2 := by decide +kernel

theorem test_retire_of_an_absent_context :
    shown (after .retire (under .retire [6, 0] (wall liveTile))) 6 = 6 := by decide +kernel

/-- R58: SOLVE of all groups shows which were pending when its card was taken. -/
theorem test_solve :
    let w := { taken .solve [0xFF] with flags := (Table.replicate 8 false).set 3 true }
    let s := under .solve [0xFF] (State.reset.solvePending 4)
    let t := after .solve { s with intake := { s.intake with walk := some w } }
    (t.group 7).pending = true ∧ shown t 0x30 = 0xFF ∧ shown t 0x31 = 8 ∧
      (State.reset.solvePending 4).pendingTable.get 4 = true ∧ State.reset.pendingTable.get 4 = false := by decide +kernel

/-- R54, R58: a service that comes while a walk goes on that has dispatched a card that makes groups pending, or a card is
under way, waits, and begins no solve; and an empty queue brings the card's command first. -/
theorem test_service_waits_for_the_walk :
    let t := after .serviceTimerExpiry (scanAt (.board 3 true) (running (State.reset.solvePending 3)))
    let s := under .setGroup [3] (State.reset.solvePending 3)
    (t.group 3).pending = true ∧ t.serviceTimer = some 0 ∧ Instr.serviceTimerExpiry ∉ t.due ∧
      ((after .serviceTimerExpiry s).group 3).pending = true ∧
      { s with serviceTimer := some 0, stalenessTimer := some 0 }.toDo = [.command .setGroup] := by decide +kernel

/-- R59: SET_GROUP clamps, and a solve interval of 0 stops the timer. -/
theorem test_set_group :
    let t := after .setGroup (under .setGroup [7, 0, 0, 0, 255, 255, 255, 255, 0, 0, 0, 0, 255, 255] State.reset)
    (t.group 7).beat = 1 ∧ (t.group 7).headroom = 26214 ∧ (t.group 7).cap = 262143 ∧ (t.group 7).slew = 1 ∧
      (t.group 7).staleLimit = 60 ∧ (t.group 7).solveTimer = none := by decide +kernel

/-- R72 to R74: LOAD_CURVE loads a page without zeros, and shows the place of a zero otherwise. -/
theorem test_load_curve :
    let t := after .loadCurve (under .loadCurve [1, 3] (holding 0xA00 fullSlot (wall liveTile)))
    (t.pages.get 3).loaded = true ∧ (t.group 2).pending = true ∧ (t.group 0).pending = false ∧
      shown t 0x33 = 4 ∧ shown t 0x34 = 8 := by decide +kernel

theorem test_load_curve_with_a_zero :
    let t := after .loadCurve (under .loadCurve [0, 3] (holding 0x900 (fullSlot.take 68) State.reset))
    (t.pages.get 3).loaded = false ∧ shown t 6 = 3 ∧ shown t 0x30 = 1 ∧ shown t 0x31 = 1 := by decide +kernel

theorem test_set_mode :
    let t := after .setMode (under .setMode [1] State.reset)
    t.ramp.mode = .showing ∧ shown t 0x30 = 0 ∧ shown t 0x31 = 1 := by decide +kernel

/-- Section 5.7, event 3: a fifth tag is FULL. -/
theorem test_freeze_of_section_5_7 :
    let s := { State.reset with ramp := { RampUnit.reset with freezeSet := [7, 12, 20, 31] } }
    shown (after .freeze (under .freeze [40, 0] s)) 6 = 8 ∧ shown (after .freeze (under .freeze [12, 0] s)) 0x30 = 1 := by
  decide +kernel

theorem test_freeze_keeps_the_tags_in_order :
    let s := { State.reset with ramp := { RampUnit.reset with freezeSet := [7, 20] } }
    (after .freeze (under .freeze [12, 0] s)).ramp.freezeSet = [7, 12, 20] := by decide +kernel

/-- Section 5.7, event 5. -/
theorem test_thaw_of_section_5_7 :
    let s := { State.reset with ramp := { RampUnit.reset with freezeSet := [7, 12, 20, 31] } }
    shown (after .thaw (under .thaw [9, 0] s)) 6 = 9 ∧
      (after .thaw (under .thaw [7, 0] s)).ramp.freezeSet = [12, 20, 31] := by decide +kernel

theorem test_set_frame :
    let t := after .setFrame (under .setFrame [0x88, 0x13] State.reset)
    t.ramp.period = 5000 ∧ t.ramp.lossTimer = some 150000 ∧ shown t 0x30 = 0x83 ∧ shown t 0x32 = 0x88 := by
  decide +kernel

/-- R84: the timer starts again, so an expiry that was due with the card is not brought any more. -/
theorem test_set_frame_with_an_expiry_due :
    let s := under .setFrame [0x88, 0x13] { State.reset with ramp := { RampUnit.reset with lossTimer := some 0 } }
    Instr.lossTimerExpiry ∈ s.due ∧ Instr.lossTimerExpiry ∉ (after .setFrame s).due := by decide +kernel

/-- R113: SET_CHAIN is LOCKED in SHOW mode, and takes its eight settings otherwise. -/
theorem test_set_chain :
    let params : List Byte := [1, 8, 3, 1, 20, 0, 250, 0, 10, 0, 0, 0, 5, 0]
    let t := after .setChain (under .setChain params State.reset)
    (t.chain 1).config = ⟨.mbit8, 20, 250, 3, .skip, 10, 0, 5⟩ ∧
      shown (after .setChain (under .setChain params
        { State.reset with ramp := { RampUnit.reset with mode := .showing } })) 6 = 4 := by decide +kernel

theorem test_set_chain_of_a_running_chain :
    shown (after .setChain (under .setChain [1, 8, 3, 1, 20, 0, 250, 0, 10, 0, 0, 0, 5, 0]
      (chained (fun k => { k with state := .idle }) State.reset))) 6 = 5 := by decide +kernel

theorem test_start_chain :
    let t := after .startChain (under .startChain [1] (wall liveTile))
    (t.chain 1).state = .busy ∧ (t.chain 1).pollList = [⟨5, false, true⟩] ∧ shown t 0x30 = 0 ∧ shown t 0x33 = 1 := by
  decide +kernel

/-- R112, R131: a latch already older than the latch deadline goes before the push that waits. -/
theorem test_start_chain_with_a_late_latch :
    let s (clock : Nat) : State := under .startChain [1]
      { chained (fun k => { k with latchPending := some ⟨0, false⟩, pushQueue := [5] }) (wall liveTile) with
        clock := clock }
    ((after .startChain (s 50100)).chain 1).flight = .latch false ∧
      ((after .startChain (s 50000)).chain 1).pushQueue = [] := by decide +kernel

/-- R124: STOP_CHAIN of a BUSY chain is held, TAKEN. -/
theorem test_stop_chain :
    let t := after .stopChain (under .stopChain [1] (busy .push .window (wall liveTile)))
    (t.chain 1).state = .stopping ∧ shown t 0 = 2 ∧ (t.entries 1).stop.isSome = true := by decide +kernel

theorem test_stop_chain_of_an_idle_chain :
    let t := after .stopChain (under .stopChain [1]
      (chained (fun k => { k with state := .idle, pollTimer := some 9 }) (wall liveTile)))
    (t.chain 1).state = .stopped ∧ (t.chain 1).pollTimer = none ∧ shown t 0 = 3 ∧ shown t 6 = 0 := by decide +kernel

/-- R140: VERIFY marks the LIVE contexts of the chain and is held. -/
theorem test_verify :
    let t := after .verify (under .verify [1] (wall liveTile))
    (t.ctx 5).verify = .due ∧ (t.chain 1).sweep = some ⟨1, 0, 0, 0, 0⟩ ∧ shown t 0 = 2 := by decide +kernel

/-- R140, R170: a VERIFY that a card was held against when it was taken is BUSY, though none is held any more. -/
theorem test_verify_that_was_busy_when_taken :
    let w := found { stop := none, sweepOrRoll := some (State.heldCard (card 0 []) .verify) } (taken .verify [1])
    let s := under .verify [1] (wall liveTile)
    let t := after .verify { s with intake := { s.intake with walk := some w } }
    shown t 0 = 3 ∧ shown t 6 = 5 ∧ (t.ctx 5).verify = (s.ctx 5).verify := by decide +kernel

theorem test_verify_with_no_tile :
    let t := after .verify (under .verify [0] (wall liveTile))
    (t.chain 0).sweep = none ∧ shown t 0 = 3 ∧ shown t 6 = 0 := by decide +kernel

/-- R151: ROLL_CALL on an IDLE chain begins the roll; on a STOPPED one it waits. -/
theorem test_roll_call :
    let t := after .rollCall (under .rollCall [1] (chained (fun k => { k with state := .idle }) State.reset))
    (t.chain 1).state = .rolling ∧ shown t 0 = 2 ∧
      ((after .rollCall (under .rollCall [1] State.reset)).chain 1).roll = some Roll.waiting := by decide +kernel

theorem test_set_filter :
    let t := after .setFilter (under .setFilter [5, 1, 1, 0, 0xFF, 0x0F, 0x00, 0x03] State.reset)
    t.filters.get 5 = ⟨true, 4095, 768, .alert⟩ ∧ shown t 0x30 = 5 ∧
      shown (after .setFilter (under .setFilter [5, 1, 1, 0, 0, 0x10, 0, 0] State.reset)) 6 = 3 := by decide +kernel

/-- Section 5.6: the fourth frame event is a beat, which moves the term and pushes the tile. -/
theorem test_frame_edge :
    let tile := { liveTile with
      target := ⟨⟨15900, 0, 0⟩, ⟨0, 0, 0⟩, ⟨0, 0, 0⟩⟩, applied := some ⟨⟨15820, 0, 0⟩, ⟨0, 0, 0⟩, ⟨0, 0, 0⟩⟩ }
    let s := grouped (fun g => { g with beatCount := 3 })
      { wall tile with ramp := { RampUnit.reset with mode := .showing } }
    let t := after .frameEdge s
    (t.ctx 5).applied = some ⟨⟨15836, 0, 0⟩, ⟨0, 0, 0⟩, ⟨0, 0, 0⟩⟩ ∧ (t.chain 1).pushQueue = [5] ∧
      (t.group 2).beatCount = 0 ∧ (t.chain 1).framesSinceLatch = 1 ∧ t.ramp.lossTimer = some 50010 := by decide +kernel

/-- Section 5.6: the edge at 158.67 ms regains the frame, the one at 142.00 ms does not. -/
theorem test_frame_edge_while_lost :
    let lost (c now : Nat) : State := { State.reset with
      clock := now, ramp := { RampUnit.reset with frameState := .lost, lossTimer := none, candidate := some c } }
    (after .frameEdge (lost 142000 158670)).ramp.frameState = .regained ∧
      (after .frameEdge (lost 140000 142000)).ramp.candidate = some 142000 := by decide +kernel

theorem test_loss_timer :
    let t := after .lossTimerExpiry State.reset
    t.ramp.frameState = .lost ∧ t.ramp.substituteTimer = some 16670 ∧ t.regs.noticeRaw = 0x10 := by decide +kernel

theorem test_substitute_timer :
    let t := after .substituteTimerExpiry
      { State.reset with ramp := { RampUnit.reset with frameState := .lost, substituteTimer := some 0 } }
    (t.group 0).beatCount = 1 ∧ t.ramp.substituteTimer = some 16670 := by decide +kernel

/-- R87, R95: a beat under FREEZE_IN moves nothing. -/
theorem test_freeze_in :
    let s := grouped (fun g => { g with beatCount := 3 }) (wall liveTile)
    ((after .frameEdge (after (.freezeInChange true) s)).ctx 5).applied = some blank ∧
      ((after .frameEdge s).ctx 5).applied = some unitMix := by decide +kernel

theorem test_solve_timer :
    let t := after (.solveTimerExpiry 7) State.reset
    (t.group 7).pending = true ∧ (t.group 7).solveTimer = none := by decide +kernel

/-- R52, R54: a solve of a pending group; with no curve page the only voter has E = Y in eighths. -/
theorem test_service_timer :
    let t := ((wall liveTile).solvePending 2).serviceWith 0 0
    (t.group 2).targets = some ⟨7679, 7679, 7679⟩ ∧ (t.ctx 5).effective = ⟨8000, 8000, 8000⟩ ∧
      (t.group 2).pending = false ∧ t.logs.unlogged = 1 ∧ t.solves = [] := by decide +kernel

/-- R52: a member retired between the read and the write of a solve is not written nor reported; one that stays is.
R70: a page loaded between the readings of two members serves the one that reads after it alone. -/
theorem test_service_timer_with_a_late_solve :
    let t := ((wall liveTile).solvePending 2).serviceWith 4 0
    let u := after .retire (under .retire [5, 0] t)
    t.solves.length = 1 ∧ (t.group 2).targets = none ∧ (t.group 2).pending = false ∧
      ((t.endSolves t.solves).ctx 5).effective = ⟨8000, 8000, 8000⟩ ∧ (t.endSolves t.solves).logs.unlogged = 1 ∧
      ((u.endSolves u.solves).ctx 5).effective = ⟨1, 1, 1⟩ ∧ (u.endSolves u.solves).logs.unlogged = 0 ∧
      ((u.endSolves u.solves).group 2).targets = some ⟨7679, 7679, 7679⟩ ∧
      let two := (wall liveTile).setCtx 6 { liveTile with address := 8 }
      let x := after .loadCurve (under .loadCurve [3, 3] (holding 0xC00 fullSlot ((two.solvePending 2).serviceWith 4 32)))
      ((x.endSolves x.solves).ctx 5).curveFallback = true ∧ ((x.endSolves x.solves).ctx 6).curveFallback = false := by
  decide +kernel

/-- R66: a temperature older than 10 s is stale; one just that old is not. -/
theorem test_staleness_check :
    let at' (clock : Nat) : State := { wall liveTile with clock := clock }
    ((after .stalenessCheckExpiry (at' 10000100)).ctx 5).stale = true ∧
      ((after .stalenessCheckExpiry (at' 10000000)).ctx 5).stale = false := by decide +kernel

theorem test_frame_sent :
    ((after (.frameSent 1) (busy .push .sending State.reset)).chain 1).flight =
      .transaction (transaction .push .window) := by decide +kernel

/-- R133: the LATCH makes the sent set the latched set. -/
theorem test_latch_sent :
    let s := chained (fun k => { k with state := .busy, flight := .latch true, latchPending := some ⟨0, true⟩ })
      (wall { liveTile with latched := some blank })
    let t := after (.latchSent 1) s
    (t.ctx 5).latched = some unitMix ∧ (t.ctx 5).dirty = true ∧ (t.chain 1).latchPending = none ∧
      (t.chain 1).state = .idle := by decide +kernel

/-- R129: the ACK of a push. -/
theorem test_tile_answer_ack :
    let t := after (.tileAnswer 1 (withCheck [0x51]) true) (busy .push .window (wall liveTile))
    (t.ctx 5).sent = some blank ∧ (t.ctx 5).pushCount = 1 ∧
      (t.chain 1).state = .busy ∧ (t.chain 1).flight = .latch false := by decide +kernel

/-- R38: the right serial takes the tile to LIVE, snapped to its target set. -/
theorem test_tile_answer_identity :
    let t := after (.tileAnswer 1 (withCheck [0x55, 0x00, 0xC0, 0xFF, 0xEE]) true)
      (busy .probe .window (wall adoptedTile))
    (t.ctx 5).life = .live ∧ (t.ctx 5).applied = some unitMix ∧ (t.chain 1).pollList.length = 1 := by decide +kernel

theorem test_answer_window_close :
    ((after (.answerWindowClose 1) (busy .poll .window (wall liveTile))).chain 1).flight =
      .transaction (transaction .poll .toResend) := by decide +kernel

/-- R41: the third failure in a row faults the tile. -/
theorem test_answer_window_close_at_the_last_attempt :
    let s := chained (fun k => { k with flight := .transaction { transaction .push .window with attempts := 3 } })
      (busy .push .window (wall { liveTile with failCount := 2 }))
    let t := after (.answerWindowClose 1) s
    (t.ctx 5).life = .faulted ∧ (t.ctx 5).faultReason = .noAnswer ∧ t.regs.noticeRaw = 0x08 ∧
      (t.group 2).pending = true := by decide +kernel

/-- R97: a resend begins after two byte times of quiet, or 20 byte times without one. -/
theorem test_resend :
    let s := busy .push .toResend State.reset
    ((after (.resend 1 2 2) s).chain 1).flight = .transaction { transaction .push .sending with attempts := 2 } ∧
      (after (.resend 1 1 19) s).chain 1 = s.chain 1 := by decide +kernel

/-- R105: the final ACK of a hold. -/
theorem test_hold_answer :
    let t := after (.holdAnswer 1 (withCheck [0x51]) true) (inHold (wall liveTile))
    (t.ctx 5).sent = some blank ∧ (t.chain 1).holdTimer = none := by decide +kernel

theorem test_hold_timer :
    ((after (.holdTimerExpiry 1) (inHold (wall liveTile))).ctx 5).failCount = 1 := by decide +kernel

/-- R119: a round marks the entry left overdue and counts it. -/
theorem test_poll_round :
    let s := chained (fun k => { k with pollTimer := some 0, pollList := [⟨9, false, false⟩] }) (wall liveTile)
    let t := after (.pollRoundTimerExpiry 1) s
    (t.chain 1).pollList = [⟨9, true, false⟩, ⟨5, false, false⟩] ∧ (t.chain 1).pollOverrun = 1 := by decide +kernel

/-- R131: the deadline of 50 ms has passed once the age is above 500 ticks. -/
theorem test_latch_deadline :
    let s (clock : Nat) : State :=
      { chained (fun k => { k with latchPending := some ⟨0, false⟩ }) State.reset with clock := clock }
    ((after (.latchDeadlinePassed 1) (s 50100)).chain 1).latchPending = some ⟨0, true⟩ ∧
      ((after (.latchDeadlinePassed 1) (s 50099)).chain 1).latchPending = some ⟨0, false⟩ := by decide +kernel

theorem test_verify_sweep_timer :
    let s := chained (fun k => { k with sweepTimer := some 0, config := { k.config with verifyInterval := 2 } })
      (wall liveTile)
    let t := after (.verifySweepTimerExpiry 1) s
    (t.ctx 5).verify = .due ∧ (t.chain 1).sweepTimer = some 2000000 := by decide +kernel

/-- R144: a ROLL_ANSWER is recorded; in slot 63 it completes the roll. -/
theorem test_roll_slot_answer :
    let answer := withCheck [0x57, 0, 0, 0, 9]
    ((after (.rollSlotAnswer 1 answer true) (rolling .slot [7] State.reset)).chain 1).roll =
        some (rollAt .slot [7, 9]) ∧
      ((after (.rollSlotAnswer 1 answer true) (rolling .slot (List.replicate 62 7) State.reset)).chain 1).state =
        .idle := by decide +kernel

/-- R43, R148: a roll that ends before a tile's address reports it MISSING; one that finds it is matched. -/
theorem test_roll_slot_close :
    let t := after (.rollSlotClose 1) (held .rollCall (rolling .slot [1, 2, 3] (wall liveTile)))
    (t.ctx 5).life = .faulted ∧ (t.ctx 5).faultReason = .missing ∧
      t.intake.completions.map Completion.data = [[0, 1, 3, 0, 0, 0, 1, 3]] ∧
      ((after (.rollSlotClose 1) (rolling .slot [1, 2, 3, 4, 5, 6, 0x00C0FFEE] (wall liveTile))).ctx 5).life = .live := by
  decide +kernel

theorem test_roll_retry :
    ((after (.rollRetry 1 2 0) (rolling .toRetry [] State.reset)).chain 1).roll =
      some { rollAt .sending [] with attempts := 2 } := by decide +kernel

/-- R97: chosen work begins its frame, and the line carries it. -/
theorem test_frame_begin :
    let t := after (.frameBegin 1 0 20) (busy .poll .toBegin State.reset)
    t.frameOnLine 1 = some (withCheck [0xA4, 7]) ∧ t.driving 1 = true := by decide +kernel

/-- Logs 1 and 8: time passes while nothing is due, and what is due joins the queue before time passes on. -/
theorem test_idle :
    let s (n : Nat) : State := { State.reset with serviceTimer := some n, stalenessTimer := none }
    let pending (o : Host.Outcome State Fault Refusal) : List Instr × Nat :=
      match o with
      | .next t => (t.pending, t.clock)
      | _ => ([], 0)
    pending (step (s 1)) = ([], 1) ∧ pending (step (s 0)) = ([.serviceTimerExpiry], 0) := by decide +kernel

/-! ## Witnesses: states that meet the hypotheses of the obligations, clause by clause -/

theorem witness_RestartAtEveryBlock :
    let s := rolling .slot [] (running State.reset)
    let u := rolling .toRetry [] { State.reset with regs := { Registers.reset with run := true } }
    (s.intake.walk = none ∧ s.regs.run = true ∧ s.intake.scanTimer.isSome = true) ∧
      (u.intake.walk = none ∧ u.regs.run = true ∧ u.intake.scanTimer = none ∧ (u.chain 1).retrying = true) ∧
      State.reset.regs.run = false ∧ (under .solve [0] State.reset).intake.walk = some (taken .solve [0]) := by
  decide +kernel

theorem witness_SettingsChangeOnlyAtTheirCommands :
    exec (.areaBusError 3 (.partIdWrite 1)) State.reset = .next (State.reset.setFailAfter (some 3)) ∧
      (∀ a, (Instr.areaBusError 3 (.partIdWrite 1)).within ≠ .freezeInChange a) ∧
      (∀ a, (Instr.areaBusError 3 (.partIdWrite 1)).within ≠ .perstN a) ∧
      (Instr.areaBusError 3 (.partIdWrite 1)).within ≠ .powerOnReset ∧
      (∀ v, (Instr.areaBusError 3 (.partIdWrite 1)).within ≠ .areaLoWrite v) ∧
      (∀ v, (Instr.areaBusError 3 (.partIdWrite 1)).within ≠ .areaHiWrite v) ∧
      (∀ v, (Instr.areaBusError 3 (.partIdWrite 1)).within ≠ .noticeMaskWrite v) ∧
      (∀ r c h, (Instr.areaBusError 3 (.partIdWrite 1)).within ≠ .restart r c h) ∧
      (∀ r h, (Instr.areaBusError 3 (.partIdWrite 1)).within ≠ .run r h) ∧
      (∀ r h, (Instr.areaBusError 3 (.partIdWrite 1)).within ≠ .scan r h) ∧
      (Instr.areaBusError 3 (.partIdWrite 1)).within ≠ .setMode ∧
      (Instr.areaBusError 3 (.partIdWrite 1)).within ≠ .setFrame ∧
      (Instr.areaBusError 3 (.partIdWrite 1)).within ≠ .loadCurve ∧
      (Instr.areaBusError 3 (.partIdWrite 1)).within ≠ .setFilter ∧
      (Instr.areaBusError 3 (.partIdWrite 1)).within ≠ .setChain ∧
      (Instr.areaBusError 3 (.partIdWrite 1)).within ≠ .setGroup := by
  refine ⟨rfl, ?_⟩
  simp [Instr.within]

/-- A part whose solve of group 2 is under way. -/
def solving (c : Context) : State := ((wall c).solvePending 2).serviceWith 4 0

theorem witness_AnEmptyQueueTakesWhatIsDueOrPassesOneMicrosecond :
    (State.reset.pending = [] ∧ State.reset.due = [] ∧ State.reset.solves = [] ∧ State.reset.intake.scan = none) ∧
      ((scanned 1 (running State.reset)).pending = [] ∧ (scanned 1 (running State.reset)).intake.scan ≠ none) ∧
      ((under .solve [0] State.reset).pending = [] ∧ (under .solve [0] State.reset).intake.walk = some (taken .solve [0])) ∧
      (let s : State := { State.reset with stalenessTimer := some 0 }; s.pending = [] ∧ s.intake.walk = none ∧ s.due ≠ []) ∧
      (solving liveTile).pending = [] ∧ (solving liveTile).intake.walk = none ∧ (solving liveTile).solves ≠ [] ∧
      ∀ v ∈ (solving liveTile).solves, ∀ m ∈ v.members, m.reading = none := by decide +kernel

theorem witness_RegisterWrites :
    (running State.reset).regs.run = true ∧ State.reset.regs.run = false := ⟨rfl, rfl⟩

theorem witness_PerstMovesOnlyTheLink : true = true ∧ State.reset.intake.halted = false := ⟨rfl, rfl⟩

/-- A part halted with RUN clear. -/
def haltedPart : State := { State.reset with intake := { Intake.reset with halted := true } }

theorem witness_RunControlWrites :
    (running State.reset).regs.run = true ∧ (haltedPart.regs.run = false ∧ haltedPart.intake.halted = true) ∧
      (State.reset.regs.run = false ∧ State.reset.intake.halted = false) ∧ State.reset.intake.walk = none ∧
      (under .solve [0] State.reset).intake.walk = some (taken .solve [0]) := ⟨rfl, ⟨rfl, rfl⟩, ⟨rfl, rfl⟩, rfl, rfl⟩

/-- A running part with a scan marked to follow. -/
def following : State :=
  { running State.reset with intake := { (running State.reset).intake with follow := true } }

theorem witness_ScanRequests :
    ((running State.reset).regs.run = true ∧ (running State.reset).intake.scanTimer.isSome = true) ∧
      State.reset.intake.scanTimer = none ∧
      (following.regs.run = true ∧ following.intake.follow = true ∧ following.intake.walk = none ∧
        following.intake.scan = none ∧ following.intake.halted = false) ∧
      State.reset.intake.follow = false ∧ (under .solve [0] State.reset).intake.walk ≠ none ∧
      ((scanned 1 following).regs.run = true ∧ (scanned 1 following).intake.halted = false ∧
        (scanned 1 following).intake.scan ≠ none) ∧
      haltedPart.intake.halted = true ∧ State.reset.regs.run = false ∧
      ((under .solve [0] State.reset).regs.run = true ∧ (under .solve [0] State.reset).intake.halted = false) := by
  decide +kernel

/-- A part of which so many area accesses end well before one fails. -/
def failing (n : Nat) (s : State) : State := s.setFailAfter (some n)

theorem witness_QuietScanShowsThePart :
    let s := running (wall { liveTile with dirty := true })
    let c := scanAt .copy s
    (c.intake.halted = false ∧ c.intake.scan = some .copy ∧ c.goodAccesses 1 = 1) ∧
      ((scanAt (.status [(0, [1])]) s).goodAccesses 1 = 1 ∧ (scanAt (.status [(0, [1])]) (failing 0 s)).goodAccesses 1 = 0) ∧
      (∀ i ∈ [], (s.ctx i).dirty = false) ∧
      ([4, 5, 6] = [4] ++ 5 :: [6] ∧ (after (.noticeMaskWrite 0) s).ctx 5 = s.ctx 5 ∧ (s.ctx 5).dirty = true ∧
        (s.setDirty 4 false).goodAccesses 1 = 1 ∧ ∀ j ∈ [4], ((s.setDirty 4 false).ctx j).dirty = false) ∧
      ((failing 0 s).goodAccesses 1 = 0 ∧ (failing 0 s).intake.halted = false) ∧
      (following.readable 2 ∧ following.intake.completions = [] ∧ following.cardAtCursor.state ≠ 1) ∧
      (failing 2 following).readable 2 := by
  unfold State.readable; decide +kernel

/-- A running part with a card of some version and kind POSTED at the cursor. -/
def posted (version kind : Byte) : State := holding 0x100 [1, version, kind] (running State.reset)

theorem witness_ScanTakesOrRefusesAPostedCard :
    let s (version kind : Byte) := scanAt (.board 32 false) (posted version kind)
    ((s 1 1).intake.halted = false ∧ (s 1 1).intake.scan = some (.board (31 + 1) false) ∧ (s 1 1).goodAccesses 1 = 1 ∧
        (s 1 1).cardAtCursor.state = 1 ∧ (s 1 1).cardAtCursor.version = 1 ∧
        (s 1 1).cardAtCursor.kind.toNat = Request.adopt.number) ∧
      ((s 1 15).cardAtCursor.state = 1 ∧ (s 1 15).cardAtCursor.kind.toNat = Request.setFilter.number) ∧
      ((s 0 1).goodAccesses 1 = 1 ∧ (s 0 1).cardAtCursor.state = 1 ∧ (s 0 1).cardAtCursor.version ≠ 1) ∧
      ((s 1 0).goodAccesses 1 = 1 ∧ (s 1 0).cardAtCursor.state = 1 ∧ (s 1 0).cardAtCursor.version = 1 ∧
        (s 1 0).cardAtCursor.kind.toNat = 0) ∧
      ((s 1 16).goodAccesses 1 = 1 ∧ (s 1 16).cardAtCursor.version = 1 ∧ (s 1 16).cardAtCursor.kind.toNat = 16) ∧
      (failing 0 (s 1 1)).goodAccesses 1 = 0 ∧ (running State.reset).cardAtCursor.state ≠ 1 := by decide +kernel

/-- R170: of two completions that are equal in every field one is written, and the other still waits. -/
theorem test_equal_completions :
    let c : Completion := { index := 3, code := .ok, data := [], doneTick := 0, tag := 1, notify := false }
    let s := { running State.reset with intake := { (running State.reset).intake with completions := [c, c] } }
    (s.delivered c).intake.completions = [c] ∧ ((s.delivered c).delivered c).intake.completions = [] := by decide

/-- R51, R58, R71: the cards for which a service waits to the end of the walk. -/
theorem test_cards_that_solve :
    (taken .loadCurve []).solves = true ∧ (taken .adopt []).solves = true ∧ (taken .setMode []).solves = false := by
  decide

/-- A running part with two completions waiting, the later one of the lower card index. -/
def waiting : State :=
  let c (n : Fin 32) : Completion := { index := n, code := .ok, data := [2], doneTick := 4, tag := 0xBEEF, notify := true }
  { running State.reset with intake := { (running State.reset).intake with completions := [c 31, c 0] } }

theorem witness_ScanWritesWaitingCompletions :
    let s := scanAt .hostWords waiting
    let c := s.completionsInOrder.headD { index := 0, code := .ok, data := [], doneTick := 0, tag := 0, notify := false }
    (s.intake.halted = false ∧ s.intake.scan = some .hostWords ∧ s.goodAccesses 1 = 1 ∧ s.areaWorks) ∧
      (failing 0 s).goodAccesses 1 = 0 ∧ (scanAt .hostWords following).completionsInOrder = [] ∧
      (∃ order : List Completion, order.Perm s.intake.completions ∧
        order.Pairwise (fun c d => c.index ≤ d.index) ∧
        (∀ n, (order.filter fun c => decide (c.index = n)) =
          s.intake.completions.filter fun c => decide (c.index = n)) ∧
        order.map Completion.index = [0, 31]) ∧
      (State.scanAccess s).intake.scan = some (.completions s.completionsInOrder (State.completionWrites c)) ∧
      ((scanAt (.completions [c] [(0, [3])]) waiting).goodAccesses 1 = 1 ∧ c ∈ waiting.intake.completions) := by
  refine ⟨⟨rfl, rfl, rfl, rfl, rfl, rfl⟩, rfl, by decide +kernel, ⟨waiting.completionsInOrder, ?_⟩, ?_⟩ <;> decide +kernel

theorem witness_BusErrorHaltsTheIntake :
    let s := { running (wall { liveTile with dirty := true, page := 3 }) with logs := { Logs.reset with ready := true } }
    haltedPart.intake.halted = true ∧ State.reset.intake.halted = false ∧
      (after (.perstN true) State.reset).link.up = false ∧ (failing 0 State.reset).link.failAfter = some 0 ∧
      (State.reset.link.up = true ∧ State.reset.link.failAfter ≠ some 0 ∧
        (failing 1 State.reset).link.failAfter ≠ some 0) ∧
      ((running State.reset).areaWorks ∧ (running State.reset).intake.completions = [] ∧
        (running State.reset).cardAtCursor.state ≠ 1) ∧
      s.areaWorks ∧ s.regs.run = true ∧ s.logs.ready = true ∧ s.solveReports (s.newSolve 2) ≠ [] := by
  unfold State.areaWorks; decide +kernel

theorem witness_AfterCardTheScanGoesOn :
    let w := taken .solve [0]
    let s := running State.reset
    (w.restart = false ∧ w.ending = true) ∧ haltedPart.intake.halted = true ∧ State.reset.regs.run = false ∧
      ({ w with ending := false, left := 0 }.ending = false ∧ { w with ending := false, left := 0 }.left = 0) ∧
      (s.intake.halted = false ∧ s.regs.run = true ∧ w.left ≠ 0 ∧ w.request = .solve ∧ w.param8 0 < 8) ∧
      ({ w with restart := true }.restart = true ∧ w.rescan = false ∧ { w with rescan := true }.rescan = true) ∧
      (s.regs.run = true ∧ s.intake.scanTimer.isSome = true) ∧
      { s with intake := { s.intake with scanTimer := none } }.intake.scanTimer = none := by
  decide +kernel

theorem witness_RetireCard :
    let s (lo hi : Byte) := under .retire [lo, hi] (wall liveTile)
    ((s 0 1).underWay (taken .retire [0, 1]) .retire ∧ 256 ≤ (taken .retire [0, 1]).param16 0) ∧
      ((s 0xFF 0).underWay (taken .retire [0xFF, 0]) .retire ∧
        (taken .retire [0xFF, 0]).param16 0 = (255 : Fin 256).val ∧ ((s 0xFF 0).ctx 255).life = .absent) ∧
      (s 5 0).underWay (taken .retire [5, 0]) .retire ∧ (taken .retire [5, 0]).param16 0 = (5 : Fin 256).val ∧
        ((s 5 0).ctx 5).life ≠ .absent := by
  unfold State.underWay; decide +kernel

/-- A part with an ADOPT of context 6 under way, context 5 LIVE on chain 1 at address 7, and a sheet. -/
def adopting (bs : List Byte) : State := under .adopt [6, 0] (holding 0x3180 bs (wall liveTile))

theorem witness_AdoptRefusals :
    ((adopting (sheet 1 1 7 2 3)).sheetOf 6).passes ⟨1, 7, 2, 3⟩ ∧ ((under .adopt [0, 1] State.reset).underWay (taken .adopt [0, 1]) .adopt ∧
        256 ≤ (taken .adopt [0, 1]).param16 0) ∧
      (taken .adopt [6, 0]).param16 0 = (6 : Fin 256).val ∧
      ((adopting []).underWay (taken .adopt [6, 0]) .adopt ∧ (adopting []).goodAccesses 1 = 1 ∧
        ((adopting []).sheetOf 6).serial = 0) ∧
      ((adopting (sheet 1 4 7 2 3)).sheetOf 6).chain = 4 ∧ ((adopting (sheet 1 1 0 2 3)).sheetOf 6).address = 0 ∧
      ((adopting (sheet 1 1 64 2 3)).sheetOf 6).address = 64 ∧ ((adopting (sheet 1 1 7 8 3)).sheetOf 6).group = 8 ∧
      ((adopting (sheet 1 1 7 2 16)).sheetOf 6).page = 16 ∧
      ((5 : Fin 256) ≠ 6 ∧ ((adopting (sheet 1 1 7 2 3)).ctx 5).life ≠ .absent ∧
        ((adopting (sheet 1 1 7 2 3)).ctx 5).chain = 1 ∧ ((adopting (sheet 1 1 7 2 3)).ctx 5).address = 7) ∧
      (let d := after (.perstN true) (adopting []);
        d.intake.halted = false ∧ d.goodAccesses 1 = 0 ∧ (taken .adopt [6, 0]).restart = false ∧
          d.underWay (taken .adopt [6, 0]) .adopt) ∧
      (failing 0 (adopting [])).goodAccesses 1 = 0 := by
  refine ⟨(Sheet.checked_iff _ _).1 (by decide +kernel), ?_⟩
  unfold State.underWay; decide +kernel

/-- No context but 5 is outside ABSENT in these small states. -/
theorem wall_queues (c : Context) (s : State) (h : s.chains = (wall c).chains) : s.queuesLawful := by
  intro ch
  have hc : s.chain ch = Chain.reset := by
    rw [State.chain, h]; fin_cases ch <;> rfl
  rw [hc]
  simp [Chain.reset]

theorem witness_AdoptCard :
    let s := adopting (sheet 1 3 63 7 15)
    s.underWay (taken .adopt [6, 0]) .adopt ∧ s.goodAccesses 1 = 1 ∧ s.queuesLawful ∧
      (taken .adopt [6, 0]).param16 0 = (6 : Fin 256).val ∧ (s.sheetOf 6).passes ⟨3, 63, 7, 15⟩ ∧
      ∀ j, j ≠ 6 → (s.ctx j).life ≠ .absent → ¬((s.ctx j).chain = 3 ∧ (s.ctx j).address = 63) := by
  refine ⟨⟨rfl, rfl⟩, rfl, wall_queues liveTile _ rfl, rfl, (Sheet.checked_iff _ _).1 (by decide +kernel), ?_⟩
  decide +kernel

theorem witness_SolveCard :
    let s (n : Byte) := under .solve [n] State.reset
    ((s 255).underWay (taken .solve [255]) .solve ∧ (taken .solve [255]).param8 0 = 255) ∧
      ((s 0).underWay (taken .solve [0]) .solve ∧ (taken .solve [0]).param8 0 = (0 : Fin 8).val) ∧
      (taken .solve [7]).param8 0 = (7 : Fin 8).val ∧
      ((s 8).underWay (taken .solve [8]) .solve ∧ 8 ≤ (taken .solve [8]).param8 0 ∧ (taken .solve [8]).param8 0 ≠ 255) ∧
      (taken .solve [254]).param8 0 = 254 := by
  unfold State.underWay; decide +kernel

theorem witness_SetGroupCard :
    let s (n : Byte) := under .setGroup [n] State.reset
    ((s 8).underWay (taken .setGroup [8]) .setGroup ∧ 8 ≤ (taken .setGroup [8]).param8 0) ∧
      ((s 7).underWay (taken .setGroup [7]) .setGroup ∧ (taken .setGroup [7]).param8 0 = (7 : Fin 8).val ∧
        (taken .setGroup [7]).param16 10 = 0) ∧
      (taken .setGroup [0, 0, 0, 0, 0, 0, 0, 0, 0, 0, 1]).param16 10 = 1 := by
  unfold State.underWay; decide +kernel

/-- A part with a LOAD_CURVE of slot 3 into a page under way, and a slot. -/
def loading (page : Byte) (bs : List Byte) : State :=
  under .loadCurve [3, page] (holding 0xC00 bs (wall liveTile))

theorem witness_LoadCurveCard :
    (∃ t : Table Nat 99, ∀ k, t.get k = (loading 15 fullSlot).stagedEntry 3 k.val) ∧ ((under .loadCurve [4, 0] State.reset).underWay (taken .loadCurve [4, 0]) .loadCurve ∧
        4 ≤ (taken .loadCurve [4, 0]).param8 0) ∧ 16 ≤ (taken .loadCurve [0, 16]).param8 1 ∧
      ((loading 15 fullSlot).underWay (taken .loadCurve [3, 15]) .loadCurve ∧ (loading 15 fullSlot).goodAccesses 1 = 1 ∧
        (taken .loadCurve [3, 15]).param8 0 = (3 : Fin 4).val ∧ (taken .loadCurve [3, 15]).param8 1 = (15 : Fin 16).val ∧
        ∀ k : Fin 99, (loading 15 fullSlot).stagedEntry 3 k.val ≠ 0) ∧
      ((loading 3 fullSlot).ctx 5).page = 3 ∧ ((loading 3 fullSlot).ctx 5).life ≠ .absent ∧
      ((loading 0 (fullSlot.take 196)).stagedEntry 3 (98 : Fin 99).val = 0 ∧
        ∀ j : Fin 99, j < 98 → (loading 0 (fullSlot.take 196)).stagedEntry 3 j.val ≠ 0) ∧
      (let d := after (.perstN true) (loading 0 []);
        d.intake.halted = false ∧ d.goodAccesses 1 = 0 ∧ (taken .loadCurve [3, 0]).restart = false) := by
  refine ⟨⟨_, State.slotEntries_get _ 3⟩, ?_⟩
  unfold State.underWay; decide +kernel

theorem witness_ModeFrameAndFilterCards :
    ((under .setMode [0] State.reset).underWay (taken .setMode [0]) .setMode ∧ (taken .setMode [0]).param8 0 = 0 ∧
        (taken .setMode [1]).param8 0 = 1 ∧ 2 ≤ (taken .setMode [2]).param8 0) ∧
      ((under .setFrame [99, 0] State.reset).underWay (taken .setFrame [99, 0]) .setFrame ∧
        (taken .setFrame [99, 0]).param16 0 < 100 ∧ 5000 < (taken .setFrame [0x89, 0x13]).param16 0 ∧
        (taken .setFrame [100, 0]).param16 0 = 100 ∧ (taken .setFrame [0x88, 0x13]).param16 0 = 5000 ∧
        (under .setFrame [100, 0] State.reset).ramp.frameState = .regained ∧
        (after .lossTimerExpiry (under .setFrame [100, 0] State.reset)).ramp.frameState = .lost) ∧
      ((under .setFilter [6] State.reset).underWay (taken .setFilter [6]) .setFilter ∧
        6 ≤ (taken .setFilter [6]).param8 0 ∧ 2 ≤ (taken .setFilter [0, 2]).param8 1 ∧
        2 ≤ (taken .setFilter [0, 0, 2]).param8 2 ∧ 4096 ≤ (taken .setFilter [0, 0, 0, 0, 0, 16]).param16 4 ∧
        4096 ≤ (taken .setFilter [0, 0, 0, 0, 0, 0, 0, 16]).param16 6) ∧
      (let w := taken .setFilter [5, 1, 1, 0, 0xFF, 0x0F, 0xFF, 0x0F];
        let f : Filter := ⟨true, 4095, 4095, .alert⟩;
        w.param8 0 = (5 : Fin 6).val ∧ w.param8 1 = f.enable.toNat ∧ w.param8 2 = f.destination.number ∧
          w.param16 4 = f.mask.toNat ∧ w.param16 6 = f.pattern.toNat) := by
  unfold State.underWay; decide +kernel

theorem witness_FreezeAndThawCards :
    let s (tags : List Nat) := under .freeze [0xFF, 0] { State.reset with ramp := { RampUnit.reset with freezeSet := tags } }
    ((s []).underWay (taken .freeze [0xFF, 0]) .freeze ∧ (taken .freeze [0, 0]).param16 0 = 0 ∧
        255 < (taken .freeze [0, 1]).param16 0) ∧
      (taken .freeze [0xFF, 0]).param16 0 = 255 ∧ (taken .freeze [1, 0]).param16 0 = 1 ∧
      255 ∈ (s [255]).ramp.freezeSet ∧ (255 ∉ (s [1, 2, 3, 4]).ramp.freezeSet ∧ 4 ≤ (s [1, 2, 3, 4]).ramp.freezeSet.length) ∧
      (255 ∉ (s [1, 2, 3]).ramp.freezeSet ∧ (s [1, 2, 3]).ramp.freezeSet.length < 4 ∧
        (s [1, 2, 3]).ramp.freezeSet.Pairwise (· < ·)) ∧
      (under .thaw [1, 0] State.reset).underWay (taken .thaw [1, 0]) .thaw := by
  unfold State.underWay; decide +kernel

/-- The settings of a chain at the ends of their ranges. -/
def edgeConfig : ChainConfig := ⟨.mbit8, 20, 250, 3, .skip, 10, 3600, 500⟩

/-- The parameters of a SET_CHAIN card with them. -/
def edgeParams : List Byte := [3, 8, 3, 1, 20, 0, 250, 0, 10, 0, 0x10, 0x0E, 0xF4, 0x01]

theorem witness_SetChainCard :
    let w := taken .setChain edgeParams
    let s := under .setChain edgeParams State.reset
    (s.underWay w .setChain ∧ edgeConfig.lawful ∧ w.param8 0 = (3 : Fin 4).val ∧ w.param8 1 = edgeConfig.bitRate.number ∧
        w.param8 2 = edgeConfig.retryLimit ∧ w.param8 3 = edgeConfig.nakPolicy.number ∧
        w.param16 4 = edgeConfig.answerWindow ∧ w.param16 6 = edgeConfig.holdLimit ∧
        w.param16 8 = edgeConfig.pollPeriod ∧ w.param16 10 = edgeConfig.verifyInterval ∧
        w.param16 12 = edgeConfig.latchDeadline) ∧
      (s.ramp.mode = .setup ∧ (s.chain 3).state = .stopped) ∧
      (chained (fun k => { k with state := .idle }) s).ramp.mode = .setup ∧
      ((chained (fun k => { k with state := .idle }) s).chain 1).state ≠ .stopped ∧
      ({ s with ramp := { s.ramp with mode := .showing } } : State).ramp.mode = .showing := by
  unfold State.underWay ChainConfig.lawful; decide +kernel

/-- A chain number of 4 is no chain, so no settings fit such a card. -/
theorem witness_SetChainCard_out_of_range :
    (under .setChain [4] State.reset).underWay (taken .setChain [4]) .setChain ∧
      ¬∃ (ch : Fin 4) (c : ChainConfig), c.lawful ∧ (taken .setChain [4]).param8 0 = ch.val ∧
        (taken .setChain [4]).param8 1 = c.bitRate.number ∧ (taken .setChain [4]).param8 2 = c.retryLimit ∧
        (taken .setChain [4]).param8 3 = c.nakPolicy.number ∧ (taken .setChain [4]).param16 4 = c.answerWindow ∧
        (taken .setChain [4]).param16 6 = c.holdLimit ∧ (taken .setChain [4]).param16 8 = c.pollPeriod ∧
        (taken .setChain [4]).param16 10 = c.verifyInterval ∧ (taken .setChain [4]).param16 12 = c.latchDeadline := by
  refine ⟨⟨rfl, rfl⟩, ?_⟩
  rintro ⟨ch, c, -, h, -⟩
  have : (taken .setChain [4]).param8 0 = 4 := by decide
  omega

/-- A chain 1 in a state. -/
def chainIn (st : ChainState) (s : State) : State := chained (fun k => { k with state := st }) s

theorem witness_StartChainCard :
    let s := under .startChain [1] State.reset
    let w := taken .startChain [1]
    ((under .startChain [4] State.reset).underWay (taken .startChain [4]) .startChain ∧
        4 ≤ (taken .startChain [4]).param8 0) ∧
      (s.underWay w .startChain ∧ w.param8 0 = (1 : Fin 4).val ∧ (s.chain 1).state = .stopped) ∧
      ((chainIn .stopping s).underWay w .startChain ∧ ((chainIn .stopping s).chain 1).state = .stopping) ∧
      (chainIn .idle s).underWay w .startChain ∧ ((chainIn .idle s).chain 1).state ≠ .stopping ∧
        ((chainIn .idle s).chain 1).state ≠ .stopped := by
  unfold State.underWay; decide +kernel

theorem witness_StopChainCard :
    let s := under .stopChain [1] (wall liveTile)
    let w := taken .stopChain [1]
    let swept := held .verify (chained (fun k => { k with sweep := some ⟨1, 0, 0, 0, 0⟩ }) s)
    ((under .stopChain [4] State.reset).underWay (taken .stopChain [4]) .stopChain ∧
        4 ≤ (taken .stopChain [4]).param8 0) ∧
      (s.underWay w .stopChain ∧ w.param8 0 = (1 : Fin 4).val ∧ (w.entries 1).stop = none ∧
        (s.chain 1).sweep = none ∧ (s.chain 1).state = .stopped) ∧
      ((chainIn .rolling s).chain 1).state = .rolling ∧
      ((found { stop := some (State.heldCard (card 0 []) .stopChain), sweepOrRoll := none } w).entries 1).stop.isSome = true ∧
      (((chainIn .idle s).chain 1).state = .idle ∧ ((chainIn .idle s).chain 1).sweep = none) ∧
      ((chainIn .busy s).chain 1).state = .busy ∧
      ((chainIn .holding s).chain 1).state = .holding ∧ ((chainIn .stopping s).chain 1).state = .stopping ∧
      (swept.underWay w .stopChain ∧ (swept.chain 1).state = .stopped ∧
        (swept.chain 1).sweep = some ⟨1, 0, 0, 0, 0⟩ ∧
        (swept.entries 1).sweepOrRoll = some (State.heldCard (card 0 []) .verify)) := by
  unfold State.underWay; decide +kernel

theorem witness_VerifyCard :
    let s := under .verify [1] (wall liveTile)
    let w := taken .verify [1]
    ((under .verify [4] State.reset).underWay (taken .verify [4]) .verify ∧ 4 ≤ (taken .verify [4]).param8 0) ∧
      (s.underWay w .verify ∧ w.param8 0 = (1 : Fin 4).val ∧ (w.entries 1).sweepOrRoll = none ∧
        (s.ctx 5).chain = 1 ∧ (s.ctx 5).life = .live) ∧
      ((found { stop := none, sweepOrRoll := some (State.heldCard (card 0 []) .rollCall) } w).entries 1).sweepOrRoll.isSome =
        true ∧
      (let u := under .verify [3] (wall liveTile);
        u.underWay (taken .verify [3]) .verify ∧ (taken .verify [3]).param8 0 = (3 : Fin 4).val ∧
          ((taken .verify [3]).entries 3).sweepOrRoll = none ∧
          ∀ i, (u.ctx i).chain = 3 → (u.ctx i).life ≠ .live ∧ (u.ctx i).verify ≠ .due ∧ (u.ctx i).verify ≠ .reading) := by
  unfold State.underWay; decide +kernel

theorem witness_RollCallCard :
    let s := under .rollCall [1] State.reset
    let w := taken .rollCall [1]
    ((under .rollCall [4] State.reset).underWay (taken .rollCall [4]) .rollCall ∧
        4 ≤ (taken .rollCall [4]).param8 0) ∧
      (s.underWay w .rollCall ∧ w.param8 0 = (1 : Fin 4).val ∧ (w.entries 1).sweepOrRoll = none ∧
        (s.chain 1).roll = none ∧ (s.chain 1).state ≠ .idle) ∧
      ((chainIn .idle s).chain 1).state = .idle ∧
      ((found { stop := none, sweepOrRoll := some (State.heldCard (card 0 []) .verify) } w).entries 1).sweepOrRoll.isSome =
        true ∧
      (let u := rolling .slot [] s;
        u.underWay w .rollCall ∧ (u.chain 1).state = .rolling ∧
          (u.chain 1).roll = some (rollAt .slot []) ∧ (rollAt .slot []).begun = true) := by
  unfold State.underWay; decide +kernel

/-! ## Witnesses: frames, the solver, the links, rolls and reports -/

/-- A part whose frame is LOST, at a nominal period of 1000, with a candidate edge at 0 and a clock. -/
def lostAt (clock : Nat) : State :=
  { State.reset with
    clock := clock
    ramp := { RampUnit.reset with
      period := 1000, frameState := .lost, lossTimer := none, substituteTimer := some 10000, candidate := some 0 } }

theorem witness_FrameMonitor :
    (State.reset.ramp.frameState = .regained ∧ State.reset.ramp.lossTimer.isSome = true ∧
        State.reset.ramp.substituteTimer = none) ∧
      ((after .lossTimerExpiry State.reset).ramp.frameState = .lost ∧
        (after .lossTimerExpiry State.reset).ramp.candidate = none) ∧
      ((lostAt 5000).ramp.frameState = .lost ∧ (lostAt 5000).ramp.candidate = some 0 ∧
        (lostAt 5000).ramp.lossTimer = none ∧ (lostAt 5000).ramp.substituteTimer.isSome = true) ∧
      (1000 ≤ 2 * ((5000 - 0) / 10) ∧ 2 * ((15009 - 0) / 10) ≤ 3 * 1000) ∧
      ¬(1000 ≤ 2 * ((4999 - 0) / 10)) ∧ ¬(2 * ((15010 - 0) / 10) ≤ 3 * 1000) := by decide

/-- A part whose next frame event is a beat of every group. -/
def beatNext (s : State) : State := grouped (fun g => { g with beatCount := 3 }) s

/-- A part whose roll on chain 1 has found the tile's serial at its address. -/
def foundAgain : State := rolling .slot [1, 2, 3, 4, 5, 6, 0x00C0FFEE] (wall { liveTile with life := .unmatched })

theorem witness_AppliedSetChangesOnlyAtItsEvents :
    let moved (c : Instr) (s : State) : Prop :=
      exec c s = .next (after c s) ∧ ((after c s).ctx 5).applied ≠ (s.ctx 5).applied
    moved .powerOnReset (wall liveTile) ∧ moved .frameEdge (beatNext (wall liveTile)) ∧
      moved (.areaBusError 0 .frameEdge) (beatNext (wall liveTile)) ∧
      moved .adopt (under .adopt [5, 0] (holding 0x3140 (sheet 1 1 63 7 15) (wall liveTile))) ∧
      moved .retire (under .retire [5, 0] (wall liveTile)) ∧ moved (.rollSlotClose 1) foundAgain := by
  refine ⟨⟨rfl, ?_⟩, ⟨rfl, ?_⟩, ⟨rfl, ?_⟩, ⟨rfl, ?_⟩, ⟨rfl, ?_⟩, rfl, ?_⟩ <;> decide +kernel

theorem witness_SolveTimersAndStaleness :
    (State.reset.group 7).solveTimer.isSome = true ∧ ((after (.solveTimerExpiry 0) State.reset).group 0).solveTimer = none := by
  decide +kernel

theorem witness_ServiceSolvesPendingGroups :
    ((wall liveTile).solvePending 2).solves = [] ∧ (((wall liveTile).solvePending 2).group 2).pending = true ∧
      (solving liveTile).solves ≠ [] ∧ ¬((wall liveTile).solvePending 2).holdsService ∧
      (scanAt (.board 3 true) (running State.reset)).holdsService ∧ (under .setGroup [3] State.reset).holdsService := by
  simp only [← State.serviceWaits_iff]; decide +kernel

theorem witness_SolvesEnd :
    (solving liveTile).solves ≠ [] ∧ ((solving liveTile).solves.map Solve.group).Nodup ∧
      ∀ v ∈ (solving liveTile).solves,
        v.members.map SolveMember.ctx = [5] ∧ (v.members.map SolveMember.ctx).Nodup := by
  decide +kernel

theorem witness_SolvedTargets :
    let s := (wall liveTile).solvePending 2
    exec .serviceTimerExpiry s = .next (after .serviceTimerExpiry s) ∧ s.solves = [] ∧ (s.group 2).pending = true ∧
      ¬s.holdsService ∧ ((s.ctx 5).group = 2 ∧ (s.ctx 5).eligible = true) ∧ (s.group 2).headroom ≤ 32768 ∧
      let v := s.newSolve 2
      v.headroom ≤ 32768 ∧ ∃ m ∈ v.members, m.tile.eligible = true := by
  simp only [← State.serviceWaits_iff]
  refine ⟨rfl, ?_⟩; decide +kernel

theorem witness_TileCorrection :
    (∃ T : Rgb Nat, (some ⟨7000, 7000, 7000⟩ : Option (Rgb Nat)) = some T) ∧ inTermRange (-32768) ∧ inTermRange 32767 ∧
      (liveTile.correction State.reset.pages none).gain.get .green = 32768 := by
  refine ⟨⟨_, rfl⟩, by unfold inTermRange; decide, by unfold inTermRange; decide, by decide +kernel⟩

theorem witness_RampStep :
    let s := beatNext { wall liveTile with ramp := { RampUnit.reset with mode := .showing } }
    let lost (at' : Nat) : State :=
      { s with ramp := { s.ramp with frameState := .lost, candidate := some 0, substituteTimer := some 0 }, clock := at' }
    s.ramp.mode = .showing ∧ s.frameEventAt .frameEdge ∧ s.stepsNext 5 ∧ (s.ctx 5).applied = some blank ∧
      ((lost (5 * s.ramp.period + 5)).frameEventAt .frameEdge ∧ (lost (5 * s.ramp.period + 5)).stepsNext 5) ∧
      ((lost (15 * s.ramp.period)).frameEventAt .frameEdge ∧ (lost 0).frameEventAt .substituteTimerExpiry) ∧
      16 < (((s.ctx 5).target.get .red).get .red - (blank.get .red).get .red).natAbs ∧
      (((s.ctx 5).target.get .red).get .blue - (blank.get .red).get .blue).natAbs ≤ 16 := by
  intro s lost
  refine ⟨by decide +kernel, .inl ⟨rfl, .inl (by decide +kernel)⟩, ?_, by decide +kernel,
    ⟨.inl ⟨rfl, .inr ⟨rfl, 0, rfl, by decide +kernel⟩⟩, ?_⟩,
    ⟨.inl ⟨rfl, .inr ⟨rfl, 0, rfl, by decide +kernel⟩⟩, .inr ⟨rfl, rfl⟩⟩, by decide +kernel⟩ <;>
  · unfold State.stepsNext Group.beatsNext; decide +kernel

/-- A chain 1 whose LATCH waits for the line, or is being sent. -/
def latching (sending : Bool) (s : State) : State :=
  chained (fun k => { k with state := .busy, flight := .latch sending }) s

theorem witness_FramesAreSent :
    (1 < 2 ∧ 19 < 20 ∧ 2 ≤ 2 ∧ 20 ≤ 20) ∧
      (((busy .push .toBegin State.reset).chain 1).flight = .transaction (transaction .push .toBegin) ∧
        (transaction .push .toBegin).phase = .toBegin) ∧
      ((latching false State.reset).chain 1).flight = .latch false ∧
      (((rolling .toBegin [] State.reset).chain 1).state = .rolling ∧
        ((rolling .toBegin [] State.reset).chain 1).flight = .none ∧
        ((rolling .toBegin [] State.reset).chain 1).roll = some (rollAt .toBegin [])) ∧
      (transaction .push .toResend).phase = .toResend ∧ (rollAt .toRetry []).phase = .toRetry ∧
      (transaction .poll .sending).phase = .sending ∧ (rollAt .sending []).phase = .sending := by decide +kernel

theorem witness_ControllerFrames :
    let set : TermSet := ⟨⟨-32768, 0, 0⟩, ⟨0, 0, 0⟩, ⟨0, 0, 32767⟩⟩
    ∀ n < 9, inTermRange
      ([set.r.r, set.r.g, set.r.b, set.g.r, set.g.g, set.g.b, set.b.r, set.b.g, set.b.b].getD n 0) := by
  unfold inTermRange; decide

theorem witness_AnswersAreRead :
    ((1 : Byte) ≠ 0 ∧ (0x7F : Byte).toNat < 0x80 ∧ (0x88 : Byte) ≠ 0 ∧ 0x87 < (0x88 : Byte).toNat) ∧
      (0 : Byte) ++ (0 : Byte) ≠ frameCheck [0x51] ∧
      -- an ACK of two bytes, an unknown kind, and no byte at all
      (∀ body ∈ ([[0x51, 0], [0x58], []] : List (List Byte)), ∀ k ∈ ([(0x51, 1), (0x52, 1), (0x53, 1), (0x54, 3), (0x55, 5),
        (0x56, 8), (0x57, 5)] : List (Byte × Nat)), ¬(body.head? = some k.1 ∧ body.length = k.2)) := by
  refine ⟨by decide +kernel, by decide +kernel, ?_⟩
  decide

theorem witness_LatchSent :
    ((latching false State.reset).chain 1).flight ≠ .latch true ∧
      ((latching true State.reset).chain 1).flight = .latch true := by decide +kernel

theorem witness_PushAcknowledged :
    let s := busy .push .window (wall liveTile)
    let t := transaction .push .window
    ((s.chain 1).flight = .transaction t ∧ t.kind = .push ∧ answerFrame (withCheck [0x51]) true = some .ack) ∧
      t.phase = .window ∧ (transaction .push .holding).phase = .holding ∧
      ((inHold (wall liveTile)).chain 1).flight = .transaction (transaction .push .holding) ∧
      ((s.ctx t.ctx).generation = t.generation ∧ (s.ctx t.ctx).life = .live) ∧
      ¬(((busy .push .window (wall adoptedTile)).ctx t.ctx).generation = t.generation ∧
        ((busy .push .window (wall adoptedTile)).ctx t.ctx).life = .live) := by decide +kernel

theorem witness_IdentityAnswered :
    let s := busy .probe .window (wall adoptedTile)
    let t := transaction .probe .window
    ((s.chain 1).flight = .transaction t ∧ t.phase = .window ∧ t.kind = .probe) ∧
      answerFrame (withCheck [0x55, 0, 0xC0, 0xFF, 0xEE]) true = some (.identity 0x00C0FFEE) ∧
      ((s.ctx t.ctx).generation = t.generation ∧ (s.ctx t.ctx).life = .adopted ∧ (0x00C0FFEE : Word) = (s.ctx t.ctx).serial ∧
        (s.chain (s.ctx t.ctx).chain).sweep = none) ∧
      answerFrame (withCheck [0x55, 0, 0, 0, 1]) true = some (.identity 1) ∧ (1 : Word) ≠ (s.ctx t.ctx).serial ∧
      ¬(((busy .probe .window (wall liveTile)).ctx t.ctx).generation = t.generation ∧
        ((busy .probe .window (wall liveTile)).ctx t.ctx).life = .adopted) := by decide +kernel

theorem witness_StatusAnswered :
    let s := busy .poll .window (wall liveTile)
    let t := transaction .poll .window
    let bytes (h l r : Byte) := withCheck [0x56, h, l, r, 0, 0, 0, 1]
    ((s.chain 1).flight = .transaction t ∧ t.phase = .window ∧ t.kind = .poll) ∧
      answerFrame (bytes 0xFE 0x70 0) true = some (.status (-400) none) ∧
      answerFrame (bytes 0x04 0xE2 0x83) true = some (.status 1250 (some ⟨3, 1⟩)) ∧
      answerFrame (bytes 0x04 0xE3 0x87) true = some (.status 1251 (some ⟨7, 1⟩)) ∧
      ((s.ctx t.ctx).generation = t.generation ∧ (s.ctx t.ctx).life = .live ∧ (s.ctx t.ctx).sensorSuspect = false) ∧
      ((busy .poll .window (wall { liveTile with sensorSuspect := true })).ctx t.ctx).sensorSuspect = true ∧
      ((busy .poll .window (wall adoptedTile)).ctx t.ctx).life ≠ .live := by decide +kernel

theorem witness_CheckAnswered :
    let s (n : Nat) := busy .readback .window (wall { liveTile with verify := .reading, mismatchCount := n })
    let t := transaction .readback .window
    (((s 0).chain 1).flight = .transaction t ∧ t.phase = .window ∧ t.kind = .readback ∧
        ((s 0).ctx t.ctx).latched = some unitMix ∧ ((s 0).ctx t.ctx).generation = t.generation ∧
        ((s 0).ctx t.ctx).life = .live) ∧
      answerFrame (withCheck ([0x54] ++ link16 (checkWord unitMix))) true = some (.check (checkWord unitMix)) ∧
      answerFrame (withCheck [0x54, 0, 0]) true = some (.check 0) ∧ 0 ≠ checkWord unitMix ∧
      ((s 1).ctx t.ctx).mismatchCount < 2 ∧ 2 ≤ ((s 2).ctx t.ctx).mismatchCount ∧
      ((s 2).chain 1).flight = .transaction t ∧ ((wall adoptedTile).ctx t.ctx).life ≠ .live ∧
      -- the context has been adopted again since: its latched set is unknown
      (let u := busy .readback .window (wall adoptedTile);
        (u.chain 1).flight = .transaction t ∧ (u.ctx t.ctx).latched = none ∧
          ¬((u.ctx t.ctx).generation = t.generation ∧ (u.ctx t.ctx).life = .live)) := by decide +kernel

theorem witness_AttemptsAndHolds :
    let s := busy .push .window (wall liveTile)
    let t := transaction .push .window
    ((s.chain 1).flight = .transaction t ∧ t.phase = .window ∧ t.kind = .push) ∧
      answerFrame (withCheck [0x52]) true = some .nak ∧ answerFrame (withCheck [0x53]) true = some .hold ∧
      t.kind.judge (answerFrame (withCheck [0x52]) false) = .garbled ∧
      (((inHold (wall liveTile)).chain 1).flight = .transaction (transaction .push .holding) ∧
        (transaction .push .holding).phase = .holding ∧ (transaction .push .holding).phase ≠ .window ∧
        t.phase ≠ .holding) ∧
      (answerFrame [0] true ≠ some .nak ∧ answerFrame [0] true ≠ some .ack) ∧
      t.attempts < 1 + t.settings.retryLimit ∧ ¬({ t with attempts := 3 }.attempts < 1 + t.settings.retryLimit) ∧
      t.settings.nakPolicy = .retry := by decide +kernel

theorem witness_TransactionFails :
    let s (n : Nat) := busy .push .window (wall { liveTile with failCount := n })
    let accepted (u : State) (t : Transaction) : Prop :=
      (u.ctx t.ctx).generation = t.generation ∧ (u.ctx t.ctx).life = if t.kind = .probe then .adopted else .live
    (accepted (s 1) (transaction .push .window) ∧ ((s 1).ctx 5).failCount < 2) ∧
      (accepted (s 2) (transaction .poll .window) ∧ 2 ≤ ((s 2).ctx 5).failCount) ∧
      accepted (s 0) (transaction .readback .window) ∧
      (accepted (wall adoptedTile) (transaction .probe .window) ∧ 5 ∉ ((wall adoptedTile).chain 1).probeQueue) ∧
      ¬accepted (wall adoptedTile) (transaction .push .window) := by decide +kernel

theorem witness_ChainTimers :
    let s (clock : Nat) : State :=
      { chained (fun k => { k with pollTimer := some 0, sweepTimer := some 0, latchPending := some ⟨0, false⟩ })
          (wall liveTile) with clock := clock }
    ((s 0).chain 1).pollTimer.isSome = true ∧ ((s 0).chain 1).sweepTimer.isSome = true ∧
      ((s 0).chain 1).latchPending = some ⟨0, false⟩ ∧
      50 * 10 < ((s 50100).tick - 0).toNat ∧ ((s 50099).tick - 0).toNat ≤ 50 * 10 ∧
      (State.reset.chain 1).pollTimer = none ∧ (State.reset.chain 1).latchPending = none ∧
      (State.reset.chain 1).sweepTimer = none := by decide +kernel

/-- An IDLE chain 1, with context 5 LIVE and DUE, and something more on the chain. -/
def idleWith (f : Chain → Chain) : State :=
  chained (fun k => f { k with state := .idle, framesSinceLatch := 2 }) (wall { liveTile with verify := .due })

theorem witness_ArbiterOrder :
    let at' (f : Chain → Chain) : Chain := (idleWith f).chain 1
    ((State.reset.chain 1).state ≠ .idle) ∧ ((at' id).state = .idle ∧ (at' id).flight = .none ∧ (at' id).roll = none) ∧
      (at' fun k => { k with roll := some Roll.waiting }).roll = some Roll.waiting ∧
      (at' fun k => { k with probeQueue := [5] }).probeQueue = [5] ∧
      (at' fun k => { k with latchPending := some ⟨0, true⟩ }).latchPending = some ⟨0, true⟩ ∧
      ((at' fun k => { k with pollList := [⟨9, false, false⟩, ⟨5, true, false⟩] }).pollList.find?
          fun e => e.overdue && !e.inFlight) = some ⟨5, true, false⟩ ∧
      (at' fun k => { k with pushQueue := [5] }).pushQueue = [5] ∧
      ((at' fun k => { k with latchPending := some ⟨0, false⟩ }).latchPending ≠ none) ∧
      (((idleWith id).ctx 5).life = .live ∧ ((idleWith id).ctx 5).chain = 1 ∧ ((idleWith id).ctx 5).verify = .due ∧
        ((idleWith id).ctx 5).latched ≠ none ∧ 5 ∉ (at' id).pushQueue ∧ (at' id).latchPending = none ∧
        2 ≤ (at' id).framesSinceLatch) ∧
      (∀ i, ((wall liveTile).ctx i).verify ≠ .due) ∧
      ((at' fun k => { k with pollList := [⟨9, false, false⟩] }).pollList.find? fun e => !e.inFlight) =
        some ⟨9, false, false⟩ := by decide +kernel

theorem witness_EndOfWork :
    let s := held .verify (chained (fun k =>
      { k with state := .stopping, flight := .transaction (transaction .push .window), sweep := some ⟨1, 0, 0, 0, 0⟩ })
      (wall liveTile))
    (s.chain 1).state = .stopping ∧ (s.chain 1).sweep = some ⟨1, 0, 0, 0, 0⟩ ∧
      (s.entries 1).sweepOrRoll = some (State.heldCard (card 0 []) .verify) ∧
      ((busy .push .window (wall liveTile)).chain 1).state ≠ .stopping := by decide +kernel

theorem witness_RollSlots :
    let s (serials : List Word) := held .rollCall (rolling .slot serials (wall liveTile))
    let r := rollAt .slot []
    (((s []).chain 1).state = .rolling ∧ ((s []).chain 1).roll = some r ∧ r.phase = .slot ∧ r.ending = false ∧
        r.again = false) ∧
      ({ r with ending := true }.ending = true ∧ { r with again := true }.again = true) ∧
      answerFrame (withCheck [0x57, 0, 0, 0, 9]) true = some (.rollAnswer 9) ∧
      (rollAt .slot (List.replicate 61 7)).serials.length < 62 ∧
      (rollAt .slot (List.replicate 62 7)).serials.length = 62 ∧
      (∀ serial, answerFrame [0] true ≠ some (.rollAnswer serial)) ∧
      ({ r with attempts := 2 }.attempts < 1 + r.retryLimit) ∧ 1 + r.retryLimit ≤ { r with attempts := 3 }.attempts ∧
      ((s []).entries 1).sweepOrRoll = some (State.heldCard (card 0 []) .rollCall) := by
  refine ⟨by decide +kernel, by decide, by decide +kernel, by decide, by decide, ?_, by decide, by decide, by decide +kernel⟩
  have : answerFrame [0] true = none := by decide +kernel
  rw [this]; intro _ h; cases h

/-- With no context outside ABSENT but context 5, no two share a position. -/
theorem wall_positions (s : State) (h : ∀ i, (s.ctx i).life ≠ .absent → i = 5) : s.positionsLawful := by
  intro i j hij hi hj
  exact absurd ((h i hi).trans (h j hj).symm) hij

theorem witness_RollCompletes :
    let s := held .rollCall (rolling .slot [1, 2] (wall liveTile))
    let r := rollAt .slot [1, 2]
    s.positionsLawful ∧ r.ending = false ∧ r.again = false ∧ r.serials.length ≤ 63 ∧
      (rollAt .slot (List.replicate 63 7)).serials.length ≤ 63 ∧
      ((s.ctx 0).life = .absent ∧ (s.ctx 5).life ≠ .absent ∧ (s.ctx 5).chain = 1 ∧ (s.ctx 5).address ≠ 0) ∧
      (s.entries 1).sweepOrRoll = some (State.heldCard (card 0 []) .rollCall) := by
  refine ⟨wall_positions _ (by decide +kernel), ?_⟩
  decide +kernel

theorem witness_TileReportsAreRouted :
    let f : Filter := ⟨true, 0xF00, 0x700, .alert⟩
    let s : State := { State.reset with filters := State.reset.filters.set 5 f }
    let u := under .setFilter [5, 1, 1, 0, 0x00, 0x0F, 0x00, 0x07] State.reset
    (∀ n, s.judgesBy n (s.filters.get n)) ∧ (f.enable = true ∧ ∀ b < 12, f.mask.getLsbD b = true →
        (7 * 256 + 3 * 64 + 63).testBit b = f.pattern.getLsbD b) ∧
      (∀ m, m < (5 : Fin 6) → ¬(s.filters.get m).enable = true) ∧
      (∀ n, ¬(State.reset.filters.get n).enable = true) ∧
      -- the card is taken and not yet dispatched
      u.judgesBy 5 f ∧ (∀ m, m < (5 : Fin 6) → u.judgesBy m (State.reset.filters.get m)) := by
  refine ⟨fun n => .inr ⟨fun w _ e => by simp [State.reset, Intake.reset] at e, rfl⟩, by decide +kernel, by decide +kernel,
    by decide +kernel, .inl ⟨_, rfl, by unfold Walk.givesFilter; decide +kernel⟩, fun m h => .inr ⟨fun w g e k => ?_, rfl⟩⟩
  cases e
  have := k.2.1
  rw [show (taken .setFilter [5, 1, 1, 0, 0x00, 0x0F, 0x00, 0x07]).param8 0 = 5 by decide +kernel] at this
  exact absurd this (by simp [Fin.lt_def] at h; omega)

/-- R159: a report routed after a SET_FILTER card is taken, and before it is dispatched, is judged by its entry. -/
theorem test_filter_in_force_when_taken :
    let u := under .setFilter [5, 1, 1, 0, 0x00, 0x0F, 0x00, 0x07] State.reset
    (u.routingFilter 0x7FF).map (fun f => f.1) = some 5 ∧ u.filters.get 5 = State.reset.filters.get 5 ∧
      (under .setFilter [6, 1, 1, 0, 0x00, 0x0F, 0x00, 0x07] State.reset).routingFilter 0x7FF = none := by decide +kernel

/-- A running part that has read the host words, with some unread alerts. -/
def logging (alerts : Fin 32) : State :=
  { running State.reset with logs := { Logs.reset with alertWrite := alerts, ready := true } }

theorem witness_ReportsAreLogged :
    (State.reset.regs.run = false ∧ haltedPart.intake.halted = true ∧ (running State.reset).logs.ready = false) ∧
      ((logging 30).regs.run = true ∧ (logging 30).logs.ready = true ∧ (logging 30).goodAccesses 1 = 1 ∧
        (logging 30).unreadAlerts < 31) ∧
      ((logging 31).intake.halted = false ∧ (logging 31).unreadAlerts = 31) ∧
      (((logging 31).writeReport .general ((logging 31).partReport .missing 0 1 0 0)).intake.halted = false ∧
        ((failing 0 (logging 31)).writeReport .general ((logging 31).partReport .missing 0 1 0 0)).intake.halted = true) ∧
      (let d := after (.perstN true) (logging 30);
        d.regs.run = true ∧ d.logs.ready = true ∧ d.intake.halted = false ∧ d.goodAccesses 1 = 0 ∧ d.unreadAlerts < 31) ∧
      (failing 0 (logging 30)).goodAccesses 1 = 0 := by
  decide +kernel

theorem witness_GeneralLogWrites :
    ((logging 0).regs.run = true ∧ (logging 0).logs.ready = true ∧ (logging 0).intake.halted = false) ∧
      (logging 0).goodAccesses 1 = 1 ∧ (failing 0 (logging 0)).goodAccesses 1 = 0 := by decide +kernel

/-! ## Witnesses: a lawful state with a command waiting -/

/-- A part with a LIVE tile, and the frame event of a beat waiting. -/
def lawfulPart : State := { beatNext (wall liveTile) with pending := [.frameEdge] }

theorem lawfulPart_ctx (i : Fin 256) : lawfulPart.ctx i = if i = 5 then liveTile else Context.reset := by
  revert i; decide +kernel

theorem lawfulPart_step : ∃ t, step lawfulPart = .next t := ⟨_, rfl⟩

theorem witness_StepKeepsTheHostSide : (∃ t, step lawfulPart = .next t) ∧ lawfulPart.hostLawful := by
  refine ⟨lawfulPart_step, ?_⟩
  unfold State.hostLawful State.memoryLawful Logs.countsLawful State.intakeLawful
  decide +kernel

theorem witness_StepKeepsPositionsQueuesAndChainStates :
    (∃ t, step lawfulPart = .next t) ∧ lawfulPart.positionsLawful ∧ lawfulPart.queuesLawful ∧
      lawfulPart.chainsLawful := by
  refine ⟨lawfulPart_step, wall_positions _ (by decide +kernel), wall_queues liveTile _ rfl, fun ch => ?_⟩
  have hc : lawfulPart.chain ch = Chain.reset := by fin_cases ch <;> rfl
  rw [hc]
  simp [Chain.lawful, Chain.reset]

theorem witness_StepKeepsCountsAndSets :
    (∃ t, step lawfulPart = .next t) ∧ lawfulPart.countsLawful ∧ lawfulPart.setsLawful := by
  refine ⟨lawfulPart_step, fun i => ?_, fun i => ?_, fun ch t => ?_, by decide, fun v hv => ?_⟩
  · rw [lawfulPart_ctx]; split
    · unfold Context.countsLawful; decide
    · unfold Context.countsLawful; decide
  · have h (s : TermSet) (hs : s = blank ∨ s = unitMix) : setInRange s := by
      intro i j
      unfold inTermRange
      rcases hs with rfl | rfl <;> cases i <;> cases j <;> decide
    have one : ∀ c : Context, c = liveTile ∨ c = Context.reset → c.setsLawful := by
      rintro c (rfl | rfl)
      · refine ⟨fun p => by cases p <;> decide, h _ (.inr rfl), h _ (.inr rfl), ?_, ?_, ?_, fun _ => rfl⟩ <;>
          (intro a ha; injection ha with ha; subst ha)
        · exact h _ (.inl rfl)
        · exact h _ (.inr rfl)
        · exact h _ (.inr rfl)
      · refine ⟨fun p => by cases p <;> decide, h _ (.inl rfl), h _ (.inl rfl), ?_, ?_, ?_, fun h => ?_⟩
        · intro a ha; cases ha
        · intro a ha; cases ha
        · intro a ha; cases ha
        · exact absurd h (by decide)
    rw [lawfulPart_ctx]; split
    · exact one _ (.inl rfl)
    · exact one _ (.inr rfl)
  · have hc : (lawfulPart.chain ch).flight = .none := by fin_cases ch <;> rfl
    rw [hc]; intro h; cases h
  · cases hv

theorem witness_StepKeepsTheSettings :
    (∃ t, step lawfulPart = .next t) ∧ lawfulPart.ramp.freezeLawful ∧ lawfulPart.settingsLawful := by
  refine ⟨lawfulPart_step, ?_, ?_⟩
  · unfold RampUnit.freezeLawful; decide
  · unfold State.settingsLawful Group.lawful ChainConfig.lawful Page.lawful; decide +kernel

end Sys2Proof.Tests
end

section
/-! The ramp step of SHOW mode at a frame event (R20, R80 to R88), and the targets of a solve (R10 to R12). -/

namespace Sys2Proof.Machine

/-! ## The ramp step of a term and of a set (R20) -/

theorem Rgb.get_zipWith {α β γ : Type} (f : α → β → γ) (v : Rgb α) (w : Rgb β) (p : Primary) :
    (Rgb.zipWith f v w).get p = f (v.get p) (w.get p) := by
  cases p <;> rfl

theorem rampSet_get (slew : Nat) (a c : TermSet) (i j : Primary) :
    ((rampSet slew a c).get i).get j = rampTerm slew ((a.get i).get j) ((c.get i).get j) := by
  simp only [rampSet, Rgb.get_zipWith]

theorem rampTerm_near {slew : Nat} {a c : Int} (h : (c - a).natAbs ≤ slew) : rampTerm slew a c = c := if_pos h

theorem rampTerm_up {slew : Nat} {a c : Int} (h : slew < (c - a).natAbs) (up : a < c) :
    rampTerm slew a c = a + slew := by
  rw [rampTerm, if_neg (by omega), if_pos up]

theorem rampTerm_down {slew : Nat} {a c : Int} (h : slew < (c - a).natAbs) (down : c < a) :
    rampTerm slew a c = a - slew := by
  rw [rampTerm, if_neg (by omega), if_neg (by omega)]

/-- A term moves by the slew step at most, does not pass its target, and comes nearer to it by the slew step. -/
theorem rampTerm_bounds (slew : Nat) (a c : Int) :
    (rampTerm slew a c - a).natAbs ≤ slew ∧ min a c ≤ rampTerm slew a c ∧ rampTerm slew a c ≤ max a c ∧
      (c - rampTerm slew a c).natAbs = (c - a).natAbs - slew := by
  by_cases near : (c - a).natAbs ≤ slew
  · rw [rampTerm_near near]; omega
  · have far : slew < (c - a).natAbs := by omega
    by_cases up : a < c
    · rw [rampTerm_up far up]; omega
    · rw [rampTerm_down far (by omega)]; omega

/-! ## What leaves the beats' business alone -/

/-- `t` has the mode and the slew steps of `s`, and every context's life state, group, target set and applied set: all
that a beat goes by and what it writes, but for the groups' beat counters and the freeze. -/
def State.rampsAlike (s t : State) : Prop :=
  t.ramp.mode = s.ramp.mode ∧ (∀ g, (t.group g).slew = (s.group g).slew) ∧
  ∀ i, (t.ctx i).life = (s.ctx i).life ∧ (t.ctx i).group = (s.ctx i).group ∧
    (t.ctx i).target = (s.ctx i).target ∧ (t.ctx i).applied = (s.ctx i).applied

theorem State.rampsAlike_refl (s : State) : s.rampsAlike s :=
  ⟨rfl, fun _ => rfl, fun _ => ⟨rfl, rfl, rfl, rfl⟩⟩

theorem State.rampsAlike_trans {s t u : State} (h : s.rampsAlike t) (k : t.rampsAlike u) : s.rampsAlike u := by
  obtain ⟨hm, hg, hc⟩ := h
  obtain ⟨km, kg, kc⟩ := k
  refine ⟨km.trans hm, fun g => (kg g).trans (hg g), fun i => ?_⟩
  obtain ⟨h1, h2, h3, h4⟩ := hc i
  obtain ⟨k1, k2, k3, k4⟩ := kc i
  exact ⟨k1.trans h1, k2.trans h2, k3.trans h3, k4.trans h4⟩

theorem State.rampsAlike_foldl {α : Type} {f : State → α → State}
    (h : ∀ (s : State) a, s.rampsAlike (f s a)) (l : List α) (s : State) :
    s.rampsAlike (l.foldl f s) := by
  induction l generalizing s with
  | nil => exact s.rampsAlike_refl
  | cons a l ih => exact State.rampsAlike_trans (h s a) (ih (f s a))

/-- The arbiter of a chain may mark a context as READING, which the beats do not go by (R137). -/
theorem State.arbitrate_rampsAlike (s : State) (ch : Fin 4) : s.rampsAlike (s.arbitrate ch) := by
  refine ⟨by simp, fun g => congrArg Group.slew (State.group_congr (by simp) g), fun i => ?_⟩
  rcases s.arbitrate_eq ch with e | ⟨_, c, _, e⟩
  · rw [e]; exact ⟨rfl, rfl, rfl, rfl⟩
  · rw [e, State.start_ctx]
    split_ifs
    · rw [Context.touched_eq]; exact ⟨rfl, rfl, rfl, rfl⟩
    · exact ⟨rfl, rfl, rfl, rfl⟩

theorem State.countBeats_rampsAlike (s : State) : s.rampsAlike s.countBeats :=
  ⟨rfl, fun g => by simp [State.group, State.countBeats], fun _ => ⟨rfl, rfl, rfl, rfl⟩⟩

theorem State.countFrame_rampsAlike (s : State) (ch : Fin 4) : s.rampsAlike (s.countFrame ch) := s.rampsAlike_refl

theorem State.takeCounts_rampsAlike (s : State) (chs : List (Fin 4)) : s.rampsAlike (s.takeCounts chs) :=
  State.rampsAlike_foldl (fun u ch => State.rampsAlike_trans (u.countFrame_rampsAlike ch)
    ((u.countFrame ch).arbitrate_rampsAlike ch)) chs s

/-! ## Beats (R86 to R88) -/

/-- The pushes that a beat enqueues change the chains alone. -/
theorem State.foldPushes_keeps (s : State) (l : List (Fin 256 × Context)) :
    (l.foldl (fun s x => s.enqueuePush x.1) s).contexts = s.contexts ∧
    (l.foldl (fun s x => s.enqueuePush x.1) s).groups = s.groups ∧
    (l.foldl (fun s x => s.enqueuePush x.1) s).ramp = s.ramp := by
  induction l generalizing s with
  | nil => exact ⟨rfl, rfl, rfl⟩
  | cons x l ih => simpa using ih (s.enqueuePush x.1)

@[simp] theorem State.beatActs_ramp (s : State) (g : Fin 8) : (s.beatActs g).ramp = s.ramp :=
  (State.foldPushes_keeps _ _).2.2

@[simp] theorem State.beatActs_group (s : State) (g h : Fin 8) : (s.beatActs g).group h = s.group h :=
  State.group_congr (t := s.beatActs g) (s := s) (State.foldPushes_keeps _ _).2.1 h

/-- A beat of a group gives each of its LIVE contexts its new applied set, and changes no other context (R87). -/
theorem State.beatActs_ctx (s : State) (g : Fin 8) (i : Fin 256) :
    (s.beatActs g).ctx i =
      if (s.ctx i).beatsIn g then
        (s.ctx i).touched { s.ctx i with applied := (s.ctx i).beaten s.ramp.mode (s.group g).slew }
      else s.ctx i := by
  unfold State.beatActs
  dsimp only
  rw [State.ctx_congr (State.foldPushes_keeps _ _).1 i]
  exact Table.get_map _ _ _

/-- A beat of a group leaves what decides of the beats of the others. -/
theorem State.beatActs_ctx_keeps (s : State) (g : Fin 8) (i : Fin 256) :
    ((s.beatActs g).ctx i).life = (s.ctx i).life ∧ ((s.beatActs g).ctx i).group = (s.ctx i).group := by
  rw [State.beatActs_ctx, Context.touched_eq]
  split_ifs <;> exact ⟨rfl, rfl⟩

/-- A beat of another group does not act on a context. -/
theorem State.beatActs_ctx_other (s : State) {g : Fin 8} {i : Fin 256} (h : (s.ctx i).group ≠ g) :
    (s.beatActs g).ctx i = s.ctx i := by
  rw [State.beatActs_ctx, if_neg (by simp [Context.beatsIn, h])]

theorem State.foldBeats_ctx_other (gs : List (Fin 8)) (s : State) (i : Fin 256) (h : (s.ctx i).group ∉ gs) :
    (gs.foldl State.beatActs s).ctx i = s.ctx i := by
  induction gs generalizing s with
  | nil => rfl
  | cons g gs ih =>
    obtain ⟨hg, hgs⟩ := not_or.1 (mt List.mem_cons.2 h)
    rw [List.foldl_cons, ih _ (by rwa [(s.beatActs_ctx_keeps g i).2]), State.beatActs_ctx_other s hg]

/-- A LIVE context of a group that beats once gets the applied set of one beat, whatever the order of the groups. -/
theorem State.foldBeats_applied (gs : List (Fin 8)) (once : gs.Nodup) (s : State) (i : Fin 256)
    (live : (s.ctx i).life = .live) (beats : (s.ctx i).group ∈ gs) :
    ((gs.foldl State.beatActs s).ctx i).applied =
      (s.ctx i).beaten s.ramp.mode (s.group (s.ctx i).group).slew := by
  induction gs generalizing s with
  | nil => cases beats
  | cons g gs ih =>
    obtain ⟨hg, hgs⟩ := List.nodup_cons.1 once
    rw [List.foldl_cons]
    by_cases own : (s.ctx i).group = g
    · rw [State.foldBeats_ctx_other gs _ i (by rwa [(s.beatActs_ctx_keeps g i).2, own]), State.beatActs_ctx,
        if_pos (by simp [Context.beatsIn, own, live]), Context.touched_eq, own]
    · have same := s.beatActs_ctx_other own
      rw [ih hgs _ (by rwa [same]) (by rw [same]; exact (List.mem_cons.1 beats).resolve_left own), same,
        State.beatActs_ramp, State.beatActs_group]

/-! ## Frame events (R80 to R85) -/

theorem State.acting_nodup (s : State) : s.acting.Nodup := by
  unfold State.acting State.beating
  split_ifs
  · exact List.nodup_nil
  · exact ((List.nodup_finRange 8).filter _).filter _

theorem State.mem_acting_of_stepsNext {s : State} {i : Fin 256} (h : s.stepsNext i) : (s.ctx i).group ∈ s.acting := by
  obtain ⟨noTag, noPin, beats, live⟩ := h
  have member : s.contexts.cells.any (Context.beatsIn (s.ctx i).group) = true :=
    (Table.any_cells _ _).2 ⟨i, by show (s.ctx i).beatsIn _ = true; simp [Context.beatsIn, live]⟩
  have beats' : (s.group (s.ctx i).group).beat ≤ (s.group (s.ctx i).group).beatCount + 1 := beats
  simp [State.acting, State.beating, RampUnit.frozen, noTag, noPin, member, beats']

/-- A frame event takes the beats of the groups whose beat acts, each once; what stands before and after them leaves
alone what the beats go by (R85, R88). -/
theorem State.frameEvent_eq (s : State) : ∃ (u : State) (gs : List (Fin 8)) (chs : List (Fin 4)),
    s.rampsAlike u ∧ gs.Perm s.acting ∧ s.frameEvent = (u.takeBeats gs).takeCounts chs := by
  obtain ⟨n, perm, e⟩ := s.unordered_eq s.acting
  have counted : s.rampsAlike (s.unordered s.acting).2.countBeats := by
    rw [e]; exact State.countBeats_rampsAlike { s with freeIndex := n }
  unfold State.frameEvent
  dsimp only
  generalize (s.unordered s.acting).1 = gs at perm ⊢
  generalize (s.unordered s.acting).2.countBeats = u at counted ⊢
  split_ifs
  · exact ⟨_, gs, _, State.rampsAlike_trans counted
      (State.takeCounts_rampsAlike { u with freeIndex := u.freeIndex + 1 } _), perm, rfl⟩
  · exact ⟨u, gs, _, counted, perm, rfl⟩

/-- A frame event whose beat acts on a context gives it the applied set of that beat (R87). -/
theorem State.frameEvent_applied {s : State} {i : Fin 256} (h : s.stepsNext i) :
    (s.frameEvent.ctx i).applied = (s.ctx i).beaten s.ramp.mode (s.group (s.ctx i).group).slew := by
  obtain ⟨u, gs, chs, ⟨mode, slew, alike⟩, perm, e⟩ := s.frameEvent_eq
  obtain ⟨life, group, target, applied⟩ := alike i
  have ⟨_, _, _, live⟩ := h
  have after : (gs.foldl State.beatActs u).rampsAlike s.frameEvent := by
    rw [e]
    exact State.rampsAlike_trans (State.rampsAlike_foldl State.arbitrate_rampsAlike _ _)
      (State.takeCounts_rampsAlike _ _)
  obtain ⟨-, -, kept⟩ := after
  obtain ⟨-, -, -, keeps⟩ := kept i
  rw [keeps, State.foldBeats_applied gs (perm.nodup_iff.2 s.acting_nodup) u i (life.trans live)
    (by rw [group]; exact perm.mem_iff.2 (State.mem_acting_of_stepsNext h)), mode, slew, group]
  simp only [Context.beaten, target, applied]

/-- A command that gives a frame event has first changed the frame monitor's own records (R80 to R82). -/
theorem State.exec_frameEvent {s : State} {c : Instr} (h : s.frameEventAt c) : ∃ u : State,
    exec c s = .next u.frameEvent ∧ u.contexts = s.contexts ∧ u.groups = s.groups ∧ u.ramp.mode = s.ramp.mode ∧
      u.ramp.freezeSet = s.ramp.freezeSet ∧ u.ramp.freezeIn = s.ramp.freezeIn := by
  have edge : exec .frameEdge s = .next (frameEdgeStep s) := rfl
  have substitute : exec .substituteTimerExpiry s = .next (substituteTimerExpiryStep s) := rfl
  rcases h with ⟨rfl, regained | ⟨lost, x, candidate, early, late⟩⟩ | ⟨rfl, running⟩
  · refine ⟨s.modRamp fun r => { r with lossTimer := lossTimerFor r.period }, ?_, rfl, rfl, rfl, rfl, rfl⟩
    rw [edge, frameEdgeStep, regained]
  · have spaced : State.regains s.ramp.period ((s.clock - x) / Config.frameUnitMicros) = true := by
      simp [State.regains, Config.frameUnitMicros, early, late]
    refine ⟨s.regain, ?_, rfl, rfl, rfl, rfl, rfl⟩
    rw [edge, frameEdgeStep, lost]
    simp only [candidate, spaced, if_true]
  · refine ⟨s.modRamp fun r => { r with substituteTimer := substituteTimerFor r.period }, ?_, rfl, rfl, rfl, rfl,
      rfl⟩
    rw [substitute, substituteTimerExpiryStep, if_pos running]

/-- Settles O37: each term of the applied set of the beat is the ramp step of its old one. -/
theorem rampStep : Obligations.RampStep := by
  intro s c k old showing event steps applied
  obtain ⟨u, hu, contexts, groups, mode, tags, pin⟩ := State.exec_frameEvent event
  have ctx : u.ctx k = s.ctx k := State.ctx_congr contexts k
  have group (g : Fin 8) : u.group g = s.group g := State.group_congr groups g
  have steps' : u.stepsNext k := by
    unfold State.stepsNext
    rwa [tags, pin, ctx, group]
  refine ⟨_, hu, rampSet (s.group (s.ctx k).group).slew old (s.ctx k).target, ?_, fun i j => ?_⟩
  · rw [State.frameEvent_applied steps', ctx, group, mode, showing]
    simp only [Context.beaten, applied, Option.map_some]
  · simp only [rampSet_get]
    exact ⟨rampTerm_near, fun far => ⟨rampTerm_up far, rampTerm_down far⟩, rampTerm_bounds _ _ _⟩

/-! ## The targets with which a solve ends (R10, R11) -/

/-- A least luminance times the headroom, or the cap, is no greater than the cap nor, the headroom being at most 1.0,
than any of the luminances. -/
theorem least_target_bounds {ι : Type} {votes : ι → Prop} {e : ι → Nat} {T headroom cap : Nat}
    (h : ∃ i, votes i ∧ T = min (e i * headroom / 32768) cap ∧ ∀ j, votes j → e i ≤ e j) :
    T ≤ cap ∧ (headroom ≤ 32768 → ∀ j, votes j → T ≤ e j) := by
  obtain ⟨i, -, rfl, least⟩ := h
  refine ⟨Nat.min_le_right _ _, fun small j hj => ?_⟩
  calc min (e i * headroom / 32768) cap
      ≤ e i * headroom / 32768 := Nat.min_le_left _ _
    _ ≤ e i * 32768 / 32768 := Nat.div_le_div_right (Nat.mul_le_mul_left _ small)
    _ = e i := Nat.mul_div_cancel _ (by decide)
    _ ≤ e j := least j hj

theorem State.foldSolves_group_other (vs : List Solve) (s : State) {g : Fin 8} (h : g ∉ vs.map Solve.group) :
    (vs.foldl State.writeSolve s).group g = s.group g := by
  induction vs generalizing s with
  | nil => rfl
  | cons v vs ih =>
    obtain ⟨hv, hvs⟩ := not_or.1 (mt List.mem_cons.2 h)
    rw [List.foldl_cons, ih _ hvs, State.writeSolve_group, if_neg (Ne.symm hv)]

/-- The end of solves of one group each leaves each group with the targets of its solve. -/
theorem State.foldSolves_targets (vs : List Solve) (s : State) (each : (vs.map Solve.group).Nodup) {v : Solve}
    (hv : v ∈ vs) : ((vs.foldl State.writeSolve s).group v.group).targets = s.solveTargets v := by
  induction vs generalizing s with
  | nil => cases hv
  | cons w vs ih =>
    obtain ⟨hw, hvs⟩ := List.nodup_cons.1 each
    rw [List.foldl_cons]
    have pages : (s.writeSolve w).pages = s.pages := by simp
    rcases List.mem_cons.1 hv with rfl | later
    · rw [State.foldSolves_group_other vs _ hw, State.writeSolve_group, if_pos rfl]; rfl
    · have ne : w.group ≠ v.group := fun e => hw (e ▸ List.mem_map_of_mem later)
      rw [ih _ hvs later]
      unfold State.solveTargets
      rw [State.writeSolve_group, if_neg ne, pages]

theorem State.endSolves_targets (s : State) {vs : List Solve} (each : (vs.map Solve.group).Nodup) {v : Solve}
    (hv : v ∈ vs) : ((s.endSolves vs).group v.group).targets = s.solveTargets v := by
  rw [← State.foldSolves_targets vs s each hv]
  exact congrArg Group.targets (State.group_congr (by simp [State.endSolves]) v.group)

theorem State.foldSolves_solves (vs : List Solve) (s : State) :
    (vs.foldl State.writeSolve s).solves = s.solves.filter fun u => !decide (u.group ∈ vs.map Solve.group) := by
  induction vs generalizing s with
  | nil => simp
  | cons v vs ih =>
    rw [List.foldl_cons, ih, State.writeSolve_solves, List.filter_filter]
    refine List.filter_congr fun u _ => ?_
    simp [Bool.and_comm]

/-- The end of some solves takes those of their groups, and no other, off the list of solves under way. -/
theorem State.mem_endSolves_solves (s : State) (vs : List Solve) (v : Solve) :
    v ∈ (s.endSolves vs).solves ↔ v ∈ s.solves ∧ v.group ∉ vs.map Solve.group := by
  have e : (s.endSolves vs).solves = (vs.foldl State.writeSolve s).solves := by simp [State.endSolves]
  rw [e, State.foldSolves_solves, List.mem_filter, Bool.not_eq_true', decide_eq_false_iff_not]

/-- Of solves of one group each, one that is no longer under way is among those that ended. -/
theorem State.mem_ended_of_gone {s : State} {vs : List Solve} (each : (s.solves.map Solve.group).Nodup)
    (sub : vs ⊆ s.solves) {v : Solve} (hv : v ∈ s.solves)
    (gone : ∀ w ∈ (s.endSolves vs).solves, w.group ≠ v.group) : v ∈ vs := by
  have hg : v.group ∈ vs.map Solve.group := by
    by_contra stays
    exact gone v ((s.mem_endSolves_solves vs v).2 ⟨hv, stays⟩) rfl
  obtain ⟨w, hw, same⟩ := List.mem_map.1 hg
  rwa [← List.inj_on_of_nodup_map each (sub hw) hv same]

/-! ## A service of the solver (R52) -/

/-- The beginning of a solve leaves what another solve is to read. -/
theorem State.beginSolve_newSolve (s : State) (g h : Fin 8) : (s.beginSolve g).newSolve h = s.newSolve h := by
  have e : (s.beginSolve g).contexts = s.contexts := rfl
  unfold State.newSolve
  rw [State.beginSolve_group, e]
  split_ifs with k
  · rw [k]
  · rfl

theorem State.foldBegin_solves (gs : List (Fin 8)) (s : State) :
    (gs.foldl State.beginSolve s).solves = s.solves ++ gs.map s.newSolve := by
  induction gs generalizing s with
  | nil => simp
  | cons g gs ih =>
    rw [List.foldl_cons, ih, State.beginSolve_solves]
    simp [State.beginSolve_newSolve]

theorem State.foldBegin_pages (gs : List (Fin 8)) (s : State) : (gs.foldl State.beginSolve s).pages = s.pages := by
  induction gs generalizing s with
  | nil => rfl
  | cons g gs ih => rw [List.foldl_cons, ih]; rfl

theorem State.mem_pendingGroups {s : State} {g : Fin 8} (pending : (s.group g).pending = true) :
    g ∈ s.pendingGroups :=
  List.mem_filter.2 ⟨List.mem_finRange g, pending⟩

/-- A service with no solve under way begins one of each pending group, and ends some of them (R52; log 26). -/
theorem State.serviceWith_eq {s : State} (idle : s.solves = []) (late early : Nat) :
    ∃ (u : State) (ended : List Solve), u.pages = s.pages ∧
    u.solves = s.pendingGroups.map (fun g => (s.newSolve g).readSome s.pages fun i => early.testBit i.val) ∧
    ended.Sublist u.solves ∧ s.serviceWith late early = u.endSolves ended := by
  refine ⟨(s.pendingGroups.foldl State.beginSolve s).readPages fun i => early.testBit i.val, _,
    State.foldBegin_pages _ _, ?_, List.filter_sublist, rfl⟩
  show List.map _ (s.pendingGroups.foldl State.beginSolve s).solves = _
  rw [State.foldBegin_solves, State.foldBegin_pages, idle, List.nil_append, List.map_map]
  rfl

/-- A service that begins and ends the solve of a pending group leaves in the group's record the targets of that solve,
which has read the table and the curve store as they stood (R18, R52). -/
theorem State.serviceWith_targets {s : State} {g : Fin 8} (idle : s.solves = [])
    (pending : (s.group g).pending = true) (late early : Nat) :
    ∃ (u : State) (v : Solve), s.beginsSolve v ∧ v.group = g ∧ u.pages = s.pages ∧
      ((∀ w ∈ (s.serviceWith late early).solves, w.group ≠ g) →
        ((s.serviceWith late early).group g).targets = u.solveTargets v) := by
  obtain ⟨u, ended, pages, solves, sub, e⟩ := State.serviceWith_eq idle late early
  obtain ⟨v, hv, begun, rfl⟩ : ∃ v ∈ u.solves, s.beginsSolve v ∧ v.group = g := by
    rw [solves]
    exact ⟨_, List.mem_map.2 ⟨g, State.mem_pendingGroups pending, rfl⟩, s.newSolve_begins g _, rfl⟩
  have groups : u.solves.map Solve.group = s.pendingGroups := by
    rw [solves, List.map_map]; exact List.map_id _
  have each : (u.solves.map Solve.group).Nodup := by
    rw [groups]; exact (List.nodup_finRange 8).filter _
  refine ⟨u, v, begun, rfl, pages, fun gone => ?_⟩
  rw [e] at gone ⊢
  exact u.endSolves_targets (each.sublist (sub.map _)) (State.mem_ended_of_gone each sub.subset hv gone)

/-- A service with no solve under way serves the pending groups, if there are any. -/
theorem State.service_eq {s : State} {g : Fin 8} (idle : s.solves = []) (pending : (s.group g).pending = true) :
    s.service = ({ s with freeIndex := s.freeIndex + 2 } : State).serviceWith (Config.freeOrder s.freeIndex)
      (Config.freeOrder (s.freeIndex + 1)) := by
  have ended : s.endSolves s.solves = s := by rw [idle]; rfl
  have work : s.pendingGroups.isEmpty = false := by
    rw [← Bool.not_eq_true, List.isEmpty_iff]
    exact List.ne_nil_of_mem (State.mem_pendingGroups pending)
  unfold State.service
  simp only [ended, work, Bool.false_eq_true, if_false]

/-- The service timer's end, when nothing holds the service and no solve is under way, serves the pending groups. -/
theorem State.exec_serviceTimerExpiry {s : State} {g : Fin 8} (free : ¬s.holdsService) (idle : s.solves = [])
    (pending : (s.group g).pending = true) : ∃ n late early : Nat, exec .serviceTimerExpiry s = .next
      (({ s with serviceTimer := some Config.serviceMicros, freeIndex := n } : State).serviceWith late early) := by
  have step : exec .serviceTimerExpiry s = .next (serviceTimerExpiryStep s) := rfl
  have serves := State.service_eq (s := { s with serviceTimer := some Config.serviceMicros }) idle pending
  rw [step, serviceTimerExpiryStep, if_neg (mt s.serviceWaits_iff.1 free)]
  exact ⟨_, _, _, congrArg _ serves⟩

theorem Context.present_of_eligible {c : Context} (h : c.eligible = true) : c.life ≠ .absent := by
  intro absent
  simp [Context.eligible, absent] at h

/-- A solve that has begun with the state as it stands, and whose pages stand as they did, goes by the luminances that
the table and the curve store give (R18, R70). -/
theorem State.readingOf_begun {s u : State} {v : Solve} (begun : s.beginsSolve v) (pages : u.pages = s.pages)
    {m : SolveMember} (hm : m ∈ v.members) : (u.readingOf m).effective = (s.ctx m.ctx).effectiveNow s.pages := by
  obtain ⟨-, -, -, -, reads⟩ := begun
  obtain ⟨tile, unread | read⟩ := reads m hm
  · rw [State.readingOf, unread, tile, pages]; rfl
  · rw [State.readingOf, read]; rfl

/-- The tiles that vote in a solve that has begun are the eligible contexts of its group (R10, R49). -/
theorem State.member_of_eligible {s : State} {v : Solve} (begun : s.beginsSolve v) {i : Fin 256}
    (group : (s.ctx i).group = v.group) (eligible : (s.ctx i).eligible = true) :
    ∃ m ∈ v.members, m.ctx = i ∧ m.tile.eligible = true := by
  obtain ⟨-, -, -, members, reads⟩ := begun
  obtain ⟨m, hm, rfl⟩ := (members i).2 ⟨Context.present_of_eligible eligible, group⟩
  exact ⟨m, hm, rfl, by rwa [(reads m hm).1]⟩

/-- A solve that has begun with the state as it stands, and whose pages stand as they did, ends with R11's targets of
the eligible contexts of its group. -/
theorem State.begun_solveTargets {s u : State} {v : Solve} (begun : s.beginsSolve v) (pages : u.pages = s.pages)
    (voters : ∃ i, (s.ctx i).group = v.group ∧ (s.ctx i).eligible = true) : ∃ T, u.solveTargets v = some T ∧
      ∀ p, ∃ i, ((s.ctx i).group = v.group ∧ (s.ctx i).eligible = true) ∧
        T.get p = min (((s.ctx i).effectiveNow s.pages).get p * (s.group v.group).headroom / 32768)
          (s.group v.group).cap ∧
        ∀ j, (s.ctx j).group = v.group ∧ (s.ctx j).eligible = true →
          ((s.ctx i).effectiveNow s.pages).get p ≤ ((s.ctx j).effectiveNow s.pages).get p := by
  obtain ⟨i, hi, ei⟩ := voters
  obtain ⟨m, hm, -, em⟩ := State.member_of_eligible begun hi ei
  obtain ⟨T, hT, least⟩ := (u.solveTargets_solvesTo v).2 ⟨m, hm, em⟩
  refine ⟨T, hT, fun p => ?_⟩
  obtain ⟨k, hk, ek, target, le⟩ := least p
  have ⟨headroom, cap, _, members, reads⟩ := begun
  rw [State.readingOf_begun begun pages hk] at target le
  have group := ((members k.ctx).1 ⟨k, hk, rfl⟩).2
  refine ⟨k.ctx, ⟨group, by rwa [← (reads k hk).1]⟩, by rwa [← headroom, ← cap], ?_⟩
  rintro j ⟨hj, ej⟩
  obtain ⟨n, hn, rfl, en⟩ := State.member_of_eligible begun hj ej
  simpa only [State.readingOf_begun begun pages hn] using le n hn en

/-- Settles O35: a solve ends with R11's targets of its eligible members, and one that ends with the service that
began it has read them as they stand. -/
theorem solvedTargets : Obligations.SolvedTargets := by
  refine ⟨fun s v voters => ?_, fun s t g served free idle pending => ?_⟩
  · obtain ⟨T, hT, least⟩ := (s.solveTargets_solvesTo v).2 voters
    have written := s.endSolves_targets (vs := [v]) (List.nodup_singleton _) (List.mem_singleton_self v)
    refine ⟨T, written.trans hT, fun p => ⟨least p, ?_⟩⟩
    obtain ⟨m, hm, em, target, le⟩ := least p
    obtain ⟨capped, dimmest⟩ := least_target_bounds (votes := fun n => n ∈ v.members ∧ n.tile.eligible = true)
      (e := fun n => (s.readingOf n).effective.get p) ⟨m, ⟨hm, em⟩, target, fun n hn => le n hn.1 hn.2⟩
    exact ⟨capped, fun small n hn en => dimmest small n ⟨hn, en⟩⟩
  · intro votes voters
    obtain ⟨n, late, early, step⟩ := State.exec_serviceTimerExpiry free idle pending
    obtain rfl := Host.Outcome.next.inj (served.symm.trans step)
    obtain ⟨u, v, begun, rfl, pages, targets⟩ := State.serviceWith_targets
      (s := { s with serviceTimer := some Config.serviceMicros, freeIndex := n }) idle pending late early
    obtain ⟨T, hT, least⟩ := State.begun_solveTargets (s := s) begun pages voters
    exact ⟨T, fun gone => (targets gone).trans hT, fun p => ⟨least p, least_target_bounds (least p)⟩⟩

end Sys2Proof.Machine
end

section
/-! The table of contexts and the chains' queues after a power-on reset (R27). -/

namespace Sys2Proof.Machine

theorem State.exec_powerOnReset (s : State) : exec .powerOnReset s = .next s.powerOn := rfl

@[simp] theorem State.powerOn_ctx (s : State) (i : Fin 256) : s.powerOn.ctx i = Context.reset :=
  Table.get_replicate Context.reset i

@[simp] theorem State.powerOn_chain (s : State) (ch : Fin 4) : s.powerOn.chain ch = Chain.reset :=
  Table.get_replicate Chain.reset ch

/-- A chain's three queues are empty after a power-on reset. -/
theorem Chain.reset_queues :
    Chain.reset.probeQueue = [] ∧ Chain.reset.pushQueue = [] ∧ Chain.reset.pollList = [] := ⟨rfl, rfl, rfl⟩

/-- Settles O5: the power-on state has the reset context at every index and the reset chain at every chain. -/
theorem powerOnResetsEveryContext : Obligations.PowerOnResetsEveryContext := by
  intro s
  refine ⟨s.powerOn, s.exec_powerOnReset, fun i => ?_, fun ch => ?_⟩
  · rw [State.powerOn_ctx]; rfl
  · rw [State.powerOn_chain]; exact Chain.reset_queues

end Sys2Proof.Machine
end

section
/-! What a command does to the applied sets (R20, R38, R44, R87, R90, R91): the life state, the target set and the
applied set of every context, which most operations keep together. -/

namespace Sys2Proof.Machine

/-! ## The standing of a context -/

/-- What tells the events of an applied set apart: a context's life state, target set and applied set. -/
structure Standing where
  life : Life
  target : TermSet
  applied : Option TermSet

/-- The standing of a context. -/
def Context.standing (c : Context) : Standing := ⟨c.life, c.target, c.applied⟩

/-- The standings of the contexts of a table. -/
def standings (t : Table Context 256) (i : Fin 256) : Standing := (t.get i).standing

@[simp] theorem Context.touched_standing (old new : Context) : (old.touched new).standing = new.standing := by
  rw [Context.touched_eq]; rfl

theorem State.standings_eq {s t : State} (h : ∀ i, (t.ctx i).standing = (s.ctx i).standing) :
    standings t.contexts = standings s.contexts := funext h

theorem standings_map {f : Context → Context} (h : ∀ c, (f c).standing = c.standing) (t : Table Context 256) :
    standings (t.map f) = standings t := by
  funext i; simp [standings, h]

@[simp] theorem State.modCtx_standings (s : State) (i : Fin 256) {f : Context → Context}
    (h : ∀ c, (f c).life = c.life ∧ (f c).target = c.target ∧ (f c).applied = c.applied) :
    standings (s.modCtx i f).contexts = standings s.contexts := by
  refine State.standings_eq fun j => ?_
  by_cases e : i = j
  · subst e
    obtain ⟨life, target, applied⟩ := h (s.ctx i)
    rw [State.modCtx_ctx_same, Context.touched_standing]
    simp only [Context.standing, life, target, applied]
  · rw [State.modCtx_ctx_other _ e]

/-- What a fold of operations that each keep the standings does to them. -/
theorem State.foldl_standings {α : Type} {f : State → α → State}
    (h : ∀ (s : State) a, standings (f s a).contexts = standings s.contexts) (l : List α) (s : State) :
    standings (l.foldl f s).contexts = standings s.contexts := by
  induction l generalizing s with
  | nil => rfl
  | cons a l ih => exact (ih (f s a)).trans (h s a)

/-! ## The operations of the chains -/

@[simp] theorem State.arbitrate_standings (s : State) (ch : Fin 4) :
    standings (s.arbitrate ch).contexts = standings s.contexts := by
  obtain ⟨-, -, alike⟩ := s.arbitrate_rampsAlike ch
  refine State.standings_eq fun i => ?_
  obtain ⟨life, -, target, applied⟩ := alike i
  simp only [Context.standing, life, target, applied]

@[simp] theorem State.dropWork_standings (s : State) (i : Fin 256) :
    standings (s.dropWork i).contexts = standings s.contexts := by
  refine State.standings_eq fun j => ?_
  by_cases e : i = j
  · subst e; rw [State.dropWork_ctx_same]; split_ifs
    · exact Context.touched_standing _ _
    · rfl
  · rw [State.dropWork_ctx_other _ e]

@[simp] theorem State.markDue_standings (s : State) (ch : Fin 4) :
    standings (s.markDue ch).contexts = standings s.contexts :=
  standings_map (fun c => by split_ifs <;> simp [Context.standing, Context.touched_eq]) _

@[simp] theorem State.latch_standings (s : State) (ch : Fin 4) :
    standings (s.latch ch).contexts = standings s.contexts :=
  standings_map (fun c => by split_ifs <;> simp [Context.standing, Context.touched_eq]) _

@[simp] theorem State.endFlight_standings (s : State) (ch : Fin 4) (work : Nat) (ok : Bool) :
    standings (s.endFlight ch work ok).contexts = standings s.contexts := by
  unfold State.endFlight
  dsimp only
  split <;> simp

@[simp] theorem State.chainRestart_standings (s : State) (ch : Fin 4) :
    standings (s.chainRestart ch).contexts = standings s.contexts := by
  unfold State.chainRestart
  dsimp only
  split
  · simp
  · split_ifs
    · split <;> simp
    · simp

@[simp] theorem State.chainRestarts_standings (s : State) :
    standings s.chainRestarts.contexts = standings s.contexts := State.foldl_standings State.chainRestart_standings _ s

/-! ## Scans and restarts -/

@[simp] theorem State.dirtyAll_standings (s : State) : standings s.dirtyAll.contexts = standings s.contexts :=
  standings_map (f := fun c => { c with dirty := true }) (fun _ => rfl) _

@[simp] theorem State.setDirty_standings (s : State) (i : Fin 256) (d : Bool) :
    standings (s.setDirty i d).contexts = standings s.contexts :=
  State.standings_eq fun j => by rw [State.setDirty_ctx]; split_ifs <;> rfl

@[simp] theorem State.writeMirror_standings (s : State) (i : Fin 256) :
    standings (s.writeMirror i).contexts = standings s.contexts := by
  unfold State.writeMirror
  dsimp only
  split_ifs <;> simp

@[simp] theorem State.mirrorPart_standings (s : State) (rest : List (Fin 256)) :
    standings (s.mirrorPart rest).contexts = standings s.contexts := by
  unfold State.mirrorPart
  split <;> simp

@[simp] theorem State.scanAccess_standings (s : State) : standings s.scanAccess.contexts = standings s.contexts := by
  unfold State.scanAccess
  split <;> simp

@[simp] theorem State.advanceScan_standings (n : Nat) (s : State) :
    standings (State.advanceScan n s).contexts = standings s.contexts := by
  induction n generalizing s with
  | zero => rfl
  | succ n ih => exact (ih s.scanAccess).trans s.scanAccess_standings

@[simp] theorem State.goOn_standings (s : State) : standings s.goOn.contexts = standings s.contexts :=
  State.advanceScan_standings _ _

@[simp] theorem State.requestScan_standings (s : State) : standings s.requestScan.contexts = standings s.contexts := by
  unfold State.requestScan State.startScan
  split_ifs <;> simp

@[simp] theorem State.intakeRestart_standings (s : State) :
    standings s.intakeRestart.contexts = standings s.contexts := by
  unfold State.intakeRestart
  dsimp only
  split_ifs <;> simp

@[simp] theorem State.restart_standings (s : State) : standings s.restart.contexts = standings s.contexts := by
  unfold State.restart
  dsimp only
  split <;> simp

@[simp] theorem State.afterCard_standings (s : State) (w : Walk) :
    standings (s.afterCard w).contexts = standings s.contexts := by
  unfold State.afterCard
  split_ifs <;> simp

@[simp] theorem State.writeRun_standings (s : State) (v : Bool) :
    standings (s.writeRun v).contexts = standings s.contexts := by
  unfold State.writeRun
  dsimp only
  split_ifs <;> simp

@[simp] theorem State.writeRunCtrl_standings (s : State) (restart run scan : Bool) (host : List HostWrite) :
    standings (s.writeRunCtrl restart run scan host).contexts = standings s.contexts := by
  unfold State.writeRunCtrl State.writeBitsLater State.hostWrites
  dsimp only
  split_ifs <;> simp

@[simp] theorem State.writeArea_standings (s : State) (f : Registers → Registers) :
    standings (s.writeArea f).contexts = standings s.contexts := by
  unfold State.writeArea
  split_ifs <;> simp

theorem scanTimerExpiryStep_standings (host : List HostWrite) (s : State) :
    standings (scanTimerExpiryStep host s).contexts = standings s.contexts := by
  unfold scanTimerExpiryStep State.hostWrites
  dsimp only
  split_ifs <;> simp

theorem followingScanStep_standings (host : List HostWrite) (s : State) :
    standings (followingScanStep host s).contexts = standings s.contexts := by
  unfold followingScanStep State.hostWrites
  dsimp only
  split_ifs <;> simp

theorem lossTimerExpiryStep_standings (s : State) :
    standings (lossTimerExpiryStep s).contexts = standings s.contexts := by
  unfold lossTimerExpiryStep
  split_ifs <;> rfl

/-! ## Cards other than ADOPT and RETIRE -/

/-- The dispatch of a card changes the standings as the card's own effect does, if it is dispatched at all. -/
theorem State.dispatchCard_cases (s : State) (r : Request) (f : Walk → State → State) :
    s.dispatchCard r f = s ∨ ∃ (w : Walk) (u : State), u.contexts = s.contexts ∧
      standings (s.dispatchCard r f).contexts = standings (f w u).contexts := by
  unfold State.dispatchCard
  split
  · exact .inl rfl
  · next w _ =>
    split_ifs
    · exact .inr ⟨w, s.modIntake fun k => { k with walk := none }, rfl, State.afterCard_standings _ _⟩
    · exact .inl rfl

theorem State.dispatchCard_standings {f : Walk → State → State}
    (h : ∀ w (s : State), standings (f w s).contexts = standings s.contexts) (s : State) (r : Request) :
    standings (s.dispatchCard r f).contexts = standings s.contexts := by
  rcases s.dispatchCard_cases r f with e | ⟨w, u, same, e⟩
  · rw [e]
  · rw [e, h, same]

@[simp] theorem State.foldPending_contexts (gs : List (Fin 8)) (s : State) :
    (gs.foldl State.solvePending s).contexts = s.contexts := by
  induction gs generalizing s with
  | nil => rfl
  | cons g gs ih => exact ih (s.solvePending g)

theorem State.areaRead_contexts {s u : State} {off n : Nat} {bs : Option (List Byte)}
    (h : s.areaRead off n = (bs, u)) : u.contexts = s.contexts := by
  rw [← snd_of_eq h]; simp

theorem dispatchSetMode_standings (w : Walk) (s : State) :
    standings (dispatchSetMode w s).contexts = standings s.contexts := by
  unfold dispatchSetMode
  split <;> simp

theorem dispatchFreeze_standings (w : Walk) (s : State) :
    standings (dispatchFreeze w s).contexts = standings s.contexts := by
  unfold dispatchFreeze
  dsimp only
  split_ifs <;> simp

theorem dispatchThaw_standings (w : Walk) (s : State) :
    standings (dispatchThaw w s).contexts = standings s.contexts := by
  unfold dispatchThaw
  dsimp only
  split_ifs <;> simp

theorem dispatchSetFrame_standings (w : Walk) (s : State) :
    standings (dispatchSetFrame w s).contexts = standings s.contexts := by
  unfold dispatchSetFrame
  dsimp only
  split_ifs <;> simp

theorem dispatchSetFilter_standings (w : Walk) (s : State) :
    standings (dispatchSetFilter w s).contexts = standings s.contexts := by
  unfold dispatchSetFilter
  split <;> simp

theorem dispatchSetChain_standings (w : Walk) (s : State) :
    standings (dispatchSetChain w s).contexts = standings s.contexts := by
  unfold dispatchSetChain
  split
  · split_ifs <;> simp
  · simp

theorem dispatchStartChain_standings (w : Walk) (s : State) :
    standings (dispatchStartChain w s).contexts = standings s.contexts := by
  unfold dispatchStartChain
  split
  · simp
  · split <;> simp [State.startChain]

theorem dispatchStopChain_standings (w : Walk) (s : State) :
    standings (dispatchStopChain w s).contexts = standings s.contexts := by
  unfold dispatchStopChain
  split
  · simp
  · split_ifs
    · simp
    · split <;> simp [State.stopTo]

theorem dispatchVerify_standings (w : Walk) (s : State) :
    standings (dispatchVerify w s).contexts = standings s.contexts := by
  unfold dispatchVerify
  split
  · simp
  · dsimp only
    split_ifs <;> simp [State.beginSweep]

theorem dispatchRollCall_standings (w : Walk) (s : State) :
    standings (dispatchRollCall w s).contexts = standings s.contexts := by
  unfold dispatchRollCall
  split
  · simp
  · split_ifs <;> simp [State.requestRoll]

theorem dispatchSolve_standings (w : Walk) (s : State) :
    standings (dispatchSolve w s).contexts = standings s.contexts := by
  unfold dispatchSolve
  dsimp only
  split_ifs
  · simp
  · split <;> simp

theorem dispatchSetGroup_standings (w : Walk) (s : State) :
    standings (dispatchSetGroup w s).contexts = standings s.contexts := by
  unfold dispatchSetGroup
  split <;> simp

theorem dispatchLoadCurve_standings (w : Walk) (s : State) :
    standings (dispatchLoadCurve w s).contexts = standings s.contexts := by
  unfold dispatchLoadCurve
  split
  · split
    · next h => rw [State.areaRead_contexts h]
    · next h =>
      dsimp only
      split <;> simp [State.areaRead_contexts h]
  · simp

end Sys2Proof.Machine
end

section
/-! What becomes of an applied set at the end of a transaction and at the other events of the links (R29 to R31, R38 to
R42, R91, R103). -/

namespace Sys2Proof.Machine

/-! ## What becomes of the applied sets -/

/-- The applied sets of the contexts of a table. -/
def appliedSets (t : Table Context 256) (i : Fin 256) : Option TermSet := (t.get i).applied

theorem appliedSets_of_standings {t u : Table Context 256} (h : standings t = standings u) :
    appliedSets t = appliedSets u :=
  funext fun i => congrArg Standing.applied (congrFun h i)

theorem State.appliedSets_eq {s t : State} (h : ∀ i, (t.ctx i).applied = (s.ctx i).applied) :
    appliedSets t.contexts = appliedSets s.contexts := funext h

/-- Entry into LIVE, at which the applied set becomes the target set (R91). -/
def Standing.entersLive (a b : Standing) : Prop := a.life ≠ .live ∧ b.life = .live ∧ b.applied = some b.target

/-- A change to a life state at which the applied set becomes unknown (R36, R44). -/
def Standing.cleared (l : Life) (_ b : Standing) : Prop := b.life = l ∧ b.applied = none

/-- Every context keeps its applied set, or its standing changes by the event `Q`. -/
def State.keepsOr (Q : Standing → Standing → Prop) (s t : State) : Prop :=
  ∀ i, (t.ctx i).applied = (s.ctx i).applied ∨ Q (s.ctx i).standing (t.ctx i).standing

variable {Q : Standing → Standing → Prop}

theorem State.keepsOr_of_appliedSets {s t : State} (h : appliedSets t.contexts = appliedSets s.contexts) :
    State.keepsOr Q s t := fun i => .inl (congrFun h i)

theorem State.keepsOr_of_standings {s t : State} (h : standings t.contexts = standings s.contexts) :
    State.keepsOr Q s t := State.keepsOr_of_appliedSets (appliedSets_of_standings h)

/-- What comes before and after an event and keeps the standings does not matter to it. -/
theorem State.keepsOr_congr {s s' t t' : State} (hs : standings s'.contexts = standings s.contexts)
    (ht : standings t'.contexts = standings t.contexts) (h : State.keepsOr Q s t) : State.keepsOr Q s' t' := by
  intro i
  have es : (s'.ctx i).standing = (s.ctx i).standing := congrFun hs i
  have et : (t'.ctx i).standing = (t.ctx i).standing := congrFun ht i
  have as : (s'.ctx i).applied = (s.ctx i).applied := congrArg Standing.applied es
  have at' : (t'.ctx i).applied = (t.ctx i).applied := congrArg Standing.applied et
  rw [es, et, as, at']
  exact h i

/-! ## Transitions and the ends of transactions (R29 to R31, R38 to R42, R91) -/

@[simp] theorem State.transition_appliedSets (s : State) (i : Fin 256) (life : Life) (reason : FaultReason) :
    appliedSets (s.transition i life reason).contexts = appliedSets s.contexts := by
  refine State.appliedSets_eq fun j => ?_
  by_cases e : i = j
  · subst e; rw [State.transition_ctx_same]
  · rw [State.transition_ctx_other _ e]

@[simp] theorem State.enterUnmatched_appliedSets (s : State) (i : Fin 256) (found : Word) :
    appliedSets (s.enterUnmatched i found).contexts = appliedSets s.contexts :=
  (State.appliedSets_eq fun j => by rw [State.enterUnmatched_ctx]).trans (s.transition_appliedSets i .unmatched .none)

@[simp] theorem State.enterFaulted_appliedSets (s : State) (i : Fin 256) (reason : FaultReason) :
    appliedSets (s.enterFaulted i reason).contexts = appliedSets s.contexts :=
  (State.appliedSets_eq fun j => by rw [State.enterFaulted_ctx]).trans (s.transition_appliedSets i .faulted reason)

theorem State.enterLive_keepsOr {s : State} {i : Fin 256} (h : (s.ctx i).life ≠ .live) :
    State.keepsOr Standing.entersLive s (s.enterLive i) := by
  intro j
  by_cases e : i = j
  · subst e; rw [State.enterLive_ctx_same]; exact .inr ⟨h, rfl, rfl⟩
  · rw [State.enterLive_ctx_other _ e]; exact .inl rfl

@[simp] theorem State.clearFailures_standings (s : State) (i : Fin 256) :
    standings (s.clearFailures i).contexts = standings s.contexts := s.modCtx_standings i fun _ => ⟨rfl, rfl, rfl⟩

/-- An accepted IDENTITY answer snaps the context that it brings into LIVE (R38, R39, R91). -/
theorem State.probeAnswered_keepsOr {s : State} {i : Fin 256} (h : (s.ctx i).life ≠ .live) (serial : Word) :
    State.keepsOr Standing.entersLive s (s.probeAnswered i serial) := by
  have same := s.clearFailures_standings i
  have life : ((s.clearFailures i).ctx i).life ≠ .live := by
    have kept : ((s.clearFailures i).ctx i).life = (s.ctx i).life := congrArg Standing.life (congrFun same i)
    rwa [kept]
  unfold State.probeAnswered
  dsimp only
  split_ifs
  · exact State.keepsOr_congr same.symm rfl (State.enterLive_keepsOr life)
  · exact State.keepsOr_congr same.symm rfl (State.keepsOr_of_appliedSets (State.enterUnmatched_appliedSets _ _ _))

theorem State.pushAnswered_standings (s : State) (ch : Fin 4) (t : Transaction) :
    standings (s.pushAnswered ch t).contexts = standings s.contexts := by
  simp [State.pushAnswered]

theorem State.takeTemperature_standings (s : State) (i : Fin 256) (t : Int) :
    standings (s.takeTemperature i t).contexts = standings s.contexts := by
  unfold State.takeTemperature
  dsimp only
  split_ifs <;> simp

theorem State.pollAnswered_standings (s : State) (ch : Fin 4) (i : Fin 256) (t : Int) :
    standings (s.pollAnswered ch i t).contexts = standings s.contexts :=
  (State.takeTemperature_standings _ i t).trans (s.clearFailures_standings i)

theorem State.readbackMatch_standings (s : State) (ch : Fin 4) (i : Fin 256) :
    standings (s.readbackMatch ch i).contexts = standings s.contexts := by
  simp [State.readbackMatch]

theorem State.readbackMismatch_appliedSets (s : State) (ch : Fin 4) (i : Fin 256) (w : Half) :
    appliedSets (s.readbackMismatch ch i w).contexts = appliedSets s.contexts := by
  have counted : standings (s.modCtx i fun c =>
      { c with verify := .mismatched, mismatchCount := c.mismatchCount + 1, failCount := 0 }).contexts =
      standings s.contexts := by simp
  unfold State.readbackMismatch
  dsimp only
  split_ifs <;> simpa using appliedSets_of_standings counted

theorem State.readbackAnswered_appliedSets (s : State) (ch : Fin 4) (i : Fin 256) (w : Half) :
    appliedSets (s.readbackAnswered ch i w).contexts = appliedSets s.contexts := by
  unfold State.readbackAnswered
  split_ifs
  · simpa using appliedSets_of_standings (s.readbackMatch_standings ch i)
  · simpa using s.readbackMismatch_appliedSets ch i w

/-- An accepted success changes an applied set at the entry into LIVE alone, to which an IDENTITY answer is the way. -/
theorem State.succeeded_keepsOr (s : State) (ch : Fin 4) (t : Transaction) (f : TileFrame)
    (probe : ∀ w, f = .identity w → (s.ctx t.ctx).life ≠ .live) :
    State.keepsOr Standing.entersLive s (s.succeeded ch t f) := by
  cases f with
  | identity w => exact State.probeAnswered_keepsOr (probe w rfl) w
  | ack => exact State.keepsOr_of_standings (s.pushAnswered_standings ch t)
  | status temp r => exact State.keepsOr_of_standings (s.pollAnswered_standings ch t.ctx temp)
  | check w => exact State.keepsOr_of_appliedSets (s.readbackAnswered_appliedSets ch t.ctx w)
  | nak | hold | rollAnswer _ => exact State.keepsOr_of_standings rfl

theorem State.sendBack_standings (s : State) (ch : Fin 4) (t : Transaction) :
    standings (s.sendBack ch t).contexts = standings s.contexts := by
  unfold State.sendBack
  split <;> simp

theorem State.countFailure_standings (s : State) (ch : Fin 4) (t : Transaction) :
    standings (s.countFailure ch t).contexts = standings s.contexts := by
  unfold State.countFailure
  dsimp only
  split <;> simp

theorem State.failed_appliedSets (s : State) (ch : Fin 4) (t : Transaction) (reason : FaultReason) :
    appliedSets (s.failed ch t reason).contexts = appliedSets s.contexts := by
  have counted := s.countFailure_standings ch t
  unfold State.failed
  dsimp only
  split_ifs
  · exact appliedSets_of_standings ((State.sendBack_standings _ ch t).trans counted)
  · rw [State.enterFaulted_appliedSets]; exact appliedSets_of_standings counted

@[simp] theorem State.routeCarried_contexts (s : State) (ch : Fin 4) (t : Transaction) (e : Ending) :
    (s.routeCarried ch t e).contexts = s.contexts := by
  unfold State.routeCarried
  split <;> simp

/-- A probe's outcome is accepted for an ADOPTED context alone (R31). -/
theorem State.accepts_probe {s : State} {t : Transaction} (h : s.accepts t = true) (probe : t.kind = .probe) :
    (s.ctx t.ctx).life ≠ .live := by
  simp only [State.accepts, probe, Bool.and_eq_true, decide_eq_true_eq] at h
  rw [h.2]; decide

/-- The end of a transaction changes an applied set at an entry into LIVE alone, if none but a probe ends with an
IDENTITY answer (R103). -/
theorem State.handOver_keepsOr (s : State) (ch : Fin 4) (t : Transaction) (e : Ending)
    (probe : ∀ w, e = .success (.identity w) → t.kind = .probe) :
    State.keepsOr Standing.entersLive s (s.handOver ch t e) := by
  unfold State.handOver
  refine State.keepsOr_congr (s := s) rfl ((State.endFlight_standings _ _ _ _).trans
    (congrArg standings (State.routeCarried_contexts _ ch t e))) ?_
  split_ifs with accepted
  · cases e with
    | success f =>
      exact s.succeeded_keepsOr ch t f fun w hf => State.accepts_probe accepted (probe w (by rw [hf]))
    | failure r => exact State.keepsOr_of_appliedSets (s.failed_appliedSets ch t r)
  · exact State.keepsOr_of_standings rfl

theorem State.attemptFailed_keepsOr (s : State) (ch : Fin 4) (t : Transaction) (reason : FaultReason) :
    State.keepsOr Standing.entersLive s (s.attemptFailed ch t reason) := by
  unfold State.attemptFailed
  split_ifs
  · exact State.keepsOr_of_standings (by simp)
  · exact s.handOver_keepsOr ch t _ fun w h => by cases h

/-- An IDENTITY answer is valid for a probe alone (R103). -/
theorem WorkKind.judge_identity {k : WorkKind} {f : Option TileFrame} {w : Word}
    (h : k.judge f = .good (.identity w)) : k = .probe := by
  unfold WorkKind.judge at h
  split at h <;> simp_all

theorem tileAnswerStep_keepsOr (ch : Fin 4) (bytes : List Byte) (quiet : Bool) (s : State) :
    State.keepsOr Standing.entersLive s (tileAnswerStep ch bytes quiet s) := by
  unfold tileAnswerStep
  split
  · exact State.keepsOr_of_standings rfl
  · next t _ =>
    split
    · next f judged =>
      refine s.handOver_keepsOr ch t _ fun w h => WorkKind.judge_identity (w := w) (f := answerFrame bytes quiet) ?_
      rw [judged, Ending.success.inj h]
    · exact State.keepsOr_of_standings rfl
    · exact s.attemptFailed_keepsOr ch t .nak
    · exact s.attemptFailed_keepsOr ch t .noAnswer

theorem answerWindowCloseStep_keepsOr (ch : Fin 4) (s : State) :
    State.keepsOr Standing.entersLive s (answerWindowCloseStep ch s) := by
  unfold answerWindowCloseStep
  split
  · exact State.keepsOr_of_standings rfl
  · exact s.attemptFailed_keepsOr ch _ .noAnswer

theorem holdAnswerStep_keepsOr (ch : Fin 4) (bytes : List Byte) (quiet : Bool) (s : State) :
    State.keepsOr Standing.entersLive s (holdAnswerStep ch bytes quiet s) := by
  unfold holdAnswerStep
  split
  · exact State.keepsOr_of_standings rfl
  · next t _ =>
    split
    · exact s.handOver_keepsOr ch t _ fun w h => by cases h
    · exact s.attemptFailed_keepsOr ch t .nak
    · exact State.keepsOr_of_standings rfl

theorem holdTimerExpiryStep_keepsOr (ch : Fin 4) (s : State) :
    State.keepsOr Standing.entersLive s (holdTimerExpiryStep ch s) := by
  unfold holdTimerExpiryStep
  split
  · exact State.keepsOr_of_standings rfl
  · exact s.handOver_keepsOr ch _ _ fun w h => by cases h

/-! ## The other events of the links -/

theorem frameBeginStep_standings (ch : Fin 4) (quiet waited : Nat) (s : State) :
    standings (frameBeginStep ch quiet waited s).contexts = standings s.contexts := by
  unfold frameBeginStep State.beginFrame
  split_ifs
  · split
    · simp
    · split
      · simp
      · split <;> simp [State.setRoll]
  · rfl

theorem frameSentStep_standings (ch : Fin 4) (s : State) :
    standings (frameSentStep ch s).contexts = standings s.contexts := by
  unfold frameSentStep
  split
  · simp
  · split <;> simp [State.setRoll]

theorem latchSentStep_standings (ch : Fin 4) (s : State) :
    standings (latchSentStep ch s).contexts = standings s.contexts := by
  unfold latchSentStep
  split <;> simp

theorem resendStep_standings (ch : Fin 4) (quiet waited : Nat) (s : State) :
    standings (resendStep ch quiet waited s).contexts = standings s.contexts := by
  unfold resendStep
  split
  · rfl
  · split_ifs <;> simp

theorem pollRoundTimerExpiryStep_standings (ch : Fin 4) (s : State) :
    standings (pollRoundTimerExpiryStep ch s).contexts = standings s.contexts := by
  unfold pollRoundTimerExpiryStep
  split_ifs <;> simp [State.beginRound]

theorem latchDeadlinePassedStep_standings (ch : Fin 4) (s : State) :
    standings (latchDeadlinePassedStep ch s).contexts = standings s.contexts := by
  unfold latchDeadlinePassedStep
  split_ifs <;> simp

theorem verifySweepTimerExpiryStep_standings (ch : Fin 4) (s : State) :
    standings (verifySweepTimerExpiryStep ch s).contexts = standings s.contexts := by
  unfold verifySweepTimerExpiryStep
  split_ifs <;> simp

end Sys2Proof.Machine
end

section
/-! What becomes of an applied set at a roll, a solve, an ADOPT and a RETIRE (R17, R36, R43, R44, R52, R91, R148). -/

namespace Sys2Proof.Machine

/-! ## Rolls (R43, R148) -/

theorem State.giveUpAttempt_standings (s : State) (ch : Fin 4) (r : Roll) :
    standings (s.giveUpAttempt ch r).contexts = standings s.contexts := by
  unfold State.giveUpAttempt State.leaveRoll State.answerRoll
  split_ifs <;> simp [State.setRoll]

theorem State.notice_ctx (s : State) (k : Cause) (i : Fin 256) : (State.notice k s).ctx i = s.ctx i := rfl

theorem State.raisePart_ctx (s : State) (k : PartKind) (ch : Fin 4) (a : Fin 64) (serial value : Word) (i : Fin 256) :
    (s.raisePart k ch a serial value).ctx i = s.ctx i := State.ctx_congr (by simp) i

/-- A finding acts on no context but its own. -/
theorem State.applyFinding_ctx_other (s : State) {i j : Fin 256} (e : i ≠ j) (found : Nat) (f : Finding) :
    (s.applyFinding i found f).ctx j = s.ctx j := by
  unfold State.applyFinding
  dsimp only
  split
  · rfl
  · rw [State.enterLive_ctx_other _ e, State.modCtx_ctx_other _ e]
  · rfl
  · rw [State.enterUnmatched_ctx, State.transition_ctx_other _ e]
  · rw [State.raisePart_ctx, State.modCtx_ctx_other _ e]
  · rw [State.notice_ctx, State.raisePart_ctx, State.transition_ctx_other _ e]

/-- A finding leaves its context's address, and its applied set unless the context enters LIVE (R43). -/
theorem State.applyFinding_ctx_same (s : State) (i : Fin 256) (found : Nat) (f : Finding) :
    ((s.applyFinding i found f).ctx i).address = (s.ctx i).address ∧
      (((s.applyFinding i found f).ctx i).applied = (s.ctx i).applied ∨
        Standing.entersLive (s.ctx i).standing ((s.applyFinding i found f).ctx i).standing) := by
  unfold State.applyFinding
  dsimp only
  split
  · exact ⟨rfl, .inl rfl⟩
  · next notLive =>
    rw [State.enterLive_ctx_same, State.modCtx_ctx_same, Context.touched_eq]
    exact ⟨rfl, .inr ⟨notLive, rfl, rfl⟩⟩
  · exact ⟨rfl, .inl rfl⟩
  · rw [State.enterUnmatched_ctx, State.transition_ctx_same]
    exact ⟨rfl, .inl rfl⟩
  · rw [State.raisePart_ctx, State.modCtx_ctx_same, Context.touched_eq]
    exact ⟨rfl, .inl rfl⟩
  · rw [State.notice_ctx, State.raisePart_ctx, State.transition_ctx_same]
    exact ⟨rfl, .inl rfl⟩

/-- One position of a comparison leaves the table, or acts by a finding on the context that holds the position. -/
theorem State.comparePosition_cases (ch : Fin 4) (serials : List Word) (acc : State × RollCounts) (a : Fin 64) :
    (State.comparePosition ch serials acc a).1.contexts = acc.1.contexts ∨
      ∃ i found f, (acc.1.ctx i).address = a ∧
        (State.comparePosition ch serials acc a).1 = acc.1.applyFinding i found f := by
  unfold State.comparePosition
  dsimp only
  split
  · next i holder => exact .inr ⟨i, _, _, (acc.1.holder_some ch a i holder).2.2, rfl⟩
  · exact .inl (by simp)
  · exact .inl rfl

/-- A position of a comparison does nothing to a context of another address. -/
theorem State.comparePosition_ctx_other (ch : Fin 4) (serials : List Word) (acc : State × RollCounts) {a : Fin 64}
    {j : Fin 256} (h : (acc.1.ctx j).address ≠ a) :
    (State.comparePosition ch serials acc a).1.ctx j = acc.1.ctx j := by
  rcases State.comparePosition_cases ch serials acc a with same | ⟨i, found, f, address, e⟩
  · exact State.ctx_congr same j
  · rw [e]
    exact State.applyFinding_ctx_other _ (fun ij => h (by rw [← ij, address])) found f

theorem State.comparePosition_ctx (ch : Fin 4) (serials : List Word) (acc : State × RollCounts) (a : Fin 64)
    (j : Fin 256) :
    ((State.comparePosition ch serials acc a).1.ctx j).address = (acc.1.ctx j).address ∧
      (((State.comparePosition ch serials acc a).1.ctx j).applied = (acc.1.ctx j).applied ∨
        Standing.entersLive (acc.1.ctx j).standing ((State.comparePosition ch serials acc a).1.ctx j).standing) := by
  rcases State.comparePosition_cases ch serials acc a with same | ⟨i, found, f, -, e⟩
  · rw [State.ctx_congr same j]; exact ⟨rfl, .inl rfl⟩
  · rw [e]
    by_cases ij : i = j
    · subst ij; exact State.applyFinding_ctx_same _ i found f
    · rw [State.applyFinding_ctx_other _ ij]; exact ⟨rfl, .inl rfl⟩

theorem State.foldPositions_ctx_other (ch : Fin 4) (serials : List Word) (l : List (Fin 64)) (acc : State × RollCounts)
    {j : Fin 256} (h : (acc.1.ctx j).address ∉ l) :
    (l.foldl (State.comparePosition ch serials) acc).1.ctx j = acc.1.ctx j := by
  induction l generalizing acc with
  | nil => rfl
  | cons a l ih =>
    obtain ⟨ha, hl⟩ := not_or.1 (mt List.mem_cons.2 h)
    have same := State.comparePosition_ctx_other ch serials acc ha
    rw [List.foldl_cons, ih _ (by rwa [same]), same]

/-- A comparison comes to a context's address once, and changes its applied set there alone. -/
theorem State.foldPositions_keepsOr (ch : Fin 4) (serials : List Word) (l : List (Fin 64)) (once : l.Nodup)
    (acc : State × RollCounts) :
    State.keepsOr Standing.entersLive acc.1 (l.foldl (State.comparePosition ch serials) acc).1 := by
  intro j
  induction l generalizing acc with
  | nil => exact .inl rfl
  | cons a l ih =>
    obtain ⟨ha, hl⟩ := List.nodup_cons.1 once
    rw [List.foldl_cons]
    by_cases own : (acc.1.ctx j).address = a
    · obtain ⟨address, event⟩ := State.comparePosition_ctx ch serials acc a j
      rwa [State.foldPositions_ctx_other ch serials l _ (by rwa [address, own])]
    · have same := State.comparePosition_ctx_other ch serials acc own
      simpa only [same] using ih hl (State.comparePosition ch serials acc a)

theorem State.completeRoll_keepsOr (s : State) (ch : Fin 4) (r : Roll) (e : RollEnd) :
    State.keepsOr Standing.entersLive s (s.completeRoll ch r e) := by
  have compared : State.keepsOr Standing.entersLive s (s.compareRoll ch r.serials).1 :=
    State.foldPositions_keepsOr ch r.serials State.positions (List.nodup_finRange 64).tail (s, RollCounts.zero)
  unfold State.completeRoll State.leaveRoll State.answerRoll
  by_cases ending : r.ending = true
  · rw [if_pos ending]; exact State.keepsOr_of_standings (by simp)
  · rw [if_neg ending]
    refine State.keepsOr_congr rfl ?_ compared
    dsimp only
    split_ifs <;> simp

theorem rollSlotAnswerStep_keepsOr (ch : Fin 4) (bytes : List Byte) (quiet : Bool) (s : State) :
    State.keepsOr Standing.entersLive s (rollSlotAnswerStep ch bytes quiet s) := by
  unfold rollSlotAnswerStep
  split
  · exact State.keepsOr_of_standings rfl
  · split
    · dsimp only
      split_ifs
      · exact State.keepsOr_of_standings (by simp [State.leaveRoll])
      · exact State.keepsOr_of_standings rfl
      · exact s.completeRoll_keepsOr ch _ .completeFull
    · exact State.keepsOr_of_standings (s.giveUpAttempt_standings ch _)

theorem rollSlotCloseStep_keepsOr (ch : Fin 4) (s : State) :
    State.keepsOr Standing.entersLive s (rollSlotCloseStep ch s) := by
  unfold rollSlotCloseStep
  split
  · exact State.keepsOr_of_standings rfl
  · exact s.completeRoll_keepsOr ch _ .completeEmpty

theorem rollRetryStep_standings (ch : Fin 4) (quiet waited : Nat) (s : State) :
    standings (rollRetryStep ch quiet waited s).contexts = standings s.contexts := by
  unfold rollRetryStep
  split
  · rfl
  · split_ifs <;> simp [State.setRoll]

/-! ## The solver (R17, R52, R66) -/

theorem State.foldMembers_appliedSets (l : List MemberResult) (s : State) :
    appliedSets (l.foldl State.writeMember s).contexts = appliedSets s.contexts := by
  induction l generalizing s with
  | nil => rfl
  | cons m l ih =>
    refine (ih (s.writeMember m)).trans (State.appliedSets_eq fun i => ?_)
    rw [State.writeMember_ctx]
    split_ifs
    · rw [Context.touched_eq]; rfl
    · rfl

/-- The end of solves writes target sets, and no applied set (R17, R90). -/
theorem State.endSolves_appliedSets (s : State) (vs : List Solve) :
    appliedSets (s.endSolves vs).contexts = appliedSets s.contexts := by
  have written : appliedSets (vs.foldl State.writeSolve s).contexts = appliedSets s.contexts := by
    induction vs generalizing s with
    | nil => rfl
    | cons v vs ih => exact (ih (s.writeSolve v)).trans (State.foldMembers_appliedSets _ s)
  simpa [State.endSolves] using written

theorem State.foldBegin_contexts (gs : List (Fin 8)) (s : State) :
    (gs.foldl State.beginSolve s).contexts = s.contexts := by
  induction gs generalizing s with
  | nil => rfl
  | cons g gs ih => exact ih (s.beginSolve g)

theorem State.service_appliedSets (s : State) : appliedSets s.service.contexts = appliedSets s.contexts := by
  have ended := s.endSolves_appliedSets s.solves
  unfold State.service
  dsimp only
  split_ifs
  · exact ended
  · unfold State.serviceWith
    exact (State.endSolves_appliedSets _ _).trans
      ((congrArg appliedSets (State.foldBegin_contexts _ _)).trans ended)

theorem serviceTimerExpiryStep_appliedSets (s : State) :
    appliedSets (serviceTimerExpiryStep s).contexts = appliedSets s.contexts := by
  unfold serviceTimerExpiryStep
  split_ifs
  · rfl
  · exact State.service_appliedSets _

theorem stalenessCheckExpiryStep_standings (s : State) :
    standings (stalenessCheckExpiryStep s).contexts = standings s.contexts :=
  standings_map (fun c => by split_ifs <;> simp [Context.standing, Context.touched_eq]) _

theorem solveTimerExpiryStep_standings (g : Fin 8) (s : State) :
    standings (solveTimerExpiryStep g s).contexts = standings s.contexts := by
  unfold solveTimerExpiryStep
  split_ifs <;> simp

/-! ## ADOPT and RETIRE (R36, R44) -/

/-- An accepted ADOPT makes its context ADOPTED with an unknown applied set (R36). -/
theorem State.adoptCtx_keepsOr (s : State) (i : Fin 256) (sh : Sheet) (p : Position) (taken : Tick) :
    State.keepsOr (Standing.cleared .adopted) s (s.adoptCtx i sh p taken) := by
  refine State.keepsOr_congr (s := s)
    (t := ((((s.dropWork i).modCtx i fun c => c.adopt sh p taken).testSweep (s.ctx i).chain).correctCtx i)) rfl ?_ ?_
  · unfold State.adoptCtx
    dsimp only
    split_ifs <;> simp
  · intro j
    rw [State.correctCtx_ctx]
    by_cases e : i = j
    · subst e
      rw [if_pos rfl, State.testSweep_ctx, State.modCtx_ctx_same, Context.touched_eq, Context.touched_eq]
      exact .inr ⟨rfl, rfl⟩
    · rw [if_neg e, State.testSweep_ctx, State.modCtx_ctx_other _ e, State.dropWork_ctx_other _ e]
      exact .inl rfl

/-- An accepted RETIRE makes its context ABSENT with an unknown applied set (R44). -/
theorem State.retireCtx_keepsOr (s : State) (i : Fin 256) :
    State.keepsOr (Standing.cleared .absent) s (s.retireCtx i) := by
  intro j
  rw [State.retireCtx, State.solvePending_ctx, State.testSweep_ctx]
  by_cases e : i = j
  · subst e
    rw [State.modCtx_ctx_same, Context.touched_eq]
    exact .inr ⟨rfl, rfl⟩
  · rw [State.modCtx_ctx_other _ e, State.dropWork_ctx_other _ e]
    exact .inl rfl

theorem dispatchAdopt_keepsOr (w : Walk) (s : State) :
    State.keepsOr (Standing.cleared .adopted) s (dispatchAdopt w s) := by
  unfold dispatchAdopt
  split
  · exact State.keepsOr_of_standings (by simp)
  · next i _ =>
    split
    · next h => exact State.keepsOr_of_standings (by rw [State.areaRead_contexts h])
    · next bs s1 h =>
      have same : standings s.contexts = standings s1.contexts := by rw [State.areaRead_contexts h]
      dsimp only
      split
      · exact State.keepsOr_of_standings (by simp [same])
      · next p _ =>
        split_ifs
        · exact State.keepsOr_of_standings (by simp [same])
        · exact State.keepsOr_congr same (by simp) (s1.adoptCtx_keepsOr i (Sheet.ofBytes bs) p w.takenTick)

theorem dispatchRetire_keepsOr (w : Walk) (s : State) :
    State.keepsOr (Standing.cleared .absent) s (dispatchRetire w s) := by
  unfold dispatchRetire
  split
  · exact State.keepsOr_of_standings (by simp)
  · next i _ =>
    split_ifs
    · exact State.keepsOr_of_standings (by simp)
    · exact State.keepsOr_congr rfl (by simp) (s.retireCtx_keepsOr i)

theorem State.dispatchCard_keepsOr {Q : Standing → Standing → Prop} {f : Walk → State → State}
    (h : ∀ w s, State.keepsOr Q s (f w s)) (s : State) (r : Request) : State.keepsOr Q s (s.dispatchCard r f) := by
  rcases s.dispatchCard_cases r f with e | ⟨w, u, same, e⟩
  · rw [e]; exact State.keepsOr_of_standings rfl
  · exact State.keepsOr_congr (by rw [same]) e (h w u)

end Sys2Proof.Machine
end

section
/-! What becomes of an applied set at a frame event, and the events of R90 over all commands. -/

namespace Sys2Proof.Machine

/-! ## Frame events (R80 to R88) -/

theorem State.stepsNext_of_mem_acting {s : State} {i : Fin 256} (acts : (s.ctx i).group ∈ s.acting)
    (live : (s.ctx i).life = .live) : s.stepsNext i := by
  unfold State.acting at acts
  split_ifs at acts with frozen
  · cases acts
  · have beats := (List.mem_filter.1 acts).1
    simp only [State.beating, List.mem_filter, decide_eq_true_eq] at beats
    simp only [RampUnit.frozen, Bool.or_eq_true, not_or, Bool.not_eq_true, Bool.not_eq_false',
      List.isEmpty_iff] at frozen
    exact ⟨frozen.1, frozen.2, beats.2, live⟩

/-- Beats leave a context that is not LIVE. -/
theorem State.foldBeats_ctx_notLive (gs : List (Fin 8)) (s : State) {i : Fin 256} (h : (s.ctx i).life ≠ .live) :
    (gs.foldl State.beatActs s).ctx i = s.ctx i := by
  induction gs generalizing s with
  | nil => rfl
  | cons g gs ih =>
    have same : (s.beatActs g).ctx i = s.ctx i := by
      rw [State.beatActs_ctx, if_neg (by simp [Context.beatsIn, h])]
    rw [List.foldl_cons, ih _ (by rwa [same]), same]

/-- After the beats of a frame event nothing changes what the beats go by. -/
theorem State.foldBeats_rampsAlike (u : State) (gs : List (Fin 8)) (chs : List (Fin 4)) :
    (gs.foldl State.beatActs u).rampsAlike ((u.takeBeats gs).takeCounts chs) :=
  State.rampsAlike_trans (State.rampsAlike_foldl State.arbitrate_rampsAlike _ _) (State.takeCounts_rampsAlike _ _)

/-- A frame event none of whose beats acts on a context leaves its applied set (R87). -/
theorem State.frameEvent_applied_other {s : State} {i : Fin 256} (h : ¬s.stepsNext i) :
    (s.frameEvent.ctx i).applied = (s.ctx i).applied := by
  obtain ⟨u, gs, chs, ⟨-, -, alike⟩, perm, e⟩ := s.frameEvent_eq
  obtain ⟨life, group, -, applied⟩ := alike i
  obtain ⟨-, -, kept⟩ := u.foldBeats_rampsAlike gs chs
  obtain ⟨-, -, -, keeps⟩ := kept i
  have unbeaten : (gs.foldl State.beatActs u).ctx i = u.ctx i := by
    by_cases live : (s.ctx i).life = .live
    · refine State.foldBeats_ctx_other gs u i fun acts => h (State.stepsNext_of_mem_acting ?_ live)
      rw [← group]; exact perm.mem_iff.1 acts
    · exact State.foldBeats_ctx_notLive gs u (by rwa [life])
  rw [e, keeps, unbeaten, applied]

/-- A beat acts on context `i` of `s` and leads to `t`: the applied set becomes the target set in SETUP mode, and moves
by no more than the slew step in SHOW mode (R20, R21, R87). -/
def State.beatMoves (s t : State) (i : Fin 256) : Prop :=
  s.stepsNext i ∧ ∀ a, (s.ctx i).applied = some a → ∃ b, (t.ctx i).applied = some b ∧
    (s.ramp.mode = .setup → b = (s.ctx i).target) ∧
    (s.ramp.mode = .showing → ∀ p q, (((b.get p).get q) - ((a.get p).get q)).natAbs ≤
      (s.group (s.ctx i).group).slew)

theorem State.frameEvent_beatMoves {s : State} {i : Fin 256}
    (changed : (s.frameEvent.ctx i).applied ≠ (s.ctx i).applied) : s.beatMoves s.frameEvent i := by
  have steps : s.stepsNext i := by
    by_contra no; exact changed (State.frameEvent_applied_other no)
  refine ⟨steps, fun a known => ?_⟩
  rw [State.frameEvent_applied steps]
  cases mode : s.ramp.mode with
  | setup => exact ⟨(s.ctx i).target, rfl, fun _ => rfl, fun h => by cases h⟩
  | showing =>
    refine ⟨rampSet (s.group (s.ctx i).group).slew a (s.ctx i).target, ?_, fun h => (by cases h), fun _ p q => ?_⟩
    · simp only [Context.beaten, known, Option.map_some]
    · rw [rampSet_get]
      exact (rampTerm_bounds _ _ _).1

/-- A frame event that has changed the frame monitor's own records first moves an applied set as one of `s`. -/
theorem State.beatMoves_of_exec {s t : State} {c : Instr} {i : Fin 256} (event : s.frameEventAt c)
    (step : exec c s = .next t) (changed : (t.ctx i).applied ≠ (s.ctx i).applied) : s.beatMoves t i := by
  obtain ⟨u, hu, contexts, groups, mode, tags, pin⟩ := State.exec_frameEvent event
  obtain rfl := Host.Outcome.next.inj (step.symm.trans hu)
  have ctx : u.ctx i = s.ctx i := State.ctx_congr contexts i
  have moves : u.beatMoves u.frameEvent i := State.frameEvent_beatMoves (by rwa [ctx])
  unfold State.beatMoves State.stepsNext at moves ⊢
  rwa [ctx, mode, tags, pin, State.group_congr groups] at moves

/-- An edge that gives no frame event leaves the table (R82). -/
theorem frameEdgeStep_contexts {s : State} (h : ¬s.frameEventAt .frameEdge) :
    (frameEdgeStep s).contexts = s.contexts := by
  unfold frameEdgeStep
  split
  · next regained => exact absurd (.inl ⟨rfl, .inl regained⟩) h
  · next lost =>
    split
    · rfl
    · next x candidate =>
      split_ifs with spaced
      · rw [State.regains, Bool.and_eq_true, decide_eq_true_eq, decide_eq_true_eq] at spaced
        exact absurd (.inl ⟨rfl, .inr ⟨lost, x, candidate, spaced⟩⟩) h
      · rfl

theorem frameEdgeStep_beatMoves {s : State} {i : Fin 256}
    (changed : ((frameEdgeStep s).ctx i).applied ≠ (s.ctx i).applied) : s.beatMoves (frameEdgeStep s) i := by
  by_cases event : s.frameEventAt .frameEdge
  · exact State.beatMoves_of_exec event rfl changed
  · exact absurd (by rw [State.ctx_congr (frameEdgeStep_contexts event)]) changed

theorem substituteTimerExpiryStep_beatMoves {s : State} {i : Fin 256}
    (changed : ((substituteTimerExpiryStep s).ctx i).applied ≠ (s.ctx i).applied) :
    s.beatMoves (substituteTimerExpiryStep s) i := by
  by_cases running : s.ramp.substituteTimer.isSome = true
  · exact State.beatMoves_of_exec (.inr ⟨rfl, running⟩) rfl changed
  · exact absurd (by rw [substituteTimerExpiryStep, if_neg running]) changed

/-! ## The events of R90 -/

/-- The events at which the applied set of context `i` changes from `s` to `t`, when the command is `c` (R90). -/
def State.appliedEvent (c : Instr) (s t : State) (i : Fin 256) : Prop :=
  (c = .powerOnReset ∧ (t.ctx i).applied = none) ∨
  ((c = .frameEdge ∨ c = .substituteTimerExpiry) ∧ s.beatMoves t i) ∨
  (c = .adopt ∧ (t.ctx i).life = .adopted ∧ (t.ctx i).applied = none) ∨
  (c = .retire ∧ (t.ctx i).life = .absent ∧ (t.ctx i).applied = none) ∨
  ((s.ctx i).life ≠ .live ∧ (t.ctx i).life = .live ∧ (t.ctx i).applied = some (t.ctx i).target)

theorem State.appliedEvent_of_entersLive {c : Instr} {s t : State} {i : Fin 256}
    (h : State.keepsOr Standing.entersLive s t) (changed : (t.ctx i).applied ≠ (s.ctx i).applied) :
    s.appliedEvent c t i := .inr (.inr (.inr (.inr ((h i).resolve_left changed))))

theorem State.appliedEvent_of_standings {c : Instr} {s t : State} {i : Fin 256}
    (h : standings t.contexts = standings s.contexts) (changed : (t.ctx i).applied ≠ (s.ctx i).applied) :
    s.appliedEvent c t i := State.appliedEvent_of_entersLive (State.keepsOr_of_standings h) changed

theorem State.appliedEvent_of_card {c : Instr} {s : State} {r : Request} {f : Walk → State → State} {i : Fin 256}
    (h : ∀ w (s : State), standings (f w s).contexts = standings s.contexts)
    (changed : ((s.dispatchCard r f).ctx i).applied ≠ (s.ctx i).applied) :
    s.appliedEvent c (s.dispatchCard r f) i :=
  State.appliedEvent_of_standings (State.dispatchCard_standings h s r) changed

/-- Whatever a command does to an applied set it does at one of the events of R90. -/
theorem perform_appliedEvent (c : Instr) {s : State} {i : Fin 256}
    (changed : ((perform c s).ctx i).applied ≠ (s.ctx i).applied) : s.appliedEvent c.within (perform c s) i := by
  induction c with
  | areaBusError n during ih => exact ih changed
  | powerOnReset => exact .inl ⟨rfl, congrArg Context.applied (s.powerOn_ctx i)⟩
  | frameEdge => exact .inr (.inl ⟨.inl rfl, frameEdgeStep_beatMoves changed⟩)
  | substituteTimerExpiry => exact .inr (.inl ⟨.inr rfl, substituteTimerExpiryStep_beatMoves changed⟩)
  | adopt =>
    exact .inr (.inr (.inl ⟨rfl, (s.dispatchCard_keepsOr dispatchAdopt_keepsOr .adopt i).resolve_left changed⟩))
  | retire =>
    exact .inr (.inr (.inr (.inl
      ⟨rfl, (s.dispatchCard_keepsOr dispatchRetire_keepsOr .retire i).resolve_left changed⟩)))
  | tileAnswer ch bytes quiet =>
    exact State.appliedEvent_of_entersLive (tileAnswerStep_keepsOr ch bytes quiet s) changed
  | answerWindowClose ch => exact State.appliedEvent_of_entersLive (answerWindowCloseStep_keepsOr ch s) changed
  | holdAnswer ch bytes quiet =>
    exact State.appliedEvent_of_entersLive (holdAnswerStep_keepsOr ch bytes quiet s) changed
  | holdTimerExpiry ch => exact State.appliedEvent_of_entersLive (holdTimerExpiryStep_keepsOr ch s) changed
  | rollSlotAnswer ch bytes quiet =>
    exact State.appliedEvent_of_entersLive (rollSlotAnswerStep_keepsOr ch bytes quiet s) changed
  | rollSlotClose ch => exact State.appliedEvent_of_entersLive (rollSlotCloseStep_keepsOr ch s) changed
  | serviceTimerExpiry => exact absurd (congrFun (serviceTimerExpiryStep_appliedSets s) i) changed
  | stalenessCheckExpiry => exact State.appliedEvent_of_standings (stalenessCheckExpiryStep_standings s) changed
  | solveTimerExpiry g => exact State.appliedEvent_of_standings (solveTimerExpiryStep_standings g s) changed
  | solve => exact State.appliedEvent_of_card dispatchSolve_standings changed
  | setGroup => exact State.appliedEvent_of_card dispatchSetGroup_standings changed
  | loadCurve => exact State.appliedEvent_of_card dispatchLoadCurve_standings changed
  | setMode => exact State.appliedEvent_of_card dispatchSetMode_standings changed
  | freeze => exact State.appliedEvent_of_card dispatchFreeze_standings changed
  | thaw => exact State.appliedEvent_of_card dispatchThaw_standings changed
  | setFrame => exact State.appliedEvent_of_card dispatchSetFrame_standings changed
  | setChain => exact State.appliedEvent_of_card dispatchSetChain_standings changed
  | startChain => exact State.appliedEvent_of_card dispatchStartChain_standings changed
  | stopChain => exact State.appliedEvent_of_card dispatchStopChain_standings changed
  | verify => exact State.appliedEvent_of_card dispatchVerify_standings changed
  | rollCall => exact State.appliedEvent_of_card dispatchRollCall_standings changed
  | setFilter => exact State.appliedEvent_of_card dispatchSetFilter_standings changed
  | restart run scan host => exact State.appliedEvent_of_standings (s.writeRunCtrl_standings _ _ _ _) changed
  | run run host => exact State.appliedEvent_of_standings (s.writeRunCtrl_standings _ _ _ _) changed
  | scan run host => exact State.appliedEvent_of_standings (s.writeRunCtrl_standings _ _ _ _) changed
  | areaLoWrite v => exact State.appliedEvent_of_standings (s.writeArea_standings _) changed
  | areaHiWrite v => exact State.appliedEvent_of_standings (s.writeArea_standings _) changed
  | scanTimerExpiry host => exact State.appliedEvent_of_standings (scanTimerExpiryStep_standings host s) changed
  | followingScan host => exact State.appliedEvent_of_standings (followingScanStep_standings host s) changed
  | lossTimerExpiry => exact State.appliedEvent_of_standings (lossTimerExpiryStep_standings s) changed
  | frameBegin ch quiet waited =>
    exact State.appliedEvent_of_standings (frameBeginStep_standings ch quiet waited s) changed
  | frameSent ch => exact State.appliedEvent_of_standings (frameSentStep_standings ch s) changed
  | latchSent ch => exact State.appliedEvent_of_standings (latchSentStep_standings ch s) changed
  | resend ch quiet waited => exact State.appliedEvent_of_standings (resendStep_standings ch quiet waited s) changed
  | pollRoundTimerExpiry ch => exact State.appliedEvent_of_standings (pollRoundTimerExpiryStep_standings ch s) changed
  | latchDeadlinePassed ch => exact State.appliedEvent_of_standings (latchDeadlinePassedStep_standings ch s) changed
  | verifySweepTimerExpiry ch =>
    exact State.appliedEvent_of_standings (verifySweepTimerExpiryStep_standings ch s) changed
  | rollRetry ch quiet waited =>
    exact State.appliedEvent_of_standings (rollRetryStep_standings ch quiet waited s) changed
  | perstN _ | partIdWrite _ | noticeRawWrite _ | noticeMaskWrite _ | freezeInChange _ =>
    exact absurd rfl changed

/-- A command's step is what it performs; during a bus error, with the failing access set in the link's account. -/
theorem exec_perform (c : Instr) (s : State) :
    ∃ u : State, u = { s with link := u.link } ∧ exec c s = .next (perform c u) := by
  cases c with
  | areaBusError n during => exact ⟨s.setFailAfter (some n), rfl, rfl⟩
  | _ => exact ⟨s, rfl, rfl⟩

/-- Settles O31: every command changes an applied set at one of the five events of R90 alone. -/
theorem appliedSetChangesOnlyAtItsEvents : Obligations.AppliedSetChangesOnlyAtItsEvents := by
  intro c s t i step changed
  obtain ⟨u, alike, performed⟩ := exec_perform c s
  obtain rfl := Host.Outcome.next.inj (step.symm.trans performed)
  rw [alike] at changed ⊢
  exact perform_appliedEvent c changed

end Sys2Proof.Machine
end

section
/-! The end of a LATCH frame (R108, R133). -/

namespace Sys2Proof.Machine

theorem Context.liveOn_iff (ch : Fin 4) (c : Context) : c.liveOn ch = true ↔ c.life = .live ∧ c.chain = ch := by
  simp only [Context.liveOn, Context.ofChain, Bool.and_eq_true, decide_eq_true_eq]

/-- The latched set is a mirrored field: a context becomes dirty exactly when its latched set changes (R46). -/
theorem Context.touched_latched (c : Context) (set : Option TermSet) :
    c.touched { c with latched := set } =
      if c.latched ≠ set then { c with latched := set, dirty := true } else c := by
  by_cases same : c.latched = set
  · subst same
    rw [if_neg (not_not.2 rfl)]
    exact if_pos rfl
  · rw [if_pos same]
    exact if_neg fun alike => same (congrArg Context.latched alike)

theorem State.latch_ctx (s : State) (ch : Fin 4) (i : Fin 256) :
    (s.latch ch).ctx i =
      if (s.ctx i).life = .live ∧ (s.ctx i).chain = ch ∧ (s.ctx i).sent ≠ none ∧ (s.ctx i).latched ≠ (s.ctx i).sent
      then { s.ctx i with latched := (s.ctx i).sent, dirty := true } else s.ctx i := by
  have latched : (s.latch ch).ctx i =
      if (s.ctx i).liveOn ch && (s.ctx i).sent.isSome
      then (s.ctx i).touched { s.ctx i with latched := (s.ctx i).sent } else s.ctx i := Table.get_map _ _ _
  rw [latched, Context.touched_latched, ← ite_and]
  simp only [Bool.and_eq_true, Context.liveOn_iff, Option.isSome_iff_ne_none, and_assoc]

theorem State.latch_chain (s : State) (ch j : Fin 4) :
    (s.latch ch).chain j =
      if j = ch then { s.chain j with latchPending := none, framesSinceLatch := 0 } else s.chain j := by
  by_cases own : j = ch
  · subst own
    rw [if_pos rfl]
    exact State.modChain_chain_same _ _ _
  · rw [if_neg own]
    exact State.modChain_chain_other _ (Ne.symm own) _

/-- A LATCH writes the tables of contexts and of chains alone. -/
theorem State.latch_frame (s : State) (ch : Fin 4) :
    s.latch ch = { s with contexts := (s.latch ch).contexts, chains := (s.latch ch).chains } := rfl

/-- While a LATCH frame is on the line, its end latches the chain's contexts and ends the work (R108, R133). -/
theorem exec_latchSent {s : State} {ch : Fin 4} (sending : (s.chain ch).flight = .latch true) :
    exec (.latchSent ch) s = .next ((s.latch ch).endFlight ch 5 true) := by
  have performed : exec (.latchSent ch) s = .next (latchSentStep ch s) := rfl
  rw [performed, latchSentStep, sending]

/-- Settles O41: at the end of a LATCH frame the chain's LIVE contexts latch their sent sets, and the work ends. -/
theorem latchSent : Obligations.LatchSent := by
  intro s ch sending
  exact ⟨s.latch ch, exec_latchSent sending, s.latch_ctx ch, s.latch_chain ch, s.latch_frame ch⟩

end Sys2Proof.Machine
end

section
/-! The routing of tile reports by the filters in force (R156 to R159). -/

namespace Sys2Proof

/-! ## The first record of a table that passes a test -/

theorem Table.find?_enum_eq_none {α : Type} {n : Nat} {t : Table α n} {p : Fin n × α → Bool}
    (fails : ∀ i, ¬p (i, t.get i) = true) : t.enum.find? p = none := by
  rw [List.find?_eq_none]
  rintro ⟨i, a⟩ mem
  obtain rfl : t.get i = a := (t.mem_enum (i, a)).1 mem
  exact fails i

theorem Table.find?_enum_eq_some {α : Type} {n : Nat} {t : Table α n} {p : Fin n × α → Bool} {i : Fin n}
    (passes : p (i, t.get i) = true) (first : ∀ j < i, ¬p (j, t.get j) = true) :
    t.enum.find? p = some (i, t.get i) := by
  rw [List.find?_eq_some_iff_getElem, Table.enum_eq_ofFn]
  refine ⟨passes, i.val, by simp, by simp, fun j before => ?_⟩
  simpa using first ⟨j, by omega⟩ before

end Sys2Proof

namespace Sys2Proof.Machine

/-! ## The match of a filter (R158) -/

/-- The filter routes the report with this key: it is enabled, and its match agrees with the key in every bit of its
mask. -/
def Filter.routes (f : Filter) (key : Nat) : Prop :=
  f.enable = true ∧ ∀ b < 12, f.mask.getLsbD b = true → key.testBit b = f.pattern.getLsbD b

/-- Two words are the same under a mask exactly when they agree in every bit of it. -/
theorem masked_eq_iff {w : Nat} (x y m : BitVec w) :
    x &&& m = y &&& m ↔ ∀ b < w, m.getLsbD b = true → x.getLsbD b = y.getLsbD b := by
  constructor
  · intro same b _ inMask
    simpa [inMask] using congrArg (·.getLsbD b) same
  · intro agree
    refine BitVec.eq_of_getLsbD_eq fun b lt => ?_
    by_cases inMask : m.getLsbD b = true
    · simp [agree b lt inMask]
    · simp [inMask]

/-- The test by which the part looks for a filter. -/
theorem Filter.routes_iff (f : Filter) (key : Nat) :
    (f.enable && decide (BitVec.ofNat 12 key &&& f.mask = f.pattern &&& f.mask)) = true ↔ f.routes key := by
  rw [Bool.and_eq_true, decide_eq_true_eq, masked_eq_iff, Filter.routes]
  refine and_congr_right fun _ => forall₂_congr fun b lt => ?_
  rw [BitVec.getLsbD_ofNat, decide_eq_true lt, Bool.true_and]

/-! ## Where a tile report goes (R156 to R159) -/

section Routing

variable {s : State} {ch : Fin 4} {a : Fin 64} {i : Fin 256} {r : CarriedReport}

theorem State.routeTile_of_no_filter
    (nothing : ∀ n, ¬(s.filtersInForce.get n).routes (r.kind.val * 256 + ch.val * 64 + a.val)) :
    s.routeTile ch a i r = s := by
  have search : s.routingFilter (reportKey r.kind.val ch a) = none :=
    Table.find?_enum_eq_none fun n => mt (Filter.routes_iff _ _).1 (nothing n)
  rw [State.routeTile, search]

theorem State.routeTile_of_first_filter {n : Fin 6}
    (matched : (s.filtersInForce.get n).routes (r.kind.val * 256 + ch.val * 64 + a.val))
    (first : ∀ m < n, ¬(s.filtersInForce.get m).routes (r.kind.val * 256 + ch.val * 64 + a.val)) :
    s.routeTile ch a i r = s.writeReport (s.filtersInForce.get n).destination
      { tick := s.tick, kind := r.kind.val, chain := ch, address := a, source := n.val, rolled := false
        serial := (s.ctx i).serial, value := r.value } := by
  have search : s.routingFilter (reportKey r.kind.val ch a) = some (n, s.filtersInForce.get n) :=
    Table.find?_enum_eq_some ((Filter.routes_iff _ _).2 matched) fun m before =>
      mt (Filter.routes_iff _ _).1 (first m before)
  rw [State.routeTile, search]

end Routing

/-! ## The filters after a power-on reset and after a restart -/

/-- After a power-on reset no card is under way, so the filters in force are the reset ones. -/
theorem State.powerOn_filtersInForce (s : State) : s.powerOn.filtersInForce = Table.replicate 6 Filter.reset := rfl

theorem State.powerOn_routeTile (s : State) (ch : Fin 4) (a : Fin 64) (i : Fin 256) (r : CarriedReport) :
    s.powerOn.routeTile ch a i r = s.powerOn := by
  refine State.routeTile_of_no_filter fun n matched => ?_
  rw [s.powerOn_filtersInForce, Table.get_replicate] at matched
  exact absurd matched.1 Bool.false_ne_true

@[simp] theorem State.hostWrites_filters (s : State) (host : List HostWrite) :
    (s.hostWrites host).filters = s.filters := rfl

@[simp] theorem State.writeRun_filters (s : State) (v : Bool) : (s.writeRun v).filters = s.filters := by
  unfold State.writeRun
  dsimp only
  split_ifs <;> simp

@[simp] theorem State.writeBitsLater_filters (s : State) (run scan : Bool) :
    (s.writeBitsLater run scan).filters = s.filters := by
  unfold State.writeBitsLater
  dsimp only
  split_ifs <;> simp

@[simp] theorem State.writeRunCtrl_filters (s : State) (restart run scan : Bool) (host : List HostWrite) :
    (s.writeRunCtrl restart run scan host).filters = s.filters := by
  unfold State.writeRunCtrl
  dsimp only
  split_ifs <;> simp

theorem exec_restart (s : State) (run scan : Bool) (host : List HostWrite) :
    exec (.restart run scan host) s = .next (s.writeRunCtrl true run scan host) := rfl

/-- Settles O53: the first filter in force that matches takes the report, a power-on reset leaves none that does, and
a restart leaves the filters alone. -/
theorem tileReportsAreRouted : Obligations.TileReportsAreRouted := by
  intro s ch a i r F judges
  obtain rfl : F = s.filtersInForce.get := funext fun n => ((s.judgesBy_iff n _).1 (judges n)).symm
  refine ⟨State.routeTile_of_no_filter, fun n => State.routeTile_of_first_filter, ?_, fun run scan host => ?_⟩
  · exact ⟨s.powerOn, s.exec_powerOnReset, s.powerOn_routeTile ch a i r, Table.get_replicate Filter.reset⟩
  · exact ⟨_, exec_restart s run scan host, s.writeRunCtrl_filters true run scan host⟩

end Sys2Proof.Machine
end

section
/-! One step of the part (log 1): what a command runs, and what an empty queue brings. -/

namespace Sys2Proof.Machine

/-- Settles O1: a step takes the command at the front of the queue and runs it. -/
theorem stepRunsFrontCommand : Obligations.StepRunsFrontCommand := fun _ _ _ => rfl

/-- During a bus error the part performs the command that the bus error names. -/
theorem perform_within (c : Instr) (s : State) : perform c.within s = perform c s := by
  induction c with
  | areaBusError n during ih => exact ih
  | _ => rfl

/-- A command's step is what it performs, with the failing access that it may have named in the link's account. -/
theorem exec_within (c : Instr) (s : State) : ∃ n, exec c s = .next (perform c.within (s.setFailAfter n)) := by
  cases c with
  | areaBusError n during => exact ⟨some n, congrArg _ (perform_within during _).symm⟩
  | _ => exact ⟨s.link.failAfter, rfl⟩

/-! ## The empty queue -/

/-- What an empty queue brings: the first of all that is to be done, in a free order, or one microsecond (log 1). -/
theorem State.idle_cases (s : State) : ∃ n, let u : State := { s with freeIndex := n }
    (∃ c, .command c ∈ s.toDo ∧ s.idle = { u with pending := u.pending ++ [c] }) ∨
    (.access ∈ s.toDo ∧ s.idle = u.scanAccess) ∨
    (∃ g i, .page g i ∈ s.toDo ∧ s.idle = u.readMember g i) ∨
    (∃ v, .solve v ∈ s.toDo ∧ s.idle = u.endSolves [v]) ∨
    (s.toDo = [] ∧ s.idle = s.passMicrosecond) := by
  obtain ⟨n, perm, taken⟩ := s.unordered_eq s.toDo
  refine ⟨n, ?_⟩
  have nothing : s.toDo = [] → s.idle = s.passMicrosecond := fun e => by rw [State.idle, e]; rfl
  have first : ∀ d l, (s.unordered s.toDo).1 = d :: l → d ∈ s.toDo := fun d l e =>
    perm.mem_iff.1 (by rw [e]; exact List.mem_cons_self)
  have choice : s.unordered s.toDo = ((s.unordered s.toDo).1, { s with freeIndex := n }) := by rw [← taken]
  generalize (s.unordered s.toDo).1 = done at *
  cases done with
  | nil => exact .inr (.inr (.inr (.inr ⟨perm.symm.eq_nil, nothing perm.symm.eq_nil⟩)))
  | cons d l =>
    have mem := first d l rfl
    cases d with
    | command c => exact .inl ⟨c, mem, by rw [State.idle, choice]⟩
    | access => exact .inr (.inl ⟨mem, by rw [State.idle, choice]⟩)
    | page g i => exact .inr (.inr (.inl ⟨g, i, mem, by rw [State.idle, choice]⟩))
    | solve v => exact .inr (.inr (.inr (.inl ⟨v, mem, by rw [State.idle, choice]⟩)))

/-- A solve that an empty queue may end is one that is under way. -/
theorem State.solve_mem_toDo {s : State} {v : Solve} (h : .solve v ∈ s.toDo) : v ∈ s.solves := by
  unfold State.toDo at h
  split at h
  · simp at h
  · simp only [List.mem_append, List.mem_map, List.mem_flatMap, List.mem_cons, List.mem_filter] at h
    rcases h with (⟨c, -, e⟩ | e) | ⟨w, hw, e | ⟨m, -, e⟩⟩
    · cases e
    · split at e <;> simp at e
    · cases e; exact hw
    · cases e

/-- What every command keeps, every doing of the empty queue keeps, and the part's books do not speak of (the queue,
the free choices and the link's account), every step keeps. -/
theorem step_keeps {P : State → Prop} (command : ∀ (c : Instr) (s : State), P s → P (perform c s))
    (books : ∀ (s : State) (q : List Instr) (n : Nat) (f : Option Nat), P s →
      P { s with pending := q, freeIndex := n, link := { s.link with failAfter := f } })
    (access : ∀ s : State, P s → P s.scanAccess)
    (reads : ∀ (s : State) (g : Fin 8) (i : Fin 256), P s → P (s.readMember g i))
    (ends : ∀ (s : State), ∀ v ∈ s.solves, P s → P (s.endSolves [v])) (time : ∀ s : State, P s → P s.passMicrosecond)
    {s t : State} (h : step s = .next t) (lawful : P s) : P t := by
  unfold step at h
  split at h
  · have free : ∀ n, P { s with freeIndex := n } := fun n => books s s.pending n s.link.failAfter lawful
    obtain rfl := Host.Outcome.next.inj h
    obtain ⟨n, ⟨c, -, e⟩ | ⟨-, e⟩ | ⟨g, i, -, e⟩ | ⟨v, mem, e⟩ | ⟨-, e⟩⟩ := s.idle_cases <;> rw [e]
    · exact books s (s.pending ++ [c]) n s.link.failAfter lawful
    · exact access _ (free n)
    · exact reads _ g i (free n)
    · exact ends _ v (State.solve_mem_toDo mem) (free n)
    · exact time s lawful
  · next c rest _ =>
    obtain ⟨n, e⟩ := exec_within c { s with pending := rest }
    obtain rfl := Host.Outcome.next.inj (h.symm.trans e)
    exact command c.within _ (books s rest s.freeIndex n lawful)

end Sys2Proof.Machine
end

section
/-! What the operations of the chains, the beats and the rolls leave of the part: tables of contexts, groups and chains
change, and nothing around them. -/

namespace Sys2Proof.Machine

/-! ## Outside the tables of contexts, groups and chains -/

/-- `t` differs from `s` in the tables of contexts, groups and chains alone, but for the count of free choices. -/
def State.tablesOnly (s t : State) : Prop :=
  t = { s with contexts := t.contexts, groups := t.groups, chains := t.chains, freeIndex := t.freeIndex }

theorem State.tablesOnly_refl (s : State) : s.tablesOnly s := rfl

theorem State.tablesOnly_trans {s t u : State} (h : s.tablesOnly t) (k : t.tablesOnly u) : s.tablesOnly u := by
  unfold State.tablesOnly at *
  rw [k, h]

theorem State.tablesOnly_foldl {α : Type} {f : State → α → State} (h : ∀ (s : State) a, s.tablesOnly (f s a))
    (l : List α) (s : State) : s.tablesOnly (l.foldl f s) := by
  induction l generalizing s with
  | nil => rfl
  | cons a l ih => exact State.tablesOnly_trans (h s a) (ih (f s a))

theorem State.modCtx_tablesOnly (s : State) (i : Fin 256) (f : Context → Context) : s.tablesOnly (s.modCtx i f) := rfl

theorem State.modChain_tablesOnly (s : State) (ch : Fin 4) (f : Chain → Chain) : s.tablesOnly (s.modChain ch f) := rfl

theorem State.modGroup_tablesOnly (s : State) (g : Fin 8) (f : Group → Group) : s.tablesOnly (s.modGroup g f) := rfl

theorem State.solvePending_tablesOnly (s : State) (g : Fin 8) : s.tablesOnly (s.solvePending g) := rfl

theorem State.enqueueProbe_tablesOnly (s : State) (i : Fin 256) : s.tablesOnly (s.enqueueProbe i) := rfl

theorem State.dropWork_tablesOnly (s : State) (i : Fin 256) : s.tablesOnly (s.dropWork i) := by
  unfold State.dropWork
  dsimp only
  split <;> rfl

theorem State.startTransaction_tablesOnly (s : State) (ch : Fin 4) (kind : WorkKind) (i : Fin 256) :
    s.tablesOnly (s.startTransaction ch kind i) := rfl

theorem State.start_tablesOnly (s : State) (ch : Fin 4) (c : Choice) : s.tablesOnly (s.start ch c) := by
  cases c <;> rfl

theorem State.arbitrate_tablesOnly (s : State) (ch : Fin 4) : s.tablesOnly (s.arbitrate ch) := by
  rcases s.arbitrate_eq ch with e | ⟨-, c, -, e⟩ <;> rw [e]
  · rfl
  · exact s.start_tablesOnly ch c

theorem State.enqueuePush_tablesOnly (s : State) (i : Fin 256) : s.tablesOnly (s.enqueuePush i) := rfl

theorem State.beatActs_tablesOnly (s : State) (g : Fin 8) : s.tablesOnly (s.beatActs g) :=
  State.tablesOnly_trans (t := { s with
    contexts := s.contexts.map fun c =>
      if c.beatsIn g then c.touched { c with applied := c.beaten s.ramp.mode (s.group g).slew } else c }) rfl
    (State.tablesOnly_foldl (fun s (x : Fin 256 × Context) => s.enqueuePush_tablesOnly x.1) _ _)

theorem State.takeBeats_tablesOnly (s : State) (gs : List (Fin 8)) : s.tablesOnly (s.takeBeats gs) :=
  State.tablesOnly_trans (State.tablesOnly_foldl State.beatActs_tablesOnly gs s)
    (State.tablesOnly_foldl State.arbitrate_tablesOnly _ _)

theorem State.takeCounts_tablesOnly (s : State) (chs : List (Fin 4)) : s.tablesOnly (s.takeCounts chs) :=
  State.tablesOnly_foldl (fun s ch => State.tablesOnly_trans (s.modChain_tablesOnly ch _)
    (State.arbitrate_tablesOnly _ ch)) chs s

theorem State.frameEvent_tablesOnly (s : State) : s.tablesOnly s.frameEvent := by
  obtain ⟨n, -, e⟩ := s.unordered_eq s.acting
  have counted : s.tablesOnly (s.unordered s.acting).2.countBeats := by rw [e]; rfl
  unfold State.frameEvent
  dsimp only
  generalize (s.unordered s.acting).2.countBeats = u at counted ⊢
  refine State.tablesOnly_trans counted ?_
  split_ifs
  · exact State.tablesOnly_trans (t := { u with freeIndex := u.freeIndex + 1 }) rfl
      (State.tablesOnly_trans (State.tablesOnly_trans (State.takeCounts_tablesOnly _ _)
        (State.takeBeats_tablesOnly _ _)) (State.takeCounts_tablesOnly _ _))
  · exact State.tablesOnly_trans (State.takeBeats_tablesOnly _ _) (State.takeCounts_tablesOnly _ _)

theorem State.markLate_tablesOnly (s : State) (ch : Fin 4) : s.tablesOnly (s.markLate ch) := by
  unfold State.markLate
  split <;> rfl

theorem State.startChain_tablesOnly (s : State) (ch : Fin 4) : s.tablesOnly (s.startChain ch) :=
  State.tablesOnly_trans (State.tablesOnly_trans (s.markLate_tablesOnly ch) (State.modChain_tablesOnly _ ch _))
    (State.arbitrate_tablesOnly _ ch)

theorem State.markDue_tablesOnly (s : State) (ch : Fin 4) : s.tablesOnly (s.markDue ch) := rfl

theorem State.beginSweep_tablesOnly (s : State) (ch : Fin 4) : s.tablesOnly (s.beginSweep ch) :=
  State.tablesOnly_trans (s.markDue_tablesOnly ch) (State.modChain_tablesOnly _ ch _)

/-- A chain's frame is begun, at most, by a change of its own record. -/
theorem State.beginFrame_tablesOnly (s : State) (ch : Fin 4) : s.tablesOnly (s.beginFrame ch) := by
  unfold State.beginFrame
  repeat' split
  all_goals rfl

theorem frameBeginStep_tablesOnly (ch : Fin 4) (quiet waited : Nat) (s : State) :
    s.tablesOnly (frameBeginStep ch quiet waited s) := by
  unfold frameBeginStep
  split
  · exact s.beginFrame_tablesOnly ch
  · rfl

theorem frameSentStep_tablesOnly (ch : Fin 4) (s : State) : s.tablesOnly (frameSentStep ch s) := by
  unfold frameSentStep
  repeat' split
  all_goals rfl

theorem resendStep_tablesOnly (ch : Fin 4) (quiet waited : Nat) (s : State) :
    s.tablesOnly (resendStep ch quiet waited s) := by
  unfold resendStep
  repeat' split
  all_goals rfl

theorem rollRetryStep_tablesOnly (ch : Fin 4) (quiet waited : Nat) (s : State) :
    s.tablesOnly (rollRetryStep ch quiet waited s) := by
  unfold rollRetryStep
  repeat' split
  all_goals rfl

theorem pollRoundTimerExpiryStep_tablesOnly (ch : Fin 4) (s : State) :
    s.tablesOnly (pollRoundTimerExpiryStep ch s) := by
  unfold pollRoundTimerExpiryStep
  split
  · exact State.tablesOnly_trans (t := s.beginRound ch) rfl (State.arbitrate_tablesOnly _ ch)
  · rfl

theorem latchDeadlinePassedStep_tablesOnly (ch : Fin 4) (s : State) : s.tablesOnly (latchDeadlinePassedStep ch s) := by
  unfold latchDeadlinePassedStep
  split
  · exact State.tablesOnly_trans (s.markLate_tablesOnly ch) (State.arbitrate_tablesOnly _ ch)
  · rfl

theorem verifySweepTimerExpiryStep_tablesOnly (ch : Fin 4) (s : State) :
    s.tablesOnly (verifySweepTimerExpiryStep ch s) := by
  unfold verifySweepTimerExpiryStep
  split
  · exact State.tablesOnly_trans (State.tablesOnly_trans (s.markDue_tablesOnly ch) (State.modChain_tablesOnly _ ch _))
      (State.arbitrate_tablesOnly _ ch)
  · rfl

theorem solveTimerExpiryStep_tablesOnly (g : Fin 8) (s : State) : s.tablesOnly (solveTimerExpiryStep g s) := by
  unfold solveTimerExpiryStep
  split <;> rfl

theorem State.foldPending_tablesOnly (gs : List (Fin 8)) (s : State) :
    s.tablesOnly (gs.foldl State.solvePending s) := 
  State.tablesOnly_foldl State.solvePending_tablesOnly gs s

end Sys2Proof.Machine
end

section
/-! Every step keeps the host's side lawful: the memory, the counts of the logs, and the intake unit (R165 to R172). -/

namespace Sys2Proof.Machine

theorem State.hostLawful_of_tablesOnly {s t : State} (h : s.hostLawful) (only : s.tablesOnly t) : t.hostLawful := by
  rw [only]
  exact State.hostLawful_congr h rfl rfl rfl rfl rfl rfl rfl rfl

/-! ## The registers -/

theorem Logs.reset_counts : Logs.reset.countsLawful := ⟨by decide, by decide, by decide⟩

theorem State.powerOn_host {s : State} (h : s.hostLawful) : s.powerOn.hostLawful := by
  obtain ⟨memory, -, -⟩ := h
  exact ⟨memory, Logs.reset_counts, fun _ => ⟨rfl, rfl, rfl⟩, .inl rfl⟩

theorem State.writeArea_host {s : State} (h : s.hostLawful) {f : Registers → Registers}
    (run : ∀ r, (f r).run = r.run) : (s.writeArea f).hostLawful := by
  unfold State.writeArea
  split
  · exact State.notice_host h _
  · exact State.hostLawful_congr h rfl rfl (run _) rfl rfl rfl rfl rfl

/-- RUN's change to clear stops the timer and the scan; its change to set starts them only while intake runs (R174). -/
theorem State.writeRun_host {s : State} (h : s.hostLawful) (v : Bool) : (s.writeRun v).hostLawful := by
  obtain ⟨memory, counts, stopped, apart⟩ := h
  unfold State.writeRun
  dsimp only
  split_ifs with same set halted
  · exact ⟨memory, counts, fun e => stopped (e.imp_left (same.symm.trans ·)), apart⟩
  · exact ⟨memory, counts, fun _ => stopped (.inr halted), apart⟩
  · refine State.requestScan_host (State.startScanTimer_host ⟨memory, counts, fun e => ?_, apart⟩ set ?_)
    · rcases e with clear | halt
      · exact absurd (set.symm.trans clear) (by decide)
      · exact absurd halt halted
    · simpa using halted
  · exact ⟨memory, counts, fun _ => ⟨rfl, rfl, rfl⟩, .inr rfl⟩

/-- The bits of a card under way do not count. -/
theorem State.modWalk_host {s : State} (h : s.hostLawful) (f : Walk → Walk) :
    (s.modIntake fun k => { k with walk := k.walk.map f }).hostLawful := by
  obtain ⟨memory, counts, stopped, apart⟩ := h
  exact ⟨memory, counts, stopped, apart.imp_left fun e => by simp [e]⟩

theorem State.restart_host {s : State} (h : s.hostLawful) : s.restart.hostLawful := by
  have dirty : s.dirtyAll.hostLawful := State.hostLawful_congr h rfl rfl rfl rfl rfl rfl rfl rfl
  have restarted := State.chainRestarts_host (State.modLogs_host
    (State.modRamp_host dirty fun r => { r with freezeSet := [] }) (f := fun _ => Logs.reset) Logs.reset_counts)
  unfold State.restart
  dsimp only
  generalize State.chainRestarts _ = u at restarted ⊢
  split
  · next w e =>
    obtain ⟨memory, counts, stopped, apart⟩ := restarted
    exact ⟨memory, counts, stopped, .inr (apart.resolve_left fun none => by cases none.symm.trans e)⟩
  · exact State.intakeRestart_host restarted

/-- While a restart waits for a card, no scan stands between two accesses, and only a clearing of RUN acts (R174). -/
theorem State.writeBitsLater_host {s : State} (h : s.hostLawful) (run scan : Bool) :
    (s.writeBitsLater run scan).hostLawful := by
  unfold State.writeBitsLater
  refine State.modWalk_host ?_ _
  cases run with
  | false => exact State.writeRun_host h false
  | true =>
    obtain ⟨memory, counts, stopped, apart⟩ := h
    refine ⟨memory, counts, fun e => stopped (.inr (e.resolve_left ?_)), apart⟩
    exact Bool.noConfusion

theorem State.writeRunCtrl_host {s : State} (h : s.hostLawful) (restart run scan : Bool) (host : List HostWrite) :
    (s.writeRunCtrl restart run scan host).hostLawful := by
  have written := State.hostWrites_host h host
  have restarted := State.restart_host written
  unfold State.writeRunCtrl
  dsimp only
  split
  · exact State.writeBitsLater_host restarted run scan
  · have first : (if restart then (s.hostWrites host).restart else s.hostWrites host).hostLawful := by
      split
      · exact restarted
      · exact written
    split
    · exact State.requestScan_host (State.writeRun_host first run)
    · exact State.writeRun_host first run

/-- A running timer shows that RUN is set and that HALTED is clear. -/
theorem State.running_of_scanTimer {s : State} (h : s.hostLawful) (timer : s.intake.scanTimer.isSome = true) :
    s.regs.run = true ∧ s.intake.halted = false := by
  obtain ⟨-, -, stopped, -⟩ := h
  constructor
  · by_contra clear
    simp [(stopped (.inl (by simpa using clear))).1] at timer
  · by_contra halted
    simp [(stopped (.inr (by simpa using halted))).1] at timer

theorem scanTimerExpiryStep_host (host : List HostWrite) {s : State} (h : s.hostLawful) :
    (scanTimerExpiryStep host s).hostLawful := by
  have written := State.hostWrites_host h host
  unfold scanTimerExpiryStep
  dsimp only
  split_ifs with timer
  · obtain ⟨run, running⟩ := State.running_of_scanTimer written timer
    exact State.requestScan_host (State.startScanTimer_host written run running)
  · exact written

theorem followingScanStep_host (host : List HostWrite) {s : State} (h : s.hostLawful) :
    (followingScanStep host s).hostLawful := by
  have written := State.hostWrites_host h host
  unfold followingScanStep
  dsimp only
  split_ifs
  · obtain ⟨memory, counts, stopped, apart⟩ := written
    refine State.requestScan_host ⟨memory, counts, fun e => ?_, apart⟩
    obtain ⟨timer, -, scan⟩ := stopped e
    exact ⟨timer, rfl, scan⟩
  · exact written

/-! ## The cards -/

/-- A context that leaves its work and is then changed, with the test of a VERIFY card held for its chain. -/
theorem State.dropped_host {s : State} (h : s.hostLawful) (i : Fin 256) (f : Context → Context) (ch : Fin 4) :
    (((s.dropWork i).modCtx i f).testSweep ch).hostLawful :=
  State.testSweep_host (State.modCtx_host (State.hostLawful_of_tablesOnly h (s.dropWork_tablesOnly i)) i f) ch

theorem State.adoptCtx_host {s : State} (h : s.hostLawful) (i : Fin 256) (sh : Sheet) (p : Position) (taken : Tick) :
    (s.adoptCtx i sh p taken).hostLawful := by
  have adopted := State.correctCtx_host
    (State.dropped_host h i (fun c => c.adopt sh p taken) (s.ctx i).chain) i
  unfold State.adoptCtx
  dsimp only
  generalize State.correctCtx _ i = u at adopted ⊢
  refine State.hostLawful_of_tablesOnly adopted (State.tablesOnly_trans ?_ (State.arbitrate_tablesOnly _ _))
  split <;> rfl

theorem State.retireCtx_host {s : State} (h : s.hostLawful) (i : Fin 256) : (s.retireCtx i).hostLawful :=
  State.hostLawful_of_tablesOnly (State.dropped_host h i Context.retire (s.ctx i).chain)
    (State.solvePending_tablesOnly _ _)

/-- What a card's block may do of the host's side: it keeps the laws, and leaves the card under way. -/
def State.hostKept (s t : State) : Prop := (s.hostLawful → t.hostLawful) ∧ t.intake.walk = s.intake.walk

section Kept

variable {s t : State} (c : Card) (code : ResultCode) (data : List Byte)

theorem State.hostKept_trans {u : State} (h : s.hostKept t) (k : t.hostKept u) : s.hostKept u :=
  ⟨fun lawful => k.1 (h.1 lawful), k.2.trans h.2⟩

theorem State.hostKept_of_tablesOnly (only : s.tablesOnly t) : s.hostKept t :=
  ⟨fun h => State.hostLawful_of_tablesOnly h only, by rw [only]⟩

theorem State.completeCard_hostKept (s : State) : s.hostKept (s.completeCard c code data) :=
  ⟨fun h => State.completeCard_host h c code data, by simp⟩

theorem State.refuseCard_hostKept (s : State) : s.hostKept (s.refuseCard c code) := s.completeCard_hostKept c code []

/-- A card completed after its block has changed tables alone. -/
theorem State.completeCard_tables (only : s.tablesOnly t) : s.hostKept (t.completeCard c code data) :=
  State.hostKept_trans (State.hostKept_of_tablesOnly only) (t.completeCard_hostKept c code data)

theorem State.holdCard_hostKept (s : State) (ch : Fin 4) (k : Request) : s.hostKept (s.holdCard ch c k) :=
  ⟨fun h => State.holdCard_host h ch c k, by simp [State.holdCard, State.modEntries]⟩

theorem State.endSweep_hostKept (s : State) (ch : Fin 4) : s.hostKept (s.endSweep ch code) :=
  ⟨fun h => State.endSweep_host h ch code, by simp⟩

theorem State.modRamp_hostKept (s : State) (f : RampUnit → RampUnit) : s.hostKept (s.modRamp f) :=
  ⟨fun h => State.modRamp_host h f, rfl⟩

theorem State.withPages_hostKept (s : State) (pages : Table Page 16) : s.hostKept { s with pages := pages } :=
  ⟨fun h => State.hostLawful_congr h rfl rfl rfl rfl rfl rfl rfl rfl, rfl⟩

theorem State.withFilters_hostKept (s : State) (filters : Table Filter 6) : s.hostKept { s with filters := filters } :=
  ⟨fun h => State.hostLawful_congr h rfl rfl rfl rfl rfl rfl rfl rfl, rfl⟩

theorem State.areaRead_hostKept {off n : Nat} {bs : Option (List Byte)} (h : s.areaRead off n = (bs, t)) :
    s.hostKept t := by
  obtain rfl : (s.areaRead off n).2 = t := by rw [h]
  exact ⟨fun lawful => State.areaRead_host lawful off n, by simp⟩

end Kept

theorem State.adoptCtx_hostKept (s : State) (i : Fin 256) (sh : Sheet) (p : Position) (taken : Tick) :
    s.hostKept (s.adoptCtx i sh p taken) := by
  refine ⟨fun h => State.adoptCtx_host h i sh p taken, ?_⟩
  unfold State.adoptCtx
  dsimp only
  split <;> simp

theorem State.retireCtx_hostKept (s : State) (i : Fin 256) : s.hostKept (s.retireCtx i) :=
  ⟨fun h => State.retireCtx_host h i, by simp [State.retireCtx]⟩

theorem dispatchAdopt_hostKept (w : Walk) (s : State) : s.hostKept (dispatchAdopt w s) := by
  unfold dispatchAdopt
  split
  · exact s.refuseCard_hostKept _ _
  · split
    · next e => exact State.areaRead_hostKept e
    · next e =>
      refine State.hostKept_trans (State.areaRead_hostKept e) ?_
      dsimp only
      split
      · exact State.refuseCard_hostKept _ _ _
      · split_ifs
        · exact State.refuseCard_hostKept _ _ _
        · exact State.hostKept_trans (State.adoptCtx_hostKept _ _ _ _ _) (State.completeCard_hostKept _ _ _ _)

theorem dispatchRetire_hostKept (w : Walk) (s : State) : s.hostKept (dispatchRetire w s) := by
  unfold dispatchRetire
  split
  · exact s.refuseCard_hostKept _ _
  · split_ifs
    · exact s.refuseCard_hostKept _ _
    · exact State.hostKept_trans (s.retireCtx_hostKept _) (State.completeCard_hostKept _ _ _ _)

theorem dispatchSolve_hostKept (w : Walk) (s : State) : s.hostKept (dispatchSolve w s) := by
  unfold dispatchSolve
  dsimp only
  split_ifs
  · exact State.completeCard_tables _ _ _ (State.foldPending_tablesOnly _ s)
  · split
    · exact s.refuseCard_hostKept _ _
    · exact State.completeCard_tables _ _ _ (State.foldPending_tablesOnly _ s)

theorem dispatchSetGroup_hostKept (w : Walk) (s : State) : s.hostKept (dispatchSetGroup w s) := by
  unfold dispatchSetGroup
  split
  · exact s.refuseCard_hostKept _ _
  · exact State.completeCard_tables _ _ _ (s.modGroup_tablesOnly _ _)

theorem dispatchLoadCurve_hostKept (w : Walk) (s : State) : s.hostKept (dispatchLoadCurve w s) := by
  unfold dispatchLoadCurve
  split
  · split
    · next e => exact State.areaRead_hostKept e
    · next e =>
      refine State.hostKept_trans (State.areaRead_hostKept e) ?_
      dsimp only
      split
      · exact State.completeCard_hostKept _ _ _ _
      · exact State.hostKept_trans (State.withPages_hostKept _ _)
          (State.completeCard_tables _ _ _ (State.foldPending_tablesOnly _ _))
  · exact s.refuseCard_hostKept _ _

theorem dispatchSetMode_hostKept (w : Walk) (s : State) : s.hostKept (dispatchSetMode w s) := by
  unfold dispatchSetMode
  split
  · exact s.refuseCard_hostKept _ _
  · exact State.hostKept_trans (s.modRamp_hostKept _) (State.completeCard_hostKept _ _ _ _)

theorem dispatchFreeze_hostKept (w : Walk) (s : State) : s.hostKept (dispatchFreeze w s) := by
  unfold dispatchFreeze
  dsimp only
  split_ifs
  · exact s.refuseCard_hostKept _ _
  · exact s.completeCard_hostKept _ _ _
  · exact s.completeCard_hostKept _ _ _
  · exact State.hostKept_trans (s.modRamp_hostKept _) (State.completeCard_hostKept _ _ _ _)

theorem dispatchThaw_hostKept (w : Walk) (s : State) : s.hostKept (dispatchThaw w s) := by
  unfold dispatchThaw
  dsimp only
  split_ifs
  · exact s.refuseCard_hostKept _ _
  · exact State.hostKept_trans (s.modRamp_hostKept _) (State.completeCard_hostKept _ _ _ _)
  · exact s.completeCard_hostKept _ _ _

theorem dispatchSetFrame_hostKept (w : Walk) (s : State) : s.hostKept (dispatchSetFrame w s) := by
  unfold dispatchSetFrame
  dsimp only
  split_ifs
  · exact s.refuseCard_hostKept _ _
  · exact State.hostKept_trans (s.modRamp_hostKept _) (State.completeCard_hostKept _ _ _ _)

theorem dispatchSetFilter_hostKept (w : Walk) (s : State) : s.hostKept (dispatchSetFilter w s) := by
  unfold dispatchSetFilter
  split
  · exact State.hostKept_trans (s.withFilters_hostKept _) (State.completeCard_hostKept _ _ _ _)
  · exact s.refuseCard_hostKept _ _

theorem dispatchSetChain_hostKept (w : Walk) (s : State) : s.hostKept (dispatchSetChain w s) := by
  unfold dispatchSetChain
  split
  · split_ifs
    · exact s.refuseCard_hostKept _ _
    · exact s.refuseCard_hostKept _ _
    · exact State.completeCard_tables _ _ _ (s.modChain_tablesOnly _ _)
  · exact s.refuseCard_hostKept _ _

theorem dispatchStartChain_hostKept (w : Walk) (s : State) : s.hostKept (dispatchStartChain w s) := by
  unfold dispatchStartChain
  split
  · exact s.refuseCard_hostKept _ _
  · split
    · exact s.refuseCard_hostKept _ _
    · exact State.completeCard_tables _ _ _ (s.startChain_tablesOnly _)
    · exact s.completeCard_hostKept _ _ _

theorem dispatchStopChain_hostKept (w : Walk) (s : State) : s.hostKept (dispatchStopChain w s) := by
  unfold dispatchStopChain
  split
  · exact s.refuseCard_hostKept _ _
  · split_ifs
    · exact s.refuseCard_hostKept _ _
    · split
      · exact State.hostKept_trans (s.completeCard_hostKept _ _ _) (State.endSweep_hostKept _ _ _)
      · exact State.hostKept_trans (State.completeCard_tables _ _ _ (s.modChain_tablesOnly _ _))
          (State.endSweep_hostKept _ _ _)
      · exact State.hostKept_trans (State.hostKept_of_tablesOnly (s.modChain_tablesOnly _ _))
          (State.holdCard_hostKept _ _ _ _)

theorem dispatchVerify_hostKept (w : Walk) (s : State) : s.hostKept (dispatchVerify w s) := by
  unfold dispatchVerify
  split
  · exact s.refuseCard_hostKept _ _
  · split_ifs
    · exact s.refuseCard_hostKept _ _
    · dsimp only
      split_ifs
      · exact State.completeCard_tables _ _ _
          (State.tablesOnly_trans (s.beginSweep_tablesOnly _) (State.modChain_tablesOnly _ _ _))
      · exact State.hostKept_trans (State.hostKept_trans (State.hostKept_of_tablesOnly (s.beginSweep_tablesOnly _))
          (State.holdCard_hostKept _ _ _ _)) (State.hostKept_of_tablesOnly (State.arbitrate_tablesOnly _ _))

theorem dispatchRollCall_hostKept (w : Walk) (s : State) : s.hostKept (dispatchRollCall w s) := by
  unfold dispatchRollCall
  split
  · exact s.refuseCard_hostKept _ _
  · split_ifs
    · exact s.refuseCard_hostKept _ _
    · exact State.hostKept_trans (State.hostKept_trans (State.hostKept_of_tablesOnly (s.modChain_tablesOnly _ _))
        (State.holdCard_hostKept _ _ _ _)) (State.hostKept_of_tablesOnly (State.arbitrate_tablesOnly _ _))

/-- A block that keeps the laws and the card under way keeps them together with the card's scan. -/
theorem State.dispatchCard_host {s : State} (h : s.hostLawful) (r : Request) {f : Walk → State → State}
    (kept : ∀ w (u : State), u.hostKept (f w u)) : (s.dispatchCard r f).hostLawful := by
  have dispatching : (s.modIntake fun k => { k with walk := none }).hostLawful := by
    obtain ⟨memory, counts, stopped, -⟩ := h
    exact ⟨memory, counts, stopped, .inl rfl⟩
  unfold State.dispatchCard
  split
  · exact h
  · next w _ =>
    obtain ⟨keeps, walk⟩ := kept w (s.modIntake fun k => { k with walk := none })
    split_ifs
    · exact State.afterCard_host (keeps dispatching) walk w
    · exact h

/-! ## The frame monitor, the solver and the links -/

theorem frameEdgeStep_host {s : State} (h : s.hostLawful) : (frameEdgeStep s).hostLawful := by
  unfold frameEdgeStep
  split
  · exact State.hostLawful_of_tablesOnly (State.modRamp_host h _) (State.frameEvent_tablesOnly _)
  · split
    · exact State.modRamp_host h _
    · split_ifs
      · exact State.hostLawful_of_tablesOnly (State.notice_host (State.modRamp_host h _) .frame)
          (State.frameEvent_tablesOnly _)
      · exact State.modRamp_host h _

theorem lossTimerExpiryStep_host {s : State} (h : s.hostLawful) : (lossTimerExpiryStep s).hostLawful := by
  unfold lossTimerExpiryStep
  split
  · exact State.notice_host (State.modRamp_host h _) .frame
  · exact h

theorem substituteTimerExpiryStep_host {s : State} (h : s.hostLawful) : (substituteTimerExpiryStep s).hostLawful := by
  unfold substituteTimerExpiryStep
  split
  · exact State.hostLawful_of_tablesOnly (State.modRamp_host h _) (State.frameEvent_tablesOnly _)
  · exact h

theorem State.foldBegin_host {s : State} (h : s.hostLawful) (gs : List (Fin 8)) :
    (gs.foldl State.beginSolve s).hostLawful := by
  induction gs generalizing s with
  | nil => exact h
  | cons g gs ih => exact ih (State.hostLawful_congr h rfl rfl rfl rfl rfl rfl rfl rfl)

theorem State.serviceWith_host {s : State} (h : s.hostLawful) (late early : Nat) :
    (s.serviceWith late early).hostLawful :=
  State.endSolves_host (s := (s.pendingGroups.foldl State.beginSolve s).readPages fun i => early.testBit i.val)
    (State.hostLawful_congr (State.foldBegin_host h s.pendingGroups) rfl rfl rfl rfl rfl rfl rfl rfl) _

theorem State.service_host {s : State} (h : s.hostLawful) : s.service.hostLawful := by
  have ended := State.endSolves_host h s.solves
  unfold State.service
  dsimp only
  generalize s.endSolves s.solves = u at ended ⊢
  split
  · exact ended
  · exact State.serviceWith_host (s := { u with freeIndex := u.freeIndex + 2 })
      (State.hostLawful_congr ended rfl rfl rfl rfl rfl rfl rfl rfl) _ _

theorem serviceTimerExpiryStep_host {s : State} (h : s.hostLawful) : (serviceTimerExpiryStep s).hostLawful := by
  unfold serviceTimerExpiryStep
  split
  · exact State.hostLawful_congr h rfl rfl rfl rfl rfl rfl rfl rfl
  · exact State.service_host (State.hostLawful_congr h rfl rfl rfl rfl rfl rfl rfl rfl)

theorem latchSentStep_host (ch : Fin 4) {s : State} (h : s.hostLawful) : (latchSentStep ch s).hostLawful := by
  unfold latchSentStep
  split
  · exact State.endFlight_host (State.hostLawful_of_tablesOnly (t := s.latch ch) h rfl) ch 5 true
  · exact h

theorem State.beginHold_host {s : State} (h : s.hostLawful) (ch : Fin 4) (t : Transaction) :
    (s.beginHold ch t).hostLawful := State.modChain_host h ch _

theorem tileAnswerStep_host (ch : Fin 4) (bytes : List Byte) (quiet : Bool) {s : State} (h : s.hostLawful) :
    (tileAnswerStep ch bytes quiet s).hostLawful := by
  unfold tileAnswerStep
  split
  · exact h
  · split
    · exact State.handOver_host h _ _ _
    · exact State.beginHold_host h _ _
    · exact State.attemptFailed_host h _ _ _
    · exact State.attemptFailed_host h _ _ _

theorem answerWindowCloseStep_host (ch : Fin 4) {s : State} (h : s.hostLawful) :
    (answerWindowCloseStep ch s).hostLawful := by
  unfold answerWindowCloseStep
  split
  · exact h
  · exact State.attemptFailed_host h _ _ _

theorem holdAnswerStep_host (ch : Fin 4) (bytes : List Byte) (quiet : Bool) {s : State} (h : s.hostLawful) :
    (holdAnswerStep ch bytes quiet s).hostLawful := by
  unfold holdAnswerStep
  split
  · exact h
  · split
    · exact State.handOver_host h _ _ _
    · exact State.attemptFailed_host h _ _ _
    · exact h

theorem holdTimerExpiryStep_host (ch : Fin 4) {s : State} (h : s.hostLawful) :
    (holdTimerExpiryStep ch s).hostLawful := by
  unfold holdTimerExpiryStep
  split
  · exact h
  · exact State.handOver_host h _ _ _

/-! ## The rolls -/

theorem State.applyFinding_host {s : State} (h : s.hostLawful) (i : Fin 256) (found : Nat) (f : Finding) :
    (s.applyFinding i found f).hostLawful := by
  unfold State.applyFinding
  dsimp only
  split
  · exact h
  · exact State.enterLive_host (State.modCtx_host h _ _) i
  · exact h
  · exact State.enterUnmatched_host h i _
  · exact State.raisePart_host (State.modCtx_host h _ _) _ _ _ _ _
  · exact State.notice_host (State.raisePart_host (State.transition_host h _ _ _) _ _ _ _ _) _

theorem State.comparePosition_host {acc : State × RollCounts} (h : acc.1.hostLawful) (ch : Fin 4)
    (serials : List Word) (a : Fin 64) : (State.comparePosition ch serials acc a).1.hostLawful := by
  unfold State.comparePosition
  dsimp only
  split
  · exact State.applyFinding_host h _ _ _
  · exact State.raisePart_host h _ _ _ _ _
  · exact h

theorem State.compareRoll_host {s : State} (h : s.hostLawful) (ch : Fin 4) (serials : List Word) :
    (s.compareRoll ch serials).1.hostLawful :=
  List.foldlRecOn State.positions (State.comparePosition ch serials) (motive := fun acc => acc.1.hostLawful) h
    fun _ lawful a _ => State.comparePosition_host lawful ch serials a

theorem State.answerRoll_host {s : State} (h : s.hostLawful) (ch : Fin 4) (r : Roll) (data : List Byte) :
    (s.answerRoll ch r data).hostLawful := by
  unfold State.answerRoll
  split
  · exact h
  · exact State.hostLawful_congr h (by simp) (by simp) (by simp) (by simp) (by simp) (by simp) (by simp) (by simp)

theorem State.leaveRoll_host {s : State} (h : s.hostLawful) (ch : Fin 4) (r : Roll) :
    (s.leaveRoll ch r).hostLawful := State.arbitrate_host (State.modChain_host h ch _) ch

theorem State.completeRoll_host {s : State} (h : s.hostLawful) (ch : Fin 4) (r : Roll) (e : RollEnd) :
    (s.completeRoll ch r e).hostLawful := by
  unfold State.completeRoll
  split
  · exact State.leaveRoll_host h ch r
  · exact State.leaveRoll_host (State.answerRoll_host (State.compareRoll_host h ch _) ch r _) ch r

theorem State.giveUpAttempt_host {s : State} (h : s.hostLawful) (ch : Fin 4) (r : Roll) :
    (s.giveUpAttempt ch r).hostLawful := by
  unfold State.giveUpAttempt
  split_ifs
  · exact State.leaveRoll_host h ch r
  · exact State.modChain_host h ch _
  · exact State.leaveRoll_host (State.answerRoll_host h ch r _) ch r

theorem rollSlotAnswerStep_host (ch : Fin 4) (bytes : List Byte) (quiet : Bool) {s : State} (h : s.hostLawful) :
    (rollSlotAnswerStep ch bytes quiet s).hostLawful := by
  unfold rollSlotAnswerStep
  split
  · exact h
  · split
    · dsimp only
      split_ifs
      · exact State.leaveRoll_host h ch _
      · exact State.modChain_host h ch _
      · exact State.completeRoll_host h ch _ _
    · exact State.giveUpAttempt_host h ch _

theorem rollSlotCloseStep_host (ch : Fin 4) {s : State} (h : s.hostLawful) : (rollSlotCloseStep ch s).hostLawful := by
  unfold rollSlotCloseStep
  split
  · exact h
  · exact State.completeRoll_host h ch _ _

/-! ## Every command and every step -/

theorem perform_host (c : Instr) (s : State) (h : s.hostLawful) : (perform c s).hostLawful := by
  induction c generalizing s with
  | powerOnReset => exact State.powerOn_host h
  | areaLoWrite v => exact State.writeArea_host h fun _ => rfl
  | areaHiWrite v => exact State.writeArea_host h fun _ => rfl
  | partIdWrite v => exact h
  | restart run scan host => exact State.writeRunCtrl_host h true run scan host
  | run run host => exact State.writeRunCtrl_host h false run false host
  | scan run host => exact State.writeRunCtrl_host h false run true host
  | perstN asserted => exact State.hostLawful_congr h rfl rfl rfl rfl rfl rfl rfl rfl
  | noticeRawWrite v => exact State.hostLawful_congr h rfl rfl rfl rfl rfl rfl rfl rfl
  | noticeMaskWrite v => exact State.hostLawful_congr h rfl rfl rfl rfl rfl rfl rfl rfl
  | scanTimerExpiry host => exact scanTimerExpiryStep_host host h
  | followingScan host => exact followingScanStep_host host h
  | areaBusError n during ih => exact ih s h
  | adopt => exact State.dispatchCard_host h _ dispatchAdopt_hostKept
  | retire => exact State.dispatchCard_host h _ dispatchRetire_hostKept
  | solve => exact State.dispatchCard_host h _ dispatchSolve_hostKept
  | setGroup => exact State.dispatchCard_host h _ dispatchSetGroup_hostKept
  | loadCurve => exact State.dispatchCard_host h _ dispatchLoadCurve_hostKept
  | setMode => exact State.dispatchCard_host h _ dispatchSetMode_hostKept
  | freeze => exact State.dispatchCard_host h _ dispatchFreeze_hostKept
  | thaw => exact State.dispatchCard_host h _ dispatchThaw_hostKept
  | setFrame => exact State.dispatchCard_host h _ dispatchSetFrame_hostKept
  | setChain => exact State.dispatchCard_host h _ dispatchSetChain_hostKept
  | startChain => exact State.dispatchCard_host h _ dispatchStartChain_hostKept
  | stopChain => exact State.dispatchCard_host h _ dispatchStopChain_hostKept
  | verify => exact State.dispatchCard_host h _ dispatchVerify_hostKept
  | rollCall => exact State.dispatchCard_host h _ dispatchRollCall_hostKept
  | setFilter => exact State.dispatchCard_host h _ dispatchSetFilter_hostKept
  | frameEdge => exact frameEdgeStep_host h
  | lossTimerExpiry => exact lossTimerExpiryStep_host h
  | substituteTimerExpiry => exact substituteTimerExpiryStep_host h
  | freezeInChange asserted => exact State.modRamp_host h _
  | solveTimerExpiry g => exact State.hostLawful_of_tablesOnly h (solveTimerExpiryStep_tablesOnly g s)
  | serviceTimerExpiry => exact serviceTimerExpiryStep_host h
  | stalenessCheckExpiry => exact State.hostLawful_congr h rfl rfl rfl rfl rfl rfl rfl rfl
  | frameSent ch => exact State.hostLawful_of_tablesOnly h (frameSentStep_tablesOnly ch s)
  | latchSent ch => exact latchSentStep_host ch h
  | tileAnswer ch bytes quiet => exact tileAnswerStep_host ch bytes quiet h
  | answerWindowClose ch => exact answerWindowCloseStep_host ch h
  | resend ch quiet waited => exact State.hostLawful_of_tablesOnly h (resendStep_tablesOnly ch quiet waited s)
  | holdAnswer ch bytes quiet => exact holdAnswerStep_host ch bytes quiet h
  | holdTimerExpiry ch => exact holdTimerExpiryStep_host ch h
  | pollRoundTimerExpiry ch => exact State.hostLawful_of_tablesOnly h (pollRoundTimerExpiryStep_tablesOnly ch s)
  | latchDeadlinePassed ch => exact State.hostLawful_of_tablesOnly h (latchDeadlinePassedStep_tablesOnly ch s)
  | verifySweepTimerExpiry ch => exact State.hostLawful_of_tablesOnly h (verifySweepTimerExpiryStep_tablesOnly ch s)
  | rollSlotAnswer ch bytes quiet => exact rollSlotAnswerStep_host ch bytes quiet h
  | rollSlotClose ch => exact rollSlotCloseStep_host ch h
  | rollRetry ch quiet waited => exact State.hostLawful_of_tablesOnly h (rollRetryStep_tablesOnly ch quiet waited s)
  | frameBegin ch quiet waited => exact State.hostLawful_of_tablesOnly h (frameBeginStep_tablesOnly ch quiet waited s)

theorem State.passMicrosecond_host {s : State} (h : s.hostLawful) : s.passMicrosecond.hostLawful := by
  obtain ⟨memory, counts, stopped, apart⟩ := h
  refine ⟨memory, counts, fun e => ?_, apart⟩
  obtain ⟨timer, follow, scan⟩ := stopped e
  exact ⟨congrArg passTimer timer, follow, scan⟩

/-- Settles O57: every command, every access of a scan and every solve that ends keep the host's side lawful, and a
microsecond leaves a stopped timer stopped. -/
theorem stepKeepsTheHostSide : Obligations.StepKeepsTheHostSide := by
  intro s t h lawful
  refine step_keeps (P := State.hostLawful) perform_host ?_ (fun _ => State.scanAccess_host) ?_
    (fun _ v _ h => State.endSolves_host h [v]) (fun _ => State.passMicrosecond_host) h lawful
  · exact fun s q n f h => State.hostLawful_congr h rfl rfl rfl rfl rfl rfl rfl rfl
  · exact fun s g i h => State.hostLawful_congr h rfl rfl rfl rfl rfl rfl rfl rfl

end Sys2Proof.Machine
end

section
/-! The laws of contexts, queues and chains (R13 to R15, R33, R40, R109, R117), and the rules by which an operation
keeps them: one rule for a change of contexts, one for a change of a chain, one for a context that enters a life state. -/

namespace Sys2Proof.Machine

/-! ## What the laws speak of -/

/-- The fields of a context that the laws speak of. -/
structure Bearing where
  life : Life
  chain : Fin 4
  address : Fin 64
  failCount : Nat
  mismatchCount : Nat
  pushCount : Nat
  gain : Rgb Nat
  mix : TermSet
  target : TermSet
  applied : Option TermSet
  sent : Option TermSet
  latched : Option TermSet

/-- The bearing of a context. -/
def Context.bearing (c : Context) : Bearing :=
  ⟨c.life, c.chain, c.address, c.failCount, c.mismatchCount, c.pushCount, c.gain, c.mix, c.target, c.applied, c.sent,
    c.latched⟩

/-- The fields of a chain that the laws speak of. -/
structure Work where
  state : ChainState
  flight : Flight
  roll : Option Roll
  probes : List (Fin 256)
  pushes : List (Fin 256)
  polls : List (Fin 256)

/-- The work of a chain. -/
def Chain.work (k : Chain) : Work :=
  ⟨k.state, k.flight, k.roll, k.probeQueue, k.pushQueue, k.pollList.map PollEntry.ctx⟩

@[simp] theorem Context.touched_bearing (old new : Context) : (old.touched new).bearing = new.bearing := by
  rw [Context.touched_eq]; rfl

theorem Context.countsLawful_congr {c d : Context} (h : d.bearing = c.bearing) (lawful : c.countsLawful) :
    d.countsLawful := by
  injection h with life _ _ fail mismatch push
  rw [Context.countsLawful, life, fail, mismatch, push]
  exact lawful

theorem Context.setsLawful_congr {c d : Context} (h : d.bearing = c.bearing) (lawful : c.setsLawful) :
    d.setsLawful := by
  injection h with life _ _ _ _ _ gain mix target applied sent latched
  rw [Context.setsLawful, life, gain, mix, target, applied, sent, latched]
  exact lawful

theorem Chain.lawful_of_same {k l : Chain} (h : l.state = k.state ∧ l.flight = k.flight ∧ l.roll = k.roll)
    (lawful : k.lawful) : l.lawful := by
  obtain ⟨state, flight, roll⟩ := h
  rw [Chain.lawful, state, flight, roll]
  exact lawful

theorem Chain.lawful_congr {k l : Chain} (h : l.work = k.work) (lawful : k.lawful) : l.lawful := by
  injection h with state flight roll
  exact Chain.lawful_of_same ⟨state, flight, roll⟩ lawful

theorem Chain.payloadLawful_congr {k l : Chain} (h : l.flight = k.flight) (lawful : k.payloadLawful) :
    l.payloadLawful := by
  rw [Chain.payloadLawful, h]
  exact lawful

/-! ## Queues -/

/-- The contexts of a queue are of chain `ch` and in life state `l`, each once. -/
def State.waits (s : State) (l : Life) (ch : Fin 4) (q : List (Fin 256)) : Prop :=
  q.Nodup ∧ ∀ i ∈ q, (s.ctx i).life = l ∧ (s.ctx i).chain = ch

theorem State.queuesLawful_iff (s : State) : s.queuesLawful ↔ ∀ ch,
    s.waits .live ch (s.chain ch).work.pushes ∧ s.waits .adopted ch (s.chain ch).work.probes ∧
      s.waits .live ch (s.chain ch).work.polls := by
  simp [State.queuesLawful, State.waits, Chain.work]

theorem State.waits_sublist {s : State} {l : Life} {ch : Fin 4} {p q : List (Fin 256)} (h : p.Sublist q)
    (waits : s.waits l ch q) : s.waits l ch p :=
  ⟨h.nodup waits.1, fun i mem => waits.2 i (h.subset mem)⟩

/-- A context of the right life state and chain joins a queue at its tail, unless it waits there. -/
theorem State.waits_append {s : State} {l : Life} {ch : Fin 4} {q : List (Fin 256)} {i : Fin 256}
    (waits : s.waits l ch q) (own : (s.ctx i).life = l ∧ (s.ctx i).chain = ch) (new : i ∉ q) :
    s.waits l ch (q ++ [i]) := by
  obtain ⟨once, each⟩ := waits
  refine ⟨List.nodup_append.2 ⟨once, List.nodup_singleton i, ?_⟩, ?_⟩
  · rintro j mem k hk rfl
    exact new (by rwa [List.mem_singleton.1 hk] at mem)
  · intro j mem
    rcases List.mem_append.1 mem with mem | mem
    · exact each j mem
    · rwa [List.mem_singleton.1 mem]

theorem State.waits_congr {s t : State} {l : Life} {ch : Fin 4} {q : List (Fin 256)}
    (h : ∀ i ∈ q, (t.ctx i).life = (s.ctx i).life ∧ (t.ctx i).chain = (s.ctx i).chain) (waits : s.waits l ch q) :
    t.waits l ch q :=
  ⟨waits.1, fun i mem => by rw [(h i mem).1, (h i mem).2]; exact waits.2 i mem⟩

/-! ## Keeping the laws -/

/-- `t` satisfies each of the laws that `s` does. -/
structure State.keepsLaws (s t : State) : Prop where
  positions : s.positionsLawful → t.positionsLawful
  queues : s.queuesLawful → t.queuesLawful
  chains : s.chainsLawful → t.chainsLawful
  counts : s.countsLawful → t.countsLawful
  sets : s.setsLawful → t.setsLawful

theorem State.keepsLaws_refl (s : State) : s.keepsLaws s := ⟨id, id, id, id, id⟩

theorem State.keepsLaws_trans {s t u : State} (h : s.keepsLaws t) (k : t.keepsLaws u) : s.keepsLaws u :=
  ⟨k.1 ∘ h.1, k.2 ∘ h.2, k.3 ∘ h.3, k.4 ∘ h.4, k.5 ∘ h.5⟩

theorem State.keepsLaws_foldl {α : Type} {f : State → α → State} (h : ∀ (s : State) a, s.keepsLaws (f s a))
    (l : List α) (s : State) : s.keepsLaws (l.foldl f s) := by
  induction l generalizing s with
  | nil => exact s.keepsLaws_refl
  | cons a l ih => exact State.keepsLaws_trans (h s a) (ih (f s a))

/-! ## The rule for contexts -/

/-- The contexts keep their places and their lawful counts, and the chains their work; how the sets fare is told apart. -/
theorem State.keepsLaws_of_places {s t : State}
    (place : ∀ i, (t.ctx i).life = (s.ctx i).life ∧ (t.ctx i).chain = (s.ctx i).chain ∧
      (t.ctx i).address = (s.ctx i).address)
    (counts : ∀ i, (s.ctx i).countsLawful → (t.ctx i).countsLawful)
    (work : ∀ ch, (t.chain ch).work = (s.chain ch).work) (sets : s.setsLawful → t.setsLawful) : s.keepsLaws t where
  positions lawful i j := by
    obtain ⟨life, chain, address⟩ := place i
    obtain ⟨life', chain', address'⟩ := place j
    rw [life, life', chain, chain', address, address']
    exact lawful i j
  queues lawful := by
    rw [State.queuesLawful_iff] at lawful ⊢
    intro ch
    obtain ⟨pushes, probes, polls⟩ := lawful ch
    have same : ∀ q : List (Fin 256), ∀ i ∈ q,
        (t.ctx i).life = (s.ctx i).life ∧ (t.ctx i).chain = (s.ctx i).chain := fun _ i _ =>
      ⟨(place i).1, (place i).2.1⟩
    rw [work]
    exact ⟨State.waits_congr (same _) pushes, State.waits_congr (same _) probes, State.waits_congr (same _) polls⟩
  chains lawful ch := Chain.lawful_congr (work ch) (lawful ch)
  counts lawful i := counts i (lawful i)
  sets := sets

/-- The context `d` stands where `c` stood, and is lawful where `c` was. -/
def Context.follows (c d : Context) : Prop :=
  (d.life = c.life ∧ d.chain = c.chain ∧ d.address = c.address) ∧ (c.countsLawful → d.countsLawful) ∧
    (c.setsLawful → d.setsLawful)

theorem Context.follows_of_bearing {c d : Context} (h : d.bearing = c.bearing) : c.follows d := by
  refine ⟨?_, Context.countsLawful_congr h, Context.setsLawful_congr h⟩
  injection h with life chain address
  exact ⟨life, chain, address⟩

theorem Context.follows_refl (c : Context) : c.follows c := Context.follows_of_bearing rfl

/-- What a changed context makes of `dirty` is no matter of the laws. -/
theorem Context.follows_touched {c d : Context} (h : c.follows d) : c.follows (c.touched d) := by
  obtain ⟨⟨life, chain, address⟩, counts, sets⟩ := h
  have same : (c.touched d).bearing = d.bearing := Context.touched_bearing c d
  refine ⟨?_, fun k => Context.countsLawful_congr same (counts k), fun k => Context.setsLawful_congr same (sets k)⟩
  injection same with life' chain' address'
  exact ⟨life'.trans life, chain'.trans chain, address'.trans address⟩

theorem State.keepsLaws_of_follows {s t : State} (follows : ∀ i, (s.ctx i).follows (t.ctx i))
    (work : ∀ ch, (t.chain ch).work = (s.chain ch).work) (solves : t.solves = s.solves) : s.keepsLaws t := by
  refine State.keepsLaws_of_places (fun i => (follows i).1) (fun i => (follows i).2.1) work ?_
  rintro ⟨contexts, payloads, under⟩
  refine ⟨fun i => (follows i).2.2 (contexts i), fun ch => ?_, by rwa [State.solvesLawful, solves]⟩
  have same := work ch
  injection same with _ flight
  exact Chain.payloadLawful_congr flight (payloads ch)

theorem State.keepsLaws_of_bearing {s t : State} (bearing : ∀ i, (t.ctx i).bearing = (s.ctx i).bearing)
    (work : ∀ ch, (t.chain ch).work = (s.chain ch).work) (solves : t.solves = s.solves) : s.keepsLaws t :=
  State.keepsLaws_of_follows (fun i => Context.follows_of_bearing (bearing i)) work solves

/-- The tables of contexts and chains and the solves are as they were. -/
theorem State.keepsLaws_of_tables {s t : State} (contexts : t.contexts = s.contexts) (chains : t.chains = s.chains)
    (solves : t.solves = s.solves) : s.keepsLaws t :=
  State.keepsLaws_of_bearing (fun i => by rw [State.ctx_congr contexts]) (fun ch => by rw [State.chain_congr chains])
    solves

theorem State.modCtx_keepsLaws {s : State} {i : Fin 256} {f : Context → Context}
    (h : (s.ctx i).follows (f (s.ctx i))) : s.keepsLaws (s.modCtx i f) := by
  refine State.keepsLaws_of_follows (fun j => ?_) (fun _ => rfl) rfl
  by_cases e : i = j
  · subst e
    rw [State.modCtx_ctx_same]
    exact Context.follows_touched h
  · rw [State.modCtx_ctx_other _ e]
    exact Context.follows_refl _

/-- Every context is changed by one function. -/
theorem State.mapCtx_keepsLaws {s : State} {f : Context → Context} (h : ∀ c : Context, c.follows (f c)) :
    s.keepsLaws { s with contexts := s.contexts.map f } := by
  refine State.keepsLaws_of_follows (fun i => ?_) (fun _ => rfl) rfl
  simpa [State.ctx] using h (s.contexts.get i)

/-! ## The rule for chains -/

theorem State.modChain_keepsLaws {s : State} {ch : Fin 4} {f : Chain → Chain}
    (pushes : s.waits .live ch (s.chain ch).work.pushes → s.waits .live ch (f (s.chain ch)).work.pushes)
    (probes : s.waits .adopted ch (s.chain ch).work.probes → s.waits .adopted ch (f (s.chain ch)).work.probes)
    (polls : s.waits .live ch (s.chain ch).work.polls → s.waits .live ch (f (s.chain ch)).work.polls)
    (lawful : (s.chain ch).lawful → (f (s.chain ch)).lawful)
    (payload : (∀ i, (s.ctx i).setsLawful) → (s.chain ch).payloadLawful → (f (s.chain ch)).payloadLawful) :
    s.keepsLaws (s.modChain ch f) where
  positions := id
  queues h := by
    rw [State.queuesLawful_iff] at h ⊢
    intro j
    obtain ⟨h1, h2, h3⟩ := h j
    rw [State.modChain_chain]
    split_ifs with e
    · subst e
      exact ⟨pushes h1, probes h2, polls h3⟩
    · exact ⟨h1, h2, h3⟩
  chains h j := by
    rw [State.modChain_chain]
    split_ifs with e
    · subst e
      exact lawful (h ch)
    · exact h j
  counts := id
  sets := by
    rintro ⟨contexts, payloads, under⟩
    refine ⟨contexts, fun j => ?_, under⟩
    rw [State.modChain_chain]
    split_ifs with e
    · subst e
      exact payload contexts (payloads ch)
    · exact payloads j

/-- A chain's change that leaves its work as it was. -/
theorem State.modChain_keepsLaws_of_work (s : State) (ch : Fin 4) {f : Chain → Chain}
    (h : (f (s.chain ch)).work = (s.chain ch).work) : s.keepsLaws (s.modChain ch f) := by
  refine State.keepsLaws_of_bearing (fun _ => rfl) (fun j => ?_) rfl
  rw [State.modChain_chain]
  split_ifs with e
  · rw [← e, h]
  · rfl

/-- A chain's change that takes contexts from its queues, at most. -/
theorem State.modChain_keepsLaws_of_sublist {s : State} {ch : Fin 4} {f : Chain → Chain}
    (same : (f (s.chain ch)).state = (s.chain ch).state ∧ (f (s.chain ch)).flight = (s.chain ch).flight ∧
      (f (s.chain ch)).roll = (s.chain ch).roll)
    (pushes : (f (s.chain ch)).work.pushes.Sublist (s.chain ch).work.pushes)
    (probes : (f (s.chain ch)).work.probes.Sublist (s.chain ch).work.probes)
    (polls : (f (s.chain ch)).work.polls.Sublist (s.chain ch).work.polls) : s.keepsLaws (s.modChain ch f) := by
  obtain ⟨-, flight, -⟩ := id same
  exact State.modChain_keepsLaws (State.waits_sublist pushes) (State.waits_sublist probes) (State.waits_sublist polls)
    (Chain.lawful_of_same same) (fun _ => Chain.payloadLawful_congr flight)

/-- A change of what a chain does, with its queues as they were. -/
theorem State.modChain_keepsLaws_of_queues {s : State} {ch : Fin 4} {f : Chain → Chain}
    (queues : (f (s.chain ch)).pushQueue = (s.chain ch).pushQueue ∧
      (f (s.chain ch)).probeQueue = (s.chain ch).probeQueue ∧ (f (s.chain ch)).pollList = (s.chain ch).pollList)
    (lawful : (s.chain ch).lawful → (f (s.chain ch)).lawful)
    (payload : (∀ i, (s.ctx i).setsLawful) → (s.chain ch).payloadLawful → (f (s.chain ch)).payloadLawful) :
    s.keepsLaws (s.modChain ch f) := by
  obtain ⟨pushes, probes, polls⟩ := queues
  refine State.modChain_keepsLaws ?_ ?_ ?_ lawful payload <;> simp only [Chain.work, pushes, probes, polls] <;> exact id

/-! ## The rule for a context that enters a life state -/

/-- `s1` is `s` but for what context `i` has counted and what else its chain has: its place is the same. -/
structure State.besides (i : Fin 256) (s s1 : State) : Prop where
  others : ∀ j, j ≠ i → s1.ctx j = s.ctx j
  place : (s1.ctx i).life = (s.ctx i).life ∧ (s1.ctx i).chain = (s.ctx i).chain ∧ (s1.ctx i).address = (s.ctx i).address
  work : ∀ ch, (s1.chain ch).work = (s.chain ch).work
  solves : s1.solves = s.solves

theorem State.besides_refl (i : Fin 256) (s : State) : State.besides i s s :=
  ⟨fun _ _ => rfl, ⟨rfl, rfl, rfl⟩, fun _ => rfl, rfl⟩

/-- The test of a VERIFY card held for a chain changes no context, no work and no solve (R141). -/
theorem State.sweepTested_alike {s t : State} {ch : Fin 4} (h : s.sweepTested t ch) :
    t.contexts = s.contexts ∧ (∀ j, (t.chain j).work = (s.chain j).work) ∧ t.solves = s.solves := by
  have answered : ∀ u : State, ∀ k code data, u.answersHeld t ch k code data →
      t.contexts = u.contexts ∧ t.chains = u.chains ∧ t.solves = u.solves := by
    rintro u k code data ⟨none, some⟩
    by_cases held : ∃ h, (u.entries ch).sweepOrRoll = .some h ∧ h.kind = k
    · obtain ⟨h, e, kind⟩ := held
      rw [(some h e kind).2]
      exact ⟨rfl, rfl, rfl⟩
    · rw [none fun h e kind => held ⟨h, e, kind⟩]
      exact ⟨rfl, rfl, rfl⟩
  obtain ⟨stays, ends⟩ := h
  by_cases waits : ∃ i, (s.ctx i).chain = ch ∧ ((s.ctx i).verify = .due ∨ (s.ctx i).verify = .reading)
  · rw [stays waits]
    exact ⟨rfl, fun _ => rfl, rfl⟩
  · obtain ⟨none, some⟩ := ends waits
    cases e : (s.chain ch).sweep with
    | none =>
      rw [none e]
      exact ⟨rfl, fun _ => rfl, rfl⟩
    | some r =>
      obtain ⟨contexts, chains, solves⟩ := answered _ _ _ _ (some r e)
      refine ⟨contexts, fun j => ?_, solves⟩
      rw [State.chain_congr chains, State.modChain_chain]
      split_ifs with own
      · rw [← own]; rfl
      · rfl

/-- A chain that a context has left, and may have joined again at the tails of its queues (R29, R88, R117, R122):
`ch` is the chain's number, and `c` the context as it is now. -/
structure Chain.rejoined (i : Fin 256) (c : Context) (ch : Fin 4) (k l : Work) : Prop where
  same : l.state = k.state ∧ l.flight = k.flight ∧ l.roll = k.roll
  pushes : ∃ q : List (Fin 256), q.Sublist k.pushes ∧ i ∉ q ∧
    (l.pushes = q ∨ l.pushes = q ++ [i] ∧ c.life = .live ∧ c.chain = ch)
  probes : ∃ q : List (Fin 256), q.Sublist k.probes ∧ i ∉ q ∧
    (l.probes = q ∨ l.probes = q ++ [i] ∧ c.life = .adopted ∧ c.chain = ch)
  polls : ∃ q : List (Fin 256), q.Sublist k.polls ∧ i ∉ q ∧
    (l.polls = q ∨ l.polls = q ++ [i] ∧ c.life = .live ∧ c.chain = ch)

/-- A queue that a context has left, and has joined again at most, holds contexts of its life state. -/
theorem State.waits_rejoined {s t : State} {i : Fin 256} {l : Life} {ch : Fin 4} {p r : List (Fin 256)}
    (others : ∀ j, j ≠ i → t.ctx j = s.ctx j) (waits : s.waits l ch p)
    (rejoined : ∃ q : List (Fin 256), q.Sublist p ∧ i ∉ q ∧
      (r = q ∨ r = q ++ [i] ∧ (t.ctx i).life = l ∧ (t.ctx i).chain = ch)) : t.waits l ch r := by
  obtain ⟨q, sub, left, joined⟩ := rejoined
  have stay : t.waits l ch q := State.waits_congr
    (fun j mem => by rw [others j fun e => left (e ▸ mem)]; exact ⟨rfl, rfl⟩) (State.waits_sublist sub waits)
  rcases joined with rfl | ⟨rfl, own⟩
  · exact stay
  · exact State.waits_append stay own left

/-- A queue of a chain that is not the context's never held it. -/
theorem State.waits_elsewhere {s t : State} {i : Fin 256} {l : Life} {ch : Fin 4} {q : List (Fin 256)}
    (others : ∀ j, j ≠ i → t.ctx j = s.ctx j) (elsewhere : (s.ctx i).chain ≠ ch) (waits : s.waits l ch q) :
    t.waits l ch q :=
  State.waits_congr (fun j mem => by
    rw [others j fun e => elsewhere (e ▸ (waits.2 j mem).2)]; exact ⟨rfl, rfl⟩) waits

/-- Context `i` leaves its work and becomes another, lawful and apart from the others; it may join the queues of its
former chain again, and the other chains are as they were. -/
theorem State.keepsLaws_of_rejoined {s t : State} {i : Fin 256} (others : ∀ j, j ≠ i → (t.ctx j) = (s.ctx j))
    (apart : (t.ctx i).life ≠ .absent → ((s.ctx i).life ≠ .absent ∧ (t.ctx i).chain = (s.ctx i).chain ∧
      (t.ctx i).address = (s.ctx i).address) ∨ ∀ j, j ≠ i → (s.ctx j).life ≠ .absent →
        ¬((s.ctx j).chain = (t.ctx i).chain ∧ (s.ctx j).address = (t.ctx i).address))
    (own : Chain.rejoined i (t.ctx i) (s.ctx i).chain (s.chain (s.ctx i).chain).work (t.chain (s.ctx i).chain).work)
    (rest : ∀ ch, ch ≠ (s.ctx i).chain → (t.chain ch).work = (s.chain ch).work)
    (counts : (s.ctx i).countsLawful → (t.ctx i).countsLawful) (sets : (s.ctx i).setsLawful → (t.ctx i).setsLawful)
    (solves : t.solves = s.solves) : s.keepsLaws t where
  positions lawful := by
    have clear : ∀ j, j ≠ i → (t.ctx i).life ≠ .absent → (s.ctx j).life ≠ .absent →
        ¬((s.ctx j).chain = (t.ctx i).chain ∧ (s.ctx j).address = (t.ctx i).address) := by
      intro j ne present presentToo
      rcases apart present with ⟨was, chain, address⟩ | free
      · rw [chain, address]
        exact lawful j i ne presentToo was
      · exact free j ne presentToo
    intro j k ne hj hk
    by_cases ej : j = i
    · subst ej
      rw [others k (Ne.symm ne)] at hk ⊢
      exact fun e => clear k (Ne.symm ne) hj hk ⟨e.1.symm, e.2.symm⟩
    · rw [others j ej] at hj ⊢
      by_cases ek : k = i
      · subst ek
        exact clear j ej hk hj
      · rw [others k ek] at hk ⊢
        exact lawful j k ne hj hk
  queues lawful := by
    rw [State.queuesLawful_iff] at lawful ⊢
    intro ch
    obtain ⟨pushes, probes, polls⟩ := lawful ch
    by_cases e : ch = (s.ctx i).chain
    · subst e
      exact ⟨State.waits_rejoined others pushes own.pushes, State.waits_rejoined others probes own.probes,
        State.waits_rejoined others polls own.polls⟩
    · rw [rest ch e]
      exact ⟨State.waits_elsewhere others (Ne.symm e) pushes, State.waits_elsewhere others (Ne.symm e) probes,
        State.waits_elsewhere others (Ne.symm e) polls⟩
  chains lawful ch := by
    by_cases e : ch = (s.ctx i).chain
    · subst e
      exact Chain.lawful_of_same own.same (lawful _)
    · exact Chain.lawful_congr (rest ch e) (lawful ch)
  counts lawful j := by
    by_cases e : j = i
    · subst e; exact counts (lawful j)
    · rw [others j e]; exact lawful j
  sets := by
    rintro ⟨contexts, payloads, under⟩
    refine ⟨fun j => ?_, fun ch => ?_, by rwa [State.solvesLawful, solves]⟩
    · by_cases e : j = i
      · subst e; exact sets (contexts j)
      · rw [others j e]; exact contexts j
    · by_cases e : ch = (s.ctx i).chain
      · subst e
        obtain ⟨-, flight, -⟩ := own.same
        exact Chain.payloadLawful_congr flight (payloads _)
      · have same := rest ch e
        injection same with _ flight
        exact Chain.payloadLawful_congr flight (payloads ch)

/-- A chain without a context's work (R29). -/
theorem Chain.without_rejoined (k : Chain) (i : Fin 256) (c d : Context) (ch : Fin 4) :
    Chain.rejoined i d ch k.work (k.without i c).work where
  same := ⟨rfl, rfl, rfl⟩
  pushes := ⟨_, List.filter_sublist, by simp, .inl rfl⟩
  probes := ⟨_, List.filter_sublist, by simp, .inl rfl⟩
  polls := ⟨_, List.filter_sublist.map PollEntry.ctx, by simp, .inl rfl⟩

/-- A chain without a context's work, but for a push and a poll that it has been given since (R88, R122). -/
theorem Chain.without_live_rejoined (k : Chain) (i : Fin 256) (c : Context) {d : Context} {ch : Fin 4}
    (live : d.life = .live ∧ d.chain = ch) (e : PollEntry) (own : e.ctx = i) :
    Chain.rejoined i d ch k.work
      { k.without i c with
        pushQueue := (k.without i c).pushQueue ++ [i], pollList := (k.without i c).pollList ++ [e] }.work where
  same := ⟨rfl, rfl, rfl⟩
  pushes := ⟨_, List.filter_sublist, by simp, .inr ⟨rfl, live⟩⟩
  probes := ⟨_, List.filter_sublist, by simp, .inl rfl⟩
  polls := ⟨(k.without i c).work.polls, List.filter_sublist.map PollEntry.ctx, by simp [Chain.work, Chain.without],
    .inr ⟨by simp [Chain.work, own], live⟩⟩

/-- A context that is not ABSENT enters another life state at its place (R29, R30, R91, R122). -/
theorem State.entersLife_keepsLaws {s s1 t : State} {i : Fin 256} {c : Context} (near : State.besides i s s1)
    (enters : s1.entersLife t i c) (present : (s.ctx i).life ≠ .absent)
    (place : c.chain = (s.ctx i).chain ∧ c.address = (s.ctx i).address)
    (counts : (s.ctx i).countsLawful → c.countsLawful) (sets : (s.ctx i).setsLawful → c.setsLawful) :
    s.keepsLaws t := by
  obtain ⟨others, ⟨-, chain, -⟩, work, solves⟩ := near
  obtain ⟨x, ctx, -, chains, alike, tested⟩ := enters
  rw [chain] at chains tested
  have entered : s.keepsLaws x := by
    have new : x.ctx i = c := by rw [ctx, if_pos rfl]
    refine State.keepsLaws_of_rejoined (i := i) (fun j ne => ?_) (fun _ => .inl ?_) ?_ (fun ch ne => ?_)
      (new ▸ counts) (new ▸ sets) (by rw [alike]; exact solves)
    · rw [ctx, if_neg ne, others j ne]
    · rw [new]; exact ⟨present, place⟩
    · rw [new, chains, if_pos rfl, ← work]
      dsimp only
      split_ifs with live
      · exact Chain.without_live_rejoined _ i _ ⟨live, place.1⟩ _ rfl
      · exact Chain.without_rejoined _ i _ c _
    · rw [chains, if_neg ne, work]
  obtain ⟨contexts, same, under⟩ := State.sweepTested_alike tested
  exact State.keepsLaws_trans entered
    (State.keepsLaws_of_bearing (fun j => by rw [State.ctx_congr contexts]) same under)

/-- A context leaves its work and is then changed, apart from the others (R29). -/
theorem State.dropped_keepsLaws {s : State} {i : Fin 256} {f : Context → Context}
    (apart : ∀ c : Context, c.bearing = (s.ctx i).bearing → (f c).life = .absent ∨ ∀ j, j ≠ i → (s.ctx j).life ≠ .absent →
      ¬((s.ctx j).chain = (f c).chain ∧ (s.ctx j).address = (f c).address))
    (counts : ∀ c : Context, c.countsLawful → (f c).countsLawful)
    (sets : ∀ c : Context, c.setsLawful → (f c).setsLawful) :
    s.keepsLaws ((s.dropWork i).modCtx i f) := by
  have was : ((s.dropWork i).ctx i).bearing = (s.ctx i).bearing := by
    rw [State.dropWork_ctx_same]
    split
    · rw [Context.touched_bearing]; rfl
    · rfl
  have new := Context.touched_bearing ((s.dropWork i).ctx i) (f ((s.dropWork i).ctx i))
  rw [← State.modCtx_ctx_same] at new
  have same := id new
  injection same with life chain address
  refine State.keepsLaws_of_rejoined (i := i) (fun j ne => ?_) (fun present => .inr ?_) ?_ (fun ch ne => ?_)
    (fun h => Context.countsLawful_congr new (counts _ (Context.countsLawful_congr was h)))
    (fun h => Context.setsLawful_congr new (sets _ (Context.setsLawful_congr was h))) (by simp)
  · rw [State.modCtx_ctx_other _ (Ne.symm ne), State.dropWork_ctx_other _ (Ne.symm ne)]
  · rw [chain, address]
    exact (apart _ was).resolve_left (life ▸ present)
  · rw [State.modCtx_chain, State.dropWork_chain, if_pos rfl]
    exact Chain.without_rejoined _ i _ _ _
  · rw [State.modCtx_chain, State.dropWork_chain, if_neg ne]

end Sys2Proof.Machine
end

section
/-! The operations of the part keep the laws of contexts, queues, chains, counts and sets (R13 to R15, R33, R40, R109,
R117). -/

namespace Sys2Proof.Machine

/-! ## Contexts that are shown, marked or made dirty (R46, R135) -/

/-- `t` has the contexts of `s`, but that some have become clean. -/
def State.cleansOnly (s t : State) : Prop :=
  ∀ i, ∃ d, t.ctx i = { s.ctx i with dirty := d } ∧ (d = true → (s.ctx i).dirty = true)

theorem State.cleansOnly_of_contexts {s t : State} (h : t.contexts = s.contexts) : s.cleansOnly t := fun i =>
  ⟨(s.ctx i).dirty, State.ctx_congr h i, id⟩

theorem State.cleansOnly_trans {s t u : State} (h : s.cleansOnly t) (k : t.cleansOnly u) : s.cleansOnly u := by
  intro i
  obtain ⟨d, e, was⟩ := h i
  obtain ⟨d', e', was'⟩ := k i
  exact ⟨d', by rw [e', e], fun h' => was (by simpa [e] using was' h')⟩

/-- A mirror record's write cleans its context, or, where it fails, leaves it dirty (R46). -/
theorem State.writeMirror_cleansOnly (s : State) (i : Fin 256) : s.cleansOnly (s.writeMirror i) := by
  unfold State.writeMirror
  dsimp only
  split_ifs with dirty halted
  · have was : (s.ctx i).dirty = true := (Bool.and_eq_true_iff.1 dirty).1
    intro j
    have same : ((s.setDirty i false).areaWrite (State.mirrorOffset i) (s.ctx i).mirrorBytes).ctx j =
        (s.setDirty i false).ctx j := State.ctx_congr (by simp) j
    rw [State.setDirty_ctx, same, State.setDirty_ctx]
    split_ifs with e
    · exact ⟨true, rfl, fun _ => e ▸ was⟩
    · exact ⟨(s.ctx j).dirty, rfl, id⟩
  · intro j
    have same : ((s.setDirty i false).areaWrite (State.mirrorOffset i) (s.ctx i).mirrorBytes).ctx j =
        (s.setDirty i false).ctx j := State.ctx_congr (by simp) j
    rw [same, State.setDirty_ctx]
    split_ifs
    · exact ⟨false, rfl, Bool.noConfusion⟩
    · exact ⟨(s.ctx j).dirty, rfl, id⟩
  · exact State.cleansOnly_of_contexts rfl

theorem State.scanAccess_cleansOnly (s : State) : s.cleansOnly s.scanAccess := by
  unfold State.scanAccess
  split
  case h_10 rest _ =>
    unfold State.mirrorPart
    split
    · exact State.cleansOnly_of_contexts (by simp)
    · next i _ _ => exact State.cleansOnly_trans (s.writeMirror_cleansOnly i) (State.cleansOnly_of_contexts (by simp))
  all_goals exact State.cleansOnly_of_contexts (by simp)

theorem State.advanceScan_cleansOnly (n : Nat) (s : State) : s.cleansOnly (State.advanceScan n s) := by
  induction n generalizing s with
  | zero => exact State.cleansOnly_of_contexts rfl
  | succ n ih => exact State.cleansOnly_trans s.scanAccess_cleansOnly (ih s.scanAccess)

theorem State.goOn_cleansOnly (s : State) : s.cleansOnly s.goOn := State.advanceScan_cleansOnly _ { s with freeIndex := _ }

theorem State.requestScan_cleansOnly (s : State) : s.cleansOnly s.requestScan := by
  unfold State.requestScan
  split_ifs
  · exact State.cleansOnly_of_contexts rfl
  · exact State.goOn_cleansOnly (s.setScan (some .hostWords))
  · exact State.cleansOnly_of_contexts rfl

theorem State.intakeRestart_cleansOnly (s : State) : s.cleansOnly s.intakeRestart := by
  unfold State.intakeRestart
  dsimp only
  split_ifs
  · exact State.cleansOnly_trans (State.cleansOnly_of_contexts rfl) (State.requestScan_cleansOnly _)
  · exact State.cleansOnly_of_contexts rfl

/-- What only cleans contexts, and leaves the chains and the solves, keeps the laws. -/
theorem State.cleansOnly.keepsLaws {s t : State} (h : s.cleansOnly t) (chains : t.chains = s.chains)
    (solves : t.solves = s.solves) : s.keepsLaws t := by
  refine State.keepsLaws_of_bearing (fun i => ?_) (fun ch => by rw [State.chain_congr chains]) solves
  obtain ⟨d, e, -⟩ := h i
  rw [e]; rfl

theorem State.scanAccess_keepsLaws (s : State) : s.keepsLaws s.scanAccess :=
  s.scanAccess_cleansOnly.keepsLaws (by simp) (by simp)

theorem State.requestScan_keepsLaws (s : State) : s.keepsLaws s.requestScan :=
  s.requestScan_cleansOnly.keepsLaws (by simp) (by simp)

theorem State.intakeRestart_keepsLaws (s : State) : s.keepsLaws s.intakeRestart :=
  s.intakeRestart_cleansOnly.keepsLaws (by simp) (by simp)

theorem State.dirtyAll_keepsLaws (s : State) : s.keepsLaws s.dirtyAll :=
  State.mapCtx_keepsLaws fun _ => Context.follows_of_bearing rfl

theorem State.markDue_keepsLaws (s : State) (ch : Fin 4) : s.keepsLaws (s.markDue ch) := by
  refine State.mapCtx_keepsLaws fun c => ?_
  split
  · exact Context.follows_touched (Context.follows_of_bearing rfl)
  · exact c.follows_refl

theorem State.checkStale_keepsLaws (s : State) : s.keepsLaws s.checkStale := by
  refine State.mapCtx_keepsLaws fun c => ?_
  split
  · exact Context.follows_touched (Context.follows_of_bearing rfl)
  · exact c.follows_refl

/-! ## The arbiter (R114, R115) -/

/-- A chain that is IDLE has no begun roll and nothing in flight (R109). -/
theorem Chain.idle_lawful {k : Chain} (idle : k.state = .idle) (h : k.lawful) :
    k.flight = .none ∧ ¬∃ r, k.roll = some r ∧ r.begun = true := by
  obtain ⟨flight, roll⟩ := h
  rw [idle] at flight roll
  exact ⟨flight, fun begun => by simpa using roll.2 begun⟩

/-- An IDLE chain that begins a transaction or a LATCH is BUSY with it. -/
theorem Chain.busy_lawful {k l : Chain} (idle : k.state = .idle) (h : k.lawful) (busy : l.state = .busy)
    (flight : (∃ t, l.flight = .transaction t ∧ t.phase ≠ .holding) ∨ ∃ b, l.flight = .latch b)
    (roll : l.roll = k.roll) : l.lawful := by
  obtain ⟨-, waiting⟩ := Chain.idle_lawful idle h
  rw [Chain.lawful, busy, roll]
  exact ⟨flight, by simp only [reduceCtorEq, false_iff]; exact waiting⟩

/-- A transaction starts on an IDLE chain: its payload is an applied set (R102, R128). -/
theorem State.startTransaction_keepsLaws {s : State} {ch : Fin 4} (idle : (s.chain ch).state = .idle) (kind : WorkKind)
    (i : Fin 256) : s.keepsLaws (s.startTransaction ch kind i) := by
  unfold State.startTransaction
  dsimp only
  refine State.modChain_keepsLaws_of_queues ⟨rfl, rfl, rfl⟩
    (fun h => Chain.busy_lawful idle h rfl (.inl ⟨_, rfl, Phase.noConfusion⟩) rfl) ?_
  rintro contexts - t flight a payload
  obtain rfl := Flight.transaction.inj flight
  dsimp only at payload
  obtain ⟨-, -, -, applied, -⟩ := contexts i
  cases kind with
  | push => exact applied a payload
  | _ => cases payload

/-- The arbiter's choices, each on the queue or the record that it was found in (R115). -/
theorem State.start_keepsLaws {s : State} {ch : Fin 4} (idle : (s.chain ch).state = .idle) {c : Choice}
    (found : c = .rollStep → (s.chain ch).roll.isSome = true) : s.keepsLaws (s.start ch c) := by
  cases c with
  | rollStep =>
    simp only [State.start]
    refine State.modChain_keepsLaws_of_queues ⟨rfl, rfl, rfl⟩ (fun h => ?_) (fun _ => Chain.payloadLawful_congr rfl)
    obtain ⟨flight, -⟩ := Chain.idle_lawful idle h
    obtain ⟨r, e⟩ := Option.isSome_iff_exists.1 (found rfl)
    exact ⟨flight, by simp [e]⟩
  | probe i =>
    simp only [State.start]
    refine State.keepsLaws_trans (State.modChain_keepsLaws_of_sublist
      (f := fun k => { k with probeQueue := k.probeQueue.tail }) ⟨rfl, rfl, rfl⟩ (List.Sublist.refl _)
      (List.tail_sublist _) (List.Sublist.refl _)) (State.startTransaction_keepsLaws ?_ _ _)
    rwa [State.modChain_chain_same]
  | latch =>
    simp only [State.start]
    exact State.modChain_keepsLaws_of_queues ⟨rfl, rfl, rfl⟩
      (fun h => Chain.busy_lawful idle h rfl (.inr ⟨_, rfl⟩) rfl) fun _ _ t flight => by cases flight
  | poll i =>
    simp only [State.start]
    refine State.keepsLaws_trans (State.modChain_keepsLaws_of_work s ch ?_) (State.startTransaction_keepsLaws ?_ _ _)
    · simp only [Chain.work, List.map_map, Work.mk.injEq, true_and]
      refine List.map_congr_left fun e _ => ?_
      simp only [Function.comp]
      split <;> rfl
    · rwa [State.modChain_chain_same]
  | push i =>
    simp only [State.start]
    refine State.keepsLaws_trans (State.modChain_keepsLaws_of_sublist
      (f := fun k => { k with pushQueue := k.pushQueue.tail }) ⟨rfl, rfl, rfl⟩ (List.tail_sublist _)
      (List.Sublist.refl _) (List.Sublist.refl _)) (State.startTransaction_keepsLaws ?_ _ _)
    rwa [State.modChain_chain_same]
  | readback i =>
    simp only [State.start]
    refine State.keepsLaws_trans (State.keepsLaws_trans
      (State.modCtx_keepsLaws (s := s) (f := fun c => { c with verify := .reading }) (Context.follows_of_bearing rfl))
      (State.modChain_keepsLaws_of_work _ ch ?_)) (State.startTransaction_keepsLaws ?_ _ _)
    · rfl
    · rwa [State.modChain_chain_same]

theorem State.choice_rollStep {s : State} {ch : Fin 4} (h : s.choice ch = some .rollStep) :
    (s.chain ch).roll.isSome = true := by
  unfold State.choice at h
  dsimp only at h
  split at h
  · assumption
  · repeat' split at h
    all_goals simp at h

theorem State.arbitrate_keepsLaws (s : State) (ch : Fin 4) : s.keepsLaws (s.arbitrate ch) := by
  rcases s.arbitrate_eq ch with e | ⟨idle, c, chosen, e⟩ <;> rw [e]
  · exact s.keepsLaws_refl
  · exact State.start_keepsLaws idle fun roll => State.choice_rollStep (roll ▸ chosen)

/-! ## Queues and sweeps -/

theorem State.enqueuePush_keepsLaws {s : State} {i : Fin 256} (live : (s.ctx i).life = .live) :
    s.keepsLaws (s.enqueuePush i) := by
  unfold State.enqueuePush
  have joins : ∀ k : Chain, ∀ ch, (s.ctx i).chain = ch → s.waits .live ch k.work.pushes →
      s.waits .live ch (if i ∈ k.pushQueue then k else { k with pushQueue := k.pushQueue ++ [i] }).work.pushes := by
    rintro k ch own waits
    split_ifs with mem
    · exact waits
    · exact State.waits_append waits ⟨live, own⟩ mem
  refine State.modChain_keepsLaws (joins _ _ rfl) ?_ ?_ (Chain.lawful_of_same ?_) (fun _ => Chain.payloadLawful_congr ?_)
  all_goals split
  all_goals first | exact id | exact rfl | exact ⟨rfl, rfl, rfl⟩

theorem State.enqueueProbe_keepsLaws {s : State} {i : Fin 256} (adopted : (s.ctx i).life = .adopted) :
    s.keepsLaws (s.enqueueProbe i) := by
  unfold State.enqueueProbe
  have joins : ∀ k : Chain, ∀ ch, (s.ctx i).chain = ch → s.waits .adopted ch k.work.probes →
      s.waits .adopted ch (if i ∈ k.probeQueue then k else { k with probeQueue := k.probeQueue ++ [i] }).work.probes := by
    rintro k ch own waits
    split_ifs with mem
    · exact waits
    · exact State.waits_append waits ⟨adopted, own⟩ mem
  refine State.modChain_keepsLaws ?_ (joins _ _ rfl) ?_ (Chain.lawful_of_same ?_) (fun _ => Chain.payloadLawful_congr ?_)
  all_goals split
  all_goals first | exact id | exact rfl | exact ⟨rfl, rfl, rfl⟩

theorem State.countSweep_keepsLaws (s : State) (ch : Fin 4) (f : SweepRecord → SweepRecord) :
    s.keepsLaws (s.countSweep ch f) := s.modChain_keepsLaws_of_work ch rfl

theorem State.endSweep_keepsLaws (s : State) (ch : Fin 4) (code : ResultCode) : s.keepsLaws (s.endSweep ch code) := by
  unfold State.endSweep
  split
  · exact s.keepsLaws_refl
  · exact State.keepsLaws_trans (s.modChain_keepsLaws_of_work ch (f := fun k => { k with sweep := none }) rfl)
      (State.keepsLaws_of_tables (by simp) (by simp) (by simp))

theorem State.testSweep_keepsLaws (s : State) (ch : Fin 4) : s.keepsLaws (s.testSweep ch) := by
  unfold State.testSweep
  split
  · exact s.endSweep_keepsLaws ch .ok
  · exact s.keepsLaws_refl

theorem State.markLate_keepsLaws (s : State) (ch : Fin 4) : s.keepsLaws (s.markLate ch) := by
  unfold State.markLate
  split
  · exact s.modChain_keepsLaws_of_work ch rfl
  · exact s.keepsLaws_refl

/-! ## Life states (R29, R30) -/

/-- A context that is not ABSENT enters a life state other than LIVE, with counts that this state allows. -/
theorem State.transition_keepsLaws {s s1 : State} {i : Fin 256} (near : State.besides i s s1)
    (present : (s.ctx i).life ≠ .absent) {life : Life} (off : life ≠ .live) (reason : FaultReason)
    (counts : (s.ctx i).countsLawful →
      ({ s1.ctx i with life := life, faultReason := reason, dirty := true, verify := (s1.ctx i).verifyLeft } : Context).countsLawful)
    (sets : (s.ctx i).setsLawful →
      ({ s1.ctx i with life := life, faultReason := reason, dirty := true, verify := (s1.ctx i).verifyLeft } : Context).setsLawful) :
    s.keepsLaws (s1.transition i life reason) :=
  State.entersLife_keepsLaws near (s1.transition_entersLife i life reason off) present near.place.2 counts sets

/-- A context's sets stay lawful in another life state, but for the applied set of one that becomes LIVE. -/
theorem Context.setsLawful_life {c : Context} (h : c.setsLawful) {life : Life} (off : life ≠ .live)
    (reason : FaultReason) (d : Bool) (v : Verify) :
    ({ c with life := life, faultReason := reason, dirty := d, verify := v } : Context).setsLawful := by
  obtain ⟨gain, mix, target, applied, sent, latched, -⟩ := h
  exact ⟨gain, mix, target, applied, sent, latched, fun live => absurd live off⟩

/-- A context's counts stay lawful when it leaves ADOPTED and LIVE, and counts of at most 3 become so. -/
theorem Context.countsLawful_off {c : Context} (fail : c.failCount ≤ 3) (mismatch : c.mismatchCount ≤ 3)
    (push : c.pushCount ≤ 65535) {life : Life} (off : life ≠ .adopted ∧ life ≠ .live) (reason : FaultReason) (d : Bool)
    (v : Verify) :
    ({ c with life := life, faultReason := reason, dirty := d, verify := v } : Context).countsLawful :=
  ⟨fail, mismatch, push, fun live => (live.elim off.1 off.2).elim⟩

theorem State.enterLive_keepsLaws {s : State} {i : Fin 256} (present : (s.ctx i).life ≠ .absent)
    (counts : (s.ctx i).countsLawful → (s.ctx i).failCount < 3 ∧ (s.ctx i).mismatchCount < 3) :
    s.keepsLaws (s.enterLive i) := by
  refine State.entersLife_keepsLaws (State.besides_refl i s) (s.enterLive_entersLife i) present ⟨rfl, rfl⟩ ?_ ?_
  · intro h
    obtain ⟨fail, mismatch, push, -⟩ := id h
    exact ⟨fail, mismatch, push, fun _ => counts h⟩
  · rintro ⟨gain, mix, target, -, sent, latched, -⟩
    refine ⟨gain, mix, target, fun a e => ?_, sent, latched, fun _ => rfl⟩
    obtain rfl := Option.some.inj e
    exact target

theorem State.notice_keepsLaws (s : State) (k : Cause) : s.keepsLaws (State.notice k s) :=
  State.keepsLaws_of_tables rfl rfl rfl

theorem State.raisePart_keepsLaws (s : State) (k : PartKind) (ch : Fin 4) (a : Fin 64) (serial value : Word) :
    s.keepsLaws (s.raisePart k ch a serial value) := State.keepsLaws_of_tables (by simp) (by simp) (by simp)

theorem State.enterUnmatched_keepsLaws {s : State} {i : Fin 256} (present : (s.ctx i).life ≠ .absent) (found : Word) :
    s.keepsLaws (s.enterUnmatched i found) := by
  have moved := State.transition_keepsLaws (State.besides_refl i s) present (life := .unmatched) Life.noConfusion .none
    (fun ⟨fail, mismatch, push, _⟩ => Context.countsLawful_off fail mismatch push ⟨Life.noConfusion, Life.noConfusion⟩ _ _ _)
    (fun h => Context.setsLawful_life h Life.noConfusion _ _ _)
  exact State.keepsLaws_trans (State.keepsLaws_trans moved (State.raisePart_keepsLaws _ _ _ _ _ _))
    (State.notice_keepsLaws _ _)

/-- FAULTED takes counts of at most 3; `s1` is the state in which the last failure has been counted (R41). -/
theorem State.enterFaulted_keepsLaws {s s1 : State} {i : Fin 256} (near : State.besides i s s1)
    (present : (s.ctx i).life ≠ .absent) (reason : FaultReason)
    (counts : (s.ctx i).countsLawful →
      (s1.ctx i).failCount ≤ 3 ∧ (s1.ctx i).mismatchCount ≤ 3 ∧ (s1.ctx i).pushCount ≤ 65535)
    (sets : (s.ctx i).setsLawful → (s1.ctx i).setsLawful) : s.keepsLaws (s1.enterFaulted i reason) := by
  have moved := State.transition_keepsLaws near present (life := .faulted) Life.noConfusion reason
    (fun h => Context.countsLawful_off (counts h).1 (counts h).2.1 (counts h).2.2 ⟨Life.noConfusion, Life.noConfusion⟩ _ _ _)
    (fun h => Context.setsLawful_life (sets h) Life.noConfusion _ _ _)
  exact State.keepsLaws_trans (State.keepsLaws_trans moved (State.raisePart_keepsLaws _ _ _ _ _ _))
    (State.notice_keepsLaws _ _)

end Sys2Proof.Machine
end

section
/-! The ranges of gains and terms (R13, R15, R20, R24): what a tile correction, a ramp step and a sheet give. -/

namespace Sys2Proof.Machine

@[simp] theorem Rgb.get_ofPrimary {α : Type} (f : Primary → α) (p : Primary) : (Rgb.ofPrimary f).get p = f p := by
  cases p <;> rfl

@[simp] theorem Rgb.get_map {α β : Type} (f : α → β) (v : Rgb α) (p : Primary) : (v.map f).get p = f (v.get p) := by
  cases p <;> rfl

theorem clampNat_bounds {lo hi : Nat} (h : lo ≤ hi) (n : Nat) : lo ≤ clampNat lo hi n ∧ clampNat lo hi n ≤ hi := by
  unfold clampNat
  split_ifs <;> omega

/-- A gain lies in 1..32768 (R13). -/
theorem gainOf_bounds (t : Option Nat) (e : Nat) : 1 ≤ gainOf t e ∧ gainOf t e ≤ 32768 := by
  cases t with
  | none => simp [gainOf]
  | some t => exact clampNat_bounds (by decide) _

/-- A term scaled by a gain of at most 1.0 stays in the term format (R15). -/
theorem termOf_inRange {g : Nat} (h : g ≤ 32768) {m : Int} (range : inTermRange m) : inTermRange (termOf g m) := by
  obtain ⟨lo, hi⟩ := range
  have lower : -32768 * 32768 ≤ (g : Int) * m := by nlinarith
  have upper : (g : Int) * m ≤ 32768 * 32767 := by nlinarith
  unfold termOf inTermRange
  omega

theorem targetSet_get (g : Rgb Nat) (m : TermSet) (i j : Primary) :
    ((targetSet g m).get i).get j = termOf (g.get i) ((m.get i).get j) := by
  rw [targetSet, Rgb.get_zipWith, Rgb.get_map]

theorem targetSet_inRange {g : Rgb Nat} (h : ∀ p, g.get p ≤ 32768) {m : TermSet} (range : setInRange m) :
    setInRange (targetSet g m) := fun i j => by
  rw [targetSet_get]
  exact termOf_inRange (h i) (range i j)

/-- A tile correction's gains and target terms are in their ranges (R13, R15). -/
theorem Context.correctionFrom_lawful (r : PageReading) (targets : Option (Rgb Nat)) {c : Context}
    (range : setInRange c.mix) :
    (∀ p, 1 ≤ (c.correctionFrom r targets).gain.get p ∧ (c.correctionFrom r targets).gain.get p ≤ 32768) ∧
      setInRange (c.correctionFrom r targets).target := by
  have gains : ∀ p, 1 ≤ (c.correctionFrom r targets).gain.get p ∧ (c.correctionFrom r targets).gain.get p ≤ 32768 :=
    fun p => by
      rw [Context.correctionFrom, Rgb.get_ofPrimary]
      exact gainOf_bounds _ _
  exact ⟨gains, targetSet_inRange (fun p => (gains p).2) range⟩

/-- A context with a lawful correction's results is lawful where it was (R17). -/
theorem Context.corrected_sets {c : Context} {k : Correction}
    (lawful : (∀ p, 1 ≤ k.gain.get p ∧ k.gain.get p ≤ 32768) ∧ setInRange k.target) (h : c.setsLawful) :
    (c.corrected k).setsLawful := by
  obtain ⟨-, mix, -, applied, sent, latched, live⟩ := h
  exact ⟨lawful.1, mix, lawful.2, applied, sent, latched, live⟩

/-- A ramp step between two sets in the term format stays in it (R20). -/
theorem rampSet_inRange (slew : Nat) {a c : TermSet} (ha : setInRange a) (hc : setInRange c) :
    setInRange (rampSet slew a c) := fun i j => by
  obtain ⟨loA, hiA⟩ := ha i j
  obtain ⟨loC, hiC⟩ := hc i j
  obtain ⟨-, lo, hi, -⟩ := rampTerm_bounds slew ((a.get i).get j) ((c.get i).get j)
  rw [rampSet_get]
  constructor <;> omega

/-- A beat keeps the applied set in the term format, and known where it is known (R20, R21). -/
theorem Context.beaten_sets (m : Mode) (slew : Nat) {c : Context} (h : c.setsLawful) :
    ({ c with applied := c.beaten m slew } : Context).setsLawful := by
  obtain ⟨gain, mix, target, applied, sent, latched, live⟩ := h
  refine ⟨gain, mix, target, fun a e => ?_, sent, latched, fun l => ?_⟩
  · cases m with
    | setup =>
      obtain rfl := Option.some.inj e
      exact target
    | showing =>
      obtain ⟨b, known, rfl⟩ := Option.map_eq_some_iff.1 e
      exact rampSet_inRange slew (applied b known) target
  · cases m with
    | setup => rfl
    | showing => exact (Option.isSome_map).trans (live l)

/-- A two-byte signed field is in the term format. -/
theorem fieldInt16_inRange (bs : List Byte) (off : Nat) : inTermRange (fieldInt16 bs off) := by
  have lo := BitVec.le_toInt (BitVec.ofNat 16 (field16 bs off))
  have hi := BitVec.toInt_lt (x := BitVec.ofNat 16 (field16 bs off))
  unfold inTermRange fieldInt16
  omega

/-- The mix matrix of a sheet is in the term format, whatever its bytes are (R32). -/
theorem Sheet.ofBytes_mix (bs : List Byte) : setInRange (Sheet.ofBytes bs).mix := fun i j => by
  cases i <;> cases j <;> exact fieldInt16_inRange bs _

end Sys2Proof.Machine
end

section
/-! The work of the chains keeps the laws: transactions and what their outcomes do, rolls, and the steps of the links
(R31, R38 to R42, R102 to R109, R129 to R133, R144 to R152). -/

namespace Sys2Proof.Machine

theorem State.modChain_modChain (s : State) (ch : Fin 4) (f g : Chain → Chain) :
    (s.modChain ch f).modChain ch g = s.modChain ch (g ∘ f) := by
  simp only [State.modChain, State.chain, Table.get_set_same, Function.comp]
  congr 1
  exact Table.ext_get fun j => by simp only [Table.get_set]; split_ifs <;> rfl

/-! ## The end of work (R107, R108, R125) -/

/-- A chain with work in flight has no begun roll (R109). -/
theorem Chain.no_roll_of_flight {k : Chain} (h : k.lawful) (busy : k.flight ≠ .none) :
    k.state ≠ .rolling ∧ ¬∃ r, k.roll = some r ∧ r.begun = true := by
  obtain ⟨flight, roll⟩ := h
  have off : k.state ≠ .rolling := fun e => busy (by rw [e] at flight; exact flight)
  exact ⟨off, mt roll.2 off⟩

/-- A chain whose work has ended and that is STOPPED or IDLE (R107, R125). -/
theorem State.workEnds_keepsLaws {s : State} {ch : Fin 4} (busy : (s.chain ch).flight ≠ .none) {st : ChainState}
    (rests : st = .stopped ∨ st = .idle) :
    s.keepsLaws (s.modChain ch fun k => { k with flight := .none, holdTimer := none, state := st }) := by
  refine State.modChain_keepsLaws_of_queues ⟨rfl, rfl, rfl⟩ (fun h => ?_) fun _ _ t flight => by cases flight
  obtain ⟨-, waiting⟩ := Chain.no_roll_of_flight h busy
  rcases rests with rfl | rfl <;>
    exact ⟨rfl, by simp only [reduceCtorEq, false_iff]; exact waiting⟩

theorem State.endFlight_keepsLaws {s : State} {ch : Fin 4} (busy : (s.chain ch).flight ≠ .none) (work : Nat)
    (ok : Bool) : s.keepsLaws (s.endFlight ch work ok) := by
  unfold State.endFlight
  dsimp only
  split
  · rw [State.modChain_modChain]
    refine State.keepsLaws_trans (State.workEnds_keepsLaws busy (.inl rfl)) (State.keepsLaws_trans ?_
      (State.endSweep_keepsLaws _ ch .cancelled))
    exact State.keepsLaws_of_tables (by simp) (by simp; rfl) (by simp)
  · rw [State.modChain_modChain]
    exact State.keepsLaws_trans (State.workEnds_keepsLaws busy (.inr rfl)) (State.arbitrate_keepsLaws _ ch)

/-! ## Accepted successes (R38 to R42, R129) -/

/-- An accepted outcome is of a context in ADOPTED for a probe, and in LIVE for any other work (R31). -/
theorem State.accepts_life {s : State} {t : Transaction} (h : s.accepts t = true) :
    (s.ctx t.ctx).life = if t.kind = .probe then .adopted else .live := by
  unfold State.accepts at h
  cases e : t.kind <;> simpa [e] using (Bool.and_eq_true_iff.1 h).2

theorem State.accepts_present {s : State} {t : Transaction} (h : s.accepts t = true) :
    ((s.ctx t.ctx).life = .adopted ∨ (s.ctx t.ctx).life = .live) ∧ (s.ctx t.ctx).life ≠ .absent := by
  rw [State.accepts_life h]
  split <;> simp

/-- The failure count of a context falls to 0 (R40). -/
theorem Context.cleared_counts {c : Context} (h : c.countsLawful) : ({ c with failCount := 0 } : Context).countsLawful := by
  obtain ⟨-, mismatch, push, live⟩ := h
  exact ⟨Nat.zero_le 3, mismatch, push, fun l => ⟨(by decide : 0 < 3), (live l).2⟩⟩

theorem State.clearFailures_keepsLaws (s : State) (i : Fin 256) : s.keepsLaws (s.clearFailures i) :=
  State.modCtx_keepsLaws (s := s) (f := fun c => { c with failCount := 0 }) ⟨⟨rfl, rfl, rfl⟩, Context.cleared_counts, id⟩

/-- What clearing the failures of a context leaves of it. -/
theorem State.clearFailures_ctx (s : State) (i : Fin 256) :
    ((s.clearFailures i).ctx i).bearing = ({ s.ctx i with failCount := 0 } : Context).bearing := by
  rw [State.clearFailures, State.modCtx_ctx_same, Context.touched_bearing]

theorem State.probeAnswered_keepsLaws {s : State} {i : Fin 256}
    (present : ((s.ctx i).life = .adopted ∨ (s.ctx i).life = .live) ∧ (s.ctx i).life ≠ .absent) (serial : Word) :
    s.keepsLaws (s.probeAnswered i serial) := by
  have bearing := s.clearFailures_ctx i
  injection bearing with life
  have there : ((s.clearFailures i).ctx i).life ≠ .absent := life ▸ present.2
  refine State.keepsLaws_trans (s.clearFailures_keepsLaws i) ?_
  unfold State.probeAnswered
  dsimp only
  split
  · refine State.enterLive_keepsLaws there fun h => ?_
    obtain ⟨-, -, -, live⟩ := h
    exact live (life ▸ present.1)
  · exact State.enterUnmatched_keepsLaws there serial

theorem countUp_le_max {n : Nat} (h : n ≤ 65535) : countUp Config.countMax n ≤ 65535 := countUp_le h

/-- The sent set becomes the payload in flight, which is lawful (R129). -/
theorem State.pushAnswered_keepsLaws {s : State} {ch : Fin 4} {t : Transaction}
    (flight : (s.chain ch).flight = .transaction t) : s.keepsLaws (s.pushAnswered ch t) := by
  unfold State.pushAnswered
  dsimp only
  refine State.keepsLaws_trans ?_ (State.modChain_keepsLaws_of_work _ ch rfl)
  set f : Context → Context := fun c =>
    { c with sent := t.payload, pushCount := countUp Config.countMax c.pushCount, failCount := 0, dirty := true } with hf
  have other : ∀ j, t.ctx ≠ j → (s.modCtx t.ctx f).ctx j = s.ctx j := fun j ne => State.modCtx_ctx_other _ ne f
  have own : ((s.modCtx t.ctx f).ctx t.ctx).bearing = (f (s.ctx t.ctx)).bearing := by
    rw [State.modCtx_ctx_same, Context.touched_bearing]
  refine State.keepsLaws_of_places (fun j => ?_) (fun j h => ?_) (fun _ => rfl) ?_
  · by_cases e : t.ctx = j
    · subst e
      injection own with life chain address
      exact ⟨life, chain, address⟩
    · rw [other j e]
      exact ⟨rfl, rfl, rfl⟩
  · by_cases e : t.ctx = j
    · subst e
      refine Context.countsLawful_congr own ?_
      obtain ⟨-, mismatch, push, live⟩ := h
      exact ⟨Nat.zero_le 3, mismatch, countUp_le_max push, fun l => ⟨(by decide : 0 < 3), (live l).2⟩⟩
    · rwa [other j e]
  · rintro ⟨contexts, payloads, under⟩
    refine ⟨fun j => ?_, payloads, under⟩
    by_cases e : t.ctx = j
    · subst e
      refine Context.setsLawful_congr own ?_
      obtain ⟨gain, mix, target, applied, -, latched, live⟩ := contexts t.ctx
      exact ⟨gain, mix, target, applied, payloads ch t flight, latched, live⟩
    · rw [other j e]
      exact contexts j

theorem State.takeTemperature_keepsLaws (s : State) (i : Fin 256) (t : Int) : s.keepsLaws (s.takeTemperature i t) := by
  unfold State.takeTemperature
  dsimp only
  split_ifs
  · exact State.modCtx_keepsLaws (Context.follows_of_bearing rfl)
  · exact s.keepsLaws_refl
  · exact State.keepsLaws_trans
      (State.modCtx_keepsLaws (s := s) (f := fun c => { c with sensorSuspect := true }) (Context.follows_of_bearing rfl))
      (State.raisePart_keepsLaws _ _ _ _ _ _)

theorem State.pollAnswered_keepsLaws (s : State) (ch : Fin 4) (i : Fin 256) (t : Int) :
    s.keepsLaws (s.pollAnswered ch i t) := by
  refine State.keepsLaws_trans (State.keepsLaws_trans (s.clearFailures_keepsLaws i) ?_)
    (State.takeTemperature_keepsLaws _ i t)
  exact State.modChain_keepsLaws_of_sublist
    (f := fun k => { k with pollList := k.pollList.filter fun e => !decide (e.ctx = i) }) ⟨rfl, rfl, rfl⟩
    (List.Sublist.refl _) (List.Sublist.refl _) (List.filter_sublist.map _)

theorem State.readbackMatch_keepsLaws (s : State) (ch : Fin 4) (i : Fin 256) : s.keepsLaws (s.readbackMatch ch i) := by
  refine State.keepsLaws_trans (State.modCtx_keepsLaws (s := s)
    (f := fun c => { c with verify := .matched, mismatchCount := 0, failCount := 0 }) ⟨⟨rfl, rfl, rfl⟩, ?_, id⟩)
    (State.countSweep_keepsLaws _ ch _)
  rintro ⟨-, -, push, -⟩
  exact ⟨Nat.zero_le 3, Nat.zero_le 3, push, fun _ => ⟨(by decide : 0 < 3), (by decide : 0 < 3)⟩⟩

/-- A context that changes with its place kept, before it enters a life state. -/
theorem State.modCtx_besides (s : State) {i : Fin 256} {f : Context → Context}
    (place : (f (s.ctx i)).life = (s.ctx i).life ∧ (f (s.ctx i)).chain = (s.ctx i).chain ∧
      (f (s.ctx i)).address = (s.ctx i).address) : State.besides i s (s.modCtx i f) := by
  refine ⟨fun j ne => State.modCtx_ctx_other _ (Ne.symm ne) f, ?_, fun _ => rfl, rfl⟩
  have own : ((s.modCtx i f).ctx i).bearing = (f (s.ctx i)).bearing := by
    rw [State.modCtx_ctx_same, Context.touched_bearing]
  injection own with life chain address
  exact ⟨life.trans place.1, chain.trans place.2.1, address.trans place.2.2⟩

theorem State.besides_of_alike {i : Fin 256} {s t u : State} (h : State.besides i s t)
    (contexts : u.contexts = t.contexts) (work : ∀ ch, (u.chain ch).work = (t.chain ch).work)
    (solves : u.solves = t.solves) : State.besides i s u := by
  refine ⟨fun j ne => ?_, ?_, fun ch => (work ch).trans (h.work ch), solves.trans h.solves⟩
  · rw [State.ctx_congr contexts]; exact h.others j ne
  · rw [State.ctx_congr contexts]; exact h.place

theorem State.countSweep_work (s : State) (ch : Fin 4) (f : SweepRecord → SweepRecord) (j : Fin 4) :
    ((s.countSweep ch f).chain j).work = (s.chain j).work := by
  rw [State.countSweep, State.modChain_chain]
  split_ifs with e
  · rw [← e]; rfl
  · rfl

/-- A mismatch below the third asks for a push, and the third faults the context (R42). -/
theorem State.readbackMismatch_keepsLaws {s : State} {i : Fin 256} (live : (s.ctx i).life = .live) (ch : Fin 4)
    (w : Half) : s.keepsLaws (s.readbackMismatch ch i w) := by
  unfold State.readbackMismatch
  dsimp only
  set f : Context → Context := fun c =>
    { c with verify := .mismatched, mismatchCount := c.mismatchCount + 1, failCount := 0 } with hf
  set s1 := (s.modCtx i f).countSweep ch fun r => { r with mismatched := countUp Config.countMax r.mismatched } with h1
  have own : (s1.ctx i).bearing = (f (s.ctx i)).bearing := by
    rw [h1, State.countSweep_ctx, State.modCtx_ctx_same, Context.touched_bearing]
  have place := own
  injection place with life _ _ fail mismatch push
  have near : State.besides i s s1 := State.besides_of_alike (s.modCtx_besides (f := f) ⟨rfl, rfl, rfl⟩) (by simp [h1])
    (State.countSweep_work _ ch _) (by simp [h1])
  have chains : ∀ k c a x v, (s1.raisePart k c a x v).chains = s1.chains := fun k c a x v => by simp
  split_ifs with below
  · have counted : s.keepsLaws s1 := by
      refine State.keepsLaws_trans (State.modCtx_keepsLaws (s := s) (f := f) ⟨⟨rfl, rfl, rfl⟩, ?_, id⟩)
        (State.countSweep_keepsLaws _ ch _)
      rintro ⟨-, -, push, -⟩
      exact ⟨Nat.zero_le 3, below.le, push, fun _ => ⟨(by decide : 0 < 3), below⟩⟩
    refine State.keepsLaws_trans (State.keepsLaws_trans counted (State.raisePart_keepsLaws _ _ _ _ _ _))
      (State.enqueuePush_keepsLaws ?_)
    rw [State.raisePart_ctx]
    exact life.trans live
  · refine State.enterFaulted_keepsLaws (State.besides_of_alike near (by simp) (fun j => by
        rw [State.chain_congr (chains _ _ _ _ _)]) (by simp)) (by rw [live]; decide) _ ?_ ?_
    · rintro ⟨-, -, p, counts⟩
      rw [State.raisePart_ctx, fail, mismatch, push]
      obtain ⟨-, lt⟩ := counts (.inr live)
      exact ⟨Nat.zero_le 3, lt, p⟩
    · intro h
      rw [State.raisePart_ctx]
      exact Context.setsLawful_congr own h

theorem State.readbackAnswered_keepsLaws {s : State} {i : Fin 256} (live : (s.ctx i).life = .live) (ch : Fin 4)
    (w : Half) : s.keepsLaws (s.readbackAnswered ch i w) := by
  refine State.keepsLaws_trans ?_ (State.testSweep_keepsLaws _ ch)
  split
  · exact s.readbackMatch_keepsLaws ch i
  · exact State.readbackMismatch_keepsLaws live ch w

/-- An accepted success; a CHECK answers no probe (R103). -/
theorem State.succeeded_keepsLaws {s : State} {ch : Fin 4} {t : Transaction} (accepted : s.accepts t = true)
    (flight : (s.chain ch).flight = .transaction t) {f : TileFrame} (judged : ∀ w, f = .check w → t.kind ≠ .probe) :
    s.keepsLaws (s.succeeded ch t f) := by
  cases f with
  | identity serial => exact State.probeAnswered_keepsLaws (State.accepts_present accepted) serial
  | ack => exact State.pushAnswered_keepsLaws flight
  | status temp report => exact s.pollAnswered_keepsLaws ch t.ctx temp
  | check w =>
    refine State.readbackAnswered_keepsLaws ?_ ch w
    rw [State.accepts_life accepted, if_neg (judged w rfl)]
  | nak => exact s.keepsLaws_refl
  | hold => exact s.keepsLaws_refl
  | rollAnswer serial => exact s.keepsLaws_refl

/-! ## Accepted failures (R40, R41, R107) -/

theorem State.waits_perm {s : State} {l : Life} {ch : Fin 4} {p q : List (Fin 256)} (h : p.Perm q)
    (waits : s.waits l ch q) : s.waits l ch p :=
  ⟨h.nodup_iff.2 waits.1, fun i mem => waits.2 i (h.mem_iff.1 mem)⟩

/-- An entry of a poll list that goes to its tail, due again (R107, R120). -/
theorem PollEntry.toTail_perm (l : List PollEntry) (i : Fin 256) :
    ((l.filter (fun e : PollEntry => !decide (e.ctx = i)) ++
      (l.filter fun e : PollEntry => decide (e.ctx = i)).map fun e : PollEntry => { e with inFlight := false }).map PollEntry.ctx).Perm
        (l.map PollEntry.ctx) := by
  have same : (PollEntry.ctx ∘ fun e : PollEntry => { e with inFlight := false }) = PollEntry.ctx := rfl
  rw [List.map_append, List.map_map, same, ← List.map_append]
  refine List.Perm.map _ (List.perm_append_comm.trans ?_)
  exact List.filter_append_perm (fun e : PollEntry => decide (e.ctx = i)) l

theorem State.sendBack_keepsLaws {s : State} {t : Transaction}
    (life : (s.ctx t.ctx).life = if t.kind = .probe then .adopted else .live) (ch : Fin 4) :
    s.keepsLaws (s.sendBack ch t) := by
  unfold State.sendBack
  split
  · next e => exact State.enqueueProbe_keepsLaws (by rw [life, e]; rfl)
  · next e => exact State.enqueuePush_keepsLaws (by rw [life, e]; rfl)
  · exact State.modChain_keepsLaws id id (State.waits_perm (PollEntry.toTail_perm _ _)) (Chain.lawful_of_same ⟨rfl, rfl, rfl⟩)
      (fun _ => Chain.payloadLawful_congr rfl)
  · exact State.modCtx_keepsLaws (Context.follows_of_bearing rfl)

/-- A failure counts in its context, and in the sweep record of a readback's chain. -/
theorem State.countFailure_alike (s : State) (ch : Fin 4) (t : Transaction) :
    (s.countFailure ch t).contexts = (s.modCtx t.ctx fun c => { c with failCount := c.failCount + 1 }).contexts ∧
      (∀ j, ((s.countFailure ch t).chain j).work = (s.chain j).work) ∧ (s.countFailure ch t).solves = s.solves := by
  unfold State.countFailure
  dsimp only
  split
  · exact ⟨by simp, State.countSweep_work _ ch _, by simp⟩
  · exact ⟨rfl, fun _ => rfl, rfl⟩

theorem State.failed_keepsLaws {s : State} {t : Transaction} (accepted : s.accepts t = true) (ch : Fin 4)
    (reason : FaultReason) : s.keepsLaws (s.failed ch t reason) := by
  set f : Context → Context := fun c => { c with failCount := c.failCount + 1 } with hf
  obtain ⟨contexts, work, solves⟩ := s.countFailure_alike ch t
  have own : ((s.countFailure ch t).ctx t.ctx).bearing = (f (s.ctx t.ctx)).bearing := by
    rw [State.ctx_congr contexts, State.modCtx_ctx_same, Context.touched_bearing]
  have near : State.besides t.ctx s (s.countFailure ch t) :=
    State.besides_of_alike (s.modCtx_besides (f := f) ⟨rfl, rfl, rfl⟩) contexts work solves
  obtain ⟨running, present⟩ := State.accepts_present accepted
  have place := own
  injection place with life _ _ fail mismatch push
  unfold State.failed
  dsimp only
  split_ifs with below
  · refine State.keepsLaws_trans (t := s.countFailure ch t) ?_ (State.sendBack_keepsLaws ?_ ch)
    · refine State.keepsLaws_trans (State.modCtx_keepsLaws (s := s) (f := f) (i := t.ctx) ⟨⟨rfl, rfl, rfl⟩, ?_, id⟩)
        (State.keepsLaws_of_bearing (fun j => by rw [State.ctx_congr contexts]) work solves)
      rintro ⟨-, m, p, counts⟩
      exact ⟨below.le, m, p, fun l => ⟨below, (counts l).2⟩⟩
    · exact life.trans (State.accepts_life accepted)
  · refine State.enterFaulted_keepsLaws near present reason ?_ fun h => Context.setsLawful_congr own h
    rintro ⟨-, m, p, counts⟩
    rw [fail, mismatch, push]
    obtain ⟨lt, -⟩ := counts running
    exact ⟨lt, m, p⟩

/-! ## Transactions (R103 to R107) -/

/-- The outcome of a transaction leaves the work in flight to its end (R107). -/
theorem State.succeeded_flight (s : State) (ch : Fin 4) (t : Transaction) (f : TileFrame) (j : Fin 4) :
    ((s.succeeded ch t f).chain j).flight = (s.chain j).flight := by
  cases f with
  | identity serial =>
    simp only [State.succeeded, State.probeAnswered]
    split
    · simp; rfl
    · rw [State.chain_congr (State.enterUnmatched_chains _ _ _)]; simp; rfl
  | ack =>
    simp only [State.succeeded, State.pushAnswered, State.modChain_chain]
    split_ifs with e
    · rw [← e]; rfl
    · rfl
  | status temp report =>
    have chains : ∀ u : State, (u.takeTemperature t.ctx temp).chains = u.chains := fun u => by simp
    simp only [State.succeeded, State.pollAnswered]
    rw [State.chain_congr (chains _), State.modChain_chain]
    split_ifs with e
    · rw [← e]; rfl
    · rfl
  | check w =>
    simp only [State.succeeded, State.readbackAnswered, State.testSweep_chain_keeps]
    split
    · simp [State.readbackMatch]
    · simp only [State.readbackMismatch]
      have chains : ∀ (u : State) k c a x v, (u.raisePart k c a x v).chains = u.chains := fun u k c a x v => by simp
      split
      · simp only [State.enqueuePush_chain_keeps]
        rw [State.chain_congr (chains _ _ _ _ _ _)]
        simp
      · rw [State.chain_congr (State.enterFaulted_chains _ _ _)]
        simp only [State.transition_chain_keeps]
        rw [State.chain_congr (chains _ _ _ _ _ _)]
        simp
  | nak => rfl
  | hold => rfl
  | rollAnswer serial => rfl

theorem State.failed_flight (s : State) (ch : Fin 4) (t : Transaction) (reason : FaultReason) (j : Fin 4) :
    ((s.failed ch t reason).chain j).flight = (s.chain j).flight := by
  obtain ⟨-, work, -⟩ := s.countFailure_alike ch t
  have counted : ((s.countFailure ch t).chain j).flight = (s.chain j).flight := by
    have same := work j
    injection same
  unfold State.failed
  dsimp only
  split_ifs
  · unfold State.sendBack
    split
    · simpa using counted
    · simpa using counted
    · rw [State.modChain_chain]
      split_ifs with e
      · subst e; exact counted
      · exact counted
    · exact counted
  · rw [State.chain_congr (State.enterFaulted_chains _ _ _)]
    simpa using counted

@[simp] theorem State.routeCarried_chains (s : State) (ch : Fin 4) (t : Transaction) (e : Ending) :
    (s.routeCarried ch t e).chains = s.chains := by
  unfold State.routeCarried
  split <;> simp

theorem State.routeCarried_keepsLaws (s : State) (ch : Fin 4) (t : Transaction) (e : Ending) :
    s.keepsLaws (s.routeCarried ch t e) := State.keepsLaws_of_tables (by simp) (by simp) (by simp)

theorem State.handOver_keepsLaws {s : State} {ch : Fin 4} {t : Transaction}
    (flight : (s.chain ch).flight = .transaction t) {e : Ending}
    (judged : ∀ w, e = .success (.check w) → t.kind ≠ .probe) : s.keepsLaws (s.handOver ch t e) := by
  unfold State.handOver
  dsimp only
  have ends : ∀ u : State, ∀ done, s.keepsLaws u → (u.chain ch).flight = (s.chain ch).flight →
      s.keepsLaws ((u.routeCarried ch t e).endFlight ch t.kind.code done) := by
    intro u done kept still
    refine State.keepsLaws_trans (State.keepsLaws_trans kept (u.routeCarried_keepsLaws ch t e))
      (State.endFlight_keepsLaws ?_ _ _)
    rw [State.chain_congr (u.routeCarried_chains ch t e), still, flight]
    exact Flight.noConfusion
  split_ifs with accepted
  · cases e with
    | success f =>
      exact ends _ _ (State.succeeded_keepsLaws accepted flight fun w h => judged w (h ▸ rfl))
        (s.succeeded_flight ch t f ch)
    | failure r => exact ends _ _ (State.failed_keepsLaws accepted ch r) (s.failed_flight ch t r ch)
  · exact ends s _ s.keepsLaws_refl rfl

/-- A transaction in a phase is the work in flight. -/
theorem Chain.transactionIn_some {k : Chain} {p : Phase} {t : Transaction} (h : k.transactionIn p = some t) :
    k.flight = .transaction t ∧ t.phase = p := by
  unfold Chain.transactionIn at h
  split at h
  · next e =>
    split_ifs at h with phase
    obtain rfl := Option.some.inj h
    exact ⟨e, phase⟩
  · cases h

/-- A transaction that stays in flight with its payload, out of a hold (R103, R104). -/
theorem State.setFlight_keepsLaws {s : State} {ch : Fin 4} {t u : Transaction}
    (flight : (s.chain ch).flight = .transaction t) (off : t.phase ≠ .holding) (off' : u.phase ≠ .holding)
    (payload : u.payload = t.payload) : s.keepsLaws (s.setFlight ch u) := by
  refine State.modChain_keepsLaws_of_queues ⟨rfl, rfl, rfl⟩ (fun h => ?_) fun _ lawful v e a known => ?_
  · obtain ⟨doing, roll⟩ := h
    refine ⟨?_, roll⟩
    rw [flight] at doing
    cases e : (s.chain ch).state <;> simp_all
  · obtain rfl := Flight.transaction.inj e
    exact lawful t flight a (payload ▸ known)

/-- A transaction that leaves a hold, or whose attempt has failed, waits to resend (R104, R105). -/
theorem State.resendWaits_keepsLaws {s : State} {ch : Fin 4} {t : Transaction}
    (flight : (s.chain ch).flight = .transaction t) :
    s.keepsLaws ((s.leaveHold ch).setFlight ch { t with phase := .toResend }) := by
  rw [State.leaveHold, State.setFlight, State.modChain_modChain]
  refine State.modChain_keepsLaws_of_queues ⟨rfl, rfl, rfl⟩ (fun h => ?_) fun _ lawful v e a known => ?_
  · obtain ⟨doing, roll⟩ := h
    rw [flight] at doing
    rw [Chain.lawful]
    simp only [Function.comp]
    cases e : (s.chain ch).state <;> simp_all
  · obtain rfl := Flight.transaction.inj e
    exact lawful t flight a known

theorem State.attemptFailed_keepsLaws {s : State} {ch : Fin 4} {t : Transaction}
    (flight : (s.chain ch).flight = .transaction t) (reason : FaultReason) :
    s.keepsLaws (s.attemptFailed ch t reason) := by
  unfold State.attemptFailed
  split
  · exact State.resendWaits_keepsLaws flight
  · exact State.handOver_keepsLaws flight fun w e => by cases e

/-- A hold begins out of the answer window (R105). -/
theorem State.beginHold_keepsLaws {s : State} {ch : Fin 4} {t : Transaction}
    (flight : (s.chain ch).flight = .transaction t) (window : t.phase = .window) : s.keepsLaws (s.beginHold ch t) := by
  refine State.modChain_keepsLaws_of_queues ⟨rfl, rfl, rfl⟩ (fun h => ?_) fun _ lawful v e a known => ?_
  · obtain ⟨doing, roll⟩ := h
    rw [flight] at doing
    rw [Chain.lawful]
    cases e : (s.chain ch).state <;> simp_all
  · obtain rfl := Flight.transaction.inj e
    exact lawful t flight a known

/-- No CHECK is judged to answer a probe (R103). -/
theorem WorkKind.judge_check {k : WorkKind} {f : Option TileFrame} {w : Half} (h : k.judge f = .good (.check w)) :
    k ≠ .probe := by
  rintro rfl
  unfold WorkKind.judge at h
  split at h <;> simp_all

end Sys2Proof.Machine
end

section
/-! The steps of the links and of the roll calls keep the laws (R97, R103 to R109, R119, R131 to R135, R144 to R155). -/

namespace Sys2Proof.Machine

/-! ## Frames (R97, R108, R133) -/

/-- A roll in a phase is the begun roll of a ROLLING chain. -/
theorem Chain.rollIn_some {k : Chain} {p : RollPhase} {r : Roll} (h : k.rollIn p = some r) :
    k.state = .rolling ∧ k.roll = some r ∧ r.phase = p := by
  unfold Chain.rollIn at h
  split at h
  · next state roll =>
    split_ifs at h with phase
    obtain rfl := Option.some.inj h
    exact ⟨state, roll, phase⟩
  · cases h

/-- A roll that goes on is begun or not as it was (R109). -/
theorem State.setRoll_keepsLaws {s : State} {ch : Fin 4} {r q : Roll} (roll : (s.chain ch).roll = some r)
    (begun : q.begun = r.begun) : s.keepsLaws (s.setRoll ch q) := by
  refine State.modChain_keepsLaws_of_queues ⟨rfl, rfl, rfl⟩ (fun h => ?_) fun _ => Chain.payloadLawful_congr rfl
  obtain ⟨doing, rolling⟩ := h
  refine ⟨doing, rolling.trans ?_⟩
  simp [roll, begun]

theorem State.beginFrame_keepsLaws (s : State) (ch : Fin 4) : s.keepsLaws (s.beginFrame ch) := by
  unfold State.beginFrame
  split
  · next t found =>
    obtain ⟨flight, phase⟩ := Chain.transactionIn_some found
    exact State.setFlight_keepsLaws flight (by rw [phase]; decide) Phase.noConfusion rfl
  · split
    · next flight =>
      refine State.modChain_keepsLaws_of_queues ⟨rfl, rfl, rfl⟩ (fun h => ?_) fun _ _ t e => by cases e
      obtain ⟨doing, rolling⟩ := h
      refine ⟨?_, rolling⟩
      rw [flight] at doing
      cases e : (s.chain ch).state <;> simp_all
    · split
      · next r found => exact State.setRoll_keepsLaws (Chain.rollIn_some found).2.1 rfl
      · exact s.keepsLaws_refl

theorem frameBeginStep_keepsLaws (ch : Fin 4) (quiet waited : Nat) (s : State) :
    s.keepsLaws (frameBeginStep ch quiet waited s) := by
  unfold frameBeginStep
  split_ifs
  · exact s.beginFrame_keepsLaws ch
  · exact s.keepsLaws_refl

theorem frameSentStep_keepsLaws (ch : Fin 4) (s : State) : s.keepsLaws (frameSentStep ch s) := by
  unfold frameSentStep
  split
  · next t found =>
    obtain ⟨flight, phase⟩ := Chain.transactionIn_some found
    exact State.setFlight_keepsLaws flight (by rw [phase]; decide) Phase.noConfusion rfl
  · split
    · next r found => exact State.setRoll_keepsLaws (Chain.rollIn_some found).2.1 rfl
    · exact s.keepsLaws_refl

/-- A LATCH makes known sent sets the latched ones (R133). -/
theorem State.latch_keepsLaws (s : State) (ch : Fin 4) : s.keepsLaws (s.latch ch) := by
  refine State.keepsLaws_trans (State.mapCtx_keepsLaws fun c => ?_) (State.modChain_keepsLaws_of_work _ ch rfl)
  split
  · refine Context.follows_touched ⟨⟨rfl, rfl, rfl⟩, id, ?_⟩
    rintro ⟨gain, mix, target, applied, sent, -, live⟩
    exact ⟨gain, mix, target, applied, sent, sent, live⟩
  · exact c.follows_refl

theorem latchSentStep_keepsLaws (ch : Fin 4) (s : State) : s.keepsLaws (latchSentStep ch s) := by
  unfold latchSentStep
  split
  · next flight =>
    refine State.keepsLaws_trans (s.latch_keepsLaws ch) (State.endFlight_keepsLaws ?_ _ _)
    have still : ((s.latch ch).chain ch).flight = (s.chain ch).flight := by
      simp only [State.latch, State.modChain_chain_same]; rfl
    rw [still, flight]
    exact Flight.noConfusion
  · exact s.keepsLaws_refl

/-! ## Answers and holds (R103 to R105) -/

theorem tileAnswerStep_keepsLaws (ch : Fin 4) (bytes : List Byte) (quiet : Bool) (s : State) :
    s.keepsLaws (tileAnswerStep ch bytes quiet s) := by
  unfold tileAnswerStep
  split
  · exact s.keepsLaws_refl
  · next t found =>
    obtain ⟨flight, phase⟩ := Chain.transactionIn_some found
    split
    · next f good => exact State.handOver_keepsLaws flight fun w e => by cases e; exact WorkKind.judge_check good
    · exact State.beginHold_keepsLaws flight phase
    · exact State.attemptFailed_keepsLaws flight _
    · exact State.attemptFailed_keepsLaws flight _

theorem answerWindowCloseStep_keepsLaws (ch : Fin 4) (s : State) : s.keepsLaws (answerWindowCloseStep ch s) := by
  unfold answerWindowCloseStep
  split
  · exact s.keepsLaws_refl
  · next t found => exact State.attemptFailed_keepsLaws (Chain.transactionIn_some found).1 _

theorem resendStep_keepsLaws (ch : Fin 4) (quiet waited : Nat) (s : State) :
    s.keepsLaws (resendStep ch quiet waited s) := by
  unfold resendStep
  split
  · exact s.keepsLaws_refl
  · next t found =>
    obtain ⟨flight, phase⟩ := Chain.transactionIn_some found
    split_ifs
    · exact State.setFlight_keepsLaws flight (by rw [phase]; decide) Phase.noConfusion rfl
    · exact s.keepsLaws_refl

theorem holdAnswerStep_keepsLaws (ch : Fin 4) (bytes : List Byte) (quiet : Bool) (s : State) :
    s.keepsLaws (holdAnswerStep ch bytes quiet s) := by
  unfold holdAnswerStep
  split
  · exact s.keepsLaws_refl
  · next t found =>
    obtain ⟨flight, -⟩ := Chain.transactionIn_some found
    split
    · exact State.handOver_keepsLaws flight fun w e => by cases e
    · exact State.attemptFailed_keepsLaws flight _
    · exact s.keepsLaws_refl

theorem holdTimerExpiryStep_keepsLaws (ch : Fin 4) (s : State) : s.keepsLaws (holdTimerExpiryStep ch s) := by
  unfold holdTimerExpiryStep
  split
  · exact s.keepsLaws_refl
  · next t found => exact State.handOver_keepsLaws (Chain.transactionIn_some found).1 fun w e => by cases e

/-! ## Poll rounds, latch deadlines and sweeps (R119, R131, R135) -/

theorem mem_byAddress {l : List (Fin 256 × Context)} {x : Fin 256 × Context} : x ∈ byAddress l ↔ x ∈ l := by
  simp [byAddress]

theorem byAddress_nodup {l : List (Fin 256 × Context)} (h : l.Nodup) : (byAddress l).Nodup := by
  refine List.nodup_flatMap.2 ⟨fun a _ => h.filter _, (List.nodup_finRange 64).imp fun {a b} ne => ?_⟩
  intro x mem mem'
  rw [List.mem_filter, decide_eq_true_eq] at mem mem'
  exact ne (mem.2.symm.trans mem'.2)

theorem Table.enum_nodup {α : Type} {n : Nat} (t : Table α n) : t.enum.Nodup :=
  List.Nodup.of_map Prod.fst (by rw [Table.enum_map_fst]; exact List.nodup_finRange n)

theorem State.mem_liveByAddress {s : State} {ch : Fin 4} {i : Fin 256} :
    i ∈ s.liveByAddress ch ↔ (s.ctx i).life = .live ∧ (s.ctx i).chain = ch := by
  simp [State.liveByAddress, mem_byAddress, Table.mem_enum, Context.liveOn, Context.ofChain, State.ctx]

theorem State.liveByAddress_nodup (s : State) (ch : Fin 4) : (s.liveByAddress ch).Nodup := by
  refine List.Nodup.map_on (fun x hx y hy e => ?_) (byAddress_nodup ((Table.enum_nodup _).filter _))
  rw [mem_byAddress, List.mem_filter, Table.mem_enum] at hx hy
  exact Prod.ext e (hx.1.symm.trans ((congrArg _ e).trans hy.1))

/-- The LIVE contexts of a chain, in ascending order of address, are a lawful queue (R117, R119). -/
theorem State.waits_liveByAddress (s : State) (ch : Fin 4) : s.waits .live ch (s.liveByAddress ch) :=
  ⟨s.liveByAddress_nodup ch, fun _ mem => State.mem_liveByAddress.1 mem⟩

theorem dueEntry_ctx : PollEntry.ctx ∘ State.dueEntry = id := rfl

/-- A poll round adds the LIVE contexts that have no entry (R119). -/
theorem State.beginRound_keepsLaws (s : State) (ch : Fin 4) : s.keepsLaws (s.beginRound ch) := by
  unfold State.beginRound
  refine State.modChain_keepsLaws id id (fun h => ?_) (Chain.lawful_of_same ⟨rfl, rfl, rfl⟩)
    (fun _ => Chain.payloadLawful_congr rfl)
  obtain ⟨once, each⟩ := h
  obtain ⟨fresh, live⟩ := s.waits_liveByAddress ch
  have marked : (PollEntry.ctx ∘ fun e : PollEntry => { e with overdue := true }) = PollEntry.ctx := rfl
  simp only [Chain.work, List.map_append, List.map_map, dueEntry_ctx, List.map_id, marked]
  refine ⟨List.nodup_append.2 ⟨once, fresh.filter _, ?_⟩, fun i mem => ?_⟩
  · rintro i mem j mem' rfl
    have new := (List.mem_filter.1 mem').2
    simp only [Bool.not_eq_true', List.any_eq_false, decide_eq_true_eq] at new
    obtain ⟨e, he, own⟩ := List.mem_map.1 mem
    exact new e he own
  · rcases List.mem_append.1 mem with mem | mem
    · exact each i mem
    · exact live i (List.mem_filter.1 mem).1

theorem pollRoundTimerExpiryStep_keepsLaws (ch : Fin 4) (s : State) :
    s.keepsLaws (pollRoundTimerExpiryStep ch s) := by
  unfold pollRoundTimerExpiryStep
  split_ifs
  · exact State.keepsLaws_trans (s.beginRound_keepsLaws ch) (State.arbitrate_keepsLaws _ ch)
  · exact s.keepsLaws_refl

theorem latchDeadlinePassedStep_keepsLaws (ch : Fin 4) (s : State) :
    s.keepsLaws (latchDeadlinePassedStep ch s) := by
  unfold latchDeadlinePassedStep
  split_ifs
  · exact State.keepsLaws_trans (s.markLate_keepsLaws ch) (State.arbitrate_keepsLaws _ ch)
  · exact s.keepsLaws_refl

theorem verifySweepTimerExpiryStep_keepsLaws (ch : Fin 4) (s : State) :
    s.keepsLaws (verifySweepTimerExpiryStep ch s) := by
  unfold verifySweepTimerExpiryStep
  split_ifs
  · exact State.keepsLaws_trans (State.keepsLaws_trans (s.markDue_keepsLaws ch)
      (State.modChain_keepsLaws_of_work _ ch rfl)) (State.arbitrate_keepsLaws _ ch)
  · exact s.keepsLaws_refl

/-! ## Roll calls (R43, R144 to R155) -/

/-- A finding acts on a context that is not ABSENT (R43). -/
theorem State.applyFinding_keepsLaws {s : State} {i : Fin 256} (present : (s.ctx i).life ≠ .absent) (found : Nat)
    (f : Finding) : s.keepsLaws (s.applyFinding i found f) := by
  unfold State.applyFinding
  dsimp only
  split
  · exact s.keepsLaws_refl
  · set u := s.modCtx i fun c => { c with failCount := 0, mismatchCount := 0 } with hu
    have own : u.ctx i = (s.ctx i).touched { s.ctx i with failCount := 0, mismatchCount := 0 } := State.modCtx_ctx_same _ _ _
    have cleared : s.keepsLaws u := by
      refine State.modCtx_keepsLaws ⟨⟨rfl, rfl, rfl⟩, ?_, id⟩
      rintro ⟨-, -, push, -⟩
      exact ⟨Nat.zero_le 3, Nat.zero_le 3, push, fun _ => ⟨(by decide : 0 < 3), (by decide : 0 < 3)⟩⟩
    refine State.keepsLaws_trans cleared (State.enterLive_keepsLaws ?_ fun _ => ?_)
    · rw [own, Context.touched_eq]; exact present
    · rw [own, Context.touched_eq]; exact ⟨(by decide : 0 < 3), (by decide : 0 < 3)⟩
  · exact s.keepsLaws_refl
  · exact State.enterUnmatched_keepsLaws present _
  · exact State.keepsLaws_trans (State.modCtx_keepsLaws (Context.follows_of_bearing rfl))
      (State.raisePart_keepsLaws _ _ _ _ _ _)
  · have moved := State.transition_keepsLaws (State.besides_refl i s) present (life := .faulted) Life.noConfusion .missing
      (fun ⟨fail, mismatch, push, _⟩ =>
        Context.countsLawful_off fail mismatch push ⟨Life.noConfusion, Life.noConfusion⟩ _ _ _)
      (fun h => Context.setsLawful_life h Life.noConfusion _ _ _)
    exact State.keepsLaws_trans (State.keepsLaws_trans moved (State.raisePart_keepsLaws _ _ _ _ _ _))
      (State.notice_keepsLaws _ _)

/-- A finding leaves what its chains do, and their rolls, alone. -/
theorem State.applyFinding_chain_keeps (s : State) (i : Fin 256) (found : Nat) (f : Finding) (j : Fin 4) :
    ((s.applyFinding i found f).chain j).state = (s.chain j).state := by
  have raised : ∀ (u : State) k c a x v, (u.raisePart k c a x v).chains = u.chains := fun u k c a x v => by simp
  have noticed : ∀ (u : State) k, (State.notice k u).chain j = u.chain j := fun _ _ => rfl
  unfold State.applyFinding
  dsimp only
  split
  · rfl
  · simp
  · rfl
  · rw [State.chain_congr (State.enterUnmatched_chains _ _ _)]; simp
  · rw [State.chain_congr (raised _ _ _ _ _ _)]; rfl
  · rw [noticed, State.chain_congr (raised _ _ _ _ _ _)]; simp

theorem State.comparePosition_keepsLaws (ch : Fin 4) (serials : List Word) (acc : State × RollCounts) (a : Fin 64) :
    acc.1.keepsLaws (State.comparePosition ch serials acc a).1 ∧
      ((State.comparePosition ch serials acc a).1.chain ch).state = (acc.1.chain ch).state := by
  have raised : ∀ (u : State) k c a x v, (u.raisePart k c a x v).chains = u.chains := fun u k c a x v => by simp
  unfold State.comparePosition
  dsimp only
  split
  · next i held =>
    exact ⟨State.applyFinding_keepsLaws (acc.1.holder_some ch a i held).1 _ _, State.applyFinding_chain_keeps _ _ _ _ _⟩
  · exact ⟨State.raisePart_keepsLaws _ _ _ _ _ _, congrArg Chain.state (State.chain_congr (raised _ _ _ _ _ _) ch)⟩
  · exact ⟨State.keepsLaws_refl _, rfl⟩

theorem State.compareRoll_keepsLaws (s : State) (ch : Fin 4) (serials : List Word) :
    s.keepsLaws (s.compareRoll ch serials).1 ∧ ((s.compareRoll ch serials).1.chain ch).state = (s.chain ch).state := by
  have folded : ∀ (l : List (Fin 64)) (acc : State × RollCounts),
      acc.1.keepsLaws (l.foldl (State.comparePosition ch serials) acc).1 ∧
        ((l.foldl (State.comparePosition ch serials) acc).1.chain ch).state = (acc.1.chain ch).state := by
    intro l
    induction l with
    | nil => exact fun acc => ⟨State.keepsLaws_refl _, rfl⟩
    | cons a l ih =>
      intro acc
      obtain ⟨kept, still⟩ := State.comparePosition_keepsLaws ch serials acc a
      obtain ⟨kept', still'⟩ := ih (State.comparePosition ch serials acc a)
      exact ⟨State.keepsLaws_trans kept kept', still'.trans still⟩
  exact folded State.positions (s, RollCounts.zero)

/-- A ROLLING chain whose roll is over is IDLE, with no begun roll, and chooses (R109, R114). -/
theorem State.leaveRoll_keepsLaws {s : State} {ch : Fin 4} (rolling : (s.chain ch).state = .rolling) (r : Roll) :
    s.keepsLaws (s.leaveRoll ch r) := by
  refine State.keepsLaws_trans (State.modChain_keepsLaws_of_queues ⟨rfl, rfl, rfl⟩ (fun h => ?_)
    fun _ => Chain.payloadLawful_congr rfl) (State.arbitrate_keepsLaws _ ch)
  obtain ⟨doing, -⟩ := h
  rw [rolling] at doing
  refine ⟨doing, ?_⟩
  cases r.again <;> simp [Roll.waiting]

@[simp] theorem State.answerRoll_tables (s : State) (ch : Fin 4) (r : Roll) (data : List Byte) :
    (s.answerRoll ch r data).contexts = s.contexts ∧ (s.answerRoll ch r data).chains = s.chains ∧
      (s.answerRoll ch r data).solves = s.solves := by
  unfold State.answerRoll
  split_ifs <;> simp

theorem State.answerRoll_keepsLaws (s : State) (ch : Fin 4) (r : Roll) (data : List Byte) :
    s.keepsLaws (s.answerRoll ch r data) := by
  obtain ⟨contexts, chains, solves⟩ := s.answerRoll_tables ch r data
  exact State.keepsLaws_of_tables contexts chains solves

theorem State.completeRoll_keepsLaws {s : State} {ch : Fin 4} (rolling : (s.chain ch).state = .rolling) (r : Roll)
    (e : RollEnd) : s.keepsLaws (s.completeRoll ch r e) := by
  unfold State.completeRoll
  split_ifs
  · exact State.leaveRoll_keepsLaws rolling r
  · obtain ⟨kept, still⟩ := s.compareRoll_keepsLaws ch r.serials
    refine State.keepsLaws_trans (State.keepsLaws_trans kept (State.answerRoll_keepsLaws _ ch r _))
      (State.leaveRoll_keepsLaws ?_ r)
    rw [State.chain_congr (State.answerRoll_tables _ _ _ _).2.1, still, rolling]

theorem State.giveUpAttempt_keepsLaws {s : State} {ch : Fin 4} {r : Roll} (rolling : (s.chain ch).state = .rolling)
    (roll : (s.chain ch).roll = some r) : s.keepsLaws (s.giveUpAttempt ch r) := by
  unfold State.giveUpAttempt
  split_ifs
  · exact State.leaveRoll_keepsLaws rolling r
  · exact State.setRoll_keepsLaws roll rfl
  · refine State.keepsLaws_trans (State.answerRoll_keepsLaws _ ch r _) (State.leaveRoll_keepsLaws ?_ r)
    rw [State.chain_congr (State.answerRoll_tables _ _ _ _).2.1, rolling]

theorem rollSlotAnswerStep_keepsLaws (ch : Fin 4) (bytes : List Byte) (quiet : Bool) (s : State) :
    s.keepsLaws (rollSlotAnswerStep ch bytes quiet s) := by
  unfold rollSlotAnswerStep
  split
  · exact s.keepsLaws_refl
  · next r found =>
    obtain ⟨rolling, roll, -⟩ := Chain.rollIn_some found
    split
    · dsimp only
      split_ifs
      · exact State.leaveRoll_keepsLaws rolling _
      · exact State.setRoll_keepsLaws roll rfl
      · exact State.completeRoll_keepsLaws rolling _ _
    · exact State.giveUpAttempt_keepsLaws rolling roll

theorem rollSlotCloseStep_keepsLaws (ch : Fin 4) (s : State) : s.keepsLaws (rollSlotCloseStep ch s) := by
  unfold rollSlotCloseStep
  split
  · exact s.keepsLaws_refl
  · next r found => exact State.completeRoll_keepsLaws (Chain.rollIn_some found).1 _ _

theorem rollRetryStep_keepsLaws (ch : Fin 4) (quiet waited : Nat) (s : State) :
    s.keepsLaws (rollRetryStep ch quiet waited s) := by
  unfold rollRetryStep
  split
  · exact s.keepsLaws_refl
  · next r found =>
    split_ifs
    · exact State.setRoll_keepsLaws (Chain.rollIn_some found).2.1 rfl
    · exact s.keepsLaws_refl

end Sys2Proof.Machine
end

section
/-! The solver keeps the laws (R13, R15, R18, R50 to R53, R70): what its solves read, what they write, and that no group
has two of them. -/

namespace Sys2Proof.Machine

/-! ## Solves under way -/

/-- Other solves are under way, lawful and of distinct groups where the sets are lawful. -/
theorem State.keepsLaws_of_solves {s : State} {vs : List Solve}
    (h : s.setsLawful → (vs.map Solve.group).Nodup ∧ ∀ v ∈ vs, v.lawful) : s.keepsLaws { s with solves := vs } :=
  State.keepsLaws_of_places (fun _ => ⟨rfl, rfl, rfl⟩) (fun _ => id) (fun _ => rfl) fun lawful =>
    ⟨lawful.1, lawful.2.1, h lawful⟩

/-- A solve whose members read pages has the tiles that it had (R70). -/
theorem Solve.readSome_lawful {v : Solve} (h : v.lawful) (pages : Table Page 16) (which : Fin 256 → Bool) :
    (v.readSome pages which).lawful := by
  obtain ⟨once, range⟩ := h
  obtain ⟨ctx, tile, -⟩ := v.readSome_members pages which
  refine ⟨by rwa [ctx], fun m mem => ?_⟩
  have among : m.tile ∈ v.members.map SolveMember.tile := tile ▸ List.mem_map_of_mem mem
  obtain ⟨n, hn, e⟩ := List.mem_map.1 among
  rw [← e]
  exact range n hn

theorem State.readPages_keepsLaws (s : State) (which : Fin 256 → Bool) : s.keepsLaws (s.readPages which) := by
  obtain ⟨-, groups⟩ := s.readPages_keeps which
  refine State.keepsLaws_of_solves fun ⟨_, _, once, each⟩ => ⟨groups ▸ once, fun v mem => ?_⟩
  obtain ⟨u, hu, rfl⟩ := List.mem_map.1 mem
  exact Solve.readSome_lawful (each u hu) _ _

theorem State.readMember_keepsLaws (s : State) (g : Fin 8) (i : Fin 256) : s.keepsLaws (s.readMember g i) := by
  obtain ⟨-, groups⟩ := s.readMember_keeps g i
  refine State.keepsLaws_of_solves fun ⟨_, _, once, each⟩ => ⟨groups ▸ once, fun v mem => ?_⟩
  obtain ⟨u, hu, rfl⟩ := List.mem_map.1 mem
  split_ifs
  · exact Solve.readSome_lawful (each u hu) _ _
  · exact each u hu

/-! ## The beginning of a solve (R49, R52) -/

theorem State.newSolve_lawful {s : State} (h : ∀ i, (s.ctx i).setsLawful) (g : Fin 8) : (s.newSolve g).lawful := by
  constructor
  · have ids : (s.newSolve g).members.map SolveMember.ctx =
        (s.contexts.enum.filter fun x => x.2.memberOf g).map Prod.fst := by
      rw [State.newSolve, List.map_map]; rfl
    rw [ids]
    refine List.Nodup.sublist (List.filter_sublist.map Prod.fst) ?_
    rw [Table.enum_map_fst]
    exact List.nodup_finRange 256
  · intro m mem
    rw [((s.newSolve_reads g m).1 mem).1]
    exact (h m.ctx).2.1

theorem State.beginSolve_keepsLaws {s : State} {g : Fin 8} (new : g ∉ s.solves.map Solve.group) :
    s.keepsLaws (s.beginSolve g) := by
  refine State.keepsLaws_trans (t := s.modGroup g fun r => { r with pending := false })
    (State.keepsLaws_of_tables rfl rfl rfl) (State.keepsLaws_of_solves fun ⟨contexts, _, once, each⟩ => ⟨?_, ?_⟩)
  · rw [List.map_append]
    refine List.nodup_append.2 ⟨once, List.nodup_singleton _, ?_⟩
    rintro a mem b single rfl
    rw [List.map_singleton, List.mem_singleton, State.newSolve_group] at single
    exact new (single ▸ mem)
  · intro v mem
    rcases List.mem_append.1 mem with mem | mem
    · exact each v mem
    · rw [List.mem_singleton.1 mem]
      exact State.newSolve_lawful contexts g

theorem State.foldBegin_keepsLaws {l : List (Fin 8)} (once : l.Nodup) {s : State}
    (new : ∀ g ∈ l, g ∉ s.solves.map Solve.group) : s.keepsLaws (l.foldl State.beginSolve s) := by
  induction l generalizing s with
  | nil => exact s.keepsLaws_refl
  | cons g l ih =>
    obtain ⟨apart, once⟩ := List.nodup_cons.1 once
    refine State.keepsLaws_trans (State.beginSolve_keepsLaws (new g List.mem_cons_self)) (ih once fun k hk => ?_)
    rw [State.beginSolve_solves, List.map_append, List.mem_append, not_or]
    refine ⟨new k (List.mem_cons_of_mem g hk), fun mem => ?_⟩
    rw [List.map_singleton, List.mem_singleton, State.newSolve_group] at mem
    exact apart (mem ▸ hk)

/-! ## The end of a solve (R17, R50, R52) -/

/-- The contexts keep their places and their lawful counts, and the chains their work. -/
def State.placesKept (s t : State) : Prop :=
  (∀ i, ((t.ctx i).life = (s.ctx i).life ∧ (t.ctx i).chain = (s.ctx i).chain ∧ (t.ctx i).address = (s.ctx i).address) ∧
    ((s.ctx i).countsLawful → (t.ctx i).countsLawful)) ∧ ∀ ch, (t.chain ch).work = (s.chain ch).work

theorem State.placesKept_refl (s : State) : s.placesKept s := ⟨fun _ => ⟨⟨rfl, rfl, rfl⟩, id⟩, fun _ => rfl⟩

theorem State.placesKept_trans {s t u : State} (h : s.placesKept t) (k : t.placesKept u) : s.placesKept u := by
  refine ⟨fun i => ?_, fun ch => (k.2 ch).trans (h.2 ch)⟩
  obtain ⟨⟨life, chain, address⟩, counts⟩ := h.1 i
  obtain ⟨⟨life', chain', address'⟩, counts'⟩ := k.1 i
  exact ⟨⟨life'.trans life, chain'.trans chain, address'.trans address⟩, counts' ∘ counts⟩

theorem State.placesKept_foldl {α : Type} {f : State → α → State} (h : ∀ (s : State) a, s.placesKept (f s a))
    (l : List α) (s : State) : s.placesKept (l.foldl f s) := by
  induction l generalizing s with
  | nil => exact s.placesKept_refl
  | cons a l ih => exact State.placesKept_trans (h s a) (ih (f s a))

/-- A member's result changes what the correction gives, and nothing of its context's place (R17). -/
theorem State.writeMember_placesKept (s : State) (m : MemberResult) : s.placesKept (s.writeMember m) := by
  have chains : (s.writeMember m).chains = s.chains := by simp
  refine ⟨fun i => ?_, fun ch => by rw [State.chain_congr chains]⟩
  rw [State.writeMember_ctx]
  split_ifs
  · rw [Context.touched_eq]
    exact ⟨⟨rfl, rfl, rfl⟩, id⟩
  · exact ⟨⟨rfl, rfl, rfl⟩, id⟩

theorem State.writeSolve_placesKept (s : State) (v : Solve) : s.placesKept (s.writeSolve v) := by
  obtain ⟨contexts, -⟩ := State.placesKept_foldl State.writeMember_placesKept (s.solveResults v) s
  exact ⟨contexts, fun ch => by rw [State.chain_congr (s.writeSolve_keeps v).2.2.2.2.2.2.1]⟩

/-- What a lawful solve writes is lawful (R13, R15). -/
theorem Solve.results_lawful {v : Solve} (h : v.lawful) (pages : Table Page 16) (T : Option (Rgb Nat)) :
    ∀ m ∈ v.results pages T, (∀ p, 1 ≤ m.result.gain.get p ∧ m.result.gain.get p ≤ 32768) ∧
      setInRange m.result.target := by
  intro m mem
  obtain ⟨n, hn, rfl⟩ := List.mem_map.1 mem
  exact Context.correctionFrom_lawful _ T (h.2 n hn)

theorem State.foldMembers_sets {l : List MemberResult}
    (lawful : ∀ m ∈ l, (∀ p, 1 ≤ m.result.gain.get p ∧ m.result.gain.get p ≤ 32768) ∧ setInRange m.result.target)
    {s : State} (h : ∀ i, (s.ctx i).setsLawful) (i : Fin 256) :
    ((l.foldl State.writeMember s).ctx i).setsLawful := by
  induction l generalizing s with
  | nil => exact h i
  | cons m l ih =>
    refine ih (fun n hn => lawful n (List.mem_cons_of_mem m hn)) (s := s.writeMember m) fun j => ?_
    rw [State.writeMember_ctx]
    split_ifs
    · exact Context.setsLawful_congr (Context.touched_bearing _ _)
        (Context.corrected_sets (lawful m List.mem_cons_self) (h j))
    · exact h j

theorem State.writeSolve_sets {s : State} (h : s.setsLawful) {v : Solve} (lawful : v.lawful) :
    (s.writeSolve v).setsLawful := by
  obtain ⟨contexts, payloads, once, each⟩ := h
  refine ⟨State.foldMembers_sets (Solve.results_lawful lawful _ _) contexts, fun ch => ?_, ?_⟩
  · rw [State.chain_congr (s.writeSolve_keeps v).2.2.2.2.2.2.1]
    exact payloads ch
  · rw [State.solvesLawful, State.writeSolve_solves]
    exact ⟨once.sublist (List.filter_sublist.map _), fun u mem => each u (List.mem_filter.1 mem).1⟩

theorem State.foldSolves_sets {vs : List Solve} (lawful : ∀ v ∈ vs, v.lawful) {s : State} (h : s.setsLawful) :
    (vs.foldl State.writeSolve s).setsLawful := by
  induction vs generalizing s with
  | nil => exact h
  | cons v vs ih =>
    exact ih (fun u hu => lawful u (List.mem_cons_of_mem v hu))
      (State.writeSolve_sets h (lawful v List.mem_cons_self))

/-- Solves under way end (R52). -/
theorem State.endSolves_keepsLaws {s : State} {vs : List Solve} (under : ∀ v ∈ vs, v ∈ s.solves) :
    s.keepsLaws (s.endSolves vs) := by
  obtain ⟨contexts, work⟩ := State.placesKept_foldl State.writeSolve_placesKept vs s
  refine State.keepsLaws_trans (t := vs.foldl State.writeSolve s) (State.keepsLaws_of_places (fun i => (contexts i).1)
    (fun i => (contexts i).2) work fun lawful => State.foldSolves_sets (fun v mem => ?_) lawful) ?_
  · exact lawful.2.2.2 v (under v mem)
  · unfold State.endSolves
    exact State.keepsLaws_of_tables (by simp) (by simp) (by simp)

/-- The solves that stay under way are those of other groups (R52). -/
theorem State.endSolves_solves (s : State) (vs : List Solve) :
    (s.endSolves vs).solves = s.solves.filter fun u => !decide (u.group ∈ vs.map Solve.group) := by
  rw [State.endSolves, (State.raiseTogether_keeps _ _).2.1, State.foldSolves_solves]

/-- With all of them ended, no solve is under way. -/
theorem State.endSolves_all (s : State) : (s.endSolves s.solves).solves = [] := by
  rw [State.endSolves_solves, List.filter_eq_nil_iff]
  intro u mem
  simp [List.mem_map_of_mem mem]

/-! ## The service (R52, R54) -/

theorem State.serviceWith_keepsLaws {s : State} (none : s.solves = []) (late early : Nat) :
    s.keepsLaws (s.serviceWith late early) := by
  have begun : s.keepsLaws (s.pendingGroups.foldl State.beginSolve s) :=
    State.foldBegin_keepsLaws ((List.nodup_finRange 8).filter _) fun g _ => by simp [none]
  exact State.keepsLaws_trans (State.keepsLaws_trans begun (State.readPages_keepsLaws _ _))
    (State.endSolves_keepsLaws fun v mem => (List.mem_filter.1 mem).1)

theorem State.service_keepsLaws (s : State) : s.keepsLaws s.service := by
  have ended : s.keepsLaws (s.endSolves s.solves) := State.endSolves_keepsLaws fun _ => id
  have none := s.endSolves_all
  unfold State.service
  dsimp only
  generalize s.endSolves s.solves = u at ended none ⊢
  split_ifs
  · exact ended
  · exact State.keepsLaws_trans ended (State.keepsLaws_trans (t := { u with freeIndex := u.freeIndex + 2 })
      (State.keepsLaws_of_tables rfl rfl rfl) (State.serviceWith_keepsLaws (s := { u with freeIndex := u.freeIndex + 2 }) none _ _))

theorem serviceTimerExpiryStep_keepsLaws (s : State) : s.keepsLaws (serviceTimerExpiryStep s) := by
  unfold serviceTimerExpiryStep
  split_ifs
  · exact State.keepsLaws_of_tables rfl rfl rfl
  · exact State.keepsLaws_trans (t := { s with serviceTimer := some Config.serviceMicros })
      (State.keepsLaws_of_tables rfl rfl rfl) (State.service_keepsLaws _)

theorem stalenessCheckExpiryStep_keepsLaws (s : State) : s.keepsLaws (stalenessCheckExpiryStep s) :=
  State.keepsLaws_trans (t := { s with stalenessTimer := some Config.stalenessMicros })
    (State.keepsLaws_of_tables rfl rfl rfl) (State.checkStale_keepsLaws _)

end Sys2Proof.Machine
end

section
/-! Every command and every step keep the laws of contexts, queues, chains, counts and sets, and the reset state satisfies
them: restarts, the register window, frame events, the cards of the board, and time. -/

namespace Sys2Proof.Machine

/-! ## The reset state (R27, R111) -/

@[simp] theorem State.reset_ctx (i : Fin 256) : State.reset.ctx i = Context.reset := Table.get_replicate _ _

@[simp] theorem State.reset_chain (ch : Fin 4) : State.reset.chain ch = Chain.reset := Table.get_replicate _ _

@[simp] theorem State.reset_group (g : Fin 8) : State.reset.group g = Group.reset := Table.get_replicate _ _

theorem Context.reset_setsLawful : Context.reset.setsLawful := by
  have zero : setInRange (Rgb.replicate (Rgb.replicate 0)) := fun i j => by
    cases i <;> cases j <;> exact ⟨by decide, by decide⟩
  exact ⟨fun p => by cases p <;> decide, zero, zero, fun _ => nofun, fun _ => nofun, fun _ => nofun, nofun⟩

/-- With every context and chain in its reset state, and no solve under way, all the laws hold. -/
theorem State.lawful_of_reset {t : State} (contexts : ∀ i, t.ctx i = Context.reset) (chains : ∀ ch, t.chain ch = Chain.reset)
    (solves : t.solves = []) :
    t.positionsLawful ∧ t.queuesLawful ∧ t.chainsLawful ∧ t.countsLawful ∧ t.setsLawful := by
  refine ⟨fun i _ _ present => absurd (congrArg Context.life (contexts i)) present, fun ch => ?_, fun ch => ?_,
    fun i => ?_, fun i => ?_, fun ch => ?_, ?_⟩
  · rw [chains]; simp [Chain.reset]
  · rw [chains]; simp [Chain.reset, Chain.lawful]
  · rw [contexts]; simp [Context.reset, Context.countsLawful]
  · rw [contexts]; exact Context.reset_setsLawful
  · rw [chains]; exact fun _ => nofun
  · rw [State.solvesLawful, solves]; simp

theorem State.powerOn_keepsLaws (s : State) : s.keepsLaws s.powerOn := by
  obtain ⟨positions, queues, chains, counts, sets⟩ :=
    State.lawful_of_reset (t := s.powerOn) State.reset_ctx State.reset_chain rfl
  exact ⟨fun _ => positions, fun _ => queues, fun _ => chains, fun _ => counts, fun _ => sets⟩

/-- What keeps the laws, begun from the same tables and solves. -/
theorem State.keepsLaws.after {s t u : State} (h : t.keepsLaws u) (contexts : t.contexts = s.contexts)
    (chains : t.chains = s.chains) (solves : t.solves = s.solves) : s.keepsLaws u :=
  State.keepsLaws_trans (State.keepsLaws_of_tables contexts chains solves) h

/-! ## Restarts (R28, R111, R142, R155) -/

theorem State.chainRestart_keepsLaws (s : State) (ch : Fin 4) : s.keepsLaws (s.chainRestart ch) := by
  unfold State.chainRestart
  have discarded : s.keepsLaws (s.modChain ch fun k => { k with sweep := none }) :=
    State.modChain_keepsLaws_of_work s ch rfl
  dsimp only
  generalize (s.modChain ch fun k => { k with sweep := none }) = u at discarded ⊢
  split
  · exact discarded
  · next r roll =>
    refine State.keepsLaws_trans discarded ?_
    split_ifs with begun
    · split
      · refine State.keepsLaws_trans (State.modChain_keepsLaws_of_queues ⟨rfl, rfl, rfl⟩ (fun h => ?_)
          fun _ => Chain.payloadLawful_congr rfl) (State.arbitrate_keepsLaws _ ch)
        obtain ⟨doing, rolling⟩ := h
        rw [rolling.2 ⟨r, roll, begun⟩] at doing
        exact ⟨doing, by simp⟩
      · exact State.setRoll_keepsLaws roll rfl
    · refine State.modChain_keepsLaws_of_queues ⟨rfl, rfl, rfl⟩ (fun h => ?_) fun _ => Chain.payloadLawful_congr rfl
      obtain ⟨doing, rolling⟩ := h
      refine ⟨doing, rolling.trans ?_⟩
      simp [roll, begun]

theorem State.chainRestarts_keepsLaws (s : State) : s.keepsLaws s.chainRestarts :=
  State.keepsLaws_foldl State.chainRestart_keepsLaws _ s

theorem State.restart_keepsLaws (s : State) : s.keepsLaws s.restart := by
  have blocks : s.keepsLaws ((s.dirtyAll.modRamp fun r => { r with freezeSet := [] }).modLogs fun _ => Logs.reset) :=
    State.keepsLaws_trans s.dirtyAll_keepsLaws (State.keepsLaws_of_tables rfl rfl rfl)
  unfold State.restart
  dsimp only
  generalize (s.dirtyAll.modRamp fun r => { r with freezeSet := [] }).modLogs (fun _ => Logs.reset) = u at blocks ⊢
  have restarted := State.keepsLaws_trans blocks u.chainRestarts_keepsLaws
  generalize u.chainRestarts = v at restarted ⊢
  split
  · exact State.keepsLaws_trans restarted (State.keepsLaws_of_tables rfl rfl rfl)
  · exact State.keepsLaws_trans restarted v.intakeRestart_keepsLaws

theorem State.goOn_keepsLaws (s : State) : s.keepsLaws s.goOn := s.goOn_cleansOnly.keepsLaws (by simp) (by simp)

theorem State.afterCard_keepsLaws (s : State) (w : Walk) : s.keepsLaws (s.afterCard w) := by
  unfold State.afterCard
  split_ifs
  · exact State.keepsLaws_trans (State.keepsLaws_trans s.chainRestarts_keepsLaws (State.intakeRestart_keepsLaws _))
      (State.requestScan_keepsLaws _)
  · exact State.keepsLaws_trans s.chainRestarts_keepsLaws (State.intakeRestart_keepsLaws _)
  · exact s.keepsLaws_refl
  · exact (State.goOn_keepsLaws (s.setScan _)).after rfl rfl rfl

/-! ## The register window (R173 to R175) -/

theorem State.writeArea_keepsLaws (s : State) (f : Registers → Registers) : s.keepsLaws (s.writeArea f) := by
  unfold State.writeArea
  split_ifs
  · exact s.notice_keepsLaws _
  · exact State.keepsLaws_trans (t := { s with regs := f s.regs }) (State.keepsLaws_of_tables rfl rfl rfl)
      (State.dirtyAll_keepsLaws _)

theorem State.writeRun_keepsLaws (s : State) (v : Bool) : s.keepsLaws (s.writeRun v) := by
  unfold State.writeRun
  dsimp only
  have written : s.keepsLaws { s with regs := { s.regs with run := v } } := State.keepsLaws_of_tables rfl rfl rfl
  generalize ({ s with regs := { s.regs with run := v } } : State) = u at written ⊢
  split_ifs
  · exact written
  · exact written
  · exact State.keepsLaws_trans written (u.startScanTimer.requestScan_keepsLaws.after rfl rfl rfl)
  · exact State.keepsLaws_trans written (State.keepsLaws_of_tables rfl rfl rfl)

theorem State.writeBitsLater_keepsLaws (s : State) (run scan : Bool) : s.keepsLaws (s.writeBitsLater run scan) := by
  unfold State.writeBitsLater
  dsimp only
  split_ifs
  · exact State.keepsLaws_of_tables rfl rfl rfl
  · exact State.keepsLaws_trans (s.writeRun_keepsLaws false) (State.keepsLaws_of_tables rfl rfl rfl)

theorem State.writeRunCtrl_keepsLaws (s : State) (restart run scan : Bool) (host : List HostWrite) :
    s.keepsLaws (s.writeRunCtrl restart run scan host) := by
  have stored : s.keepsLaws (s.hostWrites host) := State.keepsLaws_of_tables rfl rfl rfl
  unfold State.writeRunCtrl
  dsimp only
  generalize s.hostWrites host = u at stored ⊢
  have restarted := u.restart_keepsLaws
  generalize u.restart = v at restarted ⊢
  split_ifs
  · exact State.keepsLaws_trans stored (State.keepsLaws_trans restarted (v.writeBitsLater_keepsLaws run scan))
  · exact State.keepsLaws_trans stored (State.keepsLaws_trans restarted
      (State.keepsLaws_trans (v.writeRun_keepsLaws run) (State.requestScan_keepsLaws _)))
  · exact State.keepsLaws_trans stored (State.keepsLaws_trans (u.writeRun_keepsLaws run) (State.requestScan_keepsLaws _))
  · exact State.keepsLaws_trans stored (State.keepsLaws_trans restarted (v.writeRun_keepsLaws run))
  · exact State.keepsLaws_trans stored (u.writeRun_keepsLaws run)

theorem scanTimerExpiryStep_keepsLaws (host : List HostWrite) (s : State) :
    s.keepsLaws (scanTimerExpiryStep host s) := by
  have stored : s.keepsLaws (s.hostWrites host) := State.keepsLaws_of_tables rfl rfl rfl
  unfold scanTimerExpiryStep
  dsimp only
  generalize s.hostWrites host = u at stored ⊢
  split_ifs
  · exact State.keepsLaws_trans stored (u.startScanTimer.requestScan_keepsLaws.after rfl rfl rfl)
  · exact stored

theorem followingScanStep_keepsLaws (host : List HostWrite) (s : State) : s.keepsLaws (followingScanStep host s) := by
  have stored : s.keepsLaws (s.hostWrites host) := State.keepsLaws_of_tables rfl rfl rfl
  unfold followingScanStep
  dsimp only
  generalize s.hostWrites host = u at stored ⊢
  split_ifs
  · exact State.keepsLaws_trans stored
      ((u.modIntake fun k => { k with follow := false }).requestScan_keepsLaws.after rfl rfl rfl)
  · exact stored

/-! ## Frame events (R85 to R88, R132) -/

theorem State.foldPush_keepsLaws {l : List (Fin 256 × Context)} {s : State} (live : ∀ x ∈ l, (s.ctx x.1).life = .live) :
    s.keepsLaws (l.foldl (fun s x => s.enqueuePush x.1) s) := by
  induction l generalizing s with
  | nil => exact s.keepsLaws_refl
  | cons x l ih =>
    refine State.keepsLaws_trans (State.enqueuePush_keepsLaws (live x List.mem_cons_self)) (ih fun y hy => ?_)
    rw [State.enqueuePush_ctx]
    exact live y (List.mem_cons_of_mem x hy)

/-- A beat changes applied sets of LIVE contexts, and pushes them (R87, R88). -/
theorem State.beatActs_keepsLaws (s : State) (g : Fin 8) : s.keepsLaws (s.beatActs g) := by
  unfold State.beatActs
  dsimp only
  refine State.keepsLaws_trans (State.mapCtx_keepsLaws fun c => ?_) (State.foldPush_keepsLaws fun x mem => ?_)
  · split
    · exact Context.follows_touched ⟨⟨rfl, rfl, rfl⟩, id, Context.beaten_sets _ _⟩
    · exact c.follows_refl
  · obtain ⟨mem, moved⟩ := List.mem_filter.1 mem
    rw [Table.mem_enum] at mem
    have beats := (Bool.and_eq_true_iff.1 moved).1
    have live : x.2.life = .live := by
      simp only [Context.beatsIn, Bool.and_eq_true, decide_eq_true_eq] at beats
      exact beats.2
    simp only [State.ctx, Table.get_map, mem, beats, if_true]
    rw [Context.touched_eq]
    exact live

theorem State.arbitrateAll_keepsLaws (s : State) : s.keepsLaws s.arbitrateAll :=
  State.keepsLaws_foldl State.arbitrate_keepsLaws _ s

theorem State.takeBeats_keepsLaws (s : State) (gs : List (Fin 8)) : s.keepsLaws (s.takeBeats gs) :=
  State.keepsLaws_trans (State.keepsLaws_foldl State.beatActs_keepsLaws gs s) (State.arbitrateAll_keepsLaws _)

theorem State.takeCounts_keepsLaws (s : State) (chs : List (Fin 4)) : s.keepsLaws (s.takeCounts chs) :=
  State.keepsLaws_foldl (fun s ch => State.keepsLaws_trans (State.modChain_keepsLaws_of_work s ch rfl)
    (State.arbitrate_keepsLaws (s.countFrame ch) ch)) chs s

theorem State.frameEvent_keepsLaws (s : State) : s.keepsLaws s.frameEvent := by
  have counted : s.keepsLaws (s.unordered s.acting).2.countBeats := State.keepsLaws_of_tables (by simp [State.countBeats])
    (by simp [State.countBeats]) (by simp [State.countBeats])
  unfold State.frameEvent
  dsimp only
  generalize (s.unordered s.acting).2.countBeats = u at counted ⊢
  split_ifs
  · refine State.keepsLaws_trans counted (State.keepsLaws.after (t := { u with freeIndex := u.freeIndex + 1 }) ?_ rfl rfl rfl)
    exact State.keepsLaws_trans (State.keepsLaws_trans (State.takeCounts_keepsLaws _ _) (State.takeBeats_keepsLaws _ _))
      (State.takeCounts_keepsLaws _ _)
  · exact State.keepsLaws_trans counted (State.keepsLaws_trans (u.takeBeats_keepsLaws _) (State.takeCounts_keepsLaws _ _))

theorem State.modRamp_keepsLaws (s : State) (f : RampUnit → RampUnit) : s.keepsLaws (s.modRamp f) :=
  State.keepsLaws_of_tables rfl rfl rfl

theorem frameEdgeStep_keepsLaws (s : State) : s.keepsLaws (frameEdgeStep s) := by
  unfold frameEdgeStep
  split
  · exact State.keepsLaws_trans (s.modRamp_keepsLaws _) (State.frameEvent_keepsLaws _)
  · split
    · exact s.modRamp_keepsLaws _
    · split_ifs
      · exact s.regain.frameEvent_keepsLaws.after rfl rfl rfl
      · exact s.modRamp_keepsLaws _

theorem lossTimerExpiryStep_keepsLaws (s : State) : s.keepsLaws (lossTimerExpiryStep s) := by
  unfold lossTimerExpiryStep
  split_ifs
  · exact State.keepsLaws_of_tables rfl rfl rfl
  · exact s.keepsLaws_refl

theorem substituteTimerExpiryStep_keepsLaws (s : State) : s.keepsLaws (substituteTimerExpiryStep s) := by
  unfold substituteTimerExpiryStep
  split_ifs
  · exact State.keepsLaws_trans (s.modRamp_keepsLaws _) (State.frameEvent_keepsLaws _)
  · exact s.keepsLaws_refl

theorem solveTimerExpiryStep_keepsLaws (g : Fin 8) (s : State) : s.keepsLaws (solveTimerExpiryStep g s) := by
  unfold solveTimerExpiryStep
  split_ifs
  · exact State.keepsLaws_of_tables rfl rfl rfl
  · exact s.keepsLaws_refl

/-! ## Cards -/

theorem State.completeCard_keepsLaws (s : State) (c : Card) (code : ResultCode) (data : List Byte) :
    s.keepsLaws (s.completeCard c code data) := State.keepsLaws_of_tables (by simp) (by simp) (by simp)

theorem State.refuseCard_keepsLaws (s : State) (c : Card) (code : ResultCode) : s.keepsLaws (s.refuseCard c code) :=
  s.completeCard_keepsLaws c code []

theorem State.holdCard_keepsLaws (s : State) (ch : Fin 4) (c : Card) (k : Request) :
    s.keepsLaws (s.holdCard ch c k) := State.keepsLaws_of_tables (by simp) (by simp) (by simp)

theorem State.solvePending_keepsLaws (s : State) (g : Fin 8) : s.keepsLaws (s.solvePending g) :=
  State.keepsLaws_of_tables rfl rfl rfl

/-- What has kept the laws keeps them with a card completed. -/
theorem State.keepsLaws.completed {s t : State} (h : s.keepsLaws t) (c : Card) (code : ResultCode) (data : List Byte) :
    s.keepsLaws (t.completeCard c code data) := State.keepsLaws_trans h (t.completeCard_keepsLaws c code data)

theorem State.areaRead_keepsLaws {s t : State} {off n : Nat} {bs : Option (List Byte)} (h : s.areaRead off n = (bs, t)) :
    s.keepsLaws t := by
  have same := snd_of_eq h
  rw [← same]
  exact State.keepsLaws_of_tables (by simp) (by simp) (by simp)

theorem State.correctCtx_keepsLaws (s : State) (i : Fin 256) : s.keepsLaws (s.correctCtx i) := by
  refine State.keepsLaws_trans (t := s.modCtx i fun c =>
    c.corrected (c.correction s.pages (s.group c.group).targets)) (State.modCtx_keepsLaws ⟨⟨rfl, rfl, rfl⟩, id, ?_⟩) ?_
  · exact fun h => Context.corrected_sets (Context.correctionFrom_lawful _ _ h.2.1) h
  · exact State.keepsLaws_of_tables ((State.raiseTogether_keeps _ _).2.2.2.1) (by simp [State.correctCtx]) (by simp)

theorem Context.adopt_setsLawful {c : Context} (h : c.setsLawful) {sh : Sheet} (mix : setInRange sh.mix) (p : Position)
    (taken : Tick) : (c.adopt sh p taken).setsLawful := by
  obtain ⟨gain, -, target, -⟩ := h
  exact ⟨gain, mix, target, fun _ => nofun, fun _ => nofun, fun _ => nofun, nofun⟩

theorem Context.retire_setsLawful {c : Context} (h : c.setsLawful) : c.retire.setsLawful := by
  obtain ⟨gain, mix, target, -⟩ := h
  exact ⟨gain, mix, target, fun _ => nofun, fun _ => nofun, fun _ => nofun, nofun⟩

theorem State.positionTaken_iff (s : State) (i : Fin 256) (ch : Fin 4) (a : Fin 64) : s.positionTaken i ch a = true ↔
    ∃ j, j ≠ i ∧ (s.ctx j).life ≠ .absent ∧ (s.ctx j).chain = ch ∧ (s.ctx j).address = a := by
  simp only [State.positionTaken, List.any_eq_true, Prod.exists, Table.mem_enum, Context.holds, Context.ofChain,
    Bool.and_eq_true, Bool.not_eq_true', decide_eq_true_eq, decide_eq_false_iff_not, State.ctx]
  constructor
  · rintro ⟨j, c, rfl, ne, ⟨life, chain⟩, address⟩
    exact ⟨j, ne, life, chain, address⟩
  · rintro ⟨j, ne, life, chain, address⟩
    exact ⟨j, _, rfl, ne, ⟨life, chain⟩, address⟩

/-- An ADOPT takes a free position, and the context probes its chain (R33 to R36). -/
theorem State.adoptCtx_keepsLaws {s : State} {i : Fin 256} {sh : Sheet} {p : Position} (mix : setInRange sh.mix)
    (free : s.positionTaken i p.chain p.address = false) (taken : Tick) : s.keepsLaws (s.adoptCtx i sh p taken) := by
  have apart : ∀ j, j ≠ i → (s.ctx j).life ≠ .absent → ¬((s.ctx j).chain = p.chain ∧ (s.ctx j).address = p.address) :=
    fun j ne life at_ => Bool.false_ne_true (free.symm.trans ((s.positionTaken_iff i _ _).2 ⟨j, ne, life, at_⟩))
  have moved : s.keepsLaws ((s.dropWork i).modCtx i fun c => c.adopt sh p taken) :=
    State.dropped_keepsLaws (fun _ _ => .inr apart)
      (fun _ ⟨_, _, push, _⟩ => ⟨Nat.zero_le 3, Nat.zero_le 3, Nat.zero_le 65535,
        fun _ => ⟨(by decide : 0 < 3), (by decide : 0 < 3)⟩⟩)
      (fun _ h => Context.adopt_setsLawful h mix p taken)
  have adopted : (((s.dropWork i).modCtx i fun c => c.adopt sh p taken).ctx i).life = .adopted := by
    rw [State.modCtx_ctx_same, Context.touched_eq]; rfl
  unfold State.adoptCtx
  dsimp only
  generalize ((s.dropWork i).modCtx i fun c => c.adopt sh p taken) = u at moved adopted ⊢
  have tested := State.keepsLaws_trans moved (u.testSweep_keepsLaws (s.ctx i).chain)
  rw [← u.testSweep_ctx (s.ctx i).chain i] at adopted
  generalize u.testSweep (s.ctx i).chain = v at tested adopted ⊢
  have corrected := State.keepsLaws_trans tested (v.correctCtx_keepsLaws i)
  have still : ((v.correctCtx i).ctx i).life = .adopted := by
    rw [State.correctCtx_ctx, if_pos rfl, Context.touched_eq]; exact adopted
  generalize v.correctCtx i = x at corrected still ⊢
  have probes := State.keepsLaws_trans (State.keepsLaws_trans corrected (State.enqueueProbe_keepsLaws still))
    (State.solvePending_keepsLaws _ p.group)
  split_ifs
  · exact State.keepsLaws_trans probes (State.arbitrate_keepsLaws _ _)
  · exact State.keepsLaws_trans (State.keepsLaws_trans probes (State.solvePending_keepsLaws _ _))
      (State.arbitrate_keepsLaws _ _)

theorem State.retireCtx_keepsLaws (s : State) (i : Fin 256) : s.keepsLaws (s.retireCtx i) := by
  have moved : s.keepsLaws ((s.dropWork i).modCtx i Context.retire) :=
    State.dropped_keepsLaws (fun _ _ => .inl rfl)
      (fun _ ⟨_, _, push, _⟩ => ⟨Nat.zero_le 3, Nat.zero_le 3, push, fun e => by rcases e with e | e <;> cases e⟩)
      (fun _ h => Context.retire_setsLawful h)
  exact State.keepsLaws_trans (State.keepsLaws_trans moved (State.testSweep_keepsLaws _ _)) (State.solvePending_keepsLaws _ _)

theorem dispatchAdopt_keepsLaws (w : Walk) (s : State) : s.keepsLaws (dispatchAdopt w s) := by
  unfold dispatchAdopt
  split
  · exact s.refuseCard_keepsLaws _ _
  · split
    · next read => exact State.areaRead_keepsLaws read
    · next bs s1 read =>
      have kept := State.areaRead_keepsLaws read
      dsimp only
      split
      · exact kept.completed _ _ _
      · split_ifs with taken
        · exact kept.completed _ _ _
        · exact (State.keepsLaws_trans kept (State.adoptCtx_keepsLaws (Sheet.ofBytes_mix bs)
            (Bool.eq_false_iff.2 taken) _)).completed _ _ _

theorem dispatchRetire_keepsLaws (w : Walk) (s : State) : s.keepsLaws (dispatchRetire w s) := by
  unfold dispatchRetire
  split
  · exact s.refuseCard_keepsLaws _ _
  · split_ifs
    · exact s.refuseCard_keepsLaws _ _
    · exact (s.retireCtx_keepsLaws _).completed _ _ _

theorem State.foldPending_keepsLaws (gs : List (Fin 8)) (s : State) : s.keepsLaws (gs.foldl State.solvePending s) :=
  State.keepsLaws_foldl State.solvePending_keepsLaws gs s

theorem dispatchSolve_keepsLaws (w : Walk) (s : State) : s.keepsLaws (dispatchSolve w s) := by
  unfold dispatchSolve
  dsimp only
  split_ifs
  · exact (State.foldPending_keepsLaws _ s).completed _ _ _
  · split
    · exact s.refuseCard_keepsLaws _ _
    · exact (State.foldPending_keepsLaws _ s).completed _ _ _

theorem dispatchSetGroup_keepsLaws (w : Walk) (s : State) : s.keepsLaws (dispatchSetGroup w s) := by
  unfold dispatchSetGroup
  split
  · exact s.refuseCard_keepsLaws _ _
  · exact (State.completeCard_keepsLaws _ _ _ _).after rfl rfl rfl

theorem dispatchLoadCurve_keepsLaws (w : Walk) (s : State) : s.keepsLaws (dispatchLoadCurve w s) := by
  unfold dispatchLoadCurve
  split
  · split
    · next read => exact State.areaRead_keepsLaws read
    · next bs s1 read =>
      have kept := State.areaRead_keepsLaws read
      dsimp only
      split
      · exact kept.completed _ _ _
      · exact State.keepsLaws_trans kept (((State.foldPending_keepsLaws _ _).completed _ _ _).after rfl rfl rfl)
  · exact s.refuseCard_keepsLaws _ _

theorem dispatchSetMode_keepsLaws (w : Walk) (s : State) : s.keepsLaws (dispatchSetMode w s) := by
  unfold dispatchSetMode
  split
  · exact s.refuseCard_keepsLaws _ _
  · exact (s.modRamp_keepsLaws _).completed _ _ _

theorem dispatchFreeze_keepsLaws (w : Walk) (s : State) : s.keepsLaws (dispatchFreeze w s) := by
  unfold dispatchFreeze
  dsimp only
  split_ifs
  · exact s.refuseCard_keepsLaws _ _
  · exact s.completeCard_keepsLaws _ _ _
  · exact s.completeCard_keepsLaws _ _ _
  · exact (s.modRamp_keepsLaws _).completed _ _ _

theorem dispatchThaw_keepsLaws (w : Walk) (s : State) : s.keepsLaws (dispatchThaw w s) := by
  unfold dispatchThaw
  dsimp only
  split_ifs
  · exact s.refuseCard_keepsLaws _ _
  · exact (s.modRamp_keepsLaws _).completed _ _ _
  · exact s.completeCard_keepsLaws _ _ _

theorem dispatchSetFrame_keepsLaws (w : Walk) (s : State) : s.keepsLaws (dispatchSetFrame w s) := by
  unfold dispatchSetFrame
  dsimp only
  split_ifs
  · exact s.refuseCard_keepsLaws _ _
  · exact (s.modRamp_keepsLaws _).completed _ _ _

theorem dispatchSetFilter_keepsLaws (w : Walk) (s : State) : s.keepsLaws (dispatchSetFilter w s) := by
  unfold dispatchSetFilter
  split
  · exact (State.completeCard_keepsLaws _ _ _ _).after rfl rfl rfl
  · exact s.refuseCard_keepsLaws _ _

theorem dispatchSetChain_keepsLaws (w : Walk) (s : State) : s.keepsLaws (dispatchSetChain w s) := by
  unfold dispatchSetChain
  split
  · split_ifs
    · exact s.refuseCard_keepsLaws _ _
    · exact s.refuseCard_keepsLaws _ _
    · exact (State.modChain_keepsLaws_of_work s _ rfl).completed _ _ _
  · exact s.refuseCard_keepsLaws _ _

/-- A STOPPED chain that is started has nothing in flight, and polls its LIVE contexts (R109, R123). -/
theorem State.startChain_keepsLaws {s : State} {ch : Fin 4} (stopped : (s.chain ch).state = .stopped) :
    s.keepsLaws (s.startChain ch) := by
  have marked := s.markLate_keepsLaws ch
  have contexts : (s.markLate ch).contexts = s.contexts := by simp
  have state : ((s.markLate ch).chain ch).state = .stopped := by
    unfold State.markLate
    split_ifs
    · rw [State.modChain_chain_same]; exact stopped
    · exact stopped
  unfold State.startChain
  have live : (s.markLate ch).waits .live ch (s.liveByAddress ch) :=
    State.waits_congr (fun i _ => by rw [State.ctx_congr contexts]; exact ⟨rfl, rfl⟩) (s.waits_liveByAddress ch)
  generalize s.markLate ch = u at marked state live ⊢
  refine State.keepsLaws_trans (State.keepsLaws_trans marked (State.modChain_keepsLaws id id (fun _ => ?_) (fun h => ?_)
    fun _ => Chain.payloadLawful_congr rfl)) (State.arbitrate_keepsLaws _ ch)
  · simpa only [Chain.work, List.map_map, dueEntry_ctx, List.map_id] using live
  · obtain ⟨doing, rolling⟩ := h
    rw [state] at doing rolling
    exact ⟨doing, by simpa using rolling⟩

theorem dispatchStartChain_keepsLaws (w : Walk) (s : State) : s.keepsLaws (dispatchStartChain w s) := by
  unfold dispatchStartChain
  split
  · exact s.refuseCard_keepsLaws _ _
  · split
    · exact s.refuseCard_keepsLaws _ _
    · next stopped => exact (State.startChain_keepsLaws stopped).completed _ _ _
    · exact s.completeCard_keepsLaws _ _ _

/-- A chain that is IDLE enters STOPPED, and one with work in flight STOPPING (R109, R124). -/
theorem State.stopTo_keepsLaws {s : State} {ch : Fin 4} {st : ChainState}
    (h : (s.chain ch).state = .idle ∧ st = .stopped ∨
      ((s.chain ch).state = .busy ∨ (s.chain ch).state = .holding ∨ (s.chain ch).state = .stopping) ∧ st = .stopping) :
    s.keepsLaws (s.stopTo ch st) := by
  refine State.modChain_keepsLaws_of_queues ⟨rfl, rfl, rfl⟩ (fun lawful => ?_) fun _ => Chain.payloadLawful_congr rfl
  obtain ⟨doing, rolling⟩ := lawful
  rcases h with ⟨idle, rfl⟩ | ⟨busy, rfl⟩
  · rw [idle] at doing rolling
    exact ⟨doing, by simpa using rolling⟩
  · constructor
    · show (s.chain ch).flight ≠ .none
      intro none
      rcases busy with e | e | e <;> rw [e] at doing <;> simp [none] at doing
    · rcases busy with e | e | e <;> rw [e] at rolling <;> simpa using rolling

theorem dispatchStopChain_keepsLaws (w : Walk) (s : State) : s.keepsLaws (dispatchStopChain w s) := by
  unfold dispatchStopChain
  split
  · exact s.refuseCard_keepsLaws _ _
  · next ch _ =>
    split_ifs with refused
    · exact s.refuseCard_keepsLaws _ _
    · split
      · exact State.keepsLaws_trans (s.completeCard_keepsLaws _ _ _) (State.endSweep_keepsLaws _ _ _)
      · next idle =>
        exact State.keepsLaws_trans ((State.stopTo_keepsLaws (.inl ⟨idle, rfl⟩)).completed _ _ _)
          (State.endSweep_keepsLaws _ _ _)
      · next stopped idle =>
        refine State.keepsLaws_trans (State.stopTo_keepsLaws (.inr ⟨?_, rfl⟩)) (State.holdCard_keepsLaws _ _ _ _)
        cases e : (s.chain ch).state <;> simp_all

theorem State.beginSweep_keepsLaws (s : State) (ch : Fin 4) : s.keepsLaws (s.beginSweep ch) :=
  State.keepsLaws_trans (s.markDue_keepsLaws ch) (State.modChain_keepsLaws_of_work _ ch rfl)

theorem dispatchVerify_keepsLaws (w : Walk) (s : State) : s.keepsLaws (dispatchVerify w s) := by
  unfold dispatchVerify
  split
  · exact s.refuseCard_keepsLaws _ _
  · next ch _ =>
    split_ifs
    · exact s.refuseCard_keepsLaws _ _
    · have begun := s.beginSweep_keepsLaws ch
      dsimp only
      generalize s.beginSweep ch = u at begun ⊢
      split_ifs
      · exact (State.keepsLaws_trans begun (State.modChain_keepsLaws_of_work u ch rfl)).completed _ _ _
      · exact State.keepsLaws_trans (State.keepsLaws_trans begun (u.holdCard_keepsLaws ch _ _))
          (State.arbitrate_keepsLaws _ ch)

/-- A roll that is requested is begun exactly if one was (R147). -/
theorem State.requestRoll_keepsLaws (s : State) (ch : Fin 4) : s.keepsLaws (s.requestRoll ch) := by
  refine State.modChain_keepsLaws_of_queues ⟨rfl, rfl, rfl⟩ (fun h => ?_) fun _ => Chain.payloadLawful_congr rfl
  obtain ⟨doing, rolling⟩ := h
  refine ⟨doing, rolling.trans ?_⟩
  dsimp only
  split
  · next r roll => cases begun : r.begun <;> simp [roll, begun, Roll.waiting]
  · next roll => simp [roll, Roll.waiting]

theorem dispatchRollCall_keepsLaws (w : Walk) (s : State) : s.keepsLaws (dispatchRollCall w s) := by
  unfold dispatchRollCall
  split
  · exact s.refuseCard_keepsLaws _ _
  · next ch _ =>
    split_ifs
    · exact s.refuseCard_keepsLaws _ _
    · exact State.keepsLaws_trans (State.keepsLaws_trans (s.requestRoll_keepsLaws ch) (State.holdCard_keepsLaws _ _ _ _))
        (State.arbitrate_keepsLaws _ ch)

theorem State.dispatchCard_keepsLaws (s : State) (r : Request) {f : Walk → State → State}
    (keeps : ∀ w u, State.keepsLaws u (f w u)) : s.keepsLaws (s.dispatchCard r f) := by
  unfold State.dispatchCard
  split
  · exact s.keepsLaws_refl
  · next w _ =>
    split_ifs
    · exact (State.keepsLaws_trans (keeps w (s.modIntake fun k => { k with walk := none }))
        (State.afterCard_keepsLaws _ w)).after rfl rfl rfl
    · exact s.keepsLaws_refl

/-! ## Every command and every step -/

theorem perform_keepsLaws (c : Instr) (s : State) : s.keepsLaws (perform c s) := by
  induction c generalizing s with
  | powerOnReset => exact s.powerOn_keepsLaws
  | perstN asserted => exact State.keepsLaws_of_tables rfl rfl rfl
  | areaLoWrite v => exact s.writeArea_keepsLaws fun r => { r with areaLo := v.extractLsb' 16 16 }
  | areaHiWrite v => exact s.writeArea_keepsLaws fun r => { r with areaHi := v }
  | partIdWrite v => exact s.keepsLaws_refl
  | restart run scan host => exact s.writeRunCtrl_keepsLaws true run scan host
  | run run host => exact s.writeRunCtrl_keepsLaws false run false host
  | scan run host => exact s.writeRunCtrl_keepsLaws false run true host
  | noticeRawWrite v => exact State.keepsLaws_of_tables rfl rfl rfl
  | noticeMaskWrite v => exact State.keepsLaws_of_tables rfl rfl rfl
  | scanTimerExpiry host => exact scanTimerExpiryStep_keepsLaws host s
  | followingScan host => exact followingScanStep_keepsLaws host s
  | areaBusError n during ih => exact ih s
  | adopt => exact s.dispatchCard_keepsLaws _ dispatchAdopt_keepsLaws
  | retire => exact s.dispatchCard_keepsLaws _ dispatchRetire_keepsLaws
  | solve => exact s.dispatchCard_keepsLaws _ dispatchSolve_keepsLaws
  | setGroup => exact s.dispatchCard_keepsLaws _ dispatchSetGroup_keepsLaws
  | loadCurve => exact s.dispatchCard_keepsLaws _ dispatchLoadCurve_keepsLaws
  | setMode => exact s.dispatchCard_keepsLaws _ dispatchSetMode_keepsLaws
  | freeze => exact s.dispatchCard_keepsLaws _ dispatchFreeze_keepsLaws
  | thaw => exact s.dispatchCard_keepsLaws _ dispatchThaw_keepsLaws
  | setFrame => exact s.dispatchCard_keepsLaws _ dispatchSetFrame_keepsLaws
  | setChain => exact s.dispatchCard_keepsLaws _ dispatchSetChain_keepsLaws
  | startChain => exact s.dispatchCard_keepsLaws _ dispatchStartChain_keepsLaws
  | stopChain => exact s.dispatchCard_keepsLaws _ dispatchStopChain_keepsLaws
  | verify => exact s.dispatchCard_keepsLaws _ dispatchVerify_keepsLaws
  | rollCall => exact s.dispatchCard_keepsLaws _ dispatchRollCall_keepsLaws
  | setFilter => exact s.dispatchCard_keepsLaws _ dispatchSetFilter_keepsLaws
  | frameEdge => exact frameEdgeStep_keepsLaws s
  | lossTimerExpiry => exact lossTimerExpiryStep_keepsLaws s
  | substituteTimerExpiry => exact substituteTimerExpiryStep_keepsLaws s
  | freezeInChange asserted => exact s.modRamp_keepsLaws fun r => { r with freezeIn := asserted }
  | solveTimerExpiry g => exact solveTimerExpiryStep_keepsLaws g s
  | serviceTimerExpiry => exact serviceTimerExpiryStep_keepsLaws s
  | stalenessCheckExpiry => exact stalenessCheckExpiryStep_keepsLaws s
  | frameSent ch => exact frameSentStep_keepsLaws ch s
  | latchSent ch => exact latchSentStep_keepsLaws ch s
  | tileAnswer ch bytes quiet => exact tileAnswerStep_keepsLaws ch bytes quiet s
  | answerWindowClose ch => exact answerWindowCloseStep_keepsLaws ch s
  | resend ch quiet waited => exact resendStep_keepsLaws ch quiet waited s
  | holdAnswer ch bytes quiet => exact holdAnswerStep_keepsLaws ch bytes quiet s
  | holdTimerExpiry ch => exact holdTimerExpiryStep_keepsLaws ch s
  | pollRoundTimerExpiry ch => exact pollRoundTimerExpiryStep_keepsLaws ch s
  | latchDeadlinePassed ch => exact latchDeadlinePassedStep_keepsLaws ch s
  | verifySweepTimerExpiry ch => exact verifySweepTimerExpiryStep_keepsLaws ch s
  | rollSlotAnswer ch bytes quiet => exact rollSlotAnswerStep_keepsLaws ch bytes quiet s
  | rollSlotClose ch => exact rollSlotCloseStep_keepsLaws ch s
  | rollRetry ch quiet waited => exact rollRetryStep_keepsLaws ch quiet waited s
  | frameBegin ch quiet waited => exact frameBeginStep_keepsLaws ch quiet waited s

theorem State.passMicrosecond_keepsLaws (s : State) : s.keepsLaws s.passMicrosecond :=
  State.keepsLaws_of_bearing (fun _ => rfl) (fun ch => by simp [State.passMicrosecond, State.chain, Chain.work]) rfl

theorem step_keepsLaws {s t : State} (h : step s = .next t) : s.keepsLaws t := by
  refine step_keeps (P := s.keepsLaws) (fun c u kept => State.keepsLaws_trans kept (perform_keepsLaws c u))
    (fun u _ _ _ kept => State.keepsLaws_trans kept (State.keepsLaws_of_tables rfl rfl rfl))
    (fun u kept => State.keepsLaws_trans kept u.scanAccess_keepsLaws)
    (fun u g i kept => State.keepsLaws_trans kept (u.readMember_keepsLaws g i))
    (fun u v under kept => State.keepsLaws_trans kept (State.endSolves_keepsLaws fun x mem => ?_))
    (fun u kept => State.keepsLaws_trans kept u.passMicrosecond_keepsLaws) h s.keepsLaws_refl
  rwa [List.mem_singleton.1 mem]

/-- Settles O58: every command and every doing of the empty queue keep positions, queues and chain states lawful. -/
theorem stepKeepsPositionsQueuesAndChainStates : Obligations.StepKeepsPositionsQueuesAndChainStates :=
  fun _ _ h => ⟨(step_keepsLaws h).positions, (step_keepsLaws h).queues, (step_keepsLaws h).chains⟩

/-- Settles O59: every command and every doing of the empty queue keep counts and sets in range. -/
theorem stepKeepsCountsAndSets : Obligations.StepKeepsCountsAndSets :=
  fun _ _ h => ⟨(step_keepsLaws h).counts, (step_keepsLaws h).sets⟩

end Sys2Proof.Machine
end

section
/-! The settings of the part (section 3.1, sections 4.4, 5.1, 5.2, 5.5, 6.5, 9.2, 10.6): which commands change which of
them, and that they stay in their ranges. -/

namespace Sys2Proof.Machine

/-- The settings of a group. -/
def Group.settings (g : Group) : GroupSettings :=
  ⟨g.headroom, g.cap, g.slew, g.beat, g.solveInterval, g.staleLimit⟩

/-- All that is set by commands alone: the waiting commands, the clock, the registers but the notices, the ramp unit's
settings and freeze set, the pin levels, the pages, the filters, the chains' configurations, and the groups' settings with
their beat counters. -/
structure Settings where
  pending : List Instr
  clock : Nat
  areaLo : Half
  areaHi : Word
  run : Bool
  noticeMask : BitVec 7
  mode : Mode
  period : Nat
  freezeSet : List Nat
  freezeIn : Bool
  linkUp : Bool
  pages : Table Page 16
  filters : Table Filter 6
  configs : Fin 4 → ChainConfig
  groups : Fin 8 → GroupSettings
  beats : Fin 8 → Nat

/-- The settings of the part. -/
def State.settings (s : State) : Settings where
  pending := s.pending
  clock := s.clock
  areaLo := s.regs.areaLo
  areaHi := s.regs.areaHi
  run := s.regs.run
  noticeMask := s.regs.noticeMask
  mode := s.ramp.mode
  period := s.ramp.period
  freezeSet := s.ramp.freezeSet
  freezeIn := s.ramp.freezeIn
  linkUp := s.link.up
  pages := s.pages
  filters := s.filters
  configs := fun ch => (s.chains.get ch).config
  groups := fun g => (s.groups.get g).settings
  beats := fun g => (s.groups.get g).beatCount

/-! ## Records -/

@[simp] theorem State.setCtx_settings (s : State) (i : Fin 256) (c : Context) : (s.setCtx i c).settings = s.settings := rfl

@[simp] theorem State.modCtx_settings (s : State) (i : Fin 256) (f : Context → Context) :
    (s.modCtx i f).settings = s.settings := rfl

@[simp] theorem State.modIntake_settings (s : State) (f : Intake → Intake) : (s.modIntake f).settings = s.settings := rfl

@[simp] theorem State.modLogs_settings (s : State) (f : Logs → Logs) : (s.modLogs f).settings = s.settings := rfl

/-- A chain's change that leaves its configuration. -/
theorem State.modChain_settings (s : State) (ch : Fin 4) {f : Chain → Chain} (same : ∀ k, (f k).config = k.config) :
    (s.modChain ch f).settings = s.settings := by
  have configs : ∀ j, ((s.modChain ch f).chain j).config = (s.chain j).config := fun j => by
    rw [State.modChain_chain]
    split_ifs with e
    · rw [same, e]
    · rfl
  exact congrArg (fun c => { s.settings with configs := c }) (funext configs)

/-- A group's change that leaves its settings and its beat counter. -/
theorem State.modGroup_settings (s : State) (g : Fin 8) {f : Group → Group}
    (same : ∀ r, (f r).settings = r.settings ∧ (f r).beatCount = r.beatCount) :
    (s.modGroup g f).settings = s.settings := by
  have groups : ∀ h, ((s.modGroup g f).group h).settings = (s.group h).settings ∧
      ((s.modGroup g f).group h).beatCount = (s.group h).beatCount := fun h => by
    rw [State.modGroup_group]
    split_ifs with e
    · rw [(same _).1, (same _).2, e]; exact ⟨rfl, rfl⟩
    · exact ⟨rfl, rfl⟩
  exact congrArg₂ (fun c b => { s.settings with groups := c, beats := b }) (funext fun h => (groups h).1)
    (funext fun h => (groups h).2)

theorem State.foldl_settings {α : Type} {f : State → α → State} (h : ∀ (s : State) a, (f s a).settings = s.settings)
    (l : List α) (s : State) : (l.foldl f s).settings = s.settings := by
  induction l generalizing s with
  | nil => rfl
  | cons a l ih => exact (ih (f s a)).trans (h s a)

@[simp] theorem State.notice_settings (s : State) (k : Cause) : (State.notice k s).settings = s.settings := rfl

@[simp] theorem State.dirtyAll_settings (s : State) : s.dirtyAll.settings = s.settings := rfl

@[simp] theorem State.markDue_settings (s : State) (ch : Fin 4) : (s.markDue ch).settings = s.settings := rfl

@[simp] theorem State.checkStale_settings (s : State) : s.checkStale.settings = s.settings := rfl

@[simp] theorem State.solvePending_settings (s : State) (g : Fin 8) : (s.solvePending g).settings = s.settings :=
  s.modGroup_settings g fun _ => ⟨rfl, rfl⟩

/-! ## The area, the logs and the intake unit -/

@[simp] theorem State.areaRead_settings (s : State) (off n : Nat) : (s.areaRead off n).2.settings = s.settings := by
  simp [State.settings]

@[simp] theorem State.areaWrite_settings (s : State) (off : Nat) (bs : List Byte) :
    (s.areaWrite off bs).settings = s.settings := by simp [State.settings]

@[simp] theorem State.raisePart_settings (s : State) (k : PartKind) (ch : Fin 4) (a : Fin 64) (serial value : Word) :
    (s.raisePart k ch a serial value).settings = s.settings := by simp [State.settings]

@[simp] theorem State.raiseTogether_settings (s : State) (rs : List Report) :
    (s.raiseTogether rs).settings = s.settings := by simp [State.settings]

@[simp] theorem State.routeCarried_settings (s : State) (ch : Fin 4) (t : Transaction) (e : Ending) :
    (s.routeCarried ch t e).settings = s.settings := by
  unfold State.routeCarried
  split
  · simp [State.settings]
  · rfl

@[simp] theorem State.completeCard_settings (s : State) (c : Card) (code : ResultCode) (data : List Byte) :
    (s.completeCard c code data).settings = s.settings := by simp [State.settings]

@[simp] theorem State.refuseCard_settings (s : State) (c : Card) (code : ResultCode) :
    (s.refuseCard c code).settings = s.settings := s.completeCard_settings c code []

@[simp] theorem State.holdCard_settings (s : State) (ch : Fin 4) (c : Card) (k : Request) :
    (s.holdCard ch c k).settings = s.settings := s.areaWrite_settings _ _

@[simp] theorem State.decideSweepOrRoll_settings (s : State) (ch : Fin 4) (k : Request) (code : ResultCode)
    (data : List Byte) : (s.decideSweepOrRoll ch k code data).settings = s.settings := by simp [State.settings]

@[simp] theorem State.decideStop_settings (s : State) (ch : Fin 4) (code : ResultCode) (data : List Byte) :
    (s.decideStop ch code data).settings = s.settings := by simp [State.settings]

@[simp] theorem State.scanAccess_settings (s : State) : s.scanAccess.settings = s.settings := by simp [State.settings]

@[simp] theorem State.goOn_settings (s : State) : s.goOn.settings = s.settings := by simp [State.settings]

@[simp] theorem State.requestScan_settings (s : State) : s.requestScan.settings = s.settings := by simp [State.settings]

@[simp] theorem State.intakeRestart_settings (s : State) : s.intakeRestart.settings = s.settings := by
  simp [State.settings]

/-! ## Contexts and chains -/

@[simp] theorem State.countSweep_settings (s : State) (ch : Fin 4) (f : SweepRecord → SweepRecord) :
    (s.countSweep ch f).settings = s.settings := s.modChain_settings ch fun _ => rfl

@[simp] theorem State.endSweep_settings (s : State) (ch : Fin 4) (code : ResultCode) :
    (s.endSweep ch code).settings = s.settings := by
  unfold State.endSweep
  split
  · rfl
  · rw [State.decideSweepOrRoll_settings]
    exact s.modChain_settings ch fun _ => rfl

@[simp] theorem State.testSweep_settings (s : State) (ch : Fin 4) : (s.testSweep ch).settings = s.settings := by
  unfold State.testSweep
  split_ifs
  · exact s.endSweep_settings ch .ok
  · rfl

@[simp] theorem State.enqueuePush_settings (s : State) (i : Fin 256) : (s.enqueuePush i).settings = s.settings :=
  s.modChain_settings _ fun k => by split_ifs <;> rfl

@[simp] theorem State.enqueueProbe_settings (s : State) (i : Fin 256) : (s.enqueueProbe i).settings = s.settings :=
  s.modChain_settings _ fun k => by split_ifs <;> rfl

@[simp] theorem State.joinPollList_settings (s : State) (i : Fin 256) : (s.joinPollList i).settings = s.settings :=
  s.modChain_settings _ fun _ => rfl

@[simp] theorem State.dropWork_settings (s : State) (i : Fin 256) : (s.dropWork i).settings = s.settings := by
  unfold State.dropWork
  dsimp only
  split_ifs
  · rw [State.modCtx_settings, State.countSweep_settings]
    exact s.modChain_settings _ fun _ => rfl
  · exact s.modChain_settings _ fun _ => rfl

@[simp] theorem State.transition_settings (s : State) (i : Fin 256) (life : Life) (reason : FaultReason) :
    (s.transition i life reason).settings = s.settings := by
  unfold State.transition
  dsimp only
  rw [State.testSweep_settings]
  split_ifs <;> simp

@[simp] theorem State.enterLive_settings (s : State) (i : Fin 256) : (s.enterLive i).settings = s.settings := by
  unfold State.enterLive
  simp

@[simp] theorem State.enterUnmatched_settings (s : State) (i : Fin 256) (found : Word) :
    (s.enterUnmatched i found).settings = s.settings := by
  unfold State.enterUnmatched
  simp

@[simp] theorem State.enterFaulted_settings (s : State) (i : Fin 256) (reason : FaultReason) :
    (s.enterFaulted i reason).settings = s.settings := by
  unfold State.enterFaulted
  simp

@[simp] theorem State.correctCtx_settings (s : State) (i : Fin 256) : (s.correctCtx i).settings = s.settings := by
  unfold State.correctCtx
  simp

@[simp] theorem State.startTransaction_settings (s : State) (ch : Fin 4) (kind : WorkKind) (i : Fin 256) :
    (s.startTransaction ch kind i).settings = s.settings := s.modChain_settings ch fun _ => rfl

theorem State.start_settings (s : State) (ch : Fin 4) (c : Choice) : (s.start ch c).settings = s.settings := by
  cases c with
  | rollStep => exact s.modChain_settings ch fun _ => rfl
  | latch => exact s.modChain_settings ch fun _ => rfl
  | readback i =>
    exact (State.startTransaction_settings _ ch _ i).trans (State.modChain_settings _ ch fun _ => rfl)
  | probe i => exact (State.startTransaction_settings _ ch _ i).trans (s.modChain_settings ch fun _ => rfl)
  | poll i => exact (State.startTransaction_settings _ ch _ i).trans (s.modChain_settings ch fun _ => rfl)
  | push i => exact (State.startTransaction_settings _ ch _ i).trans (s.modChain_settings ch fun _ => rfl)

@[simp] theorem State.arbitrate_settings (s : State) (ch : Fin 4) : (s.arbitrate ch).settings = s.settings := by
  rcases s.arbitrate_eq ch with e | ⟨-, c, -, e⟩ <;> rw [e]
  exact s.start_settings ch c

/-! ## The end of work, and outcomes -/

@[simp] theorem State.endFlight_settings (s : State) (ch : Fin 4) (work : Nat) (ok : Bool) :
    (s.endFlight ch work ok).settings = s.settings := by
  unfold State.endFlight
  have ended : (s.modChain ch fun k => { k with flight := .none, holdTimer := none }).settings = s.settings :=
    s.modChain_settings ch fun _ => rfl
  dsimp only
  split
  · rw [State.endSweep_settings, State.decideStop_settings, ← ended]
    exact State.modChain_settings _ ch fun _ => rfl
  · rw [State.arbitrate_settings, ← ended]
    exact State.modChain_settings _ ch fun _ => rfl

theorem State.succeeded_settings (s : State) (ch : Fin 4) (t : Transaction) (f : TileFrame) :
    (s.succeeded ch t f).settings = s.settings := by
  cases f with
  | identity serial =>
    simp only [State.succeeded, State.probeAnswered, State.clearFailures]
    split_ifs <;> simp
  | ack => exact State.modChain_settings _ ch fun _ => rfl
  | status temp report =>
    have left := (s.clearFailures t.ctx).modChain_settings ch
      (f := fun k => { k with pollList := k.pollList.filter fun e => !decide (e.ctx = t.ctx) }) fun _ => rfl
    simp only [State.succeeded, State.pollAnswered, State.takeTemperature]
    split_ifs
    · exact left
    · exact left
    · rw [State.raisePart_settings, State.modCtx_settings]
      exact left
  | check w =>
    simp only [State.succeeded, State.readbackAnswered, State.testSweep_settings]
    split_ifs
    · simp [State.readbackMatch]
    · simp only [State.readbackMismatch]
      split_ifs <;> simp
  | nak => rfl
  | hold => rfl
  | rollAnswer serial => rfl

theorem State.failed_settings (s : State) (ch : Fin 4) (t : Transaction) (reason : FaultReason) :
    (s.failed ch t reason).settings = s.settings := by
  have counted : (s.countFailure ch t).settings = s.settings := by
    unfold State.countFailure
    dsimp only
    split <;> simp
  unfold State.failed
  dsimp only
  split_ifs
  · rw [← counted]
    unfold State.sendBack
    split
    · exact State.enqueueProbe_settings _ _
    · exact State.enqueuePush_settings _ _
    · exact State.modChain_settings _ ch fun _ => rfl
    · rfl
  · rw [State.enterFaulted_settings, counted]

@[simp] theorem State.handOver_settings (s : State) (ch : Fin 4) (t : Transaction) (e : Ending) :
    (s.handOver ch t e).settings = s.settings := by
  unfold State.handOver
  dsimp only
  rw [State.endFlight_settings, State.routeCarried_settings]
  split_ifs
  · split
    · exact s.succeeded_settings ch t _
    · exact s.failed_settings ch t _
  · rfl

@[simp] theorem State.setFlight_settings (s : State) (ch : Fin 4) (t : Transaction) :
    (s.setFlight ch t).settings = s.settings := s.modChain_settings ch fun _ => rfl

@[simp] theorem State.attemptFailed_settings (s : State) (ch : Fin 4) (t : Transaction) (reason : FaultReason) :
    (s.attemptFailed ch t reason).settings = s.settings := by
  unfold State.attemptFailed
  split_ifs
  · rw [State.setFlight_settings]
    exact s.modChain_settings ch fun _ => rfl
  · exact s.handOver_settings ch t _

/-! ## The links and the rolls -/

@[simp] theorem State.setRoll_settings (s : State) (ch : Fin 4) (r : Roll) : (s.setRoll ch r).settings = s.settings :=
  s.modChain_settings ch fun _ => rfl

theorem frameBeginStep_settings (ch : Fin 4) (quiet waited : Nat) (s : State) :
    (frameBeginStep ch quiet waited s).settings = s.settings := by
  unfold frameBeginStep State.beginFrame
  split_ifs
  · split
    · exact s.setFlight_settings ch _
    · split
      · exact s.modChain_settings ch fun _ => rfl
      · split
        · exact s.setRoll_settings ch _
        · rfl
  · rfl

theorem frameSentStep_settings (ch : Fin 4) (s : State) : (frameSentStep ch s).settings = s.settings := by
  unfold frameSentStep
  split
  · exact s.setFlight_settings ch _
  · split
    · exact s.setRoll_settings ch _
    · rfl

theorem latchSentStep_settings (ch : Fin 4) (s : State) : (latchSentStep ch s).settings = s.settings := by
  unfold latchSentStep
  split
  · rw [State.endFlight_settings]
    exact State.modChain_settings _ ch fun _ => rfl
  · rfl

theorem tileAnswerStep_settings (ch : Fin 4) (bytes : List Byte) (quiet : Bool) (s : State) :
    (tileAnswerStep ch bytes quiet s).settings = s.settings := by
  unfold tileAnswerStep
  split
  · rfl
  · split
    · exact s.handOver_settings ch _ _
    · exact s.modChain_settings ch fun _ => rfl
    · exact s.attemptFailed_settings ch _ _
    · exact s.attemptFailed_settings ch _ _

theorem answerWindowCloseStep_settings (ch : Fin 4) (s : State) :
    (answerWindowCloseStep ch s).settings = s.settings := by
  unfold answerWindowCloseStep
  split
  · rfl
  · exact s.attemptFailed_settings ch _ _

theorem resendStep_settings (ch : Fin 4) (quiet waited : Nat) (s : State) :
    (resendStep ch quiet waited s).settings = s.settings := by
  unfold resendStep
  split
  · rfl
  · split_ifs
    · exact s.setFlight_settings ch _
    · rfl

theorem holdAnswerStep_settings (ch : Fin 4) (bytes : List Byte) (quiet : Bool) (s : State) :
    (holdAnswerStep ch bytes quiet s).settings = s.settings := by
  unfold holdAnswerStep
  split
  · rfl
  · split
    · exact s.handOver_settings ch _ _
    · exact s.attemptFailed_settings ch _ _
    · rfl

theorem holdTimerExpiryStep_settings (ch : Fin 4) (s : State) : (holdTimerExpiryStep ch s).settings = s.settings := by
  unfold holdTimerExpiryStep
  split
  · rfl
  · exact s.handOver_settings ch _ _

theorem pollRoundTimerExpiryStep_settings (ch : Fin 4) (s : State) :
    (pollRoundTimerExpiryStep ch s).settings = s.settings := by
  unfold pollRoundTimerExpiryStep
  split_ifs
  · rw [State.arbitrate_settings]
    exact s.modChain_settings ch fun _ => rfl
  · rfl

@[simp] theorem State.markLate_settings (s : State) (ch : Fin 4) : (s.markLate ch).settings = s.settings := by
  unfold State.markLate
  split_ifs
  · exact s.modChain_settings ch fun _ => rfl
  · rfl

theorem latchDeadlinePassedStep_settings (ch : Fin 4) (s : State) :
    (latchDeadlinePassedStep ch s).settings = s.settings := by
  unfold latchDeadlinePassedStep
  split_ifs
  · rw [State.arbitrate_settings, State.markLate_settings]
  · rfl

theorem verifySweepTimerExpiryStep_settings (ch : Fin 4) (s : State) :
    (verifySweepTimerExpiryStep ch s).settings = s.settings := by
  unfold verifySweepTimerExpiryStep
  split_ifs
  · rw [State.arbitrate_settings]
    exact State.modChain_settings _ ch fun _ => rfl
  · rfl

theorem State.applyFinding_settings (s : State) (i : Fin 256) (found : Nat) (f : Finding) :
    (s.applyFinding i found f).settings = s.settings := by
  unfold State.applyFinding
  dsimp only
  split
  · rfl
  · rw [State.enterLive_settings, State.modCtx_settings]
  · rfl
  · exact s.enterUnmatched_settings i _
  · rw [State.raisePart_settings, State.modCtx_settings]
  · rw [State.notice_settings, State.raisePart_settings, State.transition_settings]

theorem State.compareRoll_settings (s : State) (ch : Fin 4) (serials : List Word) :
    (s.compareRoll ch serials).1.settings = s.settings := by
  refine List.foldlRecOn State.positions (State.comparePosition ch serials) (b := (s, RollCounts.zero))
    (motive := fun acc => acc.1.settings = s.settings) rfl fun acc same a _ => ?_
  rw [← same]
  unfold State.comparePosition
  dsimp only
  split
  · exact State.applyFinding_settings _ _ _ _
  · exact State.raisePart_settings _ _ _ _ _ _
  · rfl

theorem State.leaveRoll_settings (s : State) (ch : Fin 4) (r : Roll) : (s.leaveRoll ch r).settings = s.settings := by
  unfold State.leaveRoll
  rw [State.arbitrate_settings]
  exact s.modChain_settings ch fun _ => rfl

theorem State.answerRoll_settings (s : State) (ch : Fin 4) (r : Roll) (data : List Byte) :
    (s.answerRoll ch r data).settings = s.settings := by
  unfold State.answerRoll
  split_ifs
  · rfl
  · exact s.decideSweepOrRoll_settings ch _ _ _

@[simp] theorem State.completeRoll_settings (s : State) (ch : Fin 4) (r : Roll) (e : RollEnd) :
    (s.completeRoll ch r e).settings = s.settings := by
  unfold State.completeRoll
  split_ifs
  · exact s.leaveRoll_settings ch r
  · rw [State.leaveRoll_settings, State.answerRoll_settings, State.compareRoll_settings]

theorem State.giveUpAttempt_settings (s : State) (ch : Fin 4) (r : Roll) :
    (s.giveUpAttempt ch r).settings = s.settings := by
  unfold State.giveUpAttempt
  split_ifs
  · exact s.leaveRoll_settings ch r
  · exact s.setRoll_settings ch _
  · rw [State.leaveRoll_settings, State.answerRoll_settings]

theorem rollSlotAnswerStep_settings (ch : Fin 4) (bytes : List Byte) (quiet : Bool) (s : State) :
    (rollSlotAnswerStep ch bytes quiet s).settings = s.settings := by
  unfold rollSlotAnswerStep
  split
  · rfl
  · split
    · dsimp only
      split_ifs
      · exact s.leaveRoll_settings ch _
      · exact s.setRoll_settings ch _
      · exact s.completeRoll_settings ch _ _
    · exact s.giveUpAttempt_settings ch _

theorem rollSlotCloseStep_settings (ch : Fin 4) (s : State) : (rollSlotCloseStep ch s).settings = s.settings := by
  unfold rollSlotCloseStep
  split
  · rfl
  · exact s.completeRoll_settings ch _ _

theorem rollRetryStep_settings (ch : Fin 4) (quiet waited : Nat) (s : State) :
    (rollRetryStep ch quiet waited s).settings = s.settings := by
  unfold rollRetryStep
  split
  · rfl
  · split_ifs
    · exact s.setRoll_settings ch _
    · rfl

/-! ## Restarts and the register window -/

@[simp] theorem State.chainRestart_settings (s : State) (ch : Fin 4) : (s.chainRestart ch).settings = s.settings := by
  rw [State.chainRestart_eq]
  have restarted : (s.modChain ch Chain.restarted).settings = s.settings := s.modChain_settings ch fun _ => rfl
  split_ifs
  · rw [State.arbitrate_settings, restarted]
  · exact restarted

@[simp] theorem State.chainRestarts_settings (s : State) : s.chainRestarts.settings = s.settings :=
  State.foldl_settings State.chainRestart_settings _ s

/-- A restart clears the freeze set, and no setting (R92, R111). -/
theorem State.restart_settings (s : State) : s.restart.settings = { s.settings with freezeSet := [] } := by
  have blocks : ((s.dirtyAll.modRamp fun r => { r with freezeSet := [] }).modLogs fun _ => Logs.reset).settings =
      { s.settings with freezeSet := [] } := rfl
  unfold State.restart
  dsimp only
  split
  · rw [State.modIntake_settings, State.chainRestarts_settings, blocks]
  · rw [State.intakeRestart_settings, State.chainRestarts_settings, blocks]

@[simp] theorem State.afterCard_settings (s : State) (w : Walk) : (s.afterCard w).settings = s.settings := by
  unfold State.afterCard
  split_ifs
  · rw [State.requestScan_settings, State.intakeRestart_settings, State.chainRestarts_settings]
  · rw [State.intakeRestart_settings, State.chainRestarts_settings]
  · rfl
  · exact State.goOn_settings _

theorem State.writeRun_settings (s : State) (v : Bool) : (s.writeRun v).settings = { s.settings with run := v } := by
  unfold State.writeRun
  dsimp only
  split_ifs
  · rfl
  · rfl
  · exact State.requestScan_settings _
  · rfl

/-- A write to RUN_CTRL sets RUN, and clears the freeze set where it restarts (R92, R174). -/
theorem State.writeRunCtrl_settings (s : State) (restart run scan : Bool) (host : List HostWrite) :
    (s.writeRunCtrl restart run scan host).settings =
      { s.settings with run := run, freezeSet := if restart then [] else s.ramp.freezeSet } := by
  have stored : (s.hostWrites host).settings = s.settings := rfl
  unfold State.writeRunCtrl
  dsimp only
  generalize s.hostWrites host = u at stored ⊢
  have later : ∀ v : State, (v.writeBitsLater run scan).settings = { v.settings with run := run } := fun v => by
    unfold State.writeBitsLater
    dsimp only
    rw [State.modIntake_settings]
    split_ifs with set
    · rw [set]; rfl
    · rw [State.writeRun_settings, Bool.eq_false_iff.2 set]
  have freeze : u.settings.freezeSet = s.ramp.freezeSet := congrArg Settings.freezeSet stored
  have restarted : u.restart.settings = { s.settings with freezeSet := [] } := by rw [State.restart_settings, stored]
  generalize u.restart = v at restarted ⊢
  cases restart with
  | true =>
    simp only [Bool.true_and, if_true]
    split_ifs
    · rw [later, restarted]
    · rw [State.requestScan_settings, State.writeRun_settings, restarted]
    · rw [State.writeRun_settings, restarted]
  | false =>
    simp only [Bool.false_and, Bool.false_eq_true, if_false]
    split_ifs
    · rw [State.requestScan_settings, State.writeRun_settings, stored]; rfl
    · rw [State.writeRun_settings, stored]; rfl

theorem scanTimerExpiryStep_settings (host : List HostWrite) (s : State) :
    (scanTimerExpiryStep host s).settings = s.settings := by
  unfold scanTimerExpiryStep
  dsimp only
  split_ifs
  · exact State.requestScan_settings _
  · rfl

theorem followingScanStep_settings (host : List HostWrite) (s : State) :
    (followingScanStep host s).settings = s.settings := by
  unfold followingScanStep
  dsimp only
  split_ifs
  · exact State.requestScan_settings _
  · rfl

/-! ## Frame events and solves -/

/-- A beat counter at a frame event: it starts again with the beat that it makes (R86). -/
def nextBeat (beat count : Nat) : Nat := if beat ≤ count + 1 then 0 else count + 1

theorem State.frameEvent_settings (s : State) : s.frameEvent.settings =
    { s.settings with beats := fun g => nextBeat (s.group g).beat (s.group g).beatCount } := by
  have counts : ∀ (u : State) chs, (u.takeCounts chs).settings = u.settings := fun u chs =>
    State.foldl_settings (fun v ch => by
      rw [State.arbitrate_settings]
      exact v.modChain_settings ch fun _ => rfl) chs u
  have acts : ∀ (u : State) g, (u.beatActs g).settings = u.settings := fun u g =>
    State.foldl_settings (fun x (i : Fin 256 × Context) => x.enqueuePush_settings i.1) _ { u with contexts := _ }
  have beats : ∀ (u : State) gs, (u.takeBeats gs).settings = u.settings := fun u gs => by
    unfold State.takeBeats State.arbitrateAll
    rw [State.foldl_settings State.arbitrate_settings]
    exact State.foldl_settings acts gs u
  have counted : (s.unordered s.acting).2.countBeats.settings =
      { s.settings with beats := fun g => nextBeat (s.group g).beat (s.group g).beatCount } := by
    obtain ⟨n, -, e⟩ := s.unordered_eq s.acting
    rw [e]
    simp only [State.settings, State.countBeats, Table.get_map]
    rfl
  unfold State.frameEvent
  dsimp only
  rw [← counted]
  split_ifs
  · rw [counts, beats, counts]; rfl
  · rw [counts, beats]

theorem State.endSolves_settings (s : State) (vs : List Solve) : (s.endSolves vs).settings = s.settings := by
  unfold State.endSolves
  rw [State.raiseTogether_settings]
  refine State.foldl_settings (fun u v => ?_) vs s
  have members : ((u.solveResults v).foldl State.writeMember u).settings = u.settings :=
    State.foldl_settings (fun x m => by unfold State.writeMember; split_ifs <;> simp) _ u
  rw [← members]
  exact State.modGroup_settings ((u.solveResults v).foldl State.writeMember u) v.group (f := fun r => r.solved (u.solveTargets v)) fun _ => ⟨rfl, rfl⟩

theorem State.beginSolve_settings (s : State) (g : Fin 8) : (s.beginSolve g).settings = s.settings :=
  s.modGroup_settings g (f := fun r => { r with pending := false }) fun _ => ⟨rfl, rfl⟩

theorem State.service_settings (s : State) : s.service.settings = s.settings := by
  unfold State.service State.serviceWith
  dsimp only
  have ended := s.endSolves_settings s.solves
  generalize s.endSolves s.solves = u at ended ⊢
  split_ifs
  · exact ended
  · rw [State.endSolves_settings, ← ended]
    exact State.foldl_settings State.beginSolve_settings _ { u with freeIndex := u.freeIndex + 2 }

end Sys2Proof.Machine
end

section
/-! What each command may change of the settings, that every command keeps the waiting commands, and that every step
keeps the settings in range. -/

namespace Sys2Proof.Machine

/-! ## The ranges -/

/-- The settings of a group and its beat counter lie in their ranges (R59, R86). -/
def GroupSettings.inRange (v : GroupSettings) (beatCount : Nat) : Prop :=
  (26214 ≤ v.headroom ∧ v.headroom ≤ 32768) ∧ (1 ≤ v.cap ∧ v.cap ≤ 262143) ∧ (1 ≤ v.slew ∧ v.slew ≤ 4096) ∧
    (1 ≤ v.beat ∧ v.beat ≤ 255) ∧ v.solveInterval ≤ 600 ∧ (1 ≤ v.staleLimit ∧ v.staleLimit ≤ 60) ∧
    beatCount < v.beat

/-- Every setting lies in its range. -/
def Settings.inRange (a : Settings) : Prop :=
  (∀ g, (a.groups g).inRange (a.beats g)) ∧ (∀ ch, (a.configs ch).lawful) ∧ (100 ≤ a.period ∧ a.period ≤ 5000) ∧
    ∀ p, (a.pages.get p).lawful

/-- The freeze set is lawful. -/
def Settings.freezes (a : Settings) : Prop :=
  a.freezeSet.length ≤ 4 ∧ a.freezeSet.Pairwise (· < ·) ∧ ∀ t ∈ a.freezeSet, 1 ≤ t ∧ t ≤ 255

theorem State.settingsLawful_iff (s : State) : s.settingsLawful ↔ s.settings.inRange := Iff.rfl

theorem RampUnit.freezeLawful_iff (s : State) : s.ramp.freezeLawful ↔ s.settings.freezes := Iff.rfl

/-! ## What a command may change -/

/-- `b` has the settings of `a`, but for those that the command sets. -/
def Settings.changesAt (c : Instr) (a b : Settings) : Prop :=
  b.pending = a.pending ∧
    ((∀ v, c ≠ .freezeInChange v) → b.freezeIn = a.freezeIn) ∧ ((∀ v, c ≠ .perstN v) → b.linkUp = a.linkUp) ∧
    (c ≠ .powerOnReset →
      b.clock = a.clock ∧ ((∀ v, c ≠ .areaLoWrite v) → b.areaLo = a.areaLo) ∧
      ((∀ v, c ≠ .areaHiWrite v) → b.areaHi = a.areaHi) ∧ ((∀ v, c ≠ .noticeMaskWrite v) → b.noticeMask = a.noticeMask) ∧
      ((∀ r sc h, c ≠ .restart r sc h) → (∀ r h, c ≠ .run r h) → (∀ r h, c ≠ .scan r h) → b.run = a.run) ∧
      (c ≠ .setMode → b.mode = a.mode) ∧ (c ≠ .setFrame → b.period = a.period) ∧ (c ≠ .loadCurve → b.pages = a.pages) ∧
      (c ≠ .setFilter → b.filters = a.filters) ∧ (c ≠ .setChain → b.configs = a.configs) ∧
      (c ≠ .setGroup → b.groups = a.groups))

/-- A command that may change settings at its own alone, and keeps them in range. -/
structure Settings.stepsTo (c : Instr) (a b : Settings) : Prop where
  changes : Settings.changesAt c a b
  range : a.inRange → b.inRange
  freezes : a.freezes → b.freezes

theorem Settings.stepsTo_refl (c : Instr) (a : Settings) : Settings.stepsTo c a a := by
  refine ⟨?_, id, id⟩
  simp [Settings.changesAt]

theorem Settings.stepsTo_of_eq {c : Instr} {a b : Settings} (h : b = a) : Settings.stepsTo c a b :=
  h ▸ Settings.stepsTo_refl c a

/-- A card's dispatch does to the settings what its own function does: the scan that goes on does nothing to them. -/
theorem State.dispatchCard_settings (c : Instr) (s : State) (r : Request) {f : Walk → State → State}
    (h : ∀ w u, Settings.stepsTo c u.settings (f w u).settings) :
    Settings.stepsTo c s.settings (s.dispatchCard r f).settings := by
  unfold State.dispatchCard
  split
  · exact Settings.stepsTo_refl c _
  · next w _ =>
    split_ifs
    · rw [State.afterCard_settings]
      exact h w (s.modIntake fun k => { k with walk := none })
    · exact Settings.stepsTo_refl c _

/-! ## Cards that change no setting -/

theorem State.foldPending_settings (gs : List (Fin 8)) (s : State) :
    (gs.foldl State.solvePending s).settings = s.settings := State.foldl_settings State.solvePending_settings gs s

theorem State.areaRead_settings_of {s t : State} {off n : Nat} {bs : Option (List Byte)}
    (h : s.areaRead off n = (bs, t)) : t.settings = s.settings := by
  rw [← snd_of_eq h, State.areaRead_settings]

theorem State.adoptCtx_settings (s : State) (i : Fin 256) (sh : Sheet) (p : Position) (taken : Tick) :
    (s.adoptCtx i sh p taken).settings = s.settings := by
  unfold State.adoptCtx
  dsimp only
  split_ifs <;> simp

theorem dispatchAdopt_settings (w : Walk) (s : State) : (dispatchAdopt w s).settings = s.settings := by
  unfold dispatchAdopt
  split
  · exact s.refuseCard_settings _ _
  · split
    · next read => exact State.areaRead_settings_of read
    · next bs s1 read =>
      rw [← State.areaRead_settings_of read]
      dsimp only
      split
      · exact s1.refuseCard_settings _ _
      · split_ifs
        · exact s1.refuseCard_settings _ _
        · rw [State.completeCard_settings, State.adoptCtx_settings]

theorem dispatchRetire_settings (w : Walk) (s : State) : (dispatchRetire w s).settings = s.settings := by
  unfold dispatchRetire
  split
  · exact s.refuseCard_settings _ _
  · split_ifs
    · exact s.refuseCard_settings _ _
    · simp [State.retireCtx]

theorem dispatchSolve_settings (w : Walk) (s : State) : (dispatchSolve w s).settings = s.settings := by
  unfold dispatchSolve
  dsimp only
  split_ifs
  · rw [State.completeCard_settings, State.foldPending_settings]
  · split
    · exact s.refuseCard_settings _ _
    · rw [State.completeCard_settings, State.foldPending_settings]

theorem dispatchStartChain_settings (w : Walk) (s : State) : (dispatchStartChain w s).settings = s.settings := by
  unfold dispatchStartChain
  split
  · exact s.refuseCard_settings _ _
  · next ch _ =>
    split
    · exact s.refuseCard_settings _ _
    · rw [State.completeCard_settings, ← s.markLate_settings ch]
      unfold State.startChain
      rw [State.arbitrate_settings]
      exact State.modChain_settings _ ch fun _ => rfl
    · exact s.completeCard_settings _ _ _

theorem State.stopTo_settings (s : State) (ch : Fin 4) (st : ChainState) : (s.stopTo ch st).settings = s.settings :=
  s.modChain_settings ch fun _ => rfl

theorem dispatchStopChain_settings (w : Walk) (s : State) : (dispatchStopChain w s).settings = s.settings := by
  unfold dispatchStopChain
  split
  · exact s.refuseCard_settings _ _
  · split_ifs
    · exact s.refuseCard_settings _ _
    · split
      · rw [State.endSweep_settings, State.completeCard_settings]
      · dsimp only
        rw [State.endSweep_settings, State.completeCard_settings, State.stopTo_settings]
      · rw [State.holdCard_settings, State.stopTo_settings]

theorem dispatchVerify_settings (w : Walk) (s : State) : (dispatchVerify w s).settings = s.settings := by
  unfold dispatchVerify
  split
  · exact s.refuseCard_settings _ _
  · next ch _ =>
    have begun : (s.beginSweep ch).settings = s.settings := State.modChain_settings _ ch fun _ => rfl
    split_ifs
    · exact s.refuseCard_settings _ _
    · dsimp only
      split_ifs
      · rw [State.completeCard_settings, ← begun]
        exact State.modChain_settings _ ch fun _ => rfl
      · rw [State.arbitrate_settings, State.holdCard_settings, begun]

theorem dispatchRollCall_settings (w : Walk) (s : State) : (dispatchRollCall w s).settings = s.settings := by
  unfold dispatchRollCall
  split
  · exact s.refuseCard_settings _ _
  · next ch _ =>
    split_ifs
    · exact s.refuseCard_settings _ _
    · rw [State.arbitrate_settings, State.holdCard_settings]
      exact s.modChain_settings ch fun _ => rfl

/-! ## Freeze sets (R92 to R94) -/

theorem mem_insertTag (t u : Nat) (l : List Nat) : u ∈ insertTag t l ↔ u = t ∨ u ∈ l := by
  induction l with
  | nil => simp [insertTag]
  | cons v l ih =>
    unfold insertTag
    split_ifs
    · simp
    · simp only [List.mem_cons, ih]; tauto

theorem insertTag_length (t : Nat) (l : List Nat) : (insertTag t l).length = l.length + 1 := by
  induction l with
  | nil => rfl
  | cons v l ih =>
    unfold insertTag
    split_ifs <;> simp [ih]

theorem insertTag_pairwise {t : Nat} {l : List Nat} (new : t ∉ l) (h : l.Pairwise (· < ·)) :
    (insertTag t l).Pairwise (· < ·) := by
  induction l with
  | nil => simp [insertTag]
  | cons v l ih =>
    obtain ⟨above, rest⟩ := List.pairwise_cons.1 h
    obtain ⟨ne, later⟩ := not_or.1 (mt List.mem_cons.2 new)
    unfold insertTag
    split_ifs with below
    · refine List.pairwise_cons.2 ⟨fun u mem => ?_, h⟩
      rcases List.mem_cons.1 mem with rfl | mem
      · exact below
      · exact below.trans (above u mem)
    · refine List.pairwise_cons.2 ⟨fun u mem => ?_, ih later rest⟩
      rcases (mem_insertTag t u l).1 mem with rfl | mem
      · omega
      · exact above u mem

theorem dispatchFreeze_settings (w : Walk) (s : State) :
    Settings.stepsTo .freeze s.settings (dispatchFreeze w s).settings := by
  unfold dispatchFreeze
  dsimp only
  split_ifs with bad held full
  · exact Settings.stepsTo_of_eq (s.refuseCard_settings _ _)
  · exact Settings.stepsTo_of_eq (s.completeCard_settings _ _ _)
  · exact Settings.stepsTo_of_eq (s.completeCard_settings _ _ _)
  · rw [State.completeCard_settings]
    refine ⟨by simp [Settings.changesAt, State.settings], id, ?_⟩
    rintro ⟨-, sorted, range⟩
    refine ⟨?_, insertTag_pairwise held sorted, fun t mem => ?_⟩
    · show (insertTag _ s.ramp.freezeSet).length ≤ 4
      rw [insertTag_length]; omega
    · rcases (mem_insertTag _ t _).1 mem with rfl | mem
      · omega
      · exact range t mem

theorem dispatchThaw_settings (w : Walk) (s : State) :
    Settings.stepsTo .thaw s.settings (dispatchThaw w s).settings := by
  unfold dispatchThaw
  dsimp only
  split_ifs
  · exact Settings.stepsTo_of_eq (s.refuseCard_settings _ _)
  · rw [State.completeCard_settings]
    refine ⟨by simp [Settings.changesAt, State.settings], id, ?_⟩
    rintro ⟨few, sorted, range⟩
    exact ⟨(List.length_filter_le _ _).trans few, sorted.filter _, fun t mem => range t (List.mem_filter.1 mem).1⟩
  · exact Settings.stepsTo_of_eq (s.completeCard_settings _ _ _)

/-! ## Cards that set (R59, R72, R79, R84, R113, R159) -/

theorem Walk.groupSettings_inRange (w : Walk) : w.groupSettings.inRange 0 :=
  ⟨clampNat_bounds (by decide) _, clampNat_bounds (by decide) _, clampNat_bounds (by decide) _,
    clampNat_bounds (by decide) _, (clampNat_bounds (Nat.zero_le 600) _).2, clampNat_bounds (by decide) _,
    (clampNat_bounds (by decide : 1 ≤ 255) _).1⟩

theorem dispatchSetGroup_settings (w : Walk) (s : State) :
    Settings.stepsTo .setGroup s.settings (dispatchSetGroup w s).settings := by
  unfold dispatchSetGroup
  split
  · exact Settings.stepsTo_of_eq (s.refuseCard_settings _ _)
  · next g _ =>
    dsimp only
    rw [State.completeCard_settings]
    refine ⟨by simp [Settings.changesAt, State.settings], ?_, id⟩
    rintro ⟨groups, rest⟩
    refine ⟨fun h => ?_, rest⟩
    show ((s.modGroup g fun r => r.set w.groupSettings).group h).settings.inRange
      ((s.modGroup g fun r => r.set w.groupSettings).group h).beatCount
    rw [State.modGroup_group]
    split_ifs
    · exact w.groupSettings_inRange
    · exact groups h

theorem firstZero_none {t : Table Nat 99} (h : firstZero t = none) (k : Fin 99) : t.get k ≠ 0 := by
  have each := List.find?_eq_none.1 h k.val (List.mem_range.2 k.isLt)
  have cell : t.cells.getD k.val 0 = t.get k := by
    rw [List.getD_eq_getElem _ _ (by rw [t.size]; exact k.isLt)]; rfl
  rw [cell] at each
  simpa using each

theorem dispatchLoadCurve_settings (w : Walk) (s : State) :
    Settings.stepsTo .loadCurve s.settings (dispatchLoadCurve w s).settings := by
  unfold dispatchLoadCurve
  split
  · next slot p _ _ =>
    split
    · next read => exact Settings.stepsTo_of_eq (State.areaRead_settings_of read)
    · next bs s1 read =>
      rw [← State.areaRead_settings_of read]
      dsimp only
      split
      · exact Settings.stepsTo_of_eq (s1.completeCard_settings _ _ _)
      · next nonzero =>
        rw [State.completeCard_settings, State.foldPending_settings]
        refine ⟨by simp [Settings.changesAt, State.settings], ?_, id⟩
        rintro ⟨groups, configs, period, pages⟩
        refine ⟨groups, configs, period, fun q => ?_⟩
        show ((s1.pages.set p { loaded := true, entries := slotEntries bs }).get q).lawful
        rw [Table.get_set]
        split_ifs
        · exact fun _ => firstZero_none nonzero
        · exact pages q
  · exact Settings.stepsTo_of_eq (s.refuseCard_settings _ _)

theorem dispatchSetMode_settings (w : Walk) (s : State) :
    Settings.stepsTo .setMode s.settings (dispatchSetMode w s).settings := by
  unfold dispatchSetMode
  split
  · exact Settings.stepsTo_of_eq (s.refuseCard_settings _ _)
  · rw [State.completeCard_settings]
    exact ⟨by simp [Settings.changesAt, State.settings], id, id⟩

theorem dispatchSetFrame_settings (w : Walk) (s : State) :
    Settings.stepsTo .setFrame s.settings (dispatchSetFrame w s).settings := by
  unfold dispatchSetFrame
  dsimp only
  split_ifs with bad
  · exact Settings.stepsTo_of_eq (s.refuseCard_settings _ _)
  · have set : (s.modRamp fun r => r.setPeriod (w.param16 0)).settings = { s.settings with period := w.param16 0 } := by
      simp only [State.settings, State.modRamp, RampUnit.setPeriod]
      cases s.ramp.frameState <;> rfl
    rw [State.completeCard_settings, set]
    refine ⟨by simp [Settings.changesAt], ?_, id⟩
    rintro ⟨groups, configs, -, pages⟩
    exact ⟨groups, configs, ⟨by show 100 ≤ w.param16 0; omega, by show w.param16 0 ≤ 5000; omega⟩, pages⟩

theorem Walk.chainConfig_lawful {w : Walk} {c : ChainConfig} (h : w.chainConfig = some c) : c.lawful := by
  unfold Walk.chainConfig at h
  split at h
  · dsimp only at h
    split_ifs at h with ok
    obtain rfl := Option.some.inj h
    exact ok
  · cases h

theorem dispatchSetChain_settings (w : Walk) (s : State) :
    Settings.stepsTo .setChain s.settings (dispatchSetChain w s).settings := by
  unfold dispatchSetChain
  split
  · next ch c _ given =>
    split_ifs
    · exact Settings.stepsTo_of_eq (s.refuseCard_settings _ _)
    · exact Settings.stepsTo_of_eq (s.refuseCard_settings _ _)
    · rw [State.completeCard_settings]
      refine ⟨by simp [Settings.changesAt, State.settings], ?_, id⟩
      rintro ⟨groups, configs, rest⟩
      refine ⟨groups, fun j => ?_, rest⟩
      show ((s.modChain ch fun k => { k with config := c }).chain j).config.lawful
      rw [State.modChain_chain]
      split_ifs
      · exact Walk.chainConfig_lawful given
      · exact configs j
  · exact Settings.stepsTo_of_eq (s.refuseCard_settings _ _)

theorem dispatchSetFilter_settings (w : Walk) (s : State) :
    Settings.stepsTo .setFilter s.settings (dispatchSetFilter w s).settings := by
  unfold dispatchSetFilter
  split
  · rw [State.completeCard_settings]
    exact ⟨by simp [Settings.changesAt, State.settings], id, id⟩
  · exact Settings.stepsTo_of_eq (s.refuseCard_settings _ _)

/-! ## Frame events, resets and registers -/

theorem nextBeat_lt {beat count : Nat} (h : count < beat) : nextBeat beat count < beat := by
  unfold nextBeat
  split_ifs <;> omega

/-- A frame event counts beats, and sets nothing (R86). -/
theorem Settings.stepsTo_of_beats {c : Instr} {s t : State} (h : t.settings =
    { s.settings with beats := fun g => nextBeat (s.group g).beat (s.group g).beatCount }) :
    Settings.stepsTo c s.settings t.settings := by
  rw [h]
  refine ⟨by simp [Settings.changesAt], ?_, id⟩
  rintro ⟨groups, rest⟩
  refine ⟨fun g => ?_, rest⟩
  obtain ⟨headroom, cap, slew, beat, interval, stale, count⟩ := groups g
  exact ⟨headroom, cap, slew, beat, interval, stale, nextBeat_lt count⟩

theorem frameEdgeStep_settings (s : State) :
    Settings.stepsTo .frameEdge s.settings (frameEdgeStep s).settings := by
  unfold frameEdgeStep
  split
  · exact Settings.stepsTo_of_beats (State.frameEvent_settings (s.modRamp _))
  · split
    · exact Settings.stepsTo_refl _ _
    · split_ifs
      · exact Settings.stepsTo_of_beats (State.frameEvent_settings s.regain)
      · exact Settings.stepsTo_refl _ _

theorem lossTimerExpiryStep_settings (s : State) : (lossTimerExpiryStep s).settings = s.settings := by
  unfold lossTimerExpiryStep
  split_ifs <;> rfl

theorem substituteTimerExpiryStep_settings (s : State) :
    Settings.stepsTo .substituteTimerExpiry s.settings (substituteTimerExpiryStep s).settings := by
  unfold substituteTimerExpiryStep
  split_ifs
  · exact Settings.stepsTo_of_beats (State.frameEvent_settings (s.modRamp _))
  · exact Settings.stepsTo_refl _ _

theorem solveTimerExpiryStep_settings (g : Fin 8) (s : State) : (solveTimerExpiryStep g s).settings = s.settings := by
  unfold solveTimerExpiryStep
  split_ifs
  · exact s.modGroup_settings g (f := fun r => { r with pending := true, solveTimer := none }) fun _ => ⟨rfl, rfl⟩
  · rfl

theorem serviceTimerExpiryStep_settings (s : State) : (serviceTimerExpiryStep s).settings = s.settings := by
  unfold serviceTimerExpiryStep
  split_ifs
  · rfl
  · exact State.service_settings { s with serviceTimer := some Config.serviceMicros }

theorem Settings.reset_inRange {t : State} (groups : ∀ g, t.group g = Group.reset) (chains : ∀ ch, t.chain ch = Chain.reset)
    (period : t.ramp.period = 1667) (pages : ∀ p, t.pages.get p = Page.reset) : t.settings.inRange := by
  refine ⟨fun g => ?_, fun ch => ?_, ?_, fun p => ?_⟩
  · show (t.group g).settings.inRange (t.group g).beatCount
    rw [groups]; simp [Group.reset, Group.settings, GroupSettings.inRange]
  · show (t.chain ch).config.lawful
    rw [chains]; simp [Chain.reset, ChainConfig.reset, ChainConfig.lawful]
  · show 100 ≤ t.ramp.period ∧ t.ramp.period ≤ 5000
    omega
  · show (t.pages.get p).lawful
    rw [pages]; exact fun loaded => by cases loaded

theorem State.powerOn_settings (s : State) : Settings.stepsTo .powerOnReset s.settings s.powerOn.settings := by
  refine ⟨by simp [Settings.changesAt, State.settings, State.powerOn], fun _ => ?_, fun _ => ?_⟩
  · exact Settings.reset_inRange State.reset_group State.reset_chain rfl fun p => Table.get_replicate _ _
  · simp [Settings.freezes, State.settings, State.powerOn, RampUnit.reset]

theorem State.writeArea_settings (s : State) (f : Registers → Registers) :
    (s.writeArea f).settings = s.settings ∨ (s.writeArea f).settings = ({ s with regs := f s.regs } : State).settings := by
  unfold State.writeArea
  split_ifs
  · exact .inl rfl
  · exact .inr rfl

theorem areaLoWriteStep_settings (v : Word) (s : State) :
    Settings.stepsTo (.areaLoWrite v) s.settings (areaLoWriteStep v s).settings := by
  rcases s.writeArea_settings fun r => { r with areaLo := v.extractLsb' 16 16 } with e | e <;>
    rw [areaLoWriteStep, e]
  · exact Settings.stepsTo_refl _ _
  · exact ⟨by simp [Settings.changesAt, State.settings], id, id⟩

theorem areaHiWriteStep_settings (v : Word) (s : State) :
    Settings.stepsTo (.areaHiWrite v) s.settings (areaHiWriteStep v s).settings := by
  rcases s.writeArea_settings fun r => { r with areaHi := v } with e | e <;> rw [areaHiWriteStep, e]
  · exact Settings.stepsTo_refl _ _
  · exact ⟨by simp [Settings.changesAt, State.settings], id, id⟩

/-- A write to RUN_CTRL by one of its commands changes RUN, and where it restarts the freeze set (R174). -/
theorem State.writeRunCtrl_stepsTo {c : Instr} (s : State) (restart run scan : Bool) (host : List HostWrite)
    (own : (∃ r sc h, c = .restart r sc h) ∨ (∃ r h, c = .run r h) ∨ ∃ r h, c = .scan r h) :
    Settings.stepsTo c s.settings (s.writeRunCtrl restart run scan host).settings := by
  rw [State.writeRunCtrl_settings]
  refine ⟨?_, id, fun lawful => ?_⟩
  · rcases own with ⟨r, sc, h, rfl⟩ | ⟨r, h, rfl⟩ | ⟨r, h, rfl⟩ <;> simp [Settings.changesAt]
  · cases restart with
    | true => exact ⟨by simp, List.Pairwise.nil, by simp⟩
    | false => exact lawful

/-! ## Every command and every step -/

theorem perform_settings (c : Instr) (s : State) : Settings.stepsTo c.within s.settings (perform c s).settings := by
  induction c generalizing s with
  | powerOnReset => exact s.powerOn_settings
  | perstN asserted => exact ⟨by simp [Settings.changesAt, Instr.within, State.settings, perform, perstNStep, State.setLink], id, id⟩
  | areaLoWrite v => exact areaLoWriteStep_settings v s
  | areaHiWrite v => exact areaHiWriteStep_settings v s
  | partIdWrite v => exact Settings.stepsTo_refl _ _
  | restart run scan host => exact s.writeRunCtrl_stepsTo true run scan host (.inl ⟨_, _, _, rfl⟩)
  | run run host => exact s.writeRunCtrl_stepsTo false run false host (.inr (.inl ⟨_, _, rfl⟩))
  | scan run host => exact s.writeRunCtrl_stepsTo false run true host (.inr (.inr ⟨_, _, rfl⟩))
  | noticeRawWrite v => exact Settings.stepsTo_refl _ _
  | noticeMaskWrite v =>
    exact ⟨by simp [Settings.changesAt, Instr.within, State.settings, perform, noticeMaskWriteStep, State.setMask], id, id⟩
  | scanTimerExpiry host => exact Settings.stepsTo_of_eq (scanTimerExpiryStep_settings host s)
  | followingScan host => exact Settings.stepsTo_of_eq (followingScanStep_settings host s)
  | areaBusError n during ih => exact ih s
  | adopt => exact s.dispatchCard_settings _ _ fun w u => Settings.stepsTo_of_eq (dispatchAdopt_settings w u)
  | retire => exact s.dispatchCard_settings _ _ fun w u => Settings.stepsTo_of_eq (dispatchRetire_settings w u)
  | solve => exact s.dispatchCard_settings _ _ fun w u => Settings.stepsTo_of_eq (dispatchSolve_settings w u)
  | setGroup => exact s.dispatchCard_settings _ _ dispatchSetGroup_settings
  | loadCurve => exact s.dispatchCard_settings _ _ dispatchLoadCurve_settings
  | setMode => exact s.dispatchCard_settings _ _ dispatchSetMode_settings
  | freeze => exact s.dispatchCard_settings _ _ dispatchFreeze_settings
  | thaw => exact s.dispatchCard_settings _ _ dispatchThaw_settings
  | setFrame => exact s.dispatchCard_settings _ _ dispatchSetFrame_settings
  | setChain => exact s.dispatchCard_settings _ _ dispatchSetChain_settings
  | startChain => exact s.dispatchCard_settings _ _ fun w u => Settings.stepsTo_of_eq (dispatchStartChain_settings w u)
  | stopChain => exact s.dispatchCard_settings _ _ fun w u => Settings.stepsTo_of_eq (dispatchStopChain_settings w u)
  | verify => exact s.dispatchCard_settings _ _ fun w u => Settings.stepsTo_of_eq (dispatchVerify_settings w u)
  | rollCall => exact s.dispatchCard_settings _ _ fun w u => Settings.stepsTo_of_eq (dispatchRollCall_settings w u)
  | setFilter => exact s.dispatchCard_settings _ _ dispatchSetFilter_settings
  | frameEdge => exact frameEdgeStep_settings s
  | lossTimerExpiry => exact Settings.stepsTo_of_eq (lossTimerExpiryStep_settings s)
  | substituteTimerExpiry => exact substituteTimerExpiryStep_settings s
  | freezeInChange asserted =>
    exact ⟨by simp [Settings.changesAt, Instr.within, State.settings, perform, freezeInChangeStep], id, id⟩
  | solveTimerExpiry g => exact Settings.stepsTo_of_eq (solveTimerExpiryStep_settings g s)
  | serviceTimerExpiry => exact Settings.stepsTo_of_eq (serviceTimerExpiryStep_settings s)
  | stalenessCheckExpiry => exact Settings.stepsTo_refl _ _
  | frameSent ch => exact Settings.stepsTo_of_eq (frameSentStep_settings ch s)
  | latchSent ch => exact Settings.stepsTo_of_eq (latchSentStep_settings ch s)
  | tileAnswer ch bytes quiet => exact Settings.stepsTo_of_eq (tileAnswerStep_settings ch bytes quiet s)
  | answerWindowClose ch => exact Settings.stepsTo_of_eq (answerWindowCloseStep_settings ch s)
  | resend ch quiet waited => exact Settings.stepsTo_of_eq (resendStep_settings ch quiet waited s)
  | holdAnswer ch bytes quiet => exact Settings.stepsTo_of_eq (holdAnswerStep_settings ch bytes quiet s)
  | holdTimerExpiry ch => exact Settings.stepsTo_of_eq (holdTimerExpiryStep_settings ch s)
  | pollRoundTimerExpiry ch => exact Settings.stepsTo_of_eq (pollRoundTimerExpiryStep_settings ch s)
  | latchDeadlinePassed ch => exact Settings.stepsTo_of_eq (latchDeadlinePassedStep_settings ch s)
  | verifySweepTimerExpiry ch => exact Settings.stepsTo_of_eq (verifySweepTimerExpiryStep_settings ch s)
  | rollSlotAnswer ch bytes quiet => exact Settings.stepsTo_of_eq (rollSlotAnswerStep_settings ch bytes quiet s)
  | rollSlotClose ch => exact Settings.stepsTo_of_eq (rollSlotCloseStep_settings ch s)
  | rollRetry ch quiet waited => exact Settings.stepsTo_of_eq (rollRetryStep_settings ch quiet waited s)
  | frameBegin ch quiet waited => exact Settings.stepsTo_of_eq (frameBeginStep_settings ch quiet waited s)

theorem Instr.within_within (c : Instr) : c.within.within = c.within := by
  induction c with
  | areaBusError n during ih => exact ih
  | _ => rfl

theorem exec_settings (c : Instr) (s : State) :
    ∃ t, exec c s = .next t ∧ Settings.stepsTo c.within s.settings t.settings := by
  obtain ⟨n, e⟩ := exec_within c s
  refine ⟨_, e, ?_⟩
  have performed := perform_settings c.within (s.setFailAfter n)
  rwa [Instr.within_within] at performed

/-- Settles O2: no command stops, and none touches the waiting commands. -/
theorem everyCommandCompletesAndKeepsTheQueue : Obligations.EveryCommandCompletesAndKeepsTheQueue := fun c s => by
  obtain ⟨t, e, steps⟩ := exec_settings c s
  exact ⟨t, e, steps.changes.1⟩

/-- Settles O3: what a command may change of the settings, read off field by field. -/
theorem settingsChangeOnlyAtTheirCommands : Obligations.SettingsChangeOnlyAtTheirCommands := by
  intro c s t h
  obtain ⟨u, e, steps⟩ := exec_settings c s
  obtain rfl := Host.Outcome.next.inj (h.symm.trans e)
  obtain ⟨-, freezeIn, link, rest⟩ := steps.changes
  refine ⟨freezeIn, link, fun on => ?_⟩
  obtain ⟨clock, lo, hi, mask, run, mode, period, pages, filters, configs, groups⟩ := rest on
  refine ⟨clock, lo, hi, mask, run, mode, period, pages, filters, fun off ch => congrFun (configs off) ch, fun off g => ?_⟩
  have same : (t.group g).settings = (s.group g).settings := congrFun (groups off) g
  injection same with headroom cap slew beat interval stale
  exact ⟨headroom, cap, slew, beat, interval, stale⟩

/-- Settles O60: every command and every doing of the empty queue keep the freeze set and the settings in range. -/
theorem stepKeepsTheSettings : Obligations.StepKeepsTheSettings := by
  intro s t h
  have kept : ∀ {P : Settings → Prop}, (∀ (c : Instr) (a b : Settings), Settings.stepsTo c a b → P a → P b) →
      (∀ a : Settings, ∀ q n, P a → P { a with pending := q, clock := n }) → P s.settings → P t.settings := by
    intro P commands books lawful
    refine step_keeps (P := fun u => P u.settings) (fun c u => commands _ _ _ (perform_settings c u)) ?_ ?_ ?_ ?_ ?_ h lawful
    · exact fun u q n f => books u.settings q u.clock
    · exact fun u lawful => u.scanAccess_settings ▸ lawful
    · exact fun u g i lawful => lawful
    · exact fun u v _ lawful => (u.endSolves_settings [v]).symm ▸ lawful
    · intro u lawful
      have passed : u.passMicrosecond.settings = { u.settings with clock := u.clock + 1 } := by
        simp only [State.settings, State.passMicrosecond, Table.get_map]
        rfl
      exact passed ▸ books u.settings u.pending (u.clock + 1) lawful
  exact ⟨kept (P := Settings.freezes) (fun _ _ _ steps => steps.freezes) fun _ _ _ => id,
    kept (P := Settings.inRange) (fun _ _ _ steps => steps.range) fun _ _ _ => id⟩

/-- Settles O56: every law holds of the reset state. -/
theorem resetIsLawful : Obligations.ResetIsLawful := by
  obtain ⟨positions, queues, chains, counts, sets⟩ :=
    State.lawful_of_reset (t := State.reset) State.reset_ctx State.reset_chain rfl
  have memory : State.reset.memoryLawful := by simp [State.memoryLawful, State.reset, Memory.wf]
  have host : State.reset.hostLawful :=
    ⟨memory, Logs.reset_counts, fun _ => ⟨rfl, rfl, rfl⟩, .inl rfl⟩
  have freezes : State.reset.ramp.freezeLawful := by simp [RampUnit.freezeLawful, State.reset, RampUnit.reset]
  exact ⟨host, positions, queues, counts, sets, chains, freezes,
    Settings.reset_inRange State.reset_group State.reset_chain rfl fun p => Table.get_replicate _ _⟩

end Sys2Proof.Machine
end

section
/-! Resets, the register window and the requests of scans (R27, R142, R155, R165, R167, R173 to R176). -/

namespace Sys2Proof.Machine

/-- Settles O6: each record of the reset state. -/
theorem powerOnResetsTheRest : Obligations.PowerOnResetsTheRest := by
  intro s
  refine ⟨s.powerOn, rfl, State.reset_group, rfl, rfl, rfl, fun p => ?_, rfl, State.reset_chain, fun n => ?_, rfl, rfl, rfl,
    rfl, rfl, rfl, rfl⟩
  · have page : s.powerOn.pages.get p = Page.reset := Table.get_replicate _ _
    rw [page]
    exact ⟨rfl, fun k => Table.get_replicate _ _⟩
  · exact Table.get_replicate _ _

/-! ## The register window (section 10.6) -/

theorem State.readRegister_areaLo_toNat (s : State) : (s.readRegister 0x04).toNat = s.regs.areaLo.toNat * 65536 := by
  show (s.regs.areaLo ++ (0 : Half)).toNat = _
  rw [BitVec.toNat_append]
  simp [Nat.shiftLeft_eq]

/-- Two words meet in a bit, unless their conjunction is 0. -/
theorem BitVec.and_ne_zero_iff {n : Nat} (x y : BitVec n) :
    x &&& y ≠ 0 ↔ ∃ k, x.getLsbD k = true ∧ y.getLsbD k = true := by
  constructor
  · intro ne
    by_contra none
    refine ne (BitVec.eq_of_getLsbD_eq fun k _ => ?_)
    have zero : (0 : BitVec n).getLsbD k = false := BitVec.getLsbD_zero
    rw [BitVec.getLsbD_and, zero, Bool.and_eq_false_iff]
    by_contra both
    obtain ⟨hx, hy⟩ := not_or.1 both
    exact none ⟨k, Bool.eq_true_of_not_eq_false hx, Bool.eq_true_of_not_eq_false hy⟩
  · rintro ⟨k, hx, hy⟩ e
    have bit := congrArg (fun z => z.getLsbD k) e
    simp [hx, hy] at bit

theorem State.noticeOut_iff (s : State) : s.noticeOut = true ↔
    ∃ k, s.regs.noticeRaw.getLsbD k = true ∧ s.regs.noticeMask.getLsbD k = true := by
  rw [State.noticeOut, decide_eq_true_eq, BitVec.and_ne_zero_iff]

/-- The stored half of AREA_LO, as it is read. -/
theorem areaLo_stored (v : Word) : v.extractLsb' 16 16 ++ (0 : Half) = v &&& 0xFFFF0000 := by
  refine BitVec.eq_of_getLsbD_eq fun k hk => ?_
  rw [BitVec.getLsbD_append, BitVec.getLsbD_and]
  interval_cases k <;> simp

theorem State.runControl_bits (s : State) (k : Nat) : (s.readRegister 0x0C).getLsbD k =
    (decide (k = 0) && s.regs.run || decide (k = 3) && s.intake.halted) := by
  show (BitVec.ofNat 32 (bitsOf [s.regs.run, false, false, s.intake.halted])).getLsbD k = _
  rw [BitVec.getLsbD_ofNat, bitsOf_testBit]
  match k with
  | 0 => simp
  | 1 => simp
  | 2 => simp
  | 3 => simp
  | n + 4 => simp

theorem State.readArea_dirty (s : State) (r : Registers) (i : Fin 256) :
    ({ s with regs := r } : State).dirtyAll.ctx i = { s.ctx i with dirty := true } := by
  rw [State.dirtyAll_ctx]; rfl

/-- A word of seven bits shows them in a register, and no other. -/
theorem getLsbD_setWidth_seven (x : BitVec 7) (k : Nat) : (x.setWidth 32).getLsbD k = x.getLsbD k := by
  rw [BitVec.getLsbD_setWidth]
  by_cases small : k < 32
  · simp [small]
  · rw [BitVec.getLsbD_of_ge x k (by omega), Bool.and_false]

theorem State.writeArea_running {s : State} (on : s.regs.run = true) (f : Registers → Registers) :
    s.writeArea f = State.notice .reg s := by rw [State.writeArea, if_pos on]

theorem State.writeArea_stopped {s : State} (off : s.regs.run = false) (f : Registers → Registers) :
    s.writeArea f = ({ s with regs := f s.regs } : State).dirtyAll := by
  rw [State.writeArea, if_neg (Bool.eq_false_iff.1 off)]

/-- Settles O7: the window's reads bit by bit, and each write. -/
theorem registerWrites : Obligations.RegisterWrites := by
  intro v s
  refine ⟨?_, ⟨rfl, s.runControl_bits, fun k => getLsbD_setWidth_seven _ k, fun k => getLsbD_setWidth_seven _ k⟩, rfl,
    fun on => ?_, fun off => ⟨?_, ?_⟩, ?_, ?_⟩
  · rw [State.readRegister_areaLo_toNat]; rfl
  · exact ⟨congrArg Host.Outcome.next (State.writeArea_running on _),
      congrArg Host.Outcome.next (State.writeArea_running on _)⟩
  · exact ⟨_, congrArg Host.Outcome.next (State.writeArea_stopped off _), areaLo_stored v, s.readArea_dirty _, rfl⟩
  · exact ⟨_, congrArg Host.Outcome.next (State.writeArea_stopped off _), rfl, s.readArea_dirty _, rfl⟩
  · refine ⟨s.clearNotices v, rfl, fun k => ?_, rfl, State.noticeOut_iff _⟩
    show (s.regs.noticeRaw &&& ~~~(v.setWidth 7)).getLsbD k = _
    rw [BitVec.getLsbD_and, BitVec.getLsbD_not, BitVec.getLsbD_setWidth]
    by_cases small : k < 7
    · simp [small]
    · simp [BitVec.getLsbD_of_ge s.regs.noticeRaw k (by omega)]
  · refine ⟨s.setMask v, rfl, fun k => ?_, rfl, State.noticeOut_iff _⟩
    show (v.setWidth 7).getLsbD k = _
    rw [BitVec.getLsbD_setWidth]

/-- Settles O8: the link moves alone, and an access that finds it down ends in a bus error. -/
theorem perstMovesOnlyTheLink : Obligations.PerstMovesOnlyTheLink := by
  refine fun asserted s => ⟨_, rfl, rfl, fun down halted off bs n => ?_⟩
  subst down
  generalize e : perstNStep true s = t
  have on : t.intake.halted = false := by rw [← e]; exact halted
  have fails : t.accessFails = true := by rw [← e]; rfl
  have area : t.area = s.area := by rw [← e]; rfl
  have written : t.areaWrite off bs = t.areaBusFault := by
    rw [State.areaWrite, if_neg (Bool.eq_false_iff.1 on), if_pos fails]
  have read : t.areaRead off n = (none, t.areaBusFault) := by
    rw [State.areaRead, if_neg (Bool.eq_false_iff.1 on), if_pos fails]
  rw [written, read]
  exact ⟨rfl, area, rfl, rfl⟩

/-! ## Writes to RUN_CTRL (R167, R174, R175) -/

theorem State.writeRun_same (s : State) : s.writeRun s.regs.run = s := by
  unfold State.writeRun
  dsimp only
  rw [if_pos rfl]

theorem State.hostWrites_nil (s : State) : s.hostWrites [] = s := rfl

/-- A write without RESTART acts on RUN, then on SCAN. -/
theorem exec_run (run : Bool) (host : List HostWrite) (s : State) :
    exec (.run run host) s = .next ((s.hostWrites host).writeRun run) := by
  show Host.Outcome.next (s.writeRunCtrl false run false host) = _
  rw [State.writeRunCtrl]; rfl

theorem exec_scan (run : Bool) (host : List HostWrite) (s : State) :
    exec (.scan run host) s = .next ((s.hostWrites host).writeRun run).requestScan := by
  show Host.Outcome.next (s.writeRunCtrl false run true host) = _
  rw [State.writeRunCtrl]; rfl

/-- SCAN alone, with RUN as it is, requests a scan. -/
theorem exec_scan_same {s : State} {run : Bool} (same : s.regs.run = run) : exec (.scan run []) s = .next s.requestScan := by
  rw [exec_scan, ← same]
  exact congrArg (fun u : State => Host.Outcome.next u.requestScan) s.writeRun_same

theorem exec_restart_apart {s : State} (apart : s.intake.walk = none) (run scan : Bool) (host : List HostWrite) :
    exec (.restart run scan host) s =
      .next (if scan then ((s.hostWrites host).restart.writeRun run).requestScan
        else (s.hostWrites host).restart.writeRun run) := by
  have none : (s.hostWrites host).intake.walk.isSome = false := by rw [show (s.hostWrites host).intake.walk = none from apart]; rfl
  show Host.Outcome.next (s.writeRunCtrl true run scan host) = _
  rw [State.writeRunCtrl]
  dsimp only
  rw [none, if_neg (by decide), if_pos rfl]

theorem exec_restart_walking {s : State} {w : Walk} (walks : s.intake.walk = some w) (run scan : Bool)
    (host : List HostWrite) :
    exec (.restart run scan host) s = .next ((s.hostWrites host).restart.writeBitsLater run scan) := by
  have some : (s.hostWrites host).intake.walk.isSome = true := by rw [show (s.hostWrites host).intake.walk = some w from walks]; rfl
  show Host.Outcome.next (s.writeRunCtrl true run scan host) = _
  rw [State.writeRunCtrl]
  dsimp only
  rw [some, if_pos (by rfl)]

/-- The blocks other than the intake unit leave it and the registers as they are at a restart. -/
theorem State.blocksRestarted_keeps (s : State) :
    s.blocksRestarted.intake = s.intake ∧ s.blocksRestarted.regs = s.regs := by
  unfold State.blocksRestarted
  rw [← State.chainRestarts_eq]
  constructor <;> simp

/-- The intake unit's restart requests a scan with RUN set and the scan timer stopped (R175). -/
theorem State.intakeRestart_eq (s : State) : s.intakeRestart =
    if s.regs.run = true ∧ s.intake.scanTimer = none then s.intakeRestarted.startScanTimer.requestScan
    else s.intakeRestarted := by
  unfold State.intakeRestart
  simp only [State.modIntake, Bool.and_eq_true, Option.isNone_iff_eq_none]
  rfl

theorem State.restart_apart {s : State} (apart : s.intake.walk = none) : s.restart = s.blocksRestarted.intakeRestart := by
  rw [State.restart_eq, apart]

theorem State.restart_walking {s : State} {w : Walk} (walks : s.intake.walk = some w) :
    s.restart = { s.blocksRestarted with
      intake := { s.intake with walk := some { w with ending := true, restart := true, rescan := false } } } := by
  rw [State.restart_eq, walks]

/-- A restart leaves RUN. -/
theorem State.restart_run (s : State) : s.restart.regs.run = s.regs.run := congrArg Settings.run s.restart_settings

/-- A RESTART that leaves RUN and asks for no scan is the restart alone. -/
theorem exec_restart_alone {s : State} (apart : s.intake.walk = none) (host : List HostWrite) :
    exec (.restart s.regs.run false host) s = .next (s.hostWrites host).restart := by
  have run : (s.hostWrites host).restart.regs.run = s.regs.run := (s.hostWrites host).restart_run
  rw [exec_restart_apart apart, if_neg Bool.false_ne_true, ← run, State.writeRun_same]

/-- The bits of a RESTART that waits for the card under way (R174, R175). -/
theorem State.writeBitsLater_eq {s : State} {w : Walk} (walks : s.intake.walk = some w) (ending : w.ending = true)
    (run scan : Bool) : s.writeBitsLater run scan =
      { s with
        regs := { s.regs with run := run }
        intake := { s.intake with
          scanTimer := if s.regs.run = true ∧ run = false then none else s.intake.scanTimer
          scan := if s.regs.run = true ∧ run = false then none else s.intake.scan
          follow := if s.regs.run = true ∧ run = false then false else s.intake.follow
          walk := some { w with rescan := run && scan } } } := by
  unfold State.writeBitsLater
  cases run with
  | true => simp [State.modIntake, walks]
  | false =>
    cases on : s.regs.run with
    | true => simp [State.writeRun, State.modIntake, walks, on, ending]
    | false => simp [State.writeRun, State.modIntake, walks, on]

theorem exec_restart_waits {s : State} {w : Walk} (walks : s.intake.walk = some w) (host : List HostWrite) :
    exec (.restart s.regs.run false host) s = .next (s.hostWrites host).restart := by
  have restarted := State.restart_walking (s := s.hostWrites host) walks
  have regs : (s.hostWrites host).restart.regs = s.regs := by
    rw [restarted]; exact (s.hostWrites host).blocksRestarted_keeps.2
  rw [exec_restart_walking walks, State.writeBitsLater_eq (w := { w with ending := true, restart := true, rescan := false })
    (by rw [restarted]) rfl, regs]
  have same : ¬(s.regs.run = true ∧ s.regs.run = false) := fun h => Bool.false_ne_true (h.2.symm.trans h.1)
  rw [if_neg same, if_neg same, if_neg same, Bool.and_false, restarted]
  congr 2
  exact regs ▸ (by rw [restarted])

/-- Settles O9: the other blocks at once, and the intake unit at once or with its card. -/
theorem restartAtEveryBlock : Obligations.RestartAtEveryBlock := by
  intro s host b
  obtain ⟨intake, regs⟩ := (s.hostWrites host).blocksRestarted_keeps
  have run : b.regs.run = s.regs.run := congrArg Registers.run regs
  have timer : b.intake.scanTimer = s.intake.scanTimer := congrArg Intake.scanTimer intake
  refine ⟨fun apart settled => ?_, fun apart on stopped => ?_, fun w walks => ?_⟩
  · rw [exec_restart_alone apart, State.restart_apart (s := s.hostWrites host) apart, State.intakeRestart_eq, if_neg]
    rintro ⟨on, stopped⟩
    rw [run] at on
    rw [timer] at stopped
    rcases settled with off | runs
    · exact Bool.false_ne_true (off.symm.trans on)
    · simp [stopped] at runs
  · have alone := exec_restart_alone apart host
    rw [on] at alone
    rw [alone, State.restart_apart (s := s.hostWrites host) apart, State.intakeRestart_eq,
      if_pos ⟨run.trans on, timer.trans stopped⟩]
    exact (exec_scan_same (s := b.intakeRestarted.startScanTimer) (run.trans on)).symm
  · rw [exec_restart_waits walks, State.restart_walking (s := s.hostWrites host) walks]
    rfl

/-- Settles O10: RESTART, then RUN, then SCAN, or with a card under way what is left of them. -/
theorem runControlWrites : Obligations.RunControlWrites := by
  intro s host
  refine ⟨fun apart run scan => ?_, fun w walks run scan => ?_, fun run => ?_, ?_, fun on => ?_, fun off halted => ?_,
    fun off works => ?_⟩
  · refine ⟨_, exec_restart_alone apart host, ?_⟩
    rw [exec_restart_apart apart]
    split_ifs
    · rw [exec_scan, State.hostWrites_nil]
    · rw [exec_run, State.hostWrites_nil]
  · refine ⟨_, exec_restart_waits walks host, ?_⟩
    have restarted := State.restart_walking (s := s.hostWrites host) walks
    rw [exec_restart_walking walks, State.writeBitsLater_eq
      (w := { w with ending := true, restart := true, rescan := false }) (by rw [restarted]) rfl]
    have same : (s.hostWrites host).restart.regs.run = s.regs.run := (s.hostWrites host).restart_run
    rw [same]
  · refine ⟨_, exec_run run host s, ?_⟩
    rw [exec_scan, exec_scan_same]
    exact congrArg Settings.run ((s.hostWrites host).writeRun_settings run)
  · rw [exec_run]
    exact congrArg _ (s.hostWrites host).writeRun_same
  · rw [exec_run, State.writeRun]
    have was : (s.hostWrites host).regs.run = true := on
    simp only [was, Bool.false_eq_true, if_false]
    rfl
  · rw [exec_run, State.writeRun]
    have was : (s.hostWrites host).regs.run = false := off
    have stands : (s.hostWrites host).intake.halted = true := halted
    simp only [was, stands, Bool.true_eq_false, if_false, if_true]
    rfl
  · rw [exec_run, State.writeRun]
    have was : (s.hostWrites host).regs.run = false := off
    have stands : (s.hostWrites host).intake.halted = false := works
    simp only [was, stands, Bool.true_eq_false, Bool.false_eq_true, if_false, if_true]
    exact (exec_scan_same (s := State.startScanTimer _) rfl).symm

/-! ## Requests of scans (R167) -/

theorem State.scanning_iff (s : State) : s.scanning = true ↔ s.intake.walk ≠ none ∨ s.intake.scan ≠ none := by
  simp [State.scanning, Option.isSome_iff_ne_none]

/-- A request while RUN is clear or HALTED is set is not kept. -/
theorem State.requestScan_refused {s : State} (off : s.regs.run = false ∨ s.intake.halted = true) :
    s.requestScan = s := by
  rw [State.requestScan, if_neg]
  rcases off with e | e <;> simp [e]

/-- A request that finds a scan under way marks one to follow. -/
theorem State.requestScan_follows {s : State} (on : s.regs.run = true) (works : s.intake.halted = false)
    (busy : s.intake.walk ≠ none ∨ s.intake.scan ≠ none) :
    s.requestScan = { s with intake := { s.intake with follow := true } } := by
  rw [State.requestScan, if_pos (by simp [on, works]), if_pos (s.scanning_iff.2 busy)]
  rfl

/-- A request that finds none under way starts one. -/
theorem State.requestScan_starts {s : State} (on : s.regs.run = true) (works : s.intake.halted = false)
    (card : s.intake.walk = none) (scan : s.intake.scan = none) :
    s.requestScan = (s.scanAt (some .hostWords)).goOn := by
  rw [State.requestScan, if_pos (by simp [on, works]), if_neg (by simp [State.scanning, card, scan])]
  rfl

theorem exec_scanTimerExpiry (host : List HostWrite) (s : State) : exec (.scanTimerExpiry host) s = .next
    (if s.intake.scanTimer.isSome then (s.hostWrites host).startScanTimer.requestScan else s.hostWrites host) := rfl

theorem exec_followingScan (host : List HostWrite) (s : State) : exec (.followingScan host) s = .next
    (if s.intake.follow && !s.scanning then
      ((s.hostWrites host).modIntake fun k => { k with follow := false }).requestScan
    else s.hostWrites host) := rfl

/-- Settles O11: each request, by what it finds. -/
theorem scanRequests : Obligations.ScanRequests := by
  intro s host
  have same : exec (.scan s.regs.run host) s = .next (s.hostWrites host).requestScan := by
    rw [exec_scan]
    exact congrArg (fun u : State => Host.Outcome.next u.requestScan) (s.hostWrites host).writeRun_same
  refine ⟨fun on timer => ?_, fun stopped => ?_, fun on follow card scan => ?_, fun off => ?_, fun off => ?_,
    fun on works busy => ?_, fun on works card scan => ?_⟩
  · rw [exec_scanTimerExpiry, if_pos timer]
    exact (exec_scan_same (s := (s.hostWrites host).startScanTimer) on).symm
  · rw [exec_scanTimerExpiry, if_neg (by simp [stopped])]
  · have idle : s.scanning = false := by simp [State.scanning, card, scan]
    rw [exec_followingScan, follow, idle, if_pos (by rfl)]
    exact (exec_scan_same (s := (s.hostWrites host).modIntake _) on).symm
  · rw [exec_followingScan, if_neg]
    rw [Bool.and_eq_true, Bool.not_eq_true', not_and, Bool.not_eq_false, State.scanning_iff]
    exact fun follow => off.resolve_left fun e => Bool.false_ne_true (e.symm.trans follow)
  · rw [same, State.requestScan_refused (s := s.hostWrites host) off]
  · rw [on] at same
    rw [same, State.requestScan_follows (s := s.hostWrites host) on works busy]
    rfl
  · rw [on] at same
    refine ⟨_, same, ?_⟩
    rw [State.requestScan_starts (s := s.hostWrites host) on works card scan]
    exact State.goOn_goesOn _

end Sys2Proof.Machine
end

section
/-! What an empty queue brings (log 1): what is due, the progress of a scan or a solve, or one microsecond. -/

namespace Sys2Proof.Machine

/-! ## What is due -/

theorem State.mem_dueIf {b : Bool} {c d : Instr} : c ∈ State.dueIf b d ↔ c = d ∧ b = true := by
  unfold State.dueIf
  split_ifs with h <;> simp [h]

theorem ranOut_iff (t : Timer) : ranOut t = true ↔ t = some 0 := by simp [ranOut]

theorem Chain.transactionIn_isSome (k : Chain) (p : Phase) :
    (k.transactionIn p).isSome = true ↔ ∃ t, k.flight = .transaction t ∧ t.phase = p := by
  unfold Chain.transactionIn
  split
  · next t e =>
    rw [e]
    split_ifs with phase <;> simp [phase]
  · next none => exact ⟨fun h => Bool.noConfusion h, fun ⟨t, e, _⟩ => absurd e (none t)⟩

theorem State.latchNewlyLate_iff (s : State) (ch : Fin 4) :
    (s.latchLate ch && !(s.chain ch).latchOverdue) = true ↔ ∃ p, (s.chain ch).latchPending = some p ∧
      p.overdue = false ∧ (s.chain ch).config.latchDeadline * 10 < (s.tick - p.setTick).toNat := by
  unfold State.latchLate Chain.latchOverdue
  split
  · next none => simp [none]
  · next p pending => simp [pending, and_comm]

theorem State.mem_chainDue (s : State) (ch : Fin 4) (c : Instr) : c ∈ s.chainDue ch ↔
    (c = .holdTimerExpiry ch ∧ (s.chain ch).holdTimer = some 0 ∧
      ∃ t, (s.chain ch).flight = .transaction t ∧ t.phase = .holding) ∨
    (c = .pollRoundTimerExpiry ch ∧ (s.chain ch).pollTimer = some 0) ∨
    (c = .verifySweepTimerExpiry ch ∧ (s.chain ch).sweepTimer = some 0) ∨
    (c = .latchDeadlinePassed ch ∧ ∃ p, (s.chain ch).latchPending = some p ∧ p.overdue = false ∧
      (s.chain ch).config.latchDeadline * 10 < (s.tick - p.setTick).toNat) := by
  unfold State.chainDue
  simp only [List.mem_append, State.mem_dueIf, State.latchNewlyLate_iff, or_assoc]
  simp only [Bool.and_eq_true, ranOut_iff, Chain.transactionIn_isSome]

theorem State.mem_due (s : State) (c : Instr) : c ∈ s.due ↔
    (c = .serviceTimerExpiry ∧ s.serviceTimer = some 0 ∧ ¬s.holdsService) ∨
    (c = .stalenessCheckExpiry ∧ s.stalenessTimer = some 0) ∨
    (c = .scanTimerExpiry [] ∧ s.intake.scanTimer = some 0) ∨
    (c = .lossTimerExpiry ∧ s.ramp.lossTimer = some 0) ∨
    (c = .substituteTimerExpiry ∧ s.ramp.substituteTimer = some 0) ∨
    (∃ g, c = .solveTimerExpiry g ∧ (s.group g).solveTimer = some 0) ∨
    (∃ ch t, c = .holdTimerExpiry ch ∧ (s.chain ch).holdTimer = some 0 ∧
      (s.chain ch).flight = .transaction t ∧ t.phase = .holding) ∨
    (∃ ch, c = .pollRoundTimerExpiry ch ∧ (s.chain ch).pollTimer = some 0) ∨
    (∃ ch, c = .verifySweepTimerExpiry ch ∧ (s.chain ch).sweepTimer = some 0) ∨
    (∃ ch p, c = .latchDeadlinePassed ch ∧ (s.chain ch).latchPending = some p ∧ p.overdue = false ∧
      (s.chain ch).config.latchDeadline * 10 < (s.tick - p.setTick).toNat) ∨
    (c = .followingScan [] ∧ s.intake.follow = true ∧ s.intake.walk = none ∧ s.intake.scan = none) ∨
    ∃ w, c = w.request.command ∧ s.intake.walk = some w := by
  have chains : (∃ ch, c ∈ s.chainDue ch) ↔
      (∃ ch t, c = .holdTimerExpiry ch ∧ (s.chain ch).holdTimer = some 0 ∧
        (s.chain ch).flight = .transaction t ∧ t.phase = .holding) ∨
      (∃ ch, c = .pollRoundTimerExpiry ch ∧ (s.chain ch).pollTimer = some 0) ∨
      (∃ ch, c = .verifySweepTimerExpiry ch ∧ (s.chain ch).sweepTimer = some 0) ∨
      ∃ ch p, c = .latchDeadlinePassed ch ∧ (s.chain ch).latchPending = some p ∧ p.overdue = false ∧
        (s.chain ch).config.latchDeadline * 10 < (s.tick - p.setTick).toNat := by
    simp only [State.mem_chainDue, exists_or, exists_and_left]
  have waits : (s.serviceTimer = some 0 ∧ s.serviceWaits = false) ↔ s.serviceTimer = some 0 ∧ ¬s.holdsService := by
    rw [← State.serviceWaits_iff, Bool.not_eq_true]
  unfold State.due
  simp only [List.mem_append, List.mem_flatMap, List.mem_finRange, true_and, State.mem_dueIf, chains, Bool.and_eq_true,
    Bool.not_eq_true', ranOut_iff, waits]
  have reorder : ∀ {i a v t l u g h p w d : Prop}, (((((((i ∨ a) ∨ v) ∨ t) ∨ l) ∨ u) ∨ g) ∨ h ∨ p ∨ w ∨ d) ↔
      v ∨ t ∨ a ∨ l ∨ u ∨ g ∨ h ∨ p ∨ w ∨ d ∨ i := by
    intros
    simp only [or_left_comm, or_comm]
  rw [reorder]
  cases walk : s.intake.walk with
  | none => simp [State.mem_dueIf]
  | some w => simp

/-! ## What is done -/

theorem State.step_idle {s : State} (empty : s.pending = []) : step s = .next s.idle := by rw [step, empty]

/-- What there is to do while no card is under way. -/
theorem State.mem_toDo {s : State} (apart : s.intake.walk = none) (d : Doing) : d ∈ s.toDo ↔
    (∃ c ∈ s.due, d = .command c) ∨ (d = .access ∧ s.intake.scan ≠ none) ∨
      ∃ v ∈ s.solves, d = .solve v ∨ ∃ m ∈ v.members, m.reading = none ∧ d = .page v.group m.ctx := by
  unfold State.toDo
  rw [apart]
  have scan : (d ∈ if s.intake.scan.isSome then [Doing.access] else []) ↔ d = .access ∧ s.intake.scan ≠ none := by
    split_ifs with h
    · simp [Option.isSome_iff_ne_none.1 h]
    · simp [Option.not_isSome_iff_eq_none.1 h]
  simp only [List.mem_append, List.mem_map, List.mem_flatMap, List.mem_cons, List.mem_filter, scan, eq_comm (b := d),
    Option.isNone_iff_eq_none, or_assoc, and_assoc]

/-- The members of one context read their page, each by itself (R70). -/
theorem State.readMember_eq (s : State) (g : Fin 8) (i : Fin 256) : s.readMember g i =
    { s with solves := s.solves.map fun u =>
        if u.group = g then
          { u with
            members := u.members.map fun k =>
              if k.ctx = i then { k with reading := some (s.readingOf k) } else k }
        else u } := by
  unfold State.readMember Solve.readSome
  simp only [decide_eq_true_eq, State.readingOf_eq]

theorem State.idle_walking {s : State} {w : Walk} (walks : s.intake.walk = some w) :
    s.idle = { s with pending := s.pending ++ [w.request.command] } := by
  have only : s.toDo = [.command w.request.command] := by rw [State.toDo, walks]
  rw [State.idle, only]; rfl

/-- Settles O4: what is due, and the one thing that is done of all there is to do. -/
theorem anEmptyQueueTakesWhatIsDueOrPassesOneMicrosecond :
    Obligations.AnEmptyQueueTakesWhatIsDueOrPassesOneMicrosecond := by
  intro s empty
  refine ⟨s.mem_due, fun w walks => ?_, fun apart busy => ?_, fun due solves scan => ?_⟩
  · rw [State.step_idle empty, State.idle_walking walks, empty]
    rfl
  · rw [State.step_idle empty]
    obtain ⟨n, ⟨c, mem, e⟩ | ⟨mem, e⟩ | ⟨g, i, mem, e⟩ | ⟨v, mem, e⟩ | ⟨none, -⟩⟩ := s.idle_cases
    · have due := (State.mem_toDo apart _).1 mem
      simp only [State.Doing.command.injEq, reduceCtorEq, false_and, and_false, exists_false, or_self, or_false,
        exists_eq_right'] at due
      exact .inl ⟨c, due, n, by rw [e, empty]; rfl⟩
    · have under := (State.mem_toDo apart _).1 mem
      simp only [reduceCtorEq, and_false, exists_false, or_self, or_false, false_or, true_and] at under
      exact .inr (.inl ⟨under, n, by rw [e]⟩)
    · have unread := (State.mem_toDo apart _).1 mem
      simp only [reduceCtorEq, and_false, exists_false, false_or, false_and, State.Doing.page.injEq] at unread
      obtain ⟨v, under, m, member, reading, rfl, rfl⟩ := unread
      exact .inr (.inr ⟨v, under, n, .inr ⟨m, member, reading, by rw [e, State.readMember_eq]; rfl⟩⟩)
    · exact .inr (.inr ⟨v, State.solve_mem_toDo mem, n, .inl (by rw [e])⟩)
    · exfalso
      have nothing : ∀ d, d ∉ s.toDo := fun d => by rw [none]; exact List.not_mem_nil
      rcases busy with due | solves | scan
      · obtain ⟨c, mem⟩ := List.exists_mem_of_ne_nil _ due
        exact nothing _ ((State.mem_toDo apart _).2 (.inl ⟨c, mem, rfl⟩))
      · obtain ⟨v, mem⟩ := List.exists_mem_of_ne_nil _ solves
        exact nothing _ ((State.mem_toDo apart _).2 (.inr (.inr ⟨v, mem, .inl rfl⟩)))
      · exact nothing _ ((State.mem_toDo apart _).2 (.inr (.inl ⟨rfl, scan⟩)))
  · have apart : s.intake.walk = none := by
      by_contra walks
      obtain ⟨w, walks⟩ := Option.ne_none_iff_exists'.1 walks
      have mem := (s.mem_due w.request.command).2 (by simp [walks])
      rw [due] at mem
      cases mem
    have nothing : s.toDo = [] := List.eq_nil_iff_forall_not_mem.2 fun d => by
      rw [State.mem_toDo apart, due, solves, scan]
      simp
    refine ⟨s.passMicrosecond, ?_, rfl, fun g => ?_, rfl, rfl, rfl, fun ch => ?_, rfl, rfl⟩
    · rw [State.step_idle empty, State.idle, nothing]; rfl
    · simp [State.passMicrosecond, State.group, passTimer]
    · simp [State.passMicrosecond, State.chain, passTimer]

end Sys2Proof.Machine
end

section
/-! The cards of the ramp unit, the filters, the solver and a chain's settings: each dispatch ends with the completion
of its card, and what the owning block did before it is written out (R58 to R60, R79, R84, R93, R94, R113, R159). -/

namespace Sys2Proof.Machine

/-! ## A card under way -/

theorem indexBelow_val {n k : Nat} {i : Fin n} (h : k = i.val) : indexBelow n k = some i := by
  simp [indexBelow, h]

theorem indexBelow_of_le {n k : Nat} (h : n ≤ k) : indexBelow n k = none := by
  simp [indexBelow, h]

theorem indexBelow_some {n k : Nat} {i : Fin n} (h : indexBelow n k = some i) : k = i.val := by
  unfold indexBelow at h
  split at h <;> cases h
  rfl

/-- The card under way is dispatched by its own command, and the scan goes on after it (R168). -/
theorem State.dispatchCard_underWay {s : State} {w : Walk} {r : Request} (h : s.underWay w r)
    (f : Walk → State → State) : s.dispatchCard r f = (f w s.dispatching).afterCard w := by
  obtain ⟨walk, request⟩ := h
  unfold State.dispatchCard
  rw [walk]
  exact if_pos request

/-- A dispatch that ends by completing its card (R169). -/
theorem dispatches_of_completed {c : Instr} {r : Request} {f : Walk → State → State} {s u : State} {w : Walk}
    {code : ResultCode} {data : List Byte} (runs : exec c s = .next (s.dispatchCard r f)) (h : s.underWay w r)
    (e : f w s.dispatching = u.completeCard w.card code data) : dispatches c s w u code data :=
  dispatches_of_eq (by rw [runs, State.dispatchCard_underWay h, e])

/-! ## FREEZE and THAW (R93, R94) -/

theorem freezeData_eq (tags : List Nat) :
    freezeData tags = bytes8 tags.length ++ (List.range 4).map fun k => BitVec.ofNat 8 (tags.getD k 0) := by
  rw [freezeData, padTo_tags]

theorem freezeCard {s : State} {w : Walk} (h : s.underWay w .freeze) :
    (w.param16 0 = 0 ∨ 255 < w.param16 0 → dispatches .freeze s w s.dispatching .badField []) ∧
      (1 ≤ w.param16 0 ∧ w.param16 0 ≤ 255 →
        (w.param16 0 ∈ s.ramp.freezeSet →
          dispatches .freeze s w s.dispatching .ok (bytes8 1 ++ freezeData s.ramp.freezeSet)) ∧
        (w.param16 0 ∉ s.ramp.freezeSet → 4 ≤ s.ramp.freezeSet.length →
          dispatches .freeze s w s.dispatching .full (bytes8 0 ++ freezeData s.ramp.freezeSet)) ∧
        (w.param16 0 ∉ s.ramp.freezeSet → s.ramp.freezeSet.length < 4 →
          dispatches .freeze s w
            { s.dispatching with ramp := { s.ramp with freezeSet := insertTag (w.param16 0) s.ramp.freezeSet } } .ok
            (bytes8 0 ++ freezeData (insertTag (w.param16 0) s.ramp.freezeSet)))) := by
  have done {u : State} {code : ResultCode} {data : List Byte}
      (e : dispatchFreeze w s.dispatching = u.completeCard w.card code data) : dispatches .freeze s w u code data :=
    dispatches_of_completed (f := dispatchFreeze) rfl h e
  refine ⟨fun bad => done (if_pos bad), fun range => ?_⟩
  have good : ¬(w.param16 0 = 0 ∨ 255 < w.param16 0) := by omega
  refine ⟨fun held => done ?_, fun new full => done ?_, fun new room => done ?_⟩
  · exact (if_neg good).trans (if_pos held)
  · exact (if_neg good).trans ((if_neg new).trans (if_pos full))
  · exact (if_neg good).trans ((if_neg new).trans (if_neg (Nat.not_le.2 room)))

theorem thawCard {s : State} {w : Walk} (h : s.underWay w .thaw) :
    (w.param16 0 = 0 ∨ 255 < w.param16 0 → dispatches .thaw s w s.dispatching .badField []) ∧
      (1 ≤ w.param16 0 ∧ w.param16 0 ≤ 255 →
        (w.param16 0 ∉ s.ramp.freezeSet →
          dispatches .thaw s w s.dispatching .notHeld (bytes8 0 ++ freezeData s.ramp.freezeSet)) ∧
        (w.param16 0 ∈ s.ramp.freezeSet →
          dispatches .thaw s w
            { s.dispatching with
              ramp := { s.ramp with freezeSet := s.ramp.freezeSet.filter fun u => !decide (u = w.param16 0) } } .ok
            (bytes8 0 ++ freezeData (s.ramp.freezeSet.filter fun u => !decide (u = w.param16 0))))) := by
  have done {u : State} {code : ResultCode} {data : List Byte}
      (e : dispatchThaw w s.dispatching = u.completeCard w.card code data) : dispatches .thaw s w u code data :=
    dispatches_of_completed (f := dispatchThaw) rfl h e
  refine ⟨fun bad => done (if_pos bad), fun range => ?_⟩
  have good : ¬(w.param16 0 = 0 ∨ 255 < w.param16 0) := by omega
  exact ⟨fun new => done ((if_neg good).trans (if_neg new)), fun held => done ((if_neg good).trans (if_pos held))⟩

/-- Settles O24: a tag put in its place, or taken out, by the rules of the freeze set. -/
theorem freezeAndThawCards : Obligations.FreezeAndThawCards := by
  intro s w
  simp only [← freezeData_eq, List.append_assoc]
  refine ⟨fun h => ?_, fun h => ?_⟩
  · obtain ⟨bad, good⟩ := freezeCard h
    refine ⟨bad, fun range => ?_⟩
    obtain ⟨held, full, added⟩ := good range
    exact ⟨held, full, fun new room => ⟨_, fun t => mem_insertTag _ t _, insertTag_length _ _, insertTag_pairwise new,
      added new room⟩⟩
  · obtain ⟨bad, good⟩ := thawCard h
    refine ⟨bad, fun range => ?_⟩
    obtain ⟨new, removed⟩ := good range
    exact ⟨new, fun held => ⟨_, fun t => by simp [and_comm], List.filter_sublist, removed held⟩⟩

/-! ## SET_MODE, SET_FRAME and SET_FILTER (R79, R84, R159) -/

theorem setModeCard {s : State} {w : Walk} (h : s.underWay w .setMode) (m : Mode) (named : w.param8 0 = m.number) :
    dispatches .setMode s w { s.dispatching with ramp := { s.ramp with mode := m } } .ok
      (bytes8 s.ramp.mode.number ++ bytes8 m.number) := by
  refine dispatches_of_completed (f := dispatchSetMode) rfl h ?_
  have code : Mode.ofCode (w.param8 0) = some m := by rw [named]; cases m <;> rfl
  unfold dispatchSetMode
  rw [code, ← Mode.code_number, ← Mode.code_number]
  rfl

theorem setModeCard_bad {s : State} {w : Walk} (h : s.underWay w .setMode) (bad : 2 ≤ w.param8 0) :
    dispatches .setMode s w s.dispatching .badField [] := by
  refine dispatches_of_completed (f := dispatchSetMode) rfl h ?_
  have code : Mode.ofCode (w.param8 0) = none := by
    unfold Mode.ofCode
    split
    · omega
    · omega
    · rfl
  unfold dispatchSetMode
  rw [code]
  rfl

theorem RampUnit.setPeriod_regained {r : RampUnit} (h : r.frameState = .regained) (p : Nat) :
    r.setPeriod p = { r with period := p, lossTimer := some (3 * p * 10) } := by
  rw [RampUnit.setPeriod, h]
  rfl

theorem RampUnit.setPeriod_lost {r : RampUnit} (h : r.frameState = .lost) (p : Nat) :
    r.setPeriod p = { r with period := p, substituteTimer := some (p * 10) } := by
  rw [RampUnit.setPeriod, h]
  rfl

theorem setFrameCard {s : State} {w : Walk} (h : s.underWay w .setFrame)
    (range : 100 ≤ w.param16 0 ∧ w.param16 0 ≤ 5000) {f : FrameState} (state : s.ramp.frameState = f) :
    dispatches .setFrame s w { s.dispatching with ramp := s.ramp.setPeriod (w.param16 0) } .ok
      (bytes16 s.ramp.period ++ bytes16 (w.param16 0) ++ bytes8 f.number) := by
  refine dispatches_of_completed (f := dispatchSetFrame) rfl h ?_
  rw [← state, ← FrameState.code_number]
  exact if_neg (by omega)

theorem setFilterCard {s : State} {w : Walk} (h : s.underWay w .setFilter) {n : Fin 6} {f : Filter}
    (given : w.givesFilter n f) :
    dispatches .setFilter s w { s.dispatching with filters := s.filters.set n f } .ok
      (bytes8 n.val ++ bytes8 (s.filters.get n).enable.toNat ++ bytes8 (s.filters.get n).destination.number ++
        bytes8 0 ++ bytes16 (s.filters.get n).mask.toNat ++ bytes16 (s.filters.get n).pattern.toNat) := by
  refine dispatches_of_completed (f := dispatchSetFilter) rfl h ?_
  unfold dispatchSetFilter
  rw [(w.replacedFilter_iff n f h.2).2 given, ← Destination.code_number]
  rfl

theorem setFilterCard_bad {s : State} {w : Walk} (h : s.underWay w .setFilter)
    (bad : ∀ n f, ¬w.givesFilter n f) : dispatches .setFilter s w s.dispatching .badField [] := by
  refine dispatches_of_completed (f := dispatchSetFilter) rfl h ?_
  have none : w.replacedFilter = none :=
    Option.eq_none_iff_forall_ne_some.2 fun x e => bad x.1 x.2 ((w.replacedFilter_iff _ _ h.2).1 e)
  unfold dispatchSetFilter
  rw [none]
  rfl

/-- A SET_FILTER card with a field out of its range gives no filter an entry (R159). -/
theorem Walk.givesFilter_bounds {w : Walk} {n : Fin 6} {f : Filter} (h : w.givesFilter n f) :
    w.param8 0 < 6 ∧ w.param8 1 < 2 ∧ w.param8 2 < 2 ∧ w.param16 4 < 4096 ∧ w.param16 6 < 4096 := by
  obtain ⟨-, number, enable, destination, mask, pattern⟩ := h
  have e := f.enable.toNat_lt
  have d : f.destination.number < 2 := by cases f.destination <;> decide
  have m := f.mask.isLt
  have p := f.pattern.isLt
  omega

/-- Settles O23. -/
theorem modeFrameAndFilterCards : Obligations.ModeFrameAndFilterCards := by
  intro s w
  refine ⟨fun h => ⟨setModeCard h .setup, setModeCard h .showing, setModeCard_bad h⟩, fun h => ⟨fun bad => ?_, ?_⟩,
    fun h => ⟨fun bad => setFilterCard_bad h fun n f given => ?_, fun n f number enable destination mask pattern =>
      setFilterCard h ⟨h.2, number, enable, destination, mask, pattern⟩⟩⟩
  · exact dispatches_of_completed (f := dispatchSetFrame) rfl h (if_pos bad)
  · intro range
    constructor <;> intro state
    · have set := setFrameCard h range state
      rw [RampUnit.setPeriod_regained state] at set
      exact set
    · have set := setFrameCard h range state
      rw [RampUnit.setPeriod_lost state] at set
      exact set
  · have := Walk.givesFilter_bounds given
    omega

/-! ## SOLVE and SET_GROUP (R58 to R60) -/

theorem State.foldPending_eq (gs : List (Fin 8)) (s : State) :
    gs.foldl State.solvePending s = { s with groups := (gs.foldl State.solvePending s).groups } := by
  induction gs generalizing s with
  | nil => rfl
  | cons g gs ih =>
    rw [List.foldl_cons, ih]
    rfl

theorem State.foldPending_group (gs : List (Fin 8)) (s : State) (g : Fin 8) :
    (gs.foldl State.solvePending s).group g =
      if g ∈ gs then { s.group g with pending := true } else s.group g := by
  induction gs generalizing s with
  | nil => rfl
  | cons h gs ih =>
    rw [List.foldl_cons, ih, State.solvePending, State.modGroup_group]
    by_cases same : g = h <;> by_cases later : g ∈ gs <;> simp [same, later, eq_comm]

theorem State.foldPending_all (s : State) : (List.finRange 8).foldl State.solvePending s =
    { s with groups := s.groups.map fun g => { g with pending := true } } := by
  rw [State.foldPending_eq]
  congr 1
  refine Table.ext_get fun g => ?_
  rw [Table.get_map]
  exact (State.foldPending_group _ _ _).trans (if_pos (List.mem_finRange g))

theorem bitsOf_only (f : Fin 8 → Bool) (g : Fin 8) :
    bitsOf ((List.finRange 8).map fun h => decide (h ∈ [g]) && f h) = if f g then 2 ^ g.val else 0 := by
  have named : ∀ b : Bool, bitsOf ((List.finRange 8).map fun h => decide (h ∈ [g]) && b) = if b then 2 ^ g.val else 0 := by
    revert g
    decide
  rw [← named]
  congr 2
  funext h
  by_cases same : h = g <;> simp [same]

/-- Settles O20. -/
theorem solveCard : Obligations.SolveCard := by
  refine ⟨bitsOf_testBit, fun s w h => ⟨fun all => ?_, fun g one => ?_, fun high other => ?_⟩⟩
  all_goals
    refine dispatches_of_completed (f := dispatchSolve) rfl h ?_
    unfold dispatchSolve
    dsimp only
  · rw [if_pos all, all, State.foldPending_all]
    simp only [List.mem_finRange, decide_true, Bool.true_and]
    rfl
  · rw [if_neg (by omega), indexBelow_val one, one]
    dsimp only
    rw [bitsOf_only]
    rfl
  · rw [if_neg other, indexBelow_of_le high]
    rfl

theorem clampNat_eq {lo hi : Nat} (h : lo ≤ hi) (n : Nat) : clampNat lo hi n = max lo (min n hi) := by
  unfold clampNat
  split_ifs <;> omega

/-- Settles O21. -/
theorem setGroupCard : Obligations.SetGroupCard := by
  intro s w h
  refine ⟨fun bad => ?_, fun g v named new => ?_⟩ <;>
    refine dispatches_of_completed (f := dispatchSetGroup) rfl h ?_ <;> unfold dispatchSetGroup
  · rw [indexBelow_of_le bad]
    rfl
  · have set : (s.group g).set w.groupSettings = v := by
      rw [new]
      unfold Group.set Walk.groupSettings solveTimerFor Config.seconds
      simp only [clampNat_eq (by decide : 26214 ≤ 32768), clampNat_eq (by decide : 1 ≤ 262143),
        clampNat_eq (by decide : 1 ≤ 4096), clampNat_eq (by decide : 1 ≤ 255), clampNat_eq (by decide : 0 ≤ 600),
        clampNat_eq (by decide : 1 ≤ 60), Nat.zero_max]
      congr 1
      exact if_congr (by omega) rfl rfl
    rw [indexBelow_val named, ← set]
    rfl

/-! ## SET_CHAIN (R113) -/

theorem BitRate.ofCode_iff (n : Nat) (b : BitRate) : BitRate.ofCode n = some b ↔ n = b.number := by
  constructor
  · intro h
    unfold BitRate.ofCode at h
    split at h <;> cases h <;> rfl
  · rintro rfl
    cases b <;> rfl

theorem NakPolicy.ofCode_iff (n : Nat) (p : NakPolicy) : NakPolicy.ofCode n = some p ↔ n = p.number := by
  constructor
  · intro h
    unfold NakPolicy.ofCode at h
    split at h <;> cases h <;> rfl
  · rintro rfl
    cases p <;> rfl

/-- The settings of a SET_CHAIN card in its parameters (R113). -/
def Walk.givesConfig (w : Walk) (c : ChainConfig) : Prop :=
  w.param8 1 = c.bitRate.number ∧ w.param8 2 = c.retryLimit ∧ w.param8 3 = c.nakPolicy.number ∧
    w.param16 4 = c.answerWindow ∧ w.param16 6 = c.holdLimit ∧ w.param16 8 = c.pollPeriod ∧
    w.param16 10 = c.verifyInterval ∧ w.param16 12 = c.latchDeadline

theorem Walk.chainConfig_iff (w : Walk) (c : ChainConfig) :
    w.chainConfig = some c ↔ c.lawful ∧ w.givesConfig c := by
  constructor
  · intro given
    refine ⟨Walk.chainConfig_lawful given, ?_⟩
    unfold Walk.chainConfig at given
    split at given
    · next b p rate policy =>
      dsimp only at given
      split_ifs at given
      obtain rfl := Option.some.inj given
      exact ⟨(BitRate.ofCode_iff _ _).1 rate, rfl, (NakPolicy.ofCode_iff _ _).1 policy, rfl, rfl, rfl, rfl, rfl⟩
    · cases given
  · rintro ⟨lawful, rate, retry, policy, window, hold, poll, verify, latch⟩
    unfold Walk.chainConfig
    rw [(BitRate.ofCode_iff _ _).2 rate, (NakPolicy.ofCode_iff _ _).2 policy, retry, window, hold, poll, verify, latch]
    exact if_pos lawful

/-- Settles O25. -/
theorem setChainCard : Obligations.SetChainCard := by
  intro s w h
  have done {u : State} {code : ResultCode} {data : List Byte}
      (e : dispatchSetChain w s.dispatching = u.completeCard w.card code data) : dispatches .setChain s w u code data :=
    dispatches_of_completed (f := dispatchSetChain) rfl h e
  refine ⟨fun bad => done ?_, fun ch c lawful number rate retry policy window hold poll verify latch => ?_⟩
  · unfold dispatchSetChain
    split
    · next ch c named given =>
      exact absurd ⟨ch, c, ((w.chainConfig_iff c).1 given).1, indexBelow_some named, ((w.chainConfig_iff c).1 given).2⟩ bad
    · rfl
  · have given := (w.chainConfig_iff c).2 ⟨lawful, rate, retry, policy, window, hold, poll, verify, latch⟩
    have same : dispatchSetChain w s.dispatching =
        if s.ramp.mode = .showing then s.dispatching.refuseCard w.card .locked
        else if (s.chain ch).state ≠ .stopped then s.dispatching.refuseCard w.card .busy
        else (s.dispatching.modChain ch fun k => { k with config := c }).completeCard w.card .ok (c.bytes ch) := by
      unfold dispatchSetChain
      rw [indexBelow_val number, given]
      rfl
    refine ⟨fun showing => done ?_, fun setup runs => done ?_, fun setup stopped => done ?_⟩
    · rw [same, if_pos showing]
      rfl
    · rw [same, if_neg (by rw [setup]; decide), if_pos runs]
      rfl
    · rw [same, if_neg (by rw [setup]; decide), if_neg (not_not.2 stopped), ChainConfig.bytes, BitRate.code_number,
        NakPolicy.code_number]

end Sys2Proof.Machine
end

section
/-! Accesses of the area and reports go by the logs, the intake unit and the link alone: what the tables, the pages and
the timers hold makes no difference to them (R157, R160, R172). -/

namespace Sys2Proof.Machine

/-- `s` with the records of `t` that neither an access of the area nor a report reads or changes. -/
def State.carrying (s t : State) : State :=
  { s with
    pending := t.pending, clock := t.clock, contexts := t.contexts, groups := t.groups, serviceTimer := t.serviceTimer
    stalenessTimer := t.stalenessTimer, solves := t.solves, pages := t.pages, ramp := t.ramp, chains := t.chains
    filters := t.filters }

theorem State.areaWrite_carrying (s t : State)
    (off : Nat) (bs : List Byte) : (s.carrying t).areaWrite off bs = (s.areaWrite off bs).carrying t := by
  rw [State.areaWrite_eq, State.areaWrite_eq]
  unfold State.accessed
  rw [show (s.carrying t).goodAccesses 1 = s.goodAccesses 1 from rfl,
    show (s.carrying t).intake = s.intake from rfl]
  split_ifs <;> rfl

theorem State.releaseGeneral_carrying (s t : State) :
    (s.carrying t).releaseGeneral = s.releaseGeneral.carrying t := by
  unfold State.releaseGeneral
  rw [show (s.carrying t).logs = s.logs from rfl]
  split_ifs <;> rfl

theorem State.makeRoom_carrying (s t : State) :
    (s.carrying t).makeRoom = s.makeRoom.carrying t := by
  unfold State.makeRoom
  rw [show (s.carrying t).validRecords = s.validRecords from rfl]
  split_ifs <;> rfl

theorem State.logGeneral_carrying (s t : State)
    (r : Report) : (s.carrying t).logGeneral r = (s.logGeneral r).carrying t := by
  unfold State.logGeneral
  rw [State.releaseGeneral_carrying, State.makeRoom_carrying]
  dsimp only
  rw [State.areaWrite_carrying, show (s.releaseGeneral.makeRoom.carrying t).logs = s.releaseGeneral.makeRoom.logs from rfl]
  generalize s.releaseGeneral.makeRoom.areaWrite _ _ = u
  rw [show (u.carrying t).intake = u.intake from rfl]
  split_ifs <;> rfl

theorem State.logAlert_carrying (s t : State)
    (r : Report) : (s.carrying t).logAlert r = (s.logAlert r).carrying t := by
  unfold State.logAlert
  rw [show (s.carrying t).unreadAlerts = s.unreadAlerts from rfl, show (s.carrying t).logs = s.logs from rfl]
  dsimp only
  rw [State.areaWrite_carrying, State.logGeneral_carrying]
  generalize s.areaWrite _ _ = u
  generalize s.logGeneral _ = v
  rw [show (u.carrying t).intake = u.intake from rfl, show (v.carrying t).intake = v.intake from rfl]
  split_ifs <;> rfl

theorem State.writeReport_carrying (s t : State)
    (d : Destination) (r : Report) : (s.carrying t).writeReport d r = (s.writeReport d r).carrying t := by
  unfold State.writeReport
  rw [show (s.carrying t).canLog = s.canLog from rfl]
  split_ifs
  · cases d
    · exact s.logGeneral_carrying t r
    · exact s.logAlert_carrying t r
  · rfl

/-- Reports are raised alike whatever the tables hold (R157). -/
theorem State.raiseTogether_carrying (s t : State)
    (rs : List Report) : (s.carrying t).raiseTogether rs = (s.raiseTogether rs).carrying t := by
  have fold : ∀ (l : List Report) (u : State), l.foldl (fun s r => s.writeReport .alert r) (u.carrying t) =
      (l.foldl (fun s r => s.writeReport .alert r) u).carrying t := by
    intro l
    induction l with
    | nil => exact fun _ => rfl
    | cons r l ih =>
      intro u
      rw [List.foldl_cons, State.writeReport_carrying, ih]
      rfl
  have order : (s.carrying t).unordered rs = ((s.unordered rs).1, (s.unordered rs).2.carrying t) := by
    unfold State.unordered
    rw [show (s.carrying t).freeIndex = s.freeIndex from rfl]
    split_ifs <;> rfl
  unfold State.raiseTogether
  rw [order]
  exact fold _ _

theorem State.raiseTogether_carries (s : State) (rs : List Report) :
    (s.raiseTogether rs).carrying s = s.raiseTogether rs := by
  rw [← s.raiseTogether_carrying s]
  rfl

theorem State.raiseTogether_modChain (s : State) (ch : Fin 4) (f : Chain → Chain) (rs : List Report) :
    (s.raiseTogether rs).modChain ch f = (s.modChain ch f).raiseTogether rs := by
  refine Eq.symm ((s.raiseTogether_carrying (s.modChain ch f) rs).trans ?_)
  conv_rhs => rw [← s.raiseTogether_carries rs]
  rfl

theorem State.raiseTogether_modGroup (s : State) (g : Fin 8) (f : Group → Group) (rs : List Report) :
    (s.raiseTogether rs).modGroup g f = (s.modGroup g f).raiseTogether rs := by
  refine Eq.symm ((s.raiseTogether_carrying (s.modGroup g f) rs).trans ?_)
  conv_rhs => rw [← s.raiseTogether_carries rs]
  rfl

theorem State.raiseTogether_serviceTimer (s : State) (t : Timer) (rs : List Report) :
    ({ s with serviceTimer := t } : State).raiseTogether rs = { s.raiseTogether rs with serviceTimer := t } := by
  refine (s.raiseTogether_carrying { s with serviceTimer := t } rs).trans ?_
  conv_rhs => rw [← s.raiseTogether_carries rs]
  rfl

end Sys2Proof.Machine
end

section
/-! RETIRE, ADOPT and LOAD_CURVE: what the table, the queues and the groups come to, and in what order it does not
matter (R32 to R37, R44, R71 to R76). -/

namespace Sys2Proof.Machine

/-! ## The test of a sweep and changes of the tables -/

theorem State.testSweep_regrouped (s : State) (ch : Fin 4) (G : Table Group 8) :
    ({ s with groups := G } : State).testSweep ch = { s.testSweep ch with groups := G } := by
  unfold State.testSweep
  rw [show ({ s with groups := G } : State).sweepMet ch = s.sweepMet ch from rfl]
  split_ifs
  · unfold State.endSweep
    rw [show ({ s with groups := G } : State).chain ch = s.chain ch from rfl]
    cases (s.chain ch).sweep with
    | none => rfl
    | some r =>
      dsimp only
      unfold State.decideSweepOrRoll
      rw [show (({ s with groups := G } : State).modChain ch fun k => { k with sweep := none }).entries ch =
          s.entries ch from rfl,
        show (s.modChain ch fun k => { k with sweep := none }).entries ch = s.entries ch from rfl]
      cases (s.entries ch).sweepOrRoll with
      | none => rfl
      | some h =>
        dsimp only
        split_ifs <;> rfl
  · rfl

theorem State.testSweep_modGroup (s : State) (ch : Fin 4) (g : Fin 8) (f : Group → Group) :
    (s.modGroup g f).testSweep ch = (s.testSweep ch).modGroup g f := by
  refine (s.testSweep_regrouped ch (s.modGroup g f).groups).trans ?_
  obtain ⟨-, -, -, -, groups, -⟩ := s.testSweep_keeps ch
  unfold State.modGroup State.group
  rw [groups]

/-! ## RETIRE (R44) -/

/-- The table, the queues and the groups after an accepted RETIRE, before the test of a held VERIFY card. -/
def State.retired (s : State) (i : Fin 256) : State :=
  ((s.dropWork i).modCtx i Context.retire).solvePending (s.ctx i).group

theorem State.retireCtx_eq (s : State) (i : Fin 256) :
    s.retireCtx i = (s.retired i).testSweep (s.ctx i).chain := by
  unfold State.retireCtx State.retired State.solvePending
  rw [State.testSweep_modGroup]

theorem State.retired_ctx (s : State) (i j : Fin 256) :
    (s.retired i).ctx j = if j = i then (s.ctx i).retire else s.ctx j := by
  unfold State.retired
  rw [State.solvePending_ctx]
  split_ifs with own
  · subst own
    rw [State.modCtx_ctx_same, Context.touched_dirty _ rfl, State.dropWork_ctx_same, Context.touched_eq]
    split_ifs <;> rfl
  · rw [State.modCtx_ctx_other _ (Ne.symm own), State.dropWork_ctx_other _ (Ne.symm own)]

theorem State.dropWork_group (s : State) (i : Fin 256) (g : Fin 8) : (s.dropWork i).group g = s.group g :=
  State.group_congr (by rw [State.dropWork_eq]) g

theorem State.retired_group (s : State) (i : Fin 256) (g : Fin 8) : (s.retired i).group g =
    if g = (s.ctx i).group then { s.group g with pending := true } else s.group g := by
  rw [State.retired, State.solvePending, State.modGroup_group]
  have same : ∀ h, ((s.dropWork i).modCtx i Context.retire).group h = s.group h := s.dropWork_group i
  rw [same, same]
  by_cases own : g = (s.ctx i).group
  · rw [if_pos own, if_pos own.symm, own]
  · rw [if_neg own, if_neg (Ne.symm own)]

theorem State.retired_eq (s : State) (i : Fin 256) : s.retired i =
    { s with contexts := (s.retired i).contexts, groups := (s.retired i).groups, chains := (s.retired i).chains } := by
  unfold State.retired
  rw [State.dropWork_eq]
  rfl

/-- Settles O17. -/
theorem retireCard : Obligations.RetireCard := by
  intro s w h
  have done {u : State} {code : ResultCode} {data : List Byte}
      (e : dispatchRetire w s.dispatching = u.completeCard w.card code data) : dispatches .retire s w u code data :=
    dispatches_of_completed (f := dispatchRetire) rfl h e
  refine ⟨fun bad => done ?_, fun i named => ⟨fun absent => done ?_, fun present => ?_⟩⟩
  · unfold dispatchRetire
    rw [indexBelow_of_le bad]
    rfl
  · unfold dispatchRetire
    rw [indexBelow_val named]
    exact if_pos absent
  · refine ⟨s.dispatching.retired i, s.dispatching.retireCtx i, done ?_, s.dispatching.retired_ctx i,
      s.dispatching.retired_group i, s.dispatching.dropWork_chain i, s.dispatching.retired_eq i, ?_⟩
    · have own : ((s.dispatching.retireCtx i).ctx i).generation = (s.ctx i).generation + 1 := by
        rw [State.retireCtx_eq, State.testSweep_ctx, State.retired_ctx, if_pos rfl]
        rfl
      unfold dispatchRetire
      rw [indexBelow_val named]
      dsimp only
      rw [if_neg (show ¬(s.dispatching.ctx i).life = .absent from present), own, Life.code_number]
      rfl
    · rw [State.retireCtx_eq]
      exact State.testSweep_sweepTested _ _

/-! ## ADOPT (R32 to R37) -/

/-- A tile correction of a context against the present targets of group `g` (R36). -/
def State.correctedBy (s : State) (g : Fin 8) (c : Context) : Context :=
  c.corrected (c.correction s.pages (s.group g).targets)

/-- The former and the new group of an adopted context become pending (R36). -/
def State.adoptPending (s : State) (old : Context) (p : Position) : State :=
  if old.memberOf p.group || decide (old.life = .absent) then s.solvePending p.group
  else (s.solvePending p.group).solvePending old.group

/-- An adopted context joins the probe queue of its chain (R117). -/
def Chain.probing (i : Fin 256) (k : Chain) : Chain :=
  if i ∈ k.probeQueue then k else { k with probeQueue := k.probeQueue ++ [i] }

theorem State.enqueueProbe_eq {s : State} {i : Fin 256} {ch : Fin 4} (h : (s.ctx i).chain = ch) :
    s.enqueueProbe i = s.modChain ch (Chain.probing i) := by
  rw [← h]
  rfl

theorem State.testSweep_probing (s : State) (i : Fin 256) (ch j : Fin 4) :
    (s.modChain j (Chain.probing i)).testSweep ch = (s.testSweep ch).modChain j (Chain.probing i) := by
  refine s.testSweep_modChain ch j _ (fun k => ?_) (fun k => ?_) <;>
    by_cases waits : i ∈ k.probeQueue <;> simp [Chain.probing, waits]

/-- The table, the queues and the groups after an accepted ADOPT, before the test of a held VERIFY card. -/
def State.adopted (s : State) (i : Fin 256) (sh : Sheet) (p : Position) (taken : Tick) : State :=
  let s1 := (s.dropWork i).modCtx i fun c => c.adopt sh p taken
  ((s1.modCtx i (s.correctedBy p.group)).modChain p.chain (Chain.probing i)).adoptPending (s.ctx i) p

theorem State.adoptPending_raise (s : State) (old : Context) (p : Position) (rs : List Report) :
    (s.raiseTogether rs).adoptPending old p = (s.adoptPending old p).raiseTogether rs := by
  unfold State.adoptPending State.solvePending
  split_ifs
  · exact s.raiseTogether_modGroup _ _ _
  · rw [State.raiseTogether_modGroup, State.raiseTogether_modGroup]

theorem State.adoptPending_testSweep (s : State) (old : Context) (p : Position) (ch : Fin 4) :
    (s.testSweep ch).adoptPending old p = (s.adoptPending old p).testSweep ch := by
  unfold State.adoptPending State.solvePending
  split_ifs
  · exact (s.testSweep_modGroup _ _ _).symm
  · rw [State.testSweep_modGroup, State.testSweep_modGroup]

theorem State.dropWork_adopt (s : State) (i : Fin 256) (sh : Sheet) (p : Position) (taken : Tick) :
    ((s.dropWork i).modCtx i fun c => c.adopt sh p taken).ctx i = (s.ctx i).adopt sh p taken := by
  rw [State.modCtx_ctx_same, Context.touched_dirty _ rfl, State.dropWork_ctx_same, Context.touched_eq]
  split_ifs <;> rfl

/-- An accepted ADOPT changes the tables, tests a held VERIFY card, raises its reports and lets the chain choose. -/
theorem State.adoptCtx_eq (s : State) (i : Fin 256) (sh : Sheet) (p : Position) (taken : Tick) :
    s.adoptCtx i sh p taken =
      (((s.adopted i sh p taken).testSweep (s.ctx i).chain).raiseTogether
        (((s.ctx i).adopt sh p taken).newReports s.tick
          (((s.ctx i).adopt sh p taken).correction s.pages (s.group p.group).targets))).arbitrate p.chain := by
  have own := s.dropWork_adopt i sh p taken
  have pages : ((s.dropWork i).modCtx i fun c => c.adopt sh p taken).pages = s.pages :=
    (congrArg State.pages (s.dropWork_eq i) : (s.dropWork i).pages = _)
  have tick : ((s.dropWork i).modCtx i fun c => c.adopt sh p taken).tick = s.tick :=
    (congrArg State.tick (s.dropWork_eq i) : (s.dropWork i).tick = _)
  have targets : ((s.dropWork i).modCtx i fun c => c.adopt sh p taken).group p.group = s.group p.group :=
    s.dropWork_group i p.group
  unfold State.adoptCtx State.adopted
  dsimp only
  generalize ((s.dropWork i).modCtx i fun c => c.adopt sh p taken) = u at own pages tick targets ⊢
  generalize adopted : (s.ctx i).adopt sh p taken = c at own ⊢
  have place : c.chain = p.chain ∧ c.group = p.group := by rw [← adopted]; exact ⟨rfl, rfl⟩
  have corrects : (u.testSweep (s.ctx i).chain).correctCtx i =
      ((u.modCtx i (s.correctedBy p.group)).testSweep (s.ctx i).chain).raiseTogether
        (c.newReports s.tick (c.correction s.pages (s.group p.group).targets)) := by
    rw [State.testSweep_modCtx u _ i (s.correctedBy p.group) fun c => ⟨rfl, rfl⟩]
    unfold State.correctCtx State.modCtx State.correctedBy
    dsimp only
    have same : (u.testSweep (s.ctx i).chain).group p.group = u.group p.group := State.group_congr (by simp) _
    have clock : (u.testSweep (s.ctx i).chain).tick = u.tick := by simp [State.tick]
    have loaded : (u.testSweep (s.ctx i).chain).pages = u.pages := by simp
    rw [State.testSweep_ctx, own, place.2, same, clock, loaded, pages, tick, targets]
  have chain : (((u.modCtx i (s.correctedBy p.group)).testSweep (s.ctx i).chain).raiseTogether
      (c.newReports s.tick (c.correction s.pages (s.group p.group).targets))).ctx i =
      (u.ctx i).touched (s.correctedBy p.group (u.ctx i)) := by
    rw [State.ctx_congr (State.raiseTogether_keeps _ _).2.2.2.1, State.testSweep_ctx, State.modCtx_ctx_same]
  have at_ : ((u.ctx i).touched (s.correctedBy p.group (u.ctx i))).chain = p.chain := by
    rw [Context.touched_eq, own]
    exact place.1
  rw [corrects]
  rw [State.enqueueProbe_eq ((congrArg Context.chain chain).trans at_), State.raiseTogether_modChain,
    ← State.testSweep_probing]
  rw [← State.adoptPending_testSweep, ← State.adoptPending_raise]
  unfold State.adoptPending
  rfl

theorem State.adoptPending_ctx (s : State) (old : Context) (p : Position) (j : Fin 256) :
    (s.adoptPending old p).ctx j = s.ctx j := by
  unfold State.adoptPending
  split_ifs <;> rfl

theorem State.adoptPending_chain (s : State) (old : Context) (p : Position) (j : Fin 4) :
    (s.adoptPending old p).chain j = s.chain j := by
  unfold State.adoptPending
  split_ifs <;> rfl

theorem State.solvePending_group (s : State) (g h : Fin 8) : (s.solvePending g).group h =
    if h = g then { s.group h with pending := true } else s.group h := by
  rw [State.solvePending, State.modGroup_group]
  by_cases own : h = g
  · rw [if_pos own, if_pos own.symm, own]
  · rw [if_neg own, if_neg (Ne.symm own)]

theorem State.adoptPending_group (s : State) (old : Context) (p : Position) (g : Fin 8) :
    (s.adoptPending old p).group g =
      if g = p.group ∨ old.life ≠ .absent ∧ g = old.group then { s.group g with pending := true } else s.group g := by
  unfold State.adoptPending Context.memberOf
  by_cases absent : old.life = .absent
  · simp [absent, State.solvePending_group]
  · by_cases same : old.group = p.group
    · simp [absent, same, State.solvePending_group]
    · rw [if_neg (by simp [absent, same]), State.solvePending_group, State.solvePending_group]
      by_cases new : g = p.group <;> by_cases former : g = old.group <;> simp_all

theorem State.adopted_ctx (s : State) (i j : Fin 256) (sh : Sheet) (p : Position) (taken : Tick) :
    (s.adopted i sh p taken).ctx j =
      if j = i then s.correctedBy p.group ((s.ctx i).adopt sh p taken) else s.ctx j := by
  unfold State.adopted
  dsimp only
  rw [State.adoptPending_ctx, State.modChain_ctx]
  split_ifs with own
  · subst own
    rw [State.modCtx_ctx_same, State.dropWork_adopt, Context.touched_dirty _ rfl]
  · rw [State.modCtx_ctx_other _ (Ne.symm own), State.modCtx_ctx_other _ (Ne.symm own),
      State.dropWork_ctx_other _ (Ne.symm own)]

theorem State.adopted_group (s : State) (i : Fin 256) (sh : Sheet) (p : Position) (taken : Tick) (g : Fin 8) :
    (s.adopted i sh p taken).group g =
      if g = p.group ∨ (s.ctx i).life ≠ .absent ∧ g = (s.ctx i).group then { s.group g with pending := true }
      else s.group g := by
  refine (State.adoptPending_group _ _ _ _).trans ?_
  rw [← s.dropWork_group i g]
  rfl

/-- A context that has left its work waits in no probe queue (R117). -/
theorem State.queuesLawful.not_probing {s : State} (h : s.queuesLawful) (i : Fin 256) (ch : Fin 4) :
    i ∉ ((s.dropWork i).chain ch).probeQueue := by
  rw [State.dropWork_chain]
  split_ifs with own
  · simp [Chain.without]
  · obtain ⟨-, ⟨-, adopted⟩, -⟩ := (s.queuesLawful_iff.1 h) ch
    exact fun mem => own (adopted i mem).2.symm

theorem State.adopted_chain {s : State} (h : s.queuesLawful) (i : Fin 256) (sh : Sheet) (p : Position) (taken : Tick)
    (ch : Fin 4) : (s.adopted i sh p taken).chain ch =
      let k := if ch = (s.ctx i).chain then (s.chain ch).without i (s.ctx i) else s.chain ch
      if ch = p.chain then { k with probeQueue := k.probeQueue ++ [i] } else k := by
  unfold State.adopted
  dsimp only
  have left : ∀ j, ((((s.dropWork i).modCtx i fun c => c.adopt sh p taken).modCtx i (s.correctedBy p.group)).chain j) =
      (s.dropWork i).chain j := fun _ => rfl
  rw [State.adoptPending_chain, State.modChain_chain, left, left, ← State.dropWork_chain]
  by_cases new : ch = p.chain
  · subst new
    rw [if_pos rfl, if_pos rfl, Chain.probing, if_neg (h.not_probing i _)]
  · rw [if_neg (Ne.symm new), if_neg new]

theorem State.adopted_eq (s : State) (i : Fin 256) (sh : Sheet) (p : Position) (taken : Tick) :
    s.adopted i sh p taken =
      { s with
        contexts := (s.adopted i sh p taken).contexts, groups := (s.adopted i sh p taken).groups
        chains := (s.adopted i sh p taken).chains } := by
  unfold State.adopted State.adoptPending
  rw [State.dropWork_eq]
  split_ifs <;> rfl

/-- An ADOPT is read, checked, compared and then taken (R32 to R37). -/
theorem dispatchAdopt_eq {s : State} {w : Walk} {i : Fin 256} (named : w.param16 0 = i.val) :
    dispatchAdopt w s =
      if s.goodAccesses 1 = 1 then
        match (s.sheetOf i).checked with
        | none => (s.accessed 1).refuseCard w.card .badField
        | some p =>
          if (s.accessed 1).positionTaken i p.chain p.address then (s.accessed 1).refuseCard w.card .addressTaken
          else
            let t := (s.accessed 1).adoptCtx i (s.sheetOf i) p w.takenTick
            t.completeCard w.card .ok
              (bytes16 i.val ++ bytes8 (t.ctx i).generation.toNat ++ bytes8 ((s.accessed 1).ctx i).life.code ++
                bytes8 (t.ctx i).ageClamped.toNat)
      else s.accessed 1 := by
  unfold dispatchAdopt
  rw [indexBelow_val named]
  dsimp only
  rw [State.areaRead_eq]
  by_cases good : s.goodAccesses 1 = 1
  · rw [if_pos good, if_pos good]
    dsimp only
    rw [State.sheetOf_eq] <;> rfl
  · rw [if_neg good, if_neg good]

theorem State.accessed_tables (s : State) (k : Nat) :
    (s.accessed k).contexts = s.contexts ∧ (s.accessed k).groups = s.groups ∧ (s.accessed k).chains = s.chains ∧
      (s.accessed k).pages = s.pages ∧ (s.accessed k).clock = s.clock := by
  unfold State.accessed
  split_ifs <;> exact ⟨rfl, rfl, rfl, rfl, rfl⟩

/-- A dispatch that leaves its card uncompleted, a bus error having come: the scan is over (R172). -/
theorem State.busFaulted_afterCard {s : State} {w : Walk} (goes : w.restart = false) :
    s.busFaulted.afterCard w = s.busFaulted := by
  unfold State.afterCard
  rw [if_neg (by rw [goes]; decide)]
  exact if_pos (by simp [State.busFaulted])

theorem Sheet.checked_none {sh : Sheet} (bad : sh.serial = 0 ∨ 4 ≤ sh.chain ∨ sh.address = 0 ∨ 64 ≤ sh.address ∨
    8 ≤ sh.group ∨ 16 ≤ sh.page ∨ ∃ p : Primary, sh.luminance.get p = 0 ∨ 16000 < sh.luminance.get p) :
    sh.checked = none := by
  refine Option.eq_none_iff_forall_ne_some.2 fun p given => ?_
  obtain ⟨serial, chain, address, away, group, page, luminance⟩ := (sh.checked_iff p).1 given
  rcases bad with zero | bad | zero | bad | bad | bad | ⟨q, bad⟩
  · exact serial zero
  · have := p.chain.isLt; omega
  · exact away zero
  · have := p.address.isLt; omega
  · have := p.group.isLt; omega
  · have := p.page.isLt; omega
  · have := luminance q; omega

/-- Settles O18. -/
theorem adoptRefusals : Obligations.AdoptRefusals := by
  intro s w h
  have done {u : State} {code : ResultCode} {data : List Byte}
      (e : dispatchAdopt w s.dispatching = u.completeCard w.card code data) : dispatches .adopt s w u code data :=
    dispatches_of_completed (f := dispatchAdopt) rfl h e
  refine ⟨fun bad => done ?_, fun i named => ⟨fun good => ⟨fun bad => done ?_, fun p passes taken => done ?_⟩,
    fun none => ?_, fun none running goes => ?_⟩⟩
  · unfold dispatchAdopt
    rw [indexBelow_of_le bad]
    rfl
  · rw [dispatchAdopt_eq named, if_pos (show s.dispatching.goodAccesses 1 = 1 from good),
      Sheet.checked_none (sh := s.dispatching.sheetOf i) bad]
    rfl
  · have held : (s.dispatching.accessed 1).positionTaken i p.chain p.address = true := by
      obtain ⟨j, ne, life, chain, address⟩ := taken
      rw [State.positionTaken_iff]
      exact ⟨j, ne, by rw [State.ctx_congr (State.accessed_tables _ 1).1]; exact ⟨life, chain, address⟩⟩
    rw [dispatchAdopt_eq named, if_pos (show s.dispatching.goodAccesses 1 = 1 from good),
      ((s.dispatching.sheetOf i).checked_iff p).2 passes]
    exact if_pos held
  · show Host.Outcome.next (s.dispatchCard .adopt dispatchAdopt) = _
    rw [State.dispatchCard_underWay h, dispatchAdopt_eq named,
      if_neg (show ¬s.dispatching.goodAccesses 1 = 1 from fun good => absurd (none.symm.trans good) (by decide))]
  · show Host.Outcome.next (s.dispatchCard .adopt dispatchAdopt) = _
    rw [State.dispatchCard_underWay h, dispatchAdopt_eq named,
      if_neg (show ¬s.dispatching.goodAccesses 1 = 1 from fun good => absurd (none.symm.trans good) (by decide)),
      State.accessed_bad (s := s.dispatching) running none, State.busFaulted_afterCard goes]

theorem State.areaField_lt (s : State) (off w : Nat) : s.areaField off w < 256 ^ w := by
  induction w generalizing off with
  | zero => exact Nat.one_pos
  | succ w ih =>
    have low := (s.area.read (s.areaBase + off)).isLt
    have high := ih (off + 1)
    rw [State.areaField, Nat.pow_succ]
    omega

/-- An age factor is taken as it is, or clamped (R34). -/
theorem Sheet.age_clamped_iff (v : Rgb Nat) :
    v.map clampAge ≠ v ↔ ∃ q : Primary, v.get q < 16384 ∨ 32768 < v.get q := by
  have kept : ∀ n : Nat, clampAge n = n ↔ ¬(n < 16384 ∨ 32768 < n) := by
    intro n
    rw [clampAge, clampNat_eq (by decide)]
    omega
  have each : v.map clampAge = v ↔ ∀ q : Primary, clampAge (v.get q) = v.get q := by
    constructor
    · intro same q
      rw [← Rgb.get_map clampAge v q, same]
    · intro same
      have red := same .red
      have green := same .green
      have blue := same .blue
      simp only [Rgb.get] at red green blue
      rw [Rgb.map, red, green, blue]
  rw [Ne, each]
  simp only [kept, not_forall, not_not]

/-- The chain's choice leaves the context's generation and AGE_CLAMPED as they were. -/
theorem State.arbitrate_ctx_shown (s : State) (ch : Fin 4) (i : Fin 256) :
    ((s.arbitrate ch).ctx i).generation = (s.ctx i).generation ∧
      ((s.arbitrate ch).ctx i).ageClamped = (s.ctx i).ageClamped := by
  unfold State.arbitrate
  split
  · split
    · rw [State.start_ctx, Context.touched_eq]
      split_ifs <;> exact ⟨rfl, rfl⟩
    · exact ⟨rfl, rfl⟩
  · exact ⟨rfl, rfl⟩

/-- Settles O19. -/
theorem adoptCard : Obligations.AdoptCard := by
  intro s w i p h good lawful named sh passes free
  obtain ⟨contexts, groups, chains, pages, clock⟩ := s.dispatching.accessed_tables 1
  have ctx : ∀ j, (s.dispatching.accessed 1).ctx j = s.ctx j := State.ctx_congr contexts
  have group : ∀ g, (s.dispatching.accessed 1).group g = s.group g := State.group_congr groups
  have chain : ∀ ch, (s.dispatching.accessed 1).chain ch = s.chain ch := State.chain_congr chains
  have tick : (s.dispatching.accessed 1).tick = s.tick := congrArg (fun c => BitVec.ofNat 32 (c / Config.tickMicros)) clock
  have queues : (s.dispatching.accessed 1).queuesLawful := by
    unfold State.queuesLawful at lawful ⊢
    simp only [ctx, chain]
    exact lawful
  have new : (s.dispatching.accessed 1).positionTaken i p.chain p.address = false := by
    rw [Bool.eq_false_iff, Ne, State.positionTaken_iff]
    rintro ⟨j, ne, life, at_⟩
    rw [ctx] at life at_
    exact free j ne life at_
  have runs : dispatchAdopt w s.dispatching =
      let t := (s.dispatching.accessed 1).adoptCtx i sh p w.takenTick
      t.completeCard w.card .ok
        (bytes16 i.val ++ bytes8 (t.ctx i).generation.toNat ++ bytes8 ((s.dispatching.accessed 1).ctx i).life.code ++
          bytes8 (t.ctx i).ageClamped.toNat) := by
    rw [dispatchAdopt_eq named, if_pos (show s.dispatching.goodAccesses 1 = 1 from good),
      ((s.dispatching.sheetOf i).checked_iff p).2 passes]
    exact if_neg (by rw [new]; decide)
  obtain ⟨serial, chainIs, addressIs, -, groupIs, pageIs, -⟩ := passes
  generalize s.dispatching.accessed 1 = r at *
  have adopted := State.adopted_ctx r i i sh p w.takenTick
  rw [if_pos rfl] at adopted
  refine ⟨r.adopted i sh p w.takenTick, (r.adopted i sh p w.takenTick).testSweep (s.ctx i).chain,
    ((r.adopted i sh p w.takenTick).testSweep (s.ctx i).chain).raiseTogether
      (((r.ctx i).adopt sh p w.takenTick).newReports r.tick
        (((r.ctx i).adopt sh p w.takenTick).correction r.pages (r.group p.group).targets)),
    r.correctedBy p.group ((r.ctx i).adopt sh p w.takenTick), ?_, rfl, ?_, ?_, chainIs.symm, addressIs.symm,
    groupIs.symm, pageIs.symm, rfl, rfl, rfl, fun q => ?_, ?_, rfl, rfl, rfl, rfl, rfl, rfl, rfl, rfl, rfl, rfl, rfl, rfl,
    rfl, ?_, fun j => ?_, fun g => ?_, fun ch => ?_, r.adopted_eq i sh p w.takenTick, State.testSweep_sweepTested _ _, ?_⟩
  · have result : r.adoptCtx i sh p w.takenTick = _ := State.adoptCtx_eq r i sh p w.takenTick
    have ended : ∀ ch rs, (((((r.adopted i sh p w.takenTick).testSweep ch).raiseTogether rs).arbitrate p.chain).ctx
        i).generation = (s.ctx i).generation + 1 ∧
        (((((r.adopted i sh p w.takenTick).testSweep ch).raiseTogether rs).arbitrate p.chain).ctx i).ageClamped =
          (r.correctedBy p.group ((r.ctx i).adopt sh p w.takenTick)).ageClamped := by
      intro ch rs
      obtain ⟨generation, clamped⟩ :=
        State.arbitrate_ctx_shown (((r.adopted i sh p w.takenTick).testSweep ch).raiseTogether rs) p.chain i
      rw [generation, clamped, State.ctx_congr (State.raiseTogether_keeps _ _).2.2.2.1, State.testSweep_ctx, adopted, ← ctx]
      exact ⟨rfl, rfl⟩
    refine dispatches_of_completed (f := dispatchAdopt) rfl h (runs.trans ?_)
    dsimp only
    rw [result, (ended _ _).1, (ended _ _).2, ctx i, Life.code_number]
  · exact congrArg (fun c : Context => c.generation + 1) (ctx i)
  · exact (BitVec.toNat_ofNat _ _).trans (Nat.mod_eq_of_lt (s.areaField_lt _ 4))
  · rw [← clampNat_eq (by decide)]
    exact Rgb.get_map clampAge sh.age q
  · rw [← Sheet.age_clamped_iff]
    exact decide_eq_true_iff
  · show _ = Context.corrected _ (Context.correction s.pages (s.group p.group).targets _)
    rw [← group, ← (show r.pages = s.pages from pages)]
    rfl
  · rw [State.adopted_ctx]
    split_ifs
    · rfl
    · exact ctx j
  · rw [State.adopted_group, group, ctx]
    rfl
  · rw [State.adopted_chain queues, chain, ctx]
    rfl
  · rw [Context.newReports_eq, tick, pages, group]
    exact State.raiseTogether_raises _ _

/-! ## LOAD_CURVE (R71 to R76) -/

theorem Table.cells_getD {t : Table Nat 99} (k : Fin 99) : t.cells.getD k.val 0 = t.get k := by
  rw [List.getD_eq_getElem _ _ (by rw [t.size]; exact k.isLt)]
  rfl

theorem firstZero_some {t : Table Nat 99} {k : Fin 99} (zero : t.get k = 0) (before : ∀ j, j < k → t.get j ≠ 0) :
    firstZero t = some k.val := by
  refine List.find?_range_eq_some.2 ⟨?_, List.mem_range.2 k.isLt, fun j less => ?_⟩
  · rw [Table.cells_getD, zero]
    rfl
  · have nonzero := before ⟨j, less.trans k.isLt⟩ less
    rw [← Table.cells_getD] at nonzero
    simpa using nonzero

theorem firstZero_eq_none {t : Table Nat 99} (h : ∀ k, t.get k ≠ 0) : firstZero t = none := by
  refine List.find?_eq_none.2 fun k mem => ?_
  have nonzero := h ⟨k, List.mem_range.1 mem⟩
  rw [← Table.cells_getD] at nonzero
  simpa using nonzero

theorem State.mem_dependents (s : State) (p : Fin 16) (g : Fin 8) : g ∈ s.dependents p ↔
    p = 15 ∨ ∃ i, (s.ctx i).life ≠ .absent ∧ (s.ctx i).group = g ∧ (s.ctx i).page = p := by
  simp only [State.dependents, List.mem_filter, List.mem_finRange, true_and, Bool.or_eq_true, decide_eq_true_eq,
    Table.any_cells, Context.memberOf, Bool.and_eq_true, Bool.not_eq_true', decide_eq_false_iff_not]
  refine or_congr_right (exists_congr fun i => ?_)
  exact ⟨fun ⟨⟨group, life⟩, page⟩ => ⟨life, group, page⟩, fun ⟨life, group, page⟩ => ⟨⟨group, life⟩, page⟩⟩

/-- The page store after a LOAD_CURVE whose slot holds no zero (R73, R74). -/
def State.loaded (s : State) (p : Fin 16) (t : Table Nat 99) : State :=
  let s1 : State := { s with pages := s.pages.set p { loaded := true, entries := t } }
  (s1.dependents p).foldl State.solvePending s1

theorem State.loaded_eq (s : State) (p : Fin 16) (t : Table Nat 99) : s.loaded p t =
    { s with pages := s.pages.set p { loaded := true, entries := t }, groups := (s.loaded p t).groups } :=
  State.foldPending_eq _ _

theorem State.loaded_group (s : State) (p : Fin 16) (t : Table Nat 99) (g : Fin 8) :
    (s.loaded p t).group g = if g ∈ s.dependents p then { s.group g with pending := true } else s.group g :=
  State.foldPending_group _ _ _

/-- A LOAD_CURVE of lawful numbers reads its slot and looks for a zero (R71 to R76). -/
theorem dispatchLoadCurve_eq {s : State} {w : Walk} {slot : Fin 4} {p : Fin 16} (named : w.param8 0 = slot.val)
    (page : w.param8 1 = p.val) {t : Table Nat 99} (entries : ∀ k, t.get k = s.stagedEntry slot k.val) :
    dispatchLoadCurve w s =
      if s.goodAccesses 1 = 1 then
        match firstZero t with
        | some i => (s.accessed 1).completeCard w.card .badField (bytes8 (i / 33) ++ bytes8 (i % 33))
        | none =>
          ((s.accessed 1).loaded p t).completeCard w.card .ok
            (bytes8 p.val ++ bytes8 slot.val ++ bytes8 (s.pages.get p).loaded.toNat ++
              bytes8 (bitsOf ((List.finRange 8).map fun g => decide (g ∈ (s.accessed 1).dependents p))) ++
              bytes16 (bitsOf (((s.accessed 1).loaded p t).pages.cells.map Page.loaded)))
      else s.accessed 1 := by
  have same : slotEntries (s.area.readBytes (s.areaBase + (0x0900 + 256 * slot.val)) 198) = t :=
    Table.ext_get fun k => (s.slotEntries_get slot k).trans (entries k).symm
  unfold dispatchLoadCurve
  rw [indexBelow_val named, indexBelow_val page]
  dsimp only
  rw [State.areaRead_eq]
  by_cases good : s.goodAccesses 1 = 1
  · rw [if_pos good, if_pos good]
    dsimp only
    rw [same, State.loaded_eq, (s.accessed_tables 1).2.2.2.1]
    cases firstZero t with
    | some i => rfl
    | none =>
      dsimp only
      rw [← (s.accessed_tables 1).2.2.2.1, ← State.loaded_eq]
      rfl
  · rw [if_neg good, if_neg good]

/-- Settles O22. -/
theorem loadCurveCard : Obligations.LoadCurveCard := by
  intro s w h
  have done {u : State} {code : ResultCode} {data : List Byte}
      (e : dispatchLoadCurve w s.dispatching = u.completeCard w.card code data) :
      dispatches .loadCurve s w u code data := dispatches_of_completed (f := dispatchLoadCurve) rfl h e
  refine ⟨fun bad => done ?_, fun slot p named page => ?_⟩
  · unfold dispatchLoadCurve
    split
    · next slot p named page =>
      have low := indexBelow_some named
      have few := indexBelow_some page
      omega
    · rfl
  obtain ⟨staged, entries⟩ : ∃ t : Table Nat 99, ∀ k, t.get k = s.dispatching.stagedEntry slot k.val :=
    ⟨_, s.dispatching.slotEntries_get slot⟩
  have runs := dispatchLoadCurve_eq named page entries
  have unread : s.goodAccesses 1 = 0 → dispatchLoadCurve w s.dispatching = s.dispatching.accessed 1 := fun none =>
    runs.trans (if_neg fun good => absurd (none.symm.trans good) (by decide))
  refine ⟨fun good k zero before => done ?_, fun good nonzero t held => ?_, fun none => ?_, fun none running goes => ?_⟩
  · rw [runs, if_pos (show s.dispatching.goodAccesses 1 = 1 from good),
      firstZero_some ((entries k).trans zero) fun j less => (entries j).trans_ne (before j less)]
  · have same : t = staged := Table.ext_get fun k => (held k).trans (entries k).symm
    have group : ∀ g, (s.dispatching.accessed 1).group g = s.group g :=
      State.group_congr (s.dispatching.accessed_tables 1).2.1
    have pages := (s.dispatching.accessed_tables 1).2.2.2.1
    have dependent : ∀ g, g ∈ (s.dispatching.accessed 1).dependents p ↔
        p = 15 ∨ ∃ i, (s.ctx i).life ≠ .absent ∧ (s.ctx i).group = g ∧ (s.ctx i).page = p := by
      intro g
      have ctx : ∀ i, (s.dispatching.accessed 1).ctx i = s.ctx i := State.ctx_congr (s.dispatching.accessed_tables 1).1
      rw [State.mem_dependents]
      simp only [ctx]
    refine ⟨(s.dispatching.accessed 1).loaded p t, (State.loaded_eq _ _ _).trans (by rw [pages]; rfl),
      fun g of => ?_, fun g other => ?_,
      (List.finRange 8).map fun g => decide (g ∈ (s.dispatching.accessed 1).dependents p), by simp, fun g => ?_, done ?_⟩
    · rw [State.loaded_group, if_pos ((dependent g).2 of), group]
    · rw [State.loaded_group, if_neg (mt (dependent g).1 other), group]
    · rw [List.getElem?_map, List.getElem?_eq_getElem (by simp), ← dependent]
      simp
    · rw [runs, if_pos (show s.dispatching.goodAccesses 1 = 1 from good),
        firstZero_eq_none fun k => (entries k).trans_ne (nonzero k), same]
      rfl
  · show Host.Outcome.next (s.dispatchCard .loadCurve dispatchLoadCurve) = _
    rw [State.dispatchCard_underWay h, unread none]
  · show Host.Outcome.next (s.dispatchCard .loadCurve dispatchLoadCurve) = _
    rw [State.dispatchCard_underWay h, unread none, State.accessed_bad (s := s.dispatching) running none,
      State.busFaulted_afterCard goes]

end Sys2Proof.Machine
end

section
/-! START_CHAIN, STOP_CHAIN, VERIFY and ROLL_CALL (R123, R124, R140, R151). -/

namespace Sys2Proof.Machine

/-! ## Changes of one chain -/

theorem State.modChain_congr {s : State} {ch : Fin 4} {f g : Chain → Chain} (h : f (s.chain ch) = g (s.chain ch)) :
    s.modChain ch f = s.modChain ch g := by
  unfold State.modChain
  rw [h]

theorem State.modChain_self {s : State} {ch : Fin 4} {f : Chain → Chain} (h : f (s.chain ch) = s.chain ch) :
    s.modChain ch f = s := by
  unfold State.modChain State.chain at *
  rw [h, Table.set_get_self]

/-- A latch whose age has passed the deadline in force is overdue (R131). -/
def Chain.lateAt (now : Tick) (k : Chain) : Chain :=
  { k with
    latchPending := k.latchPending.map fun p =>
      { p with overdue := p.overdue || decide (k.config.latchDeadline * 10 < (now - p.setTick).toNat) } }

theorem Chain.lateAt_none {k : Chain} (h : k.latchPending = none) (now : Tick) : k.lateAt now = k := by
  cases k
  simp_all [Chain.lateAt]

theorem Chain.lateAt_due {k : Chain} {p : LatchPending} (h : k.latchPending = some p) {now : Tick}
    (due : ¬k.config.latchDeadline * 10 < (now - p.setTick).toNat) : k.lateAt now = k := by
  have same : k.latchPending.map (fun p =>
      { p with overdue := p.overdue || decide (k.config.latchDeadline * 10 < (now - p.setTick).toNat) }) =
      k.latchPending := by
    rw [h, Option.map_some, decide_eq_false due, Bool.or_false]
  rw [Chain.lateAt, same]

theorem State.markLate_eq (s : State) (ch : Fin 4) : s.markLate ch = s.modChain ch (Chain.lateAt s.tick) := by
  unfold State.markLate State.latchLate
  cases pending : (s.chain ch).latchPending with
  | none => exact (State.modChain_self (Chain.lateAt_none pending _)).symm
  | some p =>
    dsimp only
    split_ifs with late
    · refine State.modChain_congr ?_
      rw [Chain.lateAt, pending, Option.map_some, Option.map_some, late, Bool.or_true]
    · exact (State.modChain_self (Chain.lateAt_due pending (by rwa [decide_eq_true_eq] at late))).symm

/-! ## The contexts of a chain in ascending order of address -/

theorem byAddress_pairwise (l : List (Fin 256 × Context)) :
    (byAddress l).Pairwise fun x y => x.2.address ≤ y.2.address := by
  refine List.pairwise_flatMap.2 ⟨fun a _ => ?_, ?_⟩
  · refine List.pairwise_of_forall_mem_list fun x hx y hy => ?_
    have hx := (List.mem_filter.1 hx).2
    have hy := (List.mem_filter.1 hy).2
    rw [decide_eq_true_eq] at hx hy
    rw [hx, hy]
  · refine (List.pairwise_lt_finRange 64).imp fun {a b} less x hx y hy => ?_
    have hx := (List.mem_filter.1 hx).2
    have hy := (List.mem_filter.1 hy).2
    rw [decide_eq_true_eq] at hx hy
    rw [hx, hy]
    exact less.le

theorem State.liveByAddress_pairwise (s : State) (ch : Fin 4) :
    (s.liveByAddress ch).Pairwise fun i j => (s.ctx i).address ≤ (s.ctx j).address := by
  refine List.pairwise_map.2 ((byAddress_pairwise _).imp_of_mem fun {x y} hx hy less => ?_)
  have own : ∀ z ∈ byAddress (s.contexts.enum.filter fun x => x.2.liveOn ch), s.ctx z.1 = z.2 := fun z mem =>
    (Table.mem_enum _ _).1 (List.mem_filter.1 (mem_byAddress.1 mem)).1
  rwa [own x hx, own y hy]

/-! ## START_CHAIN (R123) -/

/-- A started chain: IDLE, with one due entry for every LIVE context and its timers running (R123). -/
def Chain.started (now : Tick) (live : List (Fin 256)) (k : Chain) : Chain :=
  { k with
    state := .idle
    latchPending := k.latchPending.map fun p =>
      { p with overdue := p.overdue || decide (k.config.latchDeadline * 10 < (now - p.setTick).toNat) }
    pollList := live.map fun i => { ctx := i, overdue := false, inFlight := false }
    pollTimer := some (k.config.pollPeriod * 1000)
    sweepTimer := if k.config.verifyInterval = 0 then none else some (k.config.verifyInterval * 1000000) }

theorem State.startChain_eq (s : State) (ch : Fin 4) :
    s.startChain ch = (s.modChain ch (Chain.started s.tick (s.liveByAddress ch))).arbitrate ch := by
  unfold State.startChain
  rw [State.markLate_eq, State.modChain_modChain]
  rfl

/-- Settles O26. -/
theorem startChainCard : Obligations.StartChainCard := by
  intro s w h
  have done {u : State} {code : ResultCode} {data : List Byte}
      (e : dispatchStartChain w s.dispatching = u.completeCard w.card code data) :
      dispatches .startChain s w u code data := dispatches_of_completed (f := dispatchStartChain) rfl h e
  refine ⟨fun bad => done ?_, fun ch named => ?_⟩
  · unfold dispatchStartChain
    rw [indexBelow_of_le bad]
    rfl
  have shown : ∀ t : State, t.startData ch (s.chain ch).state =
      bytes8 (s.chain ch).state.number ++ bytes8 (t.chain ch).probeQueue.length ++
        bytes8 (t.chain ch).pushQueue.length ++ bytes8 (t.chain ch).pollList.length := fun t => by
    rw [State.startData, ChainState.code_number]
  refine ⟨fun stopping => done ?_, fun going runs => done ?_, fun stopped => ?_⟩
  · unfold dispatchStartChain
    rw [indexBelow_val named]
    dsimp only
    rw [show (s.dispatching.chain ch).state = .stopping from stopping]
    rfl
  · beta_reduce
    rw [← shown s]
    unfold dispatchStartChain
    rw [indexBelow_val named]
    dsimp only
    split
    · next stopping => exact absurd stopping going
    · next stopped => exact absurd stopped runs
    · rfl
  · refine ⟨s.liveByAddress ch, (s.dispatching.modChain ch
      (Chain.started s.tick (s.liveByAddress ch))).arbitrate ch, fun i => State.mem_liveByAddress, s.liveByAddress_nodup ch,
      s.liveByAddress_pairwise ch, rfl, done ?_⟩
    beta_reduce
    rw [← shown (State.arbitrate _ ch), stopped]
    unfold dispatchStartChain
    rw [indexBelow_val named]
    dsimp only
    rw [show (s.dispatching.chain ch).state = .stopped from stopped, State.startChain_eq]
    rfl

/-! ## STOP_CHAIN (R124) -/

/-- A STOP_CHAIN that is refused (R124). -/
theorem dispatchStopChain_busy {s : State} {w : Walk} {ch : Fin 4} (named : w.param8 0 = ch.val)
    (busy : (s.chain ch).state = .rolling ∨ (w.entries ch).stop.isSome = true) :
    dispatchStopChain w s = s.refuseCard w.card .busy := by
  unfold dispatchStopChain
  rw [indexBelow_val named]
  exact if_pos busy

/-- A STOP_CHAIN of a chain that stands stops it and is completed at once (R124). -/
theorem dispatchStopChain_now {s : State} {w : Walk} {ch : Fin 4} (named : w.param8 0 = ch.val)
    (free : (w.entries ch).stop = none) (stands : (s.chain ch).state = .stopped ∨ (s.chain ch).state = .idle) :
    dispatchStopChain w s =
      ((if (s.chain ch).state = .idle then s.stopTo ch .stopped else s).completeCard w.card .ok
        (s.stopData ch 0 false)).endSweep ch .cancelled := by
  have data : (s.stopTo ch .stopped).stopData ch 0 false = s.stopData ch 0 false := by
    simp [State.stopData, State.stopTo]
  unfold dispatchStopChain
  rw [indexBelow_val named]
  dsimp only
  rcases stands with stopped | idle
  · rw [if_neg (by simp [stopped, free]), if_neg (by simp [stopped]), stopped]
  · rw [if_neg (by simp [idle, free]), if_pos idle, idle, ← data]

/-- A STOP_CHAIN of a chain with work in flight holds its card (R124, R170). -/
theorem dispatchStopChain_later {s : State} {w : Walk} {ch : Fin 4} (named : w.param8 0 = ch.val)
    (free : (w.entries ch).stop = none)
    (works : (s.chain ch).state = .busy ∨ (s.chain ch).state = .holding ∨ (s.chain ch).state = .stopping) :
    dispatchStopChain w s = (s.stopTo ch .stopping).holdCard ch w.card .stopChain := by
  unfold dispatchStopChain
  rw [indexBelow_val named]
  dsimp only
  rcases works with state | state | state <;> rw [if_neg (by simp [state, free]), state]

theorem State.endSweep_none {s : State} {ch : Fin 4} (h : (s.chain ch).sweep = none) (code : ResultCode) :
    s.endSweep ch code = s := by
  unfold State.endSweep
  rw [h]

/-- Settles O27. -/
theorem stopChainCard : Obligations.StopChainCard := by
  intro s w h
  have done {u : State} {code : ResultCode} {data : List Byte}
      (e : dispatchStopChain w s.dispatching = u.completeCard w.card code data) :
      dispatches .stopChain s w u code data := dispatches_of_completed (f := dispatchStopChain) rfl h e
  have runs : exec .stopChain s = .next ((dispatchStopChain w s.dispatching).afterCard w) :=
    congrArg Host.Outcome.next (State.dispatchCard_underWay h dispatchStopChain)
  refine ⟨fun bad => done ?_, fun ch named => ⟨fun busy => done (dispatchStopChain_busy named busy),
    fun free stands => ?_, fun free works => ?_⟩⟩
  · unfold dispatchStopChain
    rw [indexBelow_of_le bad]
    rfl
  · have now := dispatchStopChain_now (s := s.dispatching) named free stands
    refine ⟨fun unswept => done (now.trans (State.endSweep_none ?_ _)), _, _, State.completeCard_completes _ _ _ _,
      State.endSweep_sweepEnds _ _ _, runs.trans (congrArg (fun t : State => Host.Outcome.next (t.afterCard w)) now)⟩
    rw [State.chain_congr (State.completeCard_keeps _ _ _ _).2.2.2.2.2.2.2.2.2.1]
    split_ifs
    · rw [State.stopTo, State.modChain_chain_same]
      exact unswept
    · exact unswept
  · exact ⟨_, State.areaWrite_takes _ w.card, runs.trans (congrArg
      (fun t : State => Host.Outcome.next (t.afterCard w)) (dispatchStopChain_later (s := s.dispatching) named free works))⟩

/-! ## VERIFY (R140, R141) -/

theorem Context.touched_due (c : Context) : c.touched { c with verify := .due } =
    if c.verify = .due then c else { c with verify := .due, dirty := true } := by
  unfold Context.touched
  split_ifs with same due due
  · rw [← due]
  · exact absurd (congrArg Context.verify same) due
  · exact absurd (by rw [← due]) same
  · rfl

/-- The contexts that a sweep marks (R135). -/
theorem State.markDue_ctx (s : State) (ch : Fin 4) (i : Fin 256) : (s.markDue ch).ctx i =
    if (s.ctx i).life = .live ∧ (s.ctx i).chain = ch ∧ (s.ctx i).verify ≠ .reading ∧ (s.ctx i).verify ≠ .due
    then { s.ctx i with verify := .due, dirty := true } else s.ctx i := by
  refine (Table.get_map _ _ i).trans ?_
  show (if (s.ctx i).liveOn ch && !decide ((s.ctx i).verify = .reading)
    then (s.ctx i).touched { s.ctx i with verify := .due } else s.ctx i) = _
  rw [Context.touched_due]
  simp only [Context.liveOn, Context.ofChain, Bool.and_eq_true, decide_eq_true_eq, Bool.not_eq_true',
    decide_eq_false_iff_not, and_assoc]
  by_cases due : (s.ctx i).verify = .due <;> simp [due]

theorem State.live_count (s : State) (ch : Fin 4) : (s.contexts.cells.filter (Context.liveOn ch)).length =
    ((List.finRange 256).filter fun i =>
      decide ((s.ctx i).life = .live) && decide ((s.ctx i).chain = ch)).length := by
  rw [Table.cells_eq_ofFn, List.ofFn_eq_map, List.filter_map, List.length_map]
  rfl

/-- A VERIFY that is taken marks its contexts, and is held unless none of them waits (R140, R141). -/
theorem dispatchVerify_eq {s : State} {w : Walk} {ch : Fin 4} (named : w.param8 0 = ch.val)
    (free : (w.entries ch).sweepOrRoll = none) : dispatchVerify w s =
      if (s.beginSweep ch).sweepMet ch then
        ((s.beginSweep ch).modChain ch fun k => { k with sweep := none }).completeCard w.card .ok (zeros 10)
      else ((s.beginSweep ch).holdCard ch w.card .verify).arbitrate ch := by
  unfold dispatchVerify
  rw [indexBelow_val named]
  dsimp only
  rw [if_neg (by simp [free])]

/-- A context of the chain waits for the sweep that a VERIFY starts (R141). -/
theorem State.beginSweep_met (s : State) (ch : Fin 4) : (s.beginSweep ch).sweepMet ch = true ↔
    ¬∃ i, (s.ctx i).chain = ch ∧
      ((s.ctx i).life = .live ∨ (s.ctx i).verify = .due ∨ (s.ctx i).verify = .reading) := by
  rw [State.sweepMet_iff, not_iff_not]
  refine exists_congr fun i => ?_
  rw [show (s.beginSweep ch).ctx i = (s.markDue ch).ctx i from rfl, State.markDue_ctx]
  split_ifs with marked
  · obtain ⟨live, chain, -⟩ := marked
    simp [live, chain]
  · refine and_congr_right fun chain => ⟨.inr, fun waits => ?_⟩
    rcases waits with live | waits
    · by_contra left
      rw [not_or] at left
      exact marked ⟨live, chain, left.2, left.1⟩
    · exact waits

/-- Settles O28. -/
theorem verifyCard : Obligations.VerifyCard := by
  intro s w h
  have done {u : State} {code : ResultCode} {data : List Byte}
      (e : dispatchVerify w s.dispatching = u.completeCard w.card code data) :
      dispatches .verify s w u code data := dispatches_of_completed (f := dispatchVerify) rfl h e
  refine ⟨fun bad => done ?_, fun ch named => ⟨fun held => done ?_, fun free none => done ?_, fun free waits => ?_⟩⟩
  · unfold dispatchVerify
    rw [indexBelow_of_le bad]
    rfl
  · unfold dispatchVerify
    rw [indexBelow_val named]
    exact if_pos held
  · have met : (s.dispatching.beginSweep ch).sweepMet ch = true := by
      refine (s.dispatching.beginSweep_met ch).2 fun ⟨i, chain, waits⟩ => ?_
      obtain ⟨dead, rest, read⟩ := none i chain
      rcases waits with live | due | reading
      · exact dead live
      · exact rest due
      · exact read reading
    have unmarked : s.dispatching.markDue ch = s.dispatching := by
      refine congrArg (fun C => ({ s.dispatching with contexts := C } : State)) (Table.ext_get fun i => ?_)
      exact (s.dispatching.markDue_ctx ch i).trans (if_neg fun marked => (none i marked.2.1).1 marked.1)
    rw [dispatchVerify_eq named free, if_pos met]
    unfold State.beginSweep
    rw [unmarked, State.modChain_modChain]
    rfl
  · have met : ¬(s.dispatching.beginSweep ch).sweepMet ch = true := by
      rw [State.beginSweep_met, not_not]
      exact waits
    refine ⟨s.dispatching.beginSweep ch, _, s.dispatching.markDue_ctx ch, ?_, State.areaWrite_takes _ w.card, ?_⟩
    · rw [← State.live_count]
      rfl
    · refine congrArg Host.Outcome.next ((State.dispatchCard_underWay h dispatchVerify).trans ?_)
      rw [dispatchVerify_eq named free, if_neg met]
      rfl

/-! ## ROLL_CALL (R147, R151) -/

theorem State.arbitrate_busy {s : State} {ch : Fin 4} (h : (s.chain ch).state ≠ .idle) : s.arbitrate ch = s :=
  (s.arbitrate_eq ch).resolve_right fun chosen => h chosen.1

/-- An IDLE chain with a roll in progress begins it (R145, R147). -/
theorem State.arbitrate_roll {s : State} {ch : Fin 4} (idle : (s.chain ch).state = .idle)
    (roll : (s.chain ch).roll.isSome = true) : s.arbitrate ch = s.start ch .rollStep := by
  have chosen : s.choice ch = some .rollStep := if_pos roll
  unfold State.arbitrate
  rw [idle, chosen]

theorem State.areaWrite_modChain (s : State) (ch : Fin 4) (f : Chain → Chain) (off : Nat) (bs : List Byte) :
    (s.modChain ch f).areaWrite off bs = (s.areaWrite off bs).modChain ch f := by
  rw [State.areaWrite_eq, State.areaWrite_eq]
  unfold State.accessed
  rw [show (s.modChain ch f).goodAccesses 1 = s.goodAccesses 1 from rfl,
    show (s.modChain ch f).intake = s.intake from rfl]
  split_ifs <;> rfl

/-- A ROLL_CALL that is taken holds its card, whatever its chain does (R151). -/
theorem dispatchRollCall_eq {s : State} {w : Walk} {ch : Fin 4} (named : w.param8 0 = ch.val)
    (free : (w.entries ch).sweepOrRoll = none) :
    dispatchRollCall w s = ((s.requestRoll ch).holdCard ch w.card .rollCall).arbitrate ch := by
  unfold dispatchRollCall
  rw [indexBelow_val named]
  dsimp only
  rw [if_neg (by simp [free])]

/-- A chain on which a roll has been requested where none was in progress (R147, R151). -/
def Chain.rollAsked (k : Chain) : Chain :=
  if k.state = .idle then
    { k with
      state := .rolling
      roll := some
        { begun := true, attempts := 1, retryLimit := k.config.retryLimit, serials := [], phase := .toBegin
          ending := false, again := false } }
  else
    { k with
      roll := some
        { begun := false, attempts := 0, retryLimit := 0, serials := [], phase := .toBegin, ending := false
          again := false } }

theorem State.modEntries_chain (s : State) (ch j : Fin 4) (f : LongEntries → LongEntries) :
    (s.modEntries ch f).chain j = s.chain j := rfl

/-- A chain that begins its roll (R145, R147). -/
def Chain.rollBegun (k : Chain) : Chain :=
  { k with
    state := .rolling
    roll := k.roll.map fun r =>
      { r with begun := true, attempts := 1, retryLimit := k.config.retryLimit, serials := [], phase := .toBegin } }

theorem State.modEntries_start_roll (s : State) (ch : Fin 4) (f : LongEntries → LongEntries) :
    (s.modEntries ch f).start ch .rollStep = (s.modChain ch Chain.rollBegun).modEntries ch f := rfl

/-- A roll that is asked for begins at once on an IDLE chain, and waits on any other (R147, R151). -/
theorem State.requestRoll_arbitrate {s : State} {ch : Fin 4} (none : (s.chain ch).roll = none) (w : Walk) :
    ((s.requestRoll ch).holdCard ch w.card .rollCall).arbitrate ch =
      (s.modChain ch Chain.rollAsked).holdCard ch w.card .rollCall := by
  have asked : s.requestRoll ch = s.modChain ch fun k => { k with roll := some Roll.waiting } :=
    State.modChain_congr (by rw [none])
  unfold State.holdCard
  rw [asked, State.areaWrite_modChain, State.areaWrite_modChain]
  have chain : (s.areaWrite (State.cardOffset w.card.index) (bytes8 2)).chain ch = s.chain ch :=
    State.chain_congr (by simp) ch
  generalize s.areaWrite (State.cardOffset w.card.index) (bytes8 2) = u at chain ⊢
  by_cases idle : (s.chain ch).state = .idle
  · rw [State.arbitrate_roll (by simpa [chain, State.modEntries_chain] using idle) (by simp [State.modEntries_chain])]
    rw [State.modEntries_start_roll, State.modChain_modChain]
    refine congrArg (fun t : State => t.modEntries ch _) (State.modChain_congr ?_)
    rw [chain, Chain.rollAsked, if_pos idle]
    rfl
  · rw [State.arbitrate_busy (by simpa [chain, State.modEntries_chain] using idle)]
    refine congrArg (fun t : State => t.modEntries ch _) (State.modChain_congr ?_)
    rw [chain, Chain.rollAsked, if_neg idle]
    rfl

/-- Settles O29. -/
theorem rollCallCard : Obligations.RollCallCard := by
  intro s w h
  have done {u : State} {code : ResultCode} {data : List Byte}
      (e : dispatchRollCall w s.dispatching = u.completeCard w.card code data) :
      dispatches .rollCall s w u code data := dispatches_of_completed (f := dispatchRollCall) rfl h e
  have runs {t : State} (e : dispatchRollCall w s.dispatching = t) : exec .rollCall s = .next (t.afterCard w) :=
    congrArg Host.Outcome.next ((State.dispatchCard_underWay h dispatchRollCall).trans (by rw [e]))
  refine ⟨fun bad => done ?_, fun ch named => ⟨fun held => done ?_, fun free none => ?_, fun r free rolling roll begun => ?_⟩⟩
  · unfold dispatchRollCall
    rw [indexBelow_of_le bad]
    rfl
  · unfold dispatchRollCall
    rw [indexBelow_val named]
    exact if_pos held
  · exact ⟨_, _, rfl, State.areaWrite_takes _ w.card, runs ((dispatchRollCall_eq named free).trans
      (State.requestRoll_arbitrate (s := s.dispatching) none w))⟩
  · have asked : s.dispatching.requestRoll ch =
        s.dispatching.modChain ch fun k => { k with roll := some { r with again := true } } := by
      refine State.modChain_congr ?_
      rw [show (s.dispatching.chain ch).roll = some r from roll]
      dsimp only
      rw [if_pos begun]
    refine ⟨_, State.areaWrite_takes _ w.card, runs ((dispatchRollCall_eq named free).trans ?_)⟩
    rw [asked]
    refine State.arbitrate_busy ?_
    have still : (((s.dispatching.modChain ch fun k => { k with roll := some { r with again := true } }).holdCard ch
        w.card .rollCall).chain ch).state = .rolling := by
      rw [State.chain_congr (State.holdCard_keeps _ _ _ _).2.2.2.2.2.2.2.2.2.1, State.modChain_chain_same]
      exact rolling
    rw [still]
    decide

end Sys2Proof.Machine
end

section
/-! The solver's timers, its service, and the ends of solves (R18, R50 to R57, R66, R70). -/

namespace Sys2Proof.Machine

/-! ## Solve timers and staleness (R50, R66) -/

theorem Context.touched_stale (c : Context) : c.touched { c with stale := true } =
    if c.stale = true then c else { c with stale := true, dirty := true } := by
  unfold Context.touched
  split_ifs with same stale stale
  · rw [← stale]
  · exact absurd (congrArg Context.stale same) stale
  · exact absurd (by rw [← stale]) same
  · rfl

theorem State.checkStale_ctx (s : State) (i : Fin 256) : s.checkStale.ctx i =
    if (s.ctx i).life ≠ .absent ∧ (s.ctx i).stale = false ∧
      (s.group (s.ctx i).group).staleLimit * 10000 < (s.tick - (s.ctx i).tempTick).toNat
    then { s.ctx i with stale := true, dirty := true } else s.ctx i := by
  refine (Table.get_map _ _ i).trans ?_
  show (if s.foundStale (s.ctx i) then (s.ctx i).touched { s.ctx i with stale := true } else s.ctx i) = _
  rw [Context.touched_stale]
  simp only [State.foundStale, Bool.and_eq_true, Bool.not_eq_true', decide_eq_true_eq, decide_eq_false_iff_not]
  unfold State.temperatureAge
  by_cases stale : (s.ctx i).stale = true <;> simp [stale]

/-- Settles O32. -/
theorem solveTimersAndStaleness : Obligations.SolveTimersAndStaleness := fun s =>
  ⟨fun _ running => congrArg Host.Outcome.next (if_pos running),
    fun _ stopped => congrArg Host.Outcome.next (if_neg (by rw [stopped]; decide)),
    stalenessCheckExpiryStep s, rfl, rfl, fun i => State.checkStale_ctx { s with stalenessTimer := _ } i, rfl⟩

/-! ## The ends of solves (R52) -/

/-- Settles O34: what the solves write, one after another, and the reports of what they newly set. -/
theorem solvesEnd : Obligations.SolvesEnd := by
  intro s vs each once
  refine ⟨s.solveTargets, vs.foldl State.writeSolve s, fun v _ => s.solveTargets_solvesTo v,
    State.foldSolves_writesSolves _ s vs each once fun v _ => rfl, ?_⟩
  have reports : (vs.flatMap fun v => v.members.flatMap fun m =>
      if (s.ctx m.ctx).generation = m.tile.generation then
        (s.ctx m.ctx).correctionReports s.tick (s.resultOf (s.solveTargets v) m)
      else []) = vs.flatMap s.solveReports := by
    refine List.flatMap_congr fun v _ => ?_
    simp only [State.solveReports, State.solveResults, Solve.results, List.flatMap_map, State.stillMember,
      decide_eq_true_eq, Context.newReports_eq, State.resultOf, State.readingOf_eq]
  rw [reports]
  exact State.raiseTogether_raises _ _

/-! ## The service (R52) -/

theorem State.writeMember_serviceTimer (s : State) (t : Timer) (m : MemberResult) :
    ({ s with serviceTimer := t } : State).writeMember m = { s.writeMember m with serviceTimer := t } := by
  unfold State.writeMember
  rw [show ({ s with serviceTimer := t } : State).stillMember m = s.stillMember m from rfl]
  split_ifs <;> rfl

theorem State.writeSolve_serviceTimer (s : State) (t : Timer) (v : Solve) :
    ({ s with serviceTimer := t } : State).writeSolve v = { s.writeSolve v with serviceTimer := t } := by
  have members : (({ s with serviceTimer := t } : State).solveResults v).foldl State.writeMember
      { s with serviceTimer := t } = { (s.solveResults v).foldl State.writeMember s with serviceTimer := t } :=
    List.foldl_hom (fun s : State => { s with serviceTimer := t }) fun s m => State.writeMember_serviceTimer s t m
  unfold State.writeSolve
  dsimp only
  rw [members]
  rfl

/-- The ends of solves do not see the service timer. -/
theorem State.endSolves_serviceTimer (s : State) (t : Timer) (vs : List Solve) :
    ({ s with serviceTimer := t } : State).endSolves vs = { s.endSolves vs with serviceTimer := t } := by
  have solves : vs.foldl State.writeSolve { s with serviceTimer := t } =
      { vs.foldl State.writeSolve s with serviceTimer := t } :=
    List.foldl_hom (fun s : State => { s with serviceTimer := t }) fun s v => State.writeSolve_serviceTimer s t v
  unfold State.endSolves
  rw [solves]
  exact State.raiseTogether_serviceTimer _ t _

/-- Solves that end with a service do not make the service wait (R54, R172). -/
theorem State.endSolves_free {s : State} (free : ¬s.holdsService) (vs : List Solve) :
    ¬(s.endSolves vs).holdsService := by
  have walk : (s.endSolves vs).intake.walk = s.intake.walk := by simp
  rintro (⟨w, under⟩ | ⟨n, goes⟩)
  · exact free (.inl ⟨w, walk.symm.trans under⟩)
  · rcases s.endSolves_scan vs with same | none
    · exact free (.inr ⟨n, same.symm.trans goes⟩)
    · exact absurd (none.symm.trans goes) (by simp)

theorem exec_serviceTimerExpiry_free {s : State} (free : ¬s.holdsService) :
    exec .serviceTimerExpiry s = .next ({ s with serviceTimer := some 1000 } : State).service :=
  congrArg Host.Outcome.next (if_neg (mt s.serviceWaits_iff.1 free))

theorem State.service_endSolves (s : State) : (s.endSolves s.solves).service = s.service := by
  have ended : (s.endSolves s.solves).endSolves (s.endSolves s.solves).solves = s.endSolves s.solves := by
    rw [State.endSolves_all]
    rfl
  unfold State.service
  rw [ended]

theorem State.foldBegin_group (gs : List (Fin 8)) (s : State) (g : Fin 8) :
    (gs.foldl State.beginSolve s).group g =
      if g ∈ gs then { s.group g with pending := false } else s.group g := by
  induction gs generalizing s with
  | nil => rfl
  | cons h gs ih =>
    rw [List.foldl_cons, ih, State.beginSolve_group]
    by_cases same : g = h <;> by_cases later : g ∈ gs <;> simp [same, later, eq_comm]

theorem State.foldBegin_eq (gs : List (Fin 8)) (s : State) : gs.foldl State.beginSolve s =
    { s with
      groups := (gs.foldl State.beginSolve s).groups, solves := s.solves ++ gs.map s.newSolve } := by
  rw [← State.foldBegin_solves]
  induction gs generalizing s with
  | nil => rfl
  | cons g gs ih =>
    rw [List.foldl_cons, ih]
    rfl

theorem State.mem_pendingGroups_iff (s : State) (g : Fin 8) : g ∈ s.pendingGroups ↔ (s.group g).pending = true := by
  simp [State.pendingGroups]

/-- Every pending flag is cleared as its solve begins (R51). -/
theorem State.pendingGroups_begun (s : State) : (s.pendingGroups.foldl State.beginSolve s).groups =
    s.groups.map fun g => { g with pending := false } := by
  refine Table.ext_get fun g => ?_
  rw [Table.get_map]
  refine (State.foldBegin_group _ s g).trans ?_
  split_ifs with pending
  · rfl
  · have clear : (s.group g).pending = false := by
      rw [State.mem_pendingGroups_iff] at pending
      simpa using pending
    show s.group g = { s.group g with pending := false }
    rw [← clear]

/-- The solves that a service begins, some of their members having read their pages (R52, R70). -/
theorem State.begun_eq {s : State} (idle : s.solves = []) (early : Fin 256 → Bool) :
    (s.pendingGroups.foldl State.beginSolve s).readPages early =
      { s with
        groups := s.groups.map fun g => { g with pending := false }
        solves := s.pendingGroups.map fun g => (s.newSolve g).readSome s.pages early } := by
  rw [State.foldBegin_eq, State.pendingGroups_begun, idle]
  unfold State.readPages
  rw [List.nil_append, List.map_map]
  rfl

/-- A service with no solve under way begins a solve of every pending group, and some of them end with it (R52). -/
theorem State.service_begins {s : State} (idle : s.solves = []) : ∃ (vs ended : List Solve) (n : Nat),
    (vs.map Solve.group).Pairwise (· < ·) ∧ (∀ g, (∃ v ∈ vs, v.group = g) ↔ (s.group g).pending = true) ∧
    (∀ v ∈ vs, s.beginsSolve v) ∧ ended.Sublist vs ∧
    s.service = ({ s with
      groups := s.groups.map fun g => { g with pending := false }, solves := vs, freeIndex := n } : State).endSolves
        ended := by
  have groups := s.pendingGroups_begun
  by_cases none : s.pendingGroups = []
  · have clear : ∀ g, (s.group g).pending = false := fun g => by
      have := mt (s.mem_pendingGroups_iff g).2 (by rw [none]; exact List.not_mem_nil)
      simpa using this
    refine ⟨[], [], s.freeIndex, List.Pairwise.nil, fun g => by simp [clear g], nofun, List.Sublist.refl _, ?_⟩
    have ended : s.endSolves s.solves = s := by rw [idle]; rfl
    have kept : s.groups.map (fun g => { g with pending := false }) = s.groups := by
      rw [← groups, none]
      rfl
    unfold State.service
    rw [ended]
    dsimp only
    rw [none, kept]
    show s = { s with solves := [] }
    rw [← idle]
  · obtain ⟨g, mem⟩ := List.exists_mem_of_ne_nil _ none
    rw [State.service_eq idle ((s.mem_pendingGroups_iff g).1 mem)]
    generalize Config.freeOrder s.freeIndex = late
    generalize Config.freeOrder (s.freeIndex + 1) = early
    let vs := s.pendingGroups.map fun g => (s.newSolve g).readSome s.pages fun i => early.testBit i.val
    have named : vs.map Solve.group = s.pendingGroups := by rw [List.map_map]; exact List.map_id _
    refine ⟨vs, vs.filter fun v => !late.testBit v.group.val, s.freeIndex + 2, ?_, fun g => ?_, fun v mem => ?_,
      List.filter_sublist, ?_⟩
    · rw [named]
      exact (List.pairwise_lt_finRange 8).filter _
    · rw [← State.mem_pendingGroups_iff, ← named, List.mem_map]
    · obtain ⟨g, -, rfl⟩ := List.mem_map.1 mem
      exact s.newSolve_begins g _
    · have begun := State.begun_eq (s := { s with freeIndex := s.freeIndex + 2 }) idle fun i => early.testBit i.val
      unfold State.serviceWith
      rw [begun]
      rfl

/-- Settles O33. -/
theorem serviceSolvesPendingGroups : Obligations.ServiceSolvesPendingGroups := by
  intro s
  refine ⟨fun holds => congrArg Host.Outcome.next (if_pos (s.serviceWaits_iff.2 holds)), fun free => ?_,
    s.endSolves_all, fun free idle => ?_⟩
  · rw [exec_serviceTimerExpiry_free free, exec_serviceTimerExpiry_free (State.endSolves_free free _),
      ← State.endSolves_serviceTimer]
    exact congrArg Host.Outcome.next (State.service_endSolves { s with serviceTimer := some 1000 }).symm
  · obtain ⟨vs, ended, n, order, pending, begun, sub, e⟩ :=
      State.service_begins (s := { s with serviceTimer := some 1000 }) idle
    exact ⟨vs, ended, n, order, pending, begun, sub, (exec_serviceTimerExpiry_free free).trans (congrArg _ e)⟩

end Sys2Proof.Machine
end

section
/-! A tile correction in the terms of chapter 1: the temperature, the factor, the luminances, the gain and the terms
(R3 to R9, R13 to R17). -/

namespace Sys2Proof.Machine

theorem temperatureUsed_some (x : Int) : temperatureUsed (some x) = max (-100) (min x 700) := by
  unfold temperatureUsed
  dsimp only
  split_ifs <;> omega

/-- An entry for the factor of a primary: the own page's, else page 15's, else 1.0 (R5). -/
theorem chosenEntry_eq (pages : Table Page 16) (own : Fin 16) (p : Primary) (n : Nat) :
    chosenEntry (chosenPage pages own) p n =
      if (pages.get own).loaded then (pages.get own).entries.cells.getD (primaryRow p + n) 0
      else if (pages.get 15).loaded then (pages.get 15).entries.cells.getD (primaryRow p + n) 0
      else 32768 := by
  unfold chosenPage
  split_ifs <;> rfl

theorem effectiveOf_eq (y a : Nat) : effectiveOf y a = max 1 ((y * a + 16384) / 32768) := by
  unfold effectiveOf
  dsimp only
  split_ifs <;> omega

theorem Context.effectiveNow_get (pages : Table Page 16) (c : Context) (p : Primary) :
    (c.effectiveNow pages).get p = effectiveOf
      (compensated (c.luminance.get p) (factor (chosenPage pages c.page) c.temp p)) (c.age.get p) := by
  rw [Context.effectiveNow, Rgb.get_ofPrimary]

theorem Context.correction_effective (pages : Table Page 16) (T : Option (Rgb Nat)) (c : Context) :
    (c.correction pages T).effective = c.effectiveNow pages := rfl

theorem Context.correction_gain (pages : Table Page 16) (T : Option (Rgb Nat)) (c : Context) (p : Primary) :
    (c.correction pages T).gain.get p = gainOf (T.map fun v => v.get p) ((c.effectiveNow pages).get p) :=
  Rgb.get_ofPrimary _ p

theorem Context.correction_shorts (pages : Table Page 16) (T : Option (Rgb Nat)) (c : Context) (p : Primary) :
    (c.correction pages T).shorts.get p = shortIn (T.map fun v => v.get p) ((c.effectiveNow pages).get p) :=
  Rgb.get_ofPrimary _ p

theorem Context.correction_term (pages : Table Page 16) (T : Option (Rgb Nat)) (c : Context) (p j : Primary) :
    ((c.correction pages T).target.get p).get j = termOf ((c.correction pages T).gain.get p) ((c.mix.get p).get j) :=
  targetSet_get _ _ p j

theorem shortIn_iff (T : Option (Rgb Nat)) (p : Primary) (e : Nat) :
    shortIn (T.map fun v => v.get p) e = true ↔ ∃ U, T = some U ∧ 32768 < (U.get p * 32768 + e / 2) / e := by
  cases T with
  | none => simp [shortIn]
  | some U =>
    refine decide_eq_true_iff.trans ⟨fun short => ⟨U, rfl, short⟩, ?_⟩
    rintro ⟨V, same, short⟩
    cases same
    exact short

/-- A correction is short if one of its primaries is (R14). -/
theorem Correction.short_iff (k : Correction) : k.short = true ↔ ∃ q, k.shorts.get q = true := by
  rw [Correction.short, Bool.or_eq_true, Bool.or_eq_true]
  constructor
  · rintro ((r | g) | b)
    · exact ⟨.red, r⟩
    · exact ⟨.green, g⟩
    · exact ⟨.blue, b⟩
  · rintro ⟨q, short⟩
    cases q
    · exact .inl (.inl short)
    · exact .inl (.inr short)
    · exact .inr short

/-- A gain of 1.0 copies a term (R16). -/
theorem termOf_one (m : Int) : termOf 32768 m = m := by
  unfold termOf
  omega

/-- Settles O36. -/
theorem tileCorrection : Obligations.TileCorrection := by
  intro pages T c p k
  refine ⟨rfl, rfl, ?_⟩
  intro t u own wall row entry f y e
  have used : temperatureUsed c.temp = t := by
    show temperatureUsed c.temp = match c.temp with
      | none => 250
      | some x => max (-100) (min x 700)
    cases c.temp with
    | none => rfl
    | some x => exact temperatureUsed_some x
  have place : primaryRow p = row := by cases p <;> rfl
  have entries : ∀ n, chosenEntry (chosenPage pages c.page) p n = entry n := fun n => by
    rw [chosenEntry_eq, place]
  have factors : factor (chosenPage pages c.page) c.temp p = f := by
    unfold factor gridIndex gridRemainder curveU
    simp only [entries, used]
    rfl
  have effective : (c.effectiveNow pages).get p = e := by
    rw [Context.effectiveNow_get, factors, effectiveOf_eq]
    rfl
  refine ⟨effective, fun none => ?_, fun U given => ?_, fun j => ?_, ?_, ?_, ?_, rfl, le_max_left _ _, ?_, fun j range => ?_,
    fun one => ?_⟩
  · rw [Context.correction_gain, none]
    rfl
  · rw [Context.correction_gain, effective, given]
    exact clampNat_eq (by decide) _
  · rw [Context.correction_term, Int.fdiv_eq_ediv_of_nonneg _ (by decide)]
    rfl
  · rw [Correction.short_iff]
    simp only [k, Context.correction_shorts, shortIn_iff, Context.correction_effective]
    exact ⟨fun ⟨q, U, short⟩ => ⟨U, q, short⟩, fun ⟨U, q, short⟩ => ⟨q, U, short⟩⟩
  · rw [Context.correction_shorts, shortIn_iff, effective]
  · show (!(pages.get c.page).loaded) = true ↔ (pages.get c.page).loaded = false
    rw [Bool.not_eq_true']
  · rw [Context.correction_gain]
    exact gainOf_bounds _ _
  · rw [Context.correction_term, Context.correction_gain]
    exact termOf_inRange (gainOf_bounds _ _).2 range
  · have copied : ∀ j, (k.target.get p).get j = (c.mix.get p).get j := fun j => by
      rw [Context.correction_term, one, termOf_one]
    have ext : ∀ v w : Rgb Int, (∀ j, v.get j = w.get j) → v = w := by
      rintro ⟨a, b, d⟩ ⟨x, y, z⟩ same
      obtain rfl : a = x := same .red
      obtain rfl : b = y := same .green
      obtain rfl : d = z := same .blue
      rfl
    exact ext _ _ copied

end Sys2Proof.Machine
end

section
/-! When a chain's frames are sent, and what the line carries (R97, R102, R104, R108, R144, R146). -/

namespace Sys2Proof.Machine

/-! ## The work of a chain in a phase -/

theorem Chain.transactionIn_of {k : Chain} {t : Transaction} {p : Phase} (flight : k.flight = .transaction t)
    (phase : t.phase = p) : k.transactionIn p = some t := by
  unfold Chain.transactionIn
  rw [flight]
  exact if_pos phase

theorem Chain.transactionIn_latch {k : Chain} {b : Bool} (flight : k.flight = .latch b) (p : Phase) :
    k.transactionIn p = none := by
  unfold Chain.transactionIn
  rw [flight]

theorem Chain.transactionIn_idle {k : Chain} (flight : k.flight = .none) (p : Phase) : k.transactionIn p = none := by
  unfold Chain.transactionIn
  rw [flight]

theorem Chain.rollIn_of {k : Chain} {r : Roll} {p : RollPhase} (state : k.state = .rolling) (roll : k.roll = some r)
    (phase : r.phase = p) : k.rollIn p = some r := by
  unfold Chain.rollIn
  rw [state, roll]
  exact if_pos phase

/-! ## The frame on the line -/

theorem State.frameOnLine_transaction {s : State} {ch : Fin 4} {t : Transaction}
    (flight : (s.chain ch).flight = .transaction t) (phase : t.phase = .sending) :
    s.frameOnLine ch = some (t.kind.frame t.address t.payload) ∧ s.driving ch = true := by
  unfold State.frameOnLine State.driving
  rw [Chain.transactionIn_of flight phase]
  exact ⟨rfl, rfl⟩

theorem State.frameOnLine_latch {s : State} {ch : Fin 4} (flight : (s.chain ch).flight = .latch true) :
    s.frameOnLine ch = some latchFrame := by
  unfold State.frameOnLine
  rw [Chain.transactionIn_latch flight]
  exact if_pos flight

theorem State.frameOnLine_roll {s : State} {ch : Fin 4} {r : Roll} (flight : (s.chain ch).flight = .none)
    (state : (s.chain ch).state = .rolling) (roll : (s.chain ch).roll = some r) (phase : r.phase = .sending) :
    s.frameOnLine ch = some rollFrame := by
  unfold State.frameOnLine
  rw [Chain.transactionIn_idle flight, Chain.rollIn_of state roll phase]
  exact if_neg (by rw [flight]; exact nofun)

/-! ## Frames that begin -/

theorem lineReady_iff (quiet waited : Nat) : lineReady quiet waited = true ↔ 2 ≤ quiet ∨ 20 ≤ waited := by
  simp [lineReady]

theorem State.beginFrame_transaction {s : State} {ch : Fin 4} {t : Transaction}
    (flight : (s.chain ch).flight = .transaction t) (phase : t.phase = .toBegin) :
    s.beginFrame ch = s.modChain ch fun k => { k with flight := .transaction { t with phase := .sending } } := by
  unfold State.beginFrame
  rw [Chain.transactionIn_of flight phase]
  rfl

theorem State.beginFrame_latch {s : State} {ch : Fin 4} (flight : (s.chain ch).flight = .latch false) :
    s.beginFrame ch = s.modChain ch fun k => { k with flight := .latch true } := by
  unfold State.beginFrame
  rw [Chain.transactionIn_latch flight, flight]

theorem State.beginFrame_roll {s : State} {ch : Fin 4} {r : Roll} (flight : (s.chain ch).flight = .none)
    (state : (s.chain ch).state = .rolling) (roll : (s.chain ch).roll = some r) (phase : r.phase = .toBegin) :
    s.beginFrame ch = s.modChain ch fun k => { k with roll := some { r with phase := .sending } } := by
  unfold State.beginFrame
  rw [Chain.transactionIn_idle flight, flight, Chain.rollIn_of state roll phase]
  rfl

/-- Nothing is sent until the line has been quiet for two byte times, or 20 byte times have passed (R97). -/
theorem line_unready {ch : Fin 4} {quiet waited : Nat} (q : quiet < 2) (w : waited < 20) (s : State) :
    frameBeginStep ch quiet waited s = s ∧ resendStep ch quiet waited s = s ∧ rollRetryStep ch quiet waited s = s := by
  have unready : ¬lineReady quiet waited = true := by
    rw [lineReady_iff]
    omega
  refine ⟨if_neg unready, ?_, ?_⟩
  · unfold resendStep
    split
    · rfl
    · exact if_neg unready
  · unfold rollRetryStep
    split
    · rfl
    · exact if_neg unready

/-- Settles O38. -/
theorem framesAreSent : Obligations.FramesAreSent := by
  intro s ch quiet waited
  refine ⟨fun q w => ?_, fun other => congrArg Host.Outcome.next ?_, fun ready => ?_,
    fun t flight phase => congrArg Host.Outcome.next ?_,
    fun r state flight roll phase => congrArg Host.Outcome.next ?_⟩
  · obtain ⟨begins, resends, retries⟩ := line_unready (ch := ch) q w s
    exact ⟨congrArg Host.Outcome.next begins, congrArg Host.Outcome.next resends, congrArg Host.Outcome.next retries⟩
  · unfold latchSentStep
    split
    · next sending => exact absurd sending other
    · rfl
  · rw [← lineReady_iff] at ready
    refine ⟨fun t flight phase => ?_, fun flight => ?_, fun r state flight roll phase => ?_, fun t flight phase => ?_,
      fun r state roll phase => ?_⟩
    · exact ⟨_, congrArg Host.Outcome.next ((if_pos ready).trans (State.beginFrame_transaction flight phase)), rfl,
        State.frameOnLine_transaction (t := { t with phase := .sending }) (by simp) rfl⟩
    · exact ⟨_, congrArg Host.Outcome.next ((if_pos ready).trans (State.beginFrame_latch flight)), rfl,
        State.frameOnLine_latch (by simp)⟩
    · exact ⟨_, congrArg Host.Outcome.next ((if_pos ready).trans (State.beginFrame_roll flight state roll phase)), rfl,
        State.frameOnLine_roll (r := { r with phase := .sending }) (by simpa using flight) (by simpa using state)
          (by simp) rfl⟩
    · refine ⟨_, congrArg Host.Outcome.next ?_, rfl,
        (State.frameOnLine_transaction (t := { t with attempts := t.attempts + 1, phase := .sending }) (by simp) rfl).1⟩
      unfold resendStep
      rw [Chain.transactionIn_of flight phase]
      exact if_pos ready
    · refine congrArg Host.Outcome.next ?_
      unfold rollRetryStep
      rw [Chain.rollIn_of state roll phase]
      exact if_pos ready
  · unfold frameSentStep
    rw [Chain.transactionIn_of flight phase]
    rfl
  · unfold frameSentStep
    rw [Chain.transactionIn_idle flight, Chain.rollIn_of state roll phase]
    rfl

end Sys2Proof.Machine
end

section
/-! The frames of the part and of the tiles, byte by byte, and their check (R97 to R100, R103). -/

namespace Sys2Proof.Machine

/-! ## The frame check (R99) -/

theorem crcBit_same {r : Half} {bit : Bool} (same : r.getLsbD 15 = bit) : crcBit r bit = r <<< 1 :=
  if_neg (by rw [same, bne_self_eq_false]; decide)

/-- One bit of the check: the bit that leaves the register and the bit that enters agree, or the generator is added. -/
theorem crcBit_eq (r : Half) (bit : Bool) : crcBit r bit =
    if r.getLsbD 15 = bit then r <<< 1 else (r <<< 1) ^^^ (1 <<< 12 ||| 1 <<< 5 ||| 1) := by
  have generator : (0x1021 : Half) = 1 <<< 12 ||| 1 <<< 5 ||| 1 := by decide
  split_ifs with same
  · exact crcBit_same same
  · rw [← generator]
    exact if_pos (by simpa using same)

theorem frameCheck_append (bs : List Byte) (b : Byte) : frameCheck (bs ++ [b]) = crcByte (frameCheck bs) b := by
  rw [frameCheck, List.foldl_append]
  rfl

/-- A byte equal to the register's upper one shifts it out (R99). -/
theorem crcByte_upper {r : Half} {b : Byte} (h : ∀ i < 8, b.getLsbD i = r.getLsbD (8 + i)) : crcByte r b = r <<< 8 := by
  have step : ∀ k, k < 8 → crcBit (r <<< k) (b.getLsbD (7 - k)) = r <<< (k + 1) := by
    intro k less
    have bit : (r <<< k).getLsbD 15 = b.getLsbD (7 - k) := by
      rw [h _ (by omega), BitVec.getLsbD_shiftLeft, show 8 + (7 - k) = 15 - k by omega]
      simp
      omega
    rw [crcBit_same bit, BitVec.shiftLeft_add]
  have first := step 0 (by decide)
  rw [BitVec.shiftLeft_zero] at first
  unfold crcByte
  simp only [List.foldl_cons, List.foldl_nil]
  rw [first, step 1 (by decide), step 2 (by decide), step 3 (by decide), step 4 (by decide), step 5 (by decide),
    step 6 (by decide), step 7 (by decide)]

/-- The register that meets its own two bytes, high byte first, is cleared (R99). -/
theorem crcByte_self (r : Half) : crcByte (crcByte r (r.extractLsb' 8 8)) (r.extractLsb' 0 8) = 0 := by
  have upper : crcByte r (r.extractLsb' 8 8) = r <<< 8 := by
    refine crcByte_upper fun i less => ?_
    rw [BitVec.getLsbD_extractLsb', decide_eq_true less, Bool.true_and]
  have lower : crcByte (r <<< 8) (r.extractLsb' 0 8) = r <<< 8 <<< 8 := by
    refine crcByte_upper fun i less => ?_
    rw [BitVec.getLsbD_extractLsb', BitVec.getLsbD_shiftLeft]
    simp [less]
    omega
  rw [upper, lower, ← BitVec.shiftLeft_add]
  exact BitVec.shiftLeft_eq_zero (by decide)

theorem frameCheck_withCheck (body : List Byte) : frameCheck (withCheck body) = 0 := by
  rw [withCheck, frameCheck, List.foldl_append]
  exact crcByte_self _

theorem withCheck_length (body : List Byte) : (withCheck body).length = body.length + 2 := by
  simp [withCheck, link16]

/-! ## Values on the link (R97, R100) -/

theorem link16_eq (c : Half) : link16 c = [leByte c.toNat 1, leByte c.toNat 0] := by
  have upper : c.extractLsb' 8 8 = leByte c.toNat 1 := by
    apply BitVec.eq_of_toNat_eq
    simp [leByte, Nat.shiftRight_eq_div_pow]
  have lower : c.extractLsb' 0 8 = leByte c.toNat 0 := by
    apply BitVec.eq_of_toNat_eq
    simp [leByte]
  rw [link16, upper, lower]

/-- The two bytes of a value, joined, are the value. -/
theorem join_halves (c : Half) : c.extractLsb' 8 8 ++ c.extractLsb' 0 8 = c := by
  refine BitVec.eq_of_getLsbD_eq fun i less => ?_
  rw [BitVec.getLsbD_append, BitVec.getLsbD_extractLsb', BitVec.getLsbD_extractLsb']
  by_cases low : i < 8
  · simp [low]
  · simp [low, show i - 8 < 8 by omega, show 8 + (i - 8) = i by omega]

theorem twosComplement_eq (t : Int) : (BitVec.ofInt 16 t).toNat = twosComplement t := by
  rw [BitVec.toNat_ofInt]
  rfl

/-- A term's two bytes, high byte first (R100). -/
theorem link16_term (t : Int) :
    link16 (BitVec.ofInt 16 t) = [leByte (twosComplement t) 1, leByte (twosComplement t) 0] := by
  rw [link16_eq, twosComplement_eq]

/-- A term in the term format is what its two bytes say (R15, R100). -/
theorem join_term {t : Int} (range : inTermRange t) :
    (leByte (twosComplement t) 1 ++ leByte (twosComplement t) 0 : BitVec 16).toInt = t := by
  have bytes := link16_term t
  rw [link16, List.cons.injEq, List.cons.injEq] at bytes
  obtain ⟨upper, lower, -⟩ := bytes
  rw [← upper, ← lower, join_halves, BitVec.toInt_ofInt]
  obtain ⟨lo, hi⟩ := range
  exact Int.bmod_eq_of_le (by omega) (by omega)

/-- The nine terms of a set, in set order. -/
def setTerms (a : TermSet) : List Int := [a.r.r, a.r.g, a.r.b, a.g.r, a.g.g, a.g.b, a.b.r, a.b.g, a.b.b]

theorem linkSet_eq (a : TermSet) : linkSet a = (setTerms a).flatMap fun t => link16 (BitVec.ofInt 16 t) := by
  simp [linkSet, setTerms, Rgb.toList]

theorem flatMap_pairs_getD {α : Type} (f g : α → Byte) (d : α) (l : List α) {n : Nat} (h : n < l.length) :
    (l.flatMap fun t => [f t, g t]).getD (2 * n) 0 = f (l.getD n d) ∧
      (l.flatMap fun t => [f t, g t]).getD (2 * n + 1) 0 = g (l.getD n d) := by
  induction l generalizing n with
  | nil => exact absurd h (Nat.not_lt_zero n)
  | cons a l ih =>
    cases n with
    | zero => exact ⟨rfl, rfl⟩
    | succ n => exact ih (Nat.lt_of_succ_lt_succ h)

/-- Settles O39. -/
theorem controllerFrames : Obligations.ControllerFrames := by
  refine ⟨⟨rfl, fun bs b => ?_, by decide +kernel⟩, fun a set => ⟨fun kind payload => ?_, ⟨_, rfl⟩,
    linkSet_length set, rfl, fun n less => ?_, rfl, rfl⟩⟩
  · intro next
    have bit : ∀ r c, crcBit r c = next r c := crcBit_eq
    rw [frameCheck_append, crcByte]
    simp only [List.foldl_cons, List.foldl_nil, bit]
  · have address : (addressByte a).toNat = a.val := by
      rw [addressByte, BitVec.toNat_ofNat]
      exact Nat.mod_eq_of_lt (a.isLt.trans (by decide))
    cases kind
    all_goals
      refine ⟨_, rfl, rfl, congrArg some address, ?_⟩
      rw [WorkKind.frame, withCheck_length]
      simp
  · intro t
    have bytes := flatMap_pairs_getD (fun t => leByte (twosComplement t) 1) (fun t => leByte (twosComplement t) 0) 0
      (setTerms set) (show n < 9 from less)
    simp only [← link16_term, ← linkSet_eq] at bytes
    obtain ⟨upper, lower⟩ := bytes
    exact ⟨upper, lower, fun range => by rw [upper, lower]; exact join_term range⟩

/-! ## The frames of the tiles (R98, R99, R103) -/

/-- What the bytes before a right check carry (R98). -/
def TileFrame.ofBody : List Byte → Option TileFrame
  | [k] => if k = 0x51 then some .ack else if k = 0x52 then some .nak else if k = 0x53 then some .hold else none
  | [k, h, l] => if k = 0x54 then some (.check (join16 h l)) else none
  | [k, a, b, c, d] =>
    if k = 0x55 then some (.identity (join32 a b c d))
    else if k = 0x57 then some (.rollAnswer (join32 a b c d)) else none
  | [k, h, l, r, a, b, c, d] =>
    if k = 0x56 then
      if r = 0 then some (.status (join16 h l).toInt none)
      else if 0x80 ≤ r.toNat ∧ r.toNat ≤ 0x87 then
        some (.status (join16 h l).toInt (some ⟨Fin.ofNat 8 r.toNat, join32 a b c d⟩))
      else none
    else none
  | _ => none

theorem TileFrame.ofBytes_eq (bs : List Byte) : TileFrame.ofBytes bs =
    if bs.length < 3 ∨ bs.drop (bs.length - 2) ≠ link16 (frameCheck (bs.take (bs.length - 2))) then none
    else TileFrame.ofBody (bs.take (bs.length - 2)) := by
  unfold TileFrame.ofBytes TileFrame.ofBody
  rfl

theorem TileFrame.ofBytes_withCheck {body : List Byte} (some : body ≠ []) :
    TileFrame.ofBytes (withCheck body) = TileFrame.ofBody body := by
  have length : (withCheck body).length - 2 = body.length := by rw [withCheck_length]; omega
  have long := List.length_pos_iff.2 some
  rw [TileFrame.ofBytes_eq, length, withCheck, List.take_left, List.drop_left, ← withCheck, withCheck_length]
  exact if_neg (by simp; omega)

/-- A check that differs from the computed one makes no frame (R99). -/
theorem TileFrame.ofBytes_wrong {body : List Byte} {h l : Byte} (wrong : h ++ l ≠ frameCheck body) :
    TileFrame.ofBytes (body ++ [h, l]) = none := by
  have length : (body ++ [h, l]).length - 2 = body.length := by simp
  rw [TileFrame.ofBytes_eq, length, List.take_left, List.drop_left]
  refine if_pos (.inr fun same => wrong ?_)
  rw [link16, List.cons.injEq, List.cons.injEq] at same
  rw [same.1, same.2.1, join_halves]

/-- A body that carries something is of a known kind and of its length (R98, R103). -/
theorem TileFrame.ofBody_none {body : List Byte}
    (h : ∀ k n, body.head? = some k → body.length = n →
      ¬((k = 0x51 ∨ k = 0x52 ∨ k = 0x53) ∧ n = 1 ∨ k = 0x54 ∧ n = 3 ∨ (k = 0x55 ∨ k = 0x57) ∧ n = 5 ∨ k = 0x56 ∧ n = 8)) :
    TileFrame.ofBody body = none := by
  unfold TileFrame.ofBody
  split
  · have := h _ _ rfl rfl
    simp_all
  · have := h _ _ rfl rfl
    simp_all
  · have := h _ _ rfl rfl
    simp_all
  · have := h _ _ rfl rfl
    simp_all
  · rfl

theorem TileFrame.ofBody_status (h l r a b c d : Byte) : TileFrame.ofBody [0x56, h, l, r, a, b, c, d] =
    if r = 0 then some (.status (join16 h l).toInt none)
    else if 0x80 ≤ r.toNat ∧ r.toNat ≤ 0x87 then
      some (.status (join16 h l).toInt (some ⟨Fin.ofNat 8 r.toNat, join32 a b c d⟩))
    else none := rfl

/-- Settles O40. -/
theorem answersAreRead : Obligations.AnswersAreRead := by
  refine ⟨⟨TileFrame.ofBytes_withCheck (by simp), TileFrame.ofBytes_withCheck (by simp),
      TileFrame.ofBytes_withCheck (by simp)⟩, fun h l => TileFrame.ofBytes_withCheck (by simp),
    fun a b c d => ⟨TileFrame.ofBytes_withCheck (by simp), TileFrame.ofBytes_withCheck (by simp)⟩,
    fun h l a b c d => TileFrame.ofBytes_withCheck (by simp), fun h l a b c d k => ?_,
    fun h l r a b c d report out => ?_, fun body h l wrong => TileFrame.ofBytes_wrong wrong,
    fun body => ⟨frameCheck_withCheck body, rfl⟩, fun kind f => ?_, fun body => ?_, fun bytes => ⟨rfl, rfl⟩⟩
  · have value : (BitVec.ofNat 8 (0x80 + k.val)).toNat = 0x80 + k.val := by
      rw [BitVec.toNat_ofNat]
      exact Nat.mod_eq_of_lt (by omega)
    have kind : Fin.ofNat 8 (0x80 + k.val) = k := Fin.ext (by simp [Fin.ofNat]; omega)
    rw [TileFrame.ofBytes_withCheck (by simp), TileFrame.ofBody_status, value, kind, if_neg, if_pos (by omega)]
    · rfl
    · intro zero
      rw [zero] at value
      exact absurd (show 0 = 0x80 + k.val from value) (by omega)
  · rw [TileFrame.ofBytes_withCheck (by simp), TileFrame.ofBody_status, if_neg report, if_neg (by omega)]
  · cases kind <;> cases f <;> simp [WorkKind.judge]
  · intro has other
    cases body with
    | nil => rfl
    | cons k rest =>
      rw [TileFrame.ofBytes_withCheck (by simp)]
      refine TileFrame.ofBody_none fun k n head length => ?_
      rintro (⟨rfl | rfl | rfl, rfl⟩ | ⟨rfl, rfl⟩ | ⟨rfl | rfl, rfl⟩ | ⟨rfl, rfl⟩)
      · exact other (.inl ⟨head, length⟩)
      · exact other (.inr (.inl ⟨head, length⟩))
      · exact other (.inr (.inr (.inl ⟨head, length⟩)))
      · exact other (.inr (.inr (.inr (.inl ⟨head, length⟩))))
      · exact other (.inr (.inr (.inr (.inr (.inl ⟨head, length⟩)))))
      · exact other (.inr (.inr (.inr (.inr (.inr (.inr ⟨head, length⟩))))))
      · exact other (.inr (.inr (.inr (.inr (.inr (.inl ⟨head, length⟩))))))

end Sys2Proof.Machine
end

section
/-! The answers that end a transaction with success: ACK, IDENTITY, STATUS and CHECK (R31, R38, R39, R42, R105, R121,
R129, R137, R138). -/

namespace Sys2Proof.Machine

/-! ## Changes of one chain and of one context -/

theorem State.modChain_chain_at (s : State) (ch : Fin 4) (f : Chain → Chain) (j : Fin 4) :
    (s.modChain ch f).chain j = if j = ch then f (s.chain j) else s.chain j := by
  rw [State.modChain_chain]
  by_cases own : j = ch
  · subst own
    rw [if_pos rfl]
  · rw [if_neg (Ne.symm own), if_neg own]

theorem State.modCtx_self {s : State} {i : Fin 256} {f : Context → Context} (h : f (s.ctx i) = s.ctx i) :
    s.modCtx i f = s := by
  have same : (s.ctx i).touched (f (s.ctx i)) = s.ctx i := by
    rw [h]
    exact if_pos rfl
  unfold State.modCtx State.setCtx
  rw [same]
  exact congrArg (fun c => { s with contexts := c }) (Table.set_get_self _ _)

/-! ## Outcomes, accepted and discarded -/

theorem State.accepts_iff {s : State} {t : Transaction} : s.accepts t = true ↔
    (s.ctx t.ctx).generation = t.generation ∧ (s.ctx t.ctx).life = if t.kind = .probe then .adopted else .live := by
  unfold State.accepts
  rw [Bool.and_eq_true, decide_eq_true_eq]
  refine and_congr_right fun _ => ?_
  cases t.kind <;> exact decide_eq_true_iff

theorem State.accepts_adopted {s : State} {t : Transaction} (kind : t.kind = .probe) : s.accepts t = true ↔
    (s.ctx t.ctx).generation = t.generation ∧ (s.ctx t.ctx).life = .adopted := by
  rw [State.accepts_iff, if_pos kind]

theorem State.accepts_live {s : State} {t : Transaction} (kind : t.kind ≠ .probe) : s.accepts t = true ↔
    (s.ctx t.ctx).generation = t.generation ∧ (s.ctx t.ctx).life = .live := by
  rw [State.accepts_iff, if_neg kind]

/-- What a success leaves, before the report it may carry is routed: a discarded one leaves everything (R31). -/
def State.afterSuccess (s : State) (ch : Fin 4) (t : Transaction) (f : TileFrame) : State :=
  if s.accepts t then s.succeeded ch t f else s

theorem State.afterSuccess_accepted {s : State} {t : Transaction} (accepted : s.accepts t = true) (ch : Fin 4)
    (f : TileFrame) : s.afterSuccess ch t f = s.succeeded ch t f := if_pos accepted

theorem State.afterSuccess_discarded {s : State} {t : Transaction} (discarded : ¬s.accepts t = true) (ch : Fin 4)
    (f : TileFrame) : s.afterSuccess ch t f = s := if_neg discarded

theorem State.handOver_success (s : State) (ch : Fin 4) (t : Transaction) (f : TileFrame) :
    s.handOver ch t (.success f) =
      ((s.afterSuccess ch t f).routeCarried ch t (.success f)).endFlight ch t.kind.number true := by
  rw [← WorkKind.code_number]
  rfl

theorem tileAnswerStep_good {s : State} {ch : Fin 4} {t : Transaction} {bytes : List Byte} {quiet : Bool}
    {f : TileFrame} (flight : (s.chain ch).flight = .transaction t) (window : t.phase = .window)
    (good : t.kind.judge (answerFrame bytes quiet) = .good f) :
    tileAnswerStep ch bytes quiet s =
      ((s.afterSuccess ch t f).routeCarried ch t (.success f)).endFlight ch t.kind.number true := by
  unfold tileAnswerStep
  rw [Chain.transactionIn_of flight window]
  dsimp only
  rw [good]
  exact s.handOver_success ch t f

/-! ## The ACK of a push (R26, R129) -/

/-- Latch-pending is set with the present tick, unless it is set already (R129). -/
def Chain.latchAsked (now : Tick) (k : Chain) : Chain :=
  { k with
    latchPending := match k.latchPending with
      | some p => some p
      | none => some { setTick := now, overdue := false } }

/-- The context whose push of `payload` has been acknowledged (R26, R129). -/
def Context.pushed (payload : Option TermSet) (c : Context) : Context :=
  { c with
    sent := payload, pushCount := if 65535 ≤ c.pushCount then c.pushCount else c.pushCount + 1
    failCount := 0, dirty := true }

theorem State.pushAnswered_eq (s : State) (ch : Fin 4) (t : Transaction) : s.pushAnswered ch t =
    (s.modCtx t.ctx (Context.pushed t.payload)).modChain ch (Chain.latchAsked s.tick) := rfl

theorem State.pushAnswered_chain (s : State) (ch : Fin 4) (t : Transaction) (j : Fin 4) :
    (s.pushAnswered ch t).chain j =
      if j = ch ∧ (s.chain ch).latchPending = none then
        { s.chain j with latchPending := some { setTick := s.tick, overdue := false } }
      else s.chain j := by
  rw [State.pushAnswered_eq, State.modChain_chain, State.modCtx_chain, State.modCtx_chain]
  by_cases own : j = ch
  · subst own
    rw [if_pos rfl]
    cases pending : (s.chain j).latchPending with
    | none => simp [Chain.latchAsked, pending]
    | some p =>
      rw [if_neg (by simp)]
      unfold Chain.latchAsked
      rw [pending]
      exact (congrArg (fun l => { s.chain j with latchPending := l }) pending).symm
  · rw [if_neg (Ne.symm own), if_neg fun both => own both.1]

/-- Settles O42. -/
theorem pushAcknowledged : Obligations.PushAcknowledged := by
  intro s ch t bytes quiet flight push ack
  have ends : s.handOver ch t (.success .ack) = (s.afterSuccess ch t .ack).endFlight ch 2 true := by
    rw [State.handOver_success, push]
    rfl
  refine ⟨s.afterSuccess ch t .ack, fun window => congrArg Host.Outcome.next ?_,
    fun holding => congrArg Host.Outcome.next ?_, fun discarded => ?_, fun generation live => ?_⟩
  · rw [tileAnswerStep_good flight window (f := .ack) (by rw [push, ack]; rfl), push]
    rfl
  · unfold holdAnswerStep
    rw [Chain.transactionIn_of flight holding, ack]
    exact ends
  · exact State.afterSuccess_discarded (fun yes => discarded ((State.accepts_live (by simp [push])).1 yes)) _ _
  · rw [State.afterSuccess_accepted ((State.accepts_live (by simp [push])).2 ⟨generation, live⟩)]
    have done : s.succeeded ch t .ack = s.pushAnswered ch t := rfl
    rw [done]
    refine ⟨?_, fun j other => ?_, s.pushAnswered_chain ch t, rfl⟩
    · rw [State.pushAnswered_eq, State.modChain_ctx, State.modCtx_ctx_same, Context.touched_dirty _ rfl]
      rfl
    · rw [State.pushAnswered_eq, State.modChain_ctx, State.modCtx_ctx_other _ (Ne.symm other)]

/-! ## The IDENTITY answer of a probe (R38, R39) -/

theorem State.clearFailures_same (s : State) (i : Fin 256) :
    (s.clearFailures i).ctx i = (s.ctx i).touched { s.ctx i with failCount := 0 } := State.modCtx_ctx_same _ _ _

theorem State.clearFailures_other (s : State) (i j : Fin 256) (other : j ≠ i) :
    (s.clearFailures i).ctx j = s.ctx j := State.modCtx_ctx_other _ (Ne.symm other) _

/-- A context that enters a life state with its failures cleared: only its counts stood otherwise before. -/
theorem State.entersLife_cleared {s t : State} {i : Fin 256} {c : Context}
    (enters : (s.clearFailures i).entersLife t i c) : s.entersLife t i c := by
  refine State.entersLife_of enters rfl (fun j other => s.clearFailures_other i j other) ?_
  rw [State.clearFailures_same, Context.touched_eq]
  exact ⟨rfl, rfl, rfl, rfl⟩

theorem State.enterUnmatched_eq (s : State) (i : Fin 256) (found : Word) : s.enterUnmatched i found =
    State.notice .fault ((s.transition i .unmatched .none).raisePart .unmatched (s.ctx i).chain (s.ctx i).address
      (s.ctx i).serial found) := by
  unfold State.enterUnmatched
  dsimp only
  rw [State.transition_ctx_same]

theorem State.enterFaulted_eq (s : State) (i : Fin 256) (reason : FaultReason) : s.enterFaulted i reason =
    State.notice .fault ((s.transition i .faulted reason).raisePart .tileFaulted (s.ctx i).chain (s.ctx i).address
      (s.ctx i).serial (BitVec.ofNat 32 reason.number)) := by
  unfold State.enterFaulted
  dsimp only
  rw [State.transition_ctx_same, FaultReason.code_number]

/-- Settles O43. -/
theorem identityAnswered : Obligations.IdentityAnswered := by
  intro s ch t bytes quiet serial flight window probe answer i c
  have own : (s.clearFailures i).ctx i = c.touched { c with failCount := 0 } := s.clearFailures_same i
  rw [Context.touched_eq] at own
  refine ⟨s.afterSuccess ch t (.identity serial), congrArg Host.Outcome.next ?_, fun discarded => ?_,
    fun generation adopted same => ?_, fun generation adopted differs => ?_⟩
  · rw [tileAnswerStep_good flight window (f := .identity serial) (by rw [probe, answer]; rfl), probe]
    rfl
  · exact State.afterSuccess_discarded (fun yes => discarded ((State.accepts_adopted probe).1 yes)) _ _
  all_goals rw [State.afterSuccess_accepted ((State.accepts_adopted probe).2 ⟨generation, adopted⟩)]
  · have enters := State.entersLife_cleared ((s.clearFailures i).enterLive_entersLife i)
    rw [own] at enters
    have live : s.succeeded ch t (.identity serial) = (s.clearFailures i).enterLive i := if_pos same
    rw [live]
    exact enters
  · have enters := State.entersLife_cleared
      ((s.clearFailures i).transition_entersLife i .unmatched .none (by decide))
    rw [own] at enters
    have unmatched : s.succeeded ch t (.identity serial) = (s.clearFailures i).enterUnmatched i serial :=
      if_neg differs
    refine ⟨_, enters, ?_⟩
    rw [unmatched, State.enterUnmatched_eq, own]

/-! ## The STATUS answer of a poll (R62, R63, R121) -/

/-- A change that follows the clearing of the failures, and says nothing of them, is one change with it. -/
theorem Context.touched_cleared {f : Context → Context}
    (apart : ∀ (c : Context) (n : Nat) (d : Bool),
      f { c with failCount := n, dirty := d } = { f c with failCount := n, dirty := d })
    (c : Context) : (c.touched { c with failCount := 0 }).touched (f (c.touched { c with failCount := 0 })) =
      c.touched { f c with failCount := 0 } := by
  have plain : ∀ n d, c.failCount = n → c.dirty = d → f c = { f c with failCount := n, dirty := d } := by
    rintro n d rfl rfl
    exact apart c _ _
  by_cases none : c.failCount = 0
  · have same : ({ c with failCount := 0 } : Context) = c := by rw [← none]
    have kept : ({ f c with failCount := 0 } : Context) = f c := by
      rw [plain _ _ none rfl]
    rw [same, kept]
    unfold Context.touched
    rw [if_pos rfl]
  · have first : c.touched { c with failCount := 0 } = { c with failCount := 0, dirty := true } := by
      refine if_neg fun same => none ?_
      exact congrArg Context.failCount same
    have both : c.touched { f c with failCount := 0 } = { f c with failCount := 0, dirty := true } := by
      refine if_neg fun same => none ?_
      exact congrArg Context.failCount same
    rw [first, both, apart, Context.touched_dirty _ rfl]

/-- A poll that is answered clears the failures and leaves the poll list (R40, R120). -/
def State.polled (s : State) (ch : Fin 4) (i : Fin 256) : State :=
  (s.clearFailures i).modChain ch fun k => { k with pollList := k.pollList.filter fun e => !decide (e.ctx = i) }

theorem State.polled_chain (s : State) (ch : Fin 4) (i : Fin 256) (j : Fin 4) : (s.polled ch i).chain j =
    if j = ch then { s.chain j with pollList := (s.chain j).pollList.filter fun e => !decide (e.ctx = i) }
    else s.chain j := State.modChain_chain_at _ ch _ j

theorem State.polled_modCtx (s : State) (ch : Fin 4) (i : Fin 256) {f : Context → Context}
    (apart : ∀ (c : Context) (n : Nat) (d : Bool),
      f { c with failCount := n, dirty := d } = { f c with failCount := n, dirty := d }) :
    ((s.polled ch i).modCtx i f).ctx i = (s.ctx i).becoming { f (s.ctx i) with failCount := 0 } := by
  have own : (s.polled ch i).ctx i = (s.ctx i).touched { s.ctx i with failCount := 0 } := s.clearFailures_same i
  rw [State.modCtx_ctx_same, own, Context.touched_cleared apart, Context.becoming_eq]

theorem State.polled_modCtx_other (s : State) (ch : Fin 4) (i : Fin 256) (f : Context → Context) {j : Fin 256}
    (other : j ≠ i) : ((s.polled ch i).modCtx i f).ctx j = s.ctx j := by
  rw [State.modCtx_ctx_other _ (Ne.symm other)]
  exact s.clearFailures_other i j other

/-- Settles O44. -/
theorem statusAnswered : Obligations.StatusAnswered := by
  intro s ch t bytes quiet temp report flight window poll answer i c
  refine ⟨(s.afterSuccess ch t (.status temp report)).routeCarried ch t (.success (.status temp report)),
    s.afterSuccess ch t (.status temp report), congrArg Host.Outcome.next ?_, ?_, ?_, fun discarded => ?_,
    fun generation live => ?_⟩
  · rw [tileAnswerStep_good flight window (f := .status temp report) (by rw [poll, answer]; rfl), poll]
    rfl
  · rintro rfl
    rfl
  · rintro r rfl
    rfl
  · exact State.afterSuccess_discarded (fun yes => discarded ((State.accepts_live (by simp [poll])).1 yes)) _ _
  rw [State.afterSuccess_accepted ((State.accepts_live (by simp [poll])).2 ⟨generation, live⟩)]
  have taken : s.succeeded ch t (.status temp report) = (s.polled ch i).takeTemperature i temp := rfl
  have own : (s.polled ch i).ctx i = c.touched { c with failCount := 0 } := s.clearFailures_same i
  rw [Context.touched_eq] at own
  have suspect : ((s.polled ch i).ctx i).sensorSuspect = c.sensorSuspect := by rw [own]
  rw [taken]
  unfold State.takeTemperature
  dsimp only
  rw [suspect]
  by_cases plausible : -400 ≤ temp ∧ temp ≤ 1250
  · rw [if_pos plausible]
    refine ⟨_, fun j other => s.polled_modCtx_other ch i _ other, fun j => s.polled_chain ch i j, rfl,
      fun _ => ⟨rfl, s.polled_modCtx ch i fun _ _ _ => rfl⟩, fun outside => absurd plausible (by omega)⟩
  rw [if_neg plausible]
  refine ⟨(s.polled ch i).modCtx i fun c => { c with sensorSuspect := true },
    fun j other => s.polled_modCtx_other ch i _ other, fun j => s.polled_chain ch i j, rfl,
    fun inside => absurd inside plausible, fun _ => ⟨s.polled_modCtx ch i fun _ _ _ => rfl, fun known => ?_,
      fun fresh => ?_⟩⟩
  · rw [if_pos known]
    refine (State.modCtx_self ?_).symm
    rw [own, ← known]
  · rw [if_neg (by simp [fresh]), own]

end Sys2Proof.Machine
end

section
/-! The readback's answer, attempts that end without success, failed transactions and the end of a chain's work (R40 to
R42, R104, R105, R107, R125, R137, R138, R141). -/

namespace Sys2Proof.Machine

/-! ## The CHECK answer of a readback (R42, R137, R138) -/

/-- An event counted in the sweep record of a chain, if it has one (R141). -/
def Chain.counting (f : SweepRecord → SweepRecord) (k : Chain) : Chain := { k with sweep := k.sweep.map f }

theorem State.countSweep_chain (s : State) (ch : Fin 4) (f : SweepRecord → SweepRecord) (j : Fin 4) :
    (s.countSweep ch f).chain j = if j = ch then (s.chain j).counting f else s.chain j :=
  State.modChain_chain_at s ch _ j

/-- A readback that differed, and its report (R138). -/
def State.mismatched (s : State) (ch : Fin 4) (i : Fin 256) : State :=
  (s.modCtx i fun c =>
    { c with verify := .mismatched, mismatchCount := c.mismatchCount + 1, failCount := 0 }).countSweep ch
      fun r => { r with mismatched := countUp 65535 r.mismatched }

theorem State.mismatched_ctx (s : State) (ch : Fin 4) (i : Fin 256) : (s.mismatched ch i).ctx i =
    (s.ctx i).becoming
      { s.ctx i with verify := .mismatched, mismatchCount := (s.ctx i).mismatchCount + 1, failCount := 0 } := by
  unfold State.mismatched
  rw [State.countSweep_ctx, State.modCtx_ctx_same, Context.becoming_eq]

theorem State.mismatched_report (s : State) (ch : Fin 4) (i : Fin 256) (value : Word) :
    ∀ j, ((s.mismatched ch i).raisePart .verifyMismatch (s.ctx i).chain (s.ctx i).address (s.ctx i).serial value).ctx j =
      (s.mismatched ch i).ctx j := fun j => State.ctx_congr (by simp) j

theorem State.expectedCheck_eq {s : State} {i : Fin 256} {latched : TermSet} (known : (s.ctx i).latched = some latched) :
    s.expectedCheck i = checkWord latched := by
  unfold State.expectedCheck
  rw [known]
  rfl

/-- Settles O45. -/
theorem checkAnswered : Obligations.CheckAnswered := by
  intro s ch t bytes quiet word flight window readback answer i c
  refine ⟨s.afterSuccess ch t (.check word), congrArg Host.Outcome.next ?_, fun discarded => ?_,
    fun generation live latched known => ?_⟩
  · rw [tileAnswerStep_good flight window (f := .check word) (by rw [readback, answer]; rfl), readback]
    rfl
  · exact State.afterSuccess_discarded (fun yes => discarded ((State.accepts_live (by simp [readback])).1 yes)) _ _
  rw [State.afterSuccess_accepted ((State.accepts_live (by simp [readback])).2 ⟨generation, live⟩)]
  have expected : s.expectedCheck i = checkWord latched := State.expectedCheck_eq known
  have answered : s.succeeded ch t (.check word) = s.readbackAnswered ch i word := rfl
  rw [answered]
  unfold State.readbackAnswered
  rw [expected]
  by_cases same : word = checkWord latched
  · rw [if_pos same]
    refine ⟨s.readbackMatch ch i, fun j other => ?_, rfl, fun _ => ⟨State.testSweep_sweepTested _ _, ?_, ?_⟩,
      fun differs => absurd same differs⟩
    · unfold State.readbackMatch
      rw [State.countSweep_ctx, State.modCtx_ctx_other _ (Ne.symm other)]
    · unfold State.readbackMatch
      rw [State.countSweep_ctx, State.modCtx_ctx_same, Context.becoming_eq]
    · exact fun j => State.countSweep_chain _ ch _ j
  rw [if_neg same]
  refine ⟨s.mismatched ch i, fun j other => ?_, rfl, fun equal => absurd equal same, fun _ => ⟨s.mismatched_ctx ch i,
    fun j => State.countSweep_chain _ ch _ j, ?_⟩⟩
  · unfold State.mismatched
    rw [State.countSweep_ctx, State.modCtx_ctx_other _ (Ne.symm other)]
  intro y
  have shown : y.ctx i = (s.mismatched ch i).ctx i := s.mismatched_report ch i _ i
  rw [s.mismatched_ctx ch i, Context.becoming] at shown
  have place : (y.ctx i).chain = c.chain ∧ (y.ctx i).address = c.address ∧ (y.ctx i).serial = c.serial := by
    rw [shown]
    exact ⟨rfl, rfl, rfl⟩
  obtain ⟨chain, address, serial⟩ := place
  have differs : s.readbackMismatch ch i word =
      if c.mismatchCount + 1 < 3 then y.enqueuePush i else y.enterFaulted i .verify := by
    unfold State.readbackMismatch
    rw [expected]
    rfl
  rw [differs]
  refine ⟨fun few => ?_, fun third => ?_⟩
  · rw [if_pos (by omega)]
    have pushed := State.testSweep_sweepTested (y.enqueuePush i) ch
    unfold State.enqueuePush at pushed ⊢
    rw [chain] at pushed ⊢
    exact pushed
  · rw [if_neg (by omega), State.enterFaulted_eq, chain, address, serial]
    exact ⟨_, y.transition_entersLife i .faulted .verify (by decide), State.testSweep_sweepTested _ _⟩

/-! ## Attempts that end without success, and holds (R104, R105) -/

theorem WorkKind.judge_nak (k : WorkKind) : k.judge (some .nak) = .nak := by cases k <;> rfl

theorem Chain.transactionIn_elsewhere {k : Chain} {t : Transaction} {p : Phase} (flight : k.flight = .transaction t)
    (other : t.phase ≠ p) : k.transactionIn p = none := by
  unfold Chain.transactionIn
  rw [flight]
  exact if_neg other

/-- A chain whose transaction is to send its frame again: it holds no longer (R104, R105). -/
def Chain.resending (t : Transaction) (k : Chain) : Chain :=
  { k with
    flight := .transaction { t with phase := .toResend }, holdTimer := none
    state := if k.state = .holding then .busy else k.state }

theorem State.resends (s : State) (ch : Fin 4) (t : Transaction) :
    (s.leaveHold ch).setFlight ch { t with phase := .toResend } = s.modChain ch (Chain.resending t) := by
  unfold State.leaveHold State.setFlight
  rw [State.modChain_modChain]
  refine State.modChain_congr ?_
  unfold Chain.resending
  cases state : (s.chain ch).state <;> simp [state]

theorem State.attemptFailed_nak (s : State) (ch : Fin 4) (t : Transaction) : s.attemptFailed ch t .nak =
    if t.attempts < 1 + t.settings.retryLimit ∧ t.settings.nakPolicy = .retry then s.modChain ch (Chain.resending t)
    else s.handOver ch t (.failure .nak) := by
  unfold State.attemptFailed
  rw [State.resends]
  refine if_congr ?_ rfl rfl
  cases policy : t.settings.nakPolicy <;> simp [Transaction.attemptsRemain]

theorem State.attemptFailed_noAnswer (s : State) (ch : Fin 4) (t : Transaction) : s.attemptFailed ch t .noAnswer =
    if t.attempts < 1 + t.settings.retryLimit then s.modChain ch (Chain.resending t)
    else s.handOver ch t (.failure .noAnswer) := by
  unfold State.attemptFailed
  rw [State.resends]
  exact if_congr (by simp [Transaction.attemptsRemain]) rfl rfl

theorem State.beginHold_eq (s : State) (ch : Fin 4) (t : Transaction) : s.beginHold ch t = s.modChain ch fun k =>
    { k with
      flight := .transaction { t with phase := .holding }
      holdTimer := some (t.settings.holdLimit * 1000)
      state := if k.state = .busy then .holding else k.state } := by
  unfold State.beginHold
  refine State.modChain_congr ?_
  cases state : (s.chain ch).state <;> simp [Config.millis]

/-- Settles O46. -/
theorem attemptsAndHolds : Obligations.AttemptsAndHolds := by
  intro s ch t bytes quiet flight again naked unanswered
  have refused : s.attemptFailed ch t .nak = naked := s.attemptFailed_nak ch t
  have silent : s.attemptFailed ch t .noAnswer = unanswered := s.attemptFailed_noAnswer ch t
  refine ⟨fun window => ?_, fun other => ?_, fun holding => ?_, fun other => ?_⟩
  · have open_ := Chain.transactionIn_of flight window
    refine ⟨fun nak => congrArg Host.Outcome.next ?_, fun garbled => congrArg Host.Outcome.next ?_,
      congrArg Host.Outcome.next ?_, fun push hold => congrArg Host.Outcome.next ?_⟩
    · unfold tileAnswerStep
      rw [open_, nak]
      dsimp only
      rw [WorkKind.judge_nak]
      exact refused
    · unfold tileAnswerStep
      rw [open_]
      dsimp only
      rw [garbled]
      exact silent
    · unfold answerWindowCloseStep
      rw [open_]
      exact silent
    · unfold tileAnswerStep
      rw [open_, hold]
      dsimp only
      rw [show t.kind.judge (some .hold) = .hold by rw [push]; rfl]
      exact s.beginHold_eq ch t
  · have closed := Chain.transactionIn_elsewhere flight other
    refine ⟨congrArg Host.Outcome.next ?_, congrArg Host.Outcome.next ?_⟩
    · unfold tileAnswerStep
      rw [closed]
    · unfold answerWindowCloseStep
      rw [closed]
  · have held := Chain.transactionIn_of flight holding
    refine ⟨fun nak => congrArg Host.Outcome.next ?_, fun noNak noAck => congrArg Host.Outcome.next ?_,
      congrArg Host.Outcome.next ?_⟩
    · unfold holdAnswerStep
      rw [held, nak]
      exact refused
    · unfold holdAnswerStep
      rw [held]
      dsimp only
      split
      · next ack => exact absurd ack noAck
      · next nak => exact absurd nak noNak
      · rfl
    · unfold holdTimerExpiryStep
      rw [held]
  · have free := Chain.transactionIn_elsewhere flight other
    refine ⟨congrArg Host.Outcome.next ?_, congrArg Host.Outcome.next ?_⟩
    · unfold holdAnswerStep
      rw [free]
    · unfold holdTimerExpiryStep
      rw [free]

/-! ## Failed transactions (R40, R41, R107) -/

/-- What a failure leaves: a discarded one leaves everything (R31). -/
def State.afterFailure (s : State) (ch : Fin 4) (t : Transaction) (reason : FaultReason) : State :=
  if s.accepts t then s.failed ch t reason else s

theorem State.handOver_failure (s : State) (ch : Fin 4) (t : Transaction) (reason : FaultReason) :
    s.handOver ch t (.failure reason) = (s.afterFailure ch t reason).endFlight ch t.kind.number false := by
  rw [← WorkKind.code_number]
  rfl

/-- A failed readback counted in the sweep record of its chain (R141). -/
def State.failureSwept (s : State) (ch : Fin 4) (kind : WorkKind) : State :=
  if kind = .readback then s.countSweep ch fun r => { r with failed := countUp 65535 r.failed } else s

theorem State.countFailure_eq (s : State) (ch : Fin 4) (t : Transaction) : s.countFailure ch t =
    (s.failureSwept ch t.kind).modCtx t.ctx fun c => { c with failCount := c.failCount + 1 } := by
  unfold State.countFailure State.failureSwept
  cases t.kind <;> rfl

theorem State.failureSwept_eq (s : State) (ch : Fin 4) (kind : WorkKind) :
    s.failureSwept ch kind = { s with chains := (s.failureSwept ch kind).chains } := by
  unfold State.failureSwept
  split <;> rfl

theorem State.failureSwept_ctx (s : State) (ch : Fin 4) (kind : WorkKind) (j : Fin 256) :
    (s.failureSwept ch kind).ctx j = s.ctx j := by
  rw [State.failureSwept_eq]
  rfl

theorem State.failureSwept_chain (s : State) (ch : Fin 4) (kind : WorkKind) (j : Fin 4) :
    (s.failureSwept ch kind).chain j =
      if j = ch ∧ kind = .readback then
        (s.chain j).counting fun r => { r with failed := countUp 65535 r.failed }
      else s.chain j := by
  unfold State.failureSwept
  by_cases readback : kind = .readback
  · rw [if_pos readback, State.countSweep_chain]
    exact if_congr (and_iff_left readback).symm rfl rfl
  · rw [if_neg readback, if_neg fun both => readback both.2]

theorem State.countFailure_ctx (s : State) (ch : Fin 4) (t : Transaction) : (s.countFailure ch t).ctx t.ctx =
    { s.ctx t.ctx with failCount := (s.ctx t.ctx).failCount + 1, dirty := true } := by
  rw [State.countFailure_eq, State.modCtx_ctx_same, State.failureSwept_ctx]
  refine if_neg fun same => ?_
  have count : (s.ctx t.ctx).failCount = (s.ctx t.ctx).failCount + 1 := congrArg Context.failCount same
  omega

theorem State.countFailure_other (s : State) (ch : Fin 4) (t : Transaction) {j : Fin 256} (other : j ≠ t.ctx) :
    (s.countFailure ch t).ctx j = s.ctx j := by
  rw [State.countFailure_eq, State.modCtx_ctx_other _ (Ne.symm other), State.failureSwept_ctx]

theorem State.countFailure_chain (s : State) (ch : Fin 4) (t : Transaction) (j : Fin 4) :
    (s.countFailure ch t).chain j = (s.failureSwept ch t.kind).chain j := by
  rw [State.countFailure_eq, State.modCtx_chain]

/-- A context whose failure count rises has changed, whatever else changes with it (R46). -/
theorem Context.becoming_failed {c : Context} {v : Verify} :
    c.becoming { c with failCount := c.failCount + 1, verify := v } =
      { c with failCount := c.failCount + 1, verify := v, dirty := true } := by
  rw [Context.becoming_eq]
  refine if_neg fun same => ?_
  have count : c.failCount = c.failCount + 1 := congrArg Context.failCount same
  omega

/-- The entry of a poll list that has failed goes to the tail, due again (R120). -/
def Chain.pollBack (i : Fin 256) (k : Chain) : Chain :=
  { k with
    pollList := (k.pollList.filter fun e => !decide (e.ctx = i)) ++
      (k.pollList.filter fun e => decide (e.ctx = i)).map fun e => { e with inFlight := false } }

theorem State.sendBack_eq (s : State) (ch : Fin 4) (t : Transaction) :
    s.sendBack ch t = { s with contexts := (s.sendBack ch t).contexts, chains := (s.sendBack ch t).chains } := by
  unfold State.sendBack
  cases t.kind <;> rfl

theorem State.sendBack_other (s : State) (ch : Fin 4) (t : Transaction) {j : Fin 256} (other : j ≠ t.ctx) :
    (s.sendBack ch t).ctx j = s.ctx j := by
  unfold State.sendBack
  cases t.kind with
  | readback => exact State.modCtx_ctx_other _ (Ne.symm other) _
  | _ => rfl

/-- A failure below the third, in all it leaves: the count, and the work back at its chain (R40, R107). -/
theorem State.sendBack_ctx (s : State) (ch : Fin 4) (t : Transaction) : ((s.countFailure ch t).sendBack ch t).ctx t.ctx =
    (s.ctx t.ctx).becoming
      { s.ctx t.ctx with
        failCount := (s.ctx t.ctx).failCount + 1
        verify := if t.kind = .readback then .due else (s.ctx t.ctx).verify } := by
  rw [Context.becoming_failed]
  unfold State.sendBack
  cases kind : t.kind with
  | readback =>
    refine (State.modCtx_ctx_same _ _ _).trans ?_
    rw [State.countFailure_ctx, Context.touched_dirty _ rfl, if_pos rfl]
  | _ => exact s.countFailure_ctx ch t

/-- Settles O47. -/
theorem transactionFails : Obligations.TransactionFails := by
  intro s ch t reason i c accepted
  have accepts : s.accepts t = true ↔ accepted := State.accepts_iff
  have counted : (s.countFailure ch t).ctx i = { c with failCount := c.failCount + 1, dirty := true } :=
    s.countFailure_ctx ch t
  have chain : ((s.countFailure ch t).ctx i).chain = c.chain := by rw [counted]
  refine ⟨s.afterFailure ch t reason, s.handOver_failure ch t reason, fun discarded => ?_, fun yes few => ?_,
    fun yes third => ?_⟩
  · exact if_neg fun yes => discarded (accepts.1 yes)
  all_goals
    have done : s.afterFailure ch t reason = s.failed ch t reason := if_pos (accepts.2 yes)
    rw [done]
    unfold State.failed
  · rw [if_pos (show c.failCount + 1 < 3 by omega)]
    have unswept (other : t.kind ≠ .readback) (j : Fin 4) : (s.countFailure ch t).chain j = s.chain j := by
      rw [State.countFailure_chain, State.failureSwept_chain, if_neg fun both => other both.2]
    refine ⟨s.sendBack_ctx ch t, fun j other => ?_, ?_, fun probe free j => ?_, fun push j => ?_, fun poll j => ?_,
      fun readback j => ?_⟩
    · rw [State.sendBack_other _ _ _ other, State.countFailure_other _ _ _ other]
    · rw [State.sendBack_eq, State.countFailure_eq, State.failureSwept_eq]
      rfl
    · have back : (s.countFailure ch t).sendBack ch t = (s.countFailure ch t).enqueueProbe i := by
        unfold State.sendBack
        rw [probe]
      rw [back, State.enqueueProbe_eq chain, State.modChain_chain_at, unswept (by simp [probe])]
      by_cases own : j = c.chain
      · subst own
        rw [if_pos rfl, if_pos rfl]
        exact if_neg free
      · rw [if_neg own, if_neg own]
    · have back : (s.countFailure ch t).sendBack ch t = (s.countFailure ch t).enqueuePush i := by
        unfold State.sendBack
        rw [push]
      rw [back]
      unfold State.enqueuePush
      rw [chain, State.modChain_chain_at, unswept (by simp [push])]
      by_cases own : j = c.chain
      · simp [own]
      · simp [own]
    · have back : (s.countFailure ch t).sendBack ch t = (s.countFailure ch t).modChain ch (Chain.pollBack i) := by
        unfold State.sendBack
        rw [poll]
        rfl
      rw [back, State.modChain_chain_at, unswept (by simp [poll])]
      rfl
    · have back : ((s.countFailure ch t).sendBack ch t).chain j = (s.countFailure ch t).chain j := by
        unfold State.sendBack
        rw [readback]
        rfl
      rw [back, State.countFailure_chain, State.failureSwept_chain]
      exact if_congr (and_iff_left readback) rfl rfl
  · rw [if_neg (show ¬c.failCount + 1 < 3 by omega)]
    have enters := (s.countFailure ch t).transition_entersLife i .faulted reason (by decide)
    rw [counted] at enters
    refine ⟨s.failureSwept ch t.kind, (s.countFailure ch t).transition i .faulted reason, s.failureSwept_eq ch t.kind, s.failureSwept_chain ch t.kind, ?_, ?_⟩
    · refine State.entersLife_of enters ?_ (fun j other => ?_) ?_
      · rw [State.countFailure_eq]
        rfl
      · rw [State.countFailure_other _ _ _ other, State.failureSwept_ctx]
      · rw [counted, State.failureSwept_ctx]
        exact ⟨rfl, rfl, rfl, rfl⟩
    · rw [State.enterFaulted_eq, counted]

/-! ## The end of a chain's work, and of its stopping (R107, R108, R125) -/

theorem State.decideStop_entries (s : State) (ch : Fin 4) (code : ResultCode) (data : List Byte) (j : Fin 4) :
    (s.decideStop ch code data).entries j = if j = ch then { s.entries j with stop := none } else s.entries j := by
  unfold State.decideStop
  cases held : (s.entries ch).stop with
  | none =>
    by_cases own : j = ch
    · subst own
      rw [if_pos rfl]
      exact congrArg (fun e => { s.entries j with stop := e }) held
    · exact (if_neg own).symm
  | some h =>
    refine (s.modEntries_entries ch j fun e => { e with stop := none }).trans ?_
    by_cases own : j = ch
    · subst own
      rfl
    · rw [if_neg own, if_neg own]

/-- The completion of the STOP_CHAIN card held for a chain, if one is (R170). -/
def State.stopDecided (s : State) (ch : Fin 4) (code : ResultCode) (data : List Byte) : List Completion :=
  match (s.entries ch).stop with
  | some h => [{ index := h.index, code := code, doneTick := s.tick, tag := h.tag, notify := h.notify, data := data }]
  | none => []

theorem State.decideStop_completions (s : State) (ch : Fin 4) (code : ResultCode) (data : List Byte) :
    (s.decideStop ch code data).intake.completions = s.intake.completions ++ s.stopDecided ch code data := by
  unfold State.decideStop State.stopDecided
  cases held : (s.entries ch).stop with
  | none => exact (List.append_nil _).symm
  | some h => rfl

theorem State.decideStop_eq (s : State) (ch : Fin 4) (code : ResultCode) (data : List Byte) :
    s.decideStop ch code data =
      { s with
        intake := { s.intake with
          longCards := (s.decideStop ch code data).intake.longCards
          completions := (s.decideStop ch code data).intake.completions } } := by
  unfold State.decideStop
  cases held : (s.entries ch).stop <;> rfl

/-- A chain whose work has ended and that stands in `state` then (R107, R125). -/
def Chain.rested (state : ChainState) (k : Chain) : Chain :=
  { k with state := state, flight := .none, holdTimer := none }

/-- Settles O50. -/
theorem endOfWork : Obligations.EndOfWork := by
  intro s ch work ok
  have ended : ((s.modChain ch fun k => { k with flight := .none, holdTimer := none }).chain ch).state =
      (s.chain ch).state := by
    rw [State.modChain_chain_same]
  refine ⟨fun goes => ?_, fun stopping => ?_⟩
  · have idle : s.endFlight ch work ok = (s.modChain ch (Chain.rested .idle)).arbitrate ch := by
      unfold State.endFlight
      dsimp only
      rw [ended]
      split
      · next stops => exact absurd stops goes
      · rw [State.modChain_modChain]
        rfl
    exact idle
  · refine ⟨(s.modChain ch (Chain.rested .stopped)).decideStop ch .ok
      ((s.modChain ch (Chain.rested .stopped)).stopData ch work ok), ?_, fun j => ?_, fun j => ?_, ?_, ?_⟩
    · have stops : s.endFlight ch work ok = ((s.modChain ch (Chain.rested .stopped)).decideStop ch .ok
          ((s.modChain ch (Chain.rested .stopped)).stopData ch work ok)).endSweep ch .cancelled := by
        unfold State.endFlight
        dsimp only
        rw [ended, State.modChain_modChain, stopping]
        rfl
      rw [stops]
      exact State.endSweep_sweepEnds _ _ _
    · rw [State.decideStop_chain, State.modChain_chain_at]
      rfl
    · exact State.decideStop_entries _ _ _ _ _
    · rw [State.decideStop_completions]
      unfold State.stopData
      rw [State.modChain_chain_same]
      rfl
    · rw [State.decideStop_eq]
      rfl

end Sys2Proof.Machine
end

section
/-! The timers of a chain and the order of its arbiter (R102, R114, R115, R119, R120, R127, R131, R135 to R137). -/

namespace Sys2Proof.Machine

/-! ## The timers of a chain (R119, R131, R135) -/

theorem foldl_countUp {α : Type} (l : List α) (n : Nat) : l.foldl (fun n _ => countUp 65535 n) n =
    if 65535 ≤ n then n else min 65535 (n + l.length) := by
  induction l generalizing n with
  | nil =>
    rw [List.foldl_nil, List.length_nil]
    split <;> omega
  | cons a l ih =>
    rw [List.foldl_cons, ih, List.length_cons, countUp]
    split_ifs <;> omega

/-- The contexts that a poll round gives a due entry (R119). -/
def State.unpolled (s : State) (ch : Fin 4) : List (Fin 256) :=
  (s.liveByAddress ch).filter fun i => !(s.chain ch).pollList.any fun e => decide (e.ctx = i)

theorem State.mem_unpolled {s : State} {ch : Fin 4} {i : Fin 256} : i ∈ s.unpolled ch ↔
    (s.ctx i).life = .live ∧ (s.ctx i).chain = ch ∧ ∀ e ∈ (s.chain ch).pollList, e.ctx ≠ i := by
  unfold State.unpolled
  rw [List.mem_filter, State.mem_liveByAddress, and_assoc]
  simp

theorem State.latchLate_iff {s : State} {ch : Fin 4} {p : LatchPending} (pending : (s.chain ch).latchPending = some p) :
    s.latchLate ch = true ↔ (s.chain ch).config.latchDeadline * 10 < (s.tick - p.setTick).toNat := by
  unfold State.latchLate
  rw [pending]
  exact decide_eq_true_iff

/-- Settles O48. -/
theorem chainTimers : Obligations.ChainTimers := by
  intro s ch k
  have stopped {t : Timer} (h : t = none) : ¬t.isSome = true := by simp [h]
  refine ⟨fun stops => congrArg Host.Outcome.next (if_neg (stopped stops)), fun runs => ?_, fun p pending => ?_,
    fun none => congrArg Host.Outcome.next (if_neg ?_),
    fun stops => congrArg Host.Outcome.next (if_neg (stopped stops)), fun runs => ?_⟩
  · refine ⟨s.unpolled ch, fun i => State.mem_unpolled, (s.liveByAddress_nodup ch).filter _,
      (s.liveByAddress_pairwise ch).filter _, congrArg Host.Outcome.next ((if_pos runs).trans ?_)⟩
    unfold State.beginRound
    refine congrArg (State.arbitrate · ch) (State.modChain_congr ?_)
    dsimp only [Config.countMax]
    rw [foldl_countUp]
    rfl
  · refine ⟨fun late => congrArg Host.Outcome.next ((if_pos ((State.latchLate_iff pending).2 late)).trans ?_),
      fun early => congrArg Host.Outcome.next (if_neg fun late =>
        Nat.not_lt.2 early ((State.latchLate_iff pending).1 late))⟩
    · rw [State.markLate, if_pos ((State.latchLate_iff pending).2 late)]
      refine congrArg (State.arbitrate · ch) (State.modChain_congr ?_)
      rw [pending]
      rfl
  · unfold State.latchLate
    rw [none]
    exact Bool.false_ne_true
  · refine ⟨(s.markDue ch).modChain ch fun k =>
      { k with sweepTimer := sweepTimerFor k.config.verifyInterval }, s.markDue_ctx ch, rfl,
      congrArg Host.Outcome.next (if_pos runs)⟩

/-! ## The next readback (R136) -/

theorem lowestAddress_none {l : List (Fin 256 × Context)} (h : lowestAddress l = none) : l = [] := by
  cases l with
  | nil => rfl
  | cons x l =>
    unfold lowestAddress at h
    split at h
    · cases h
    · split at h <;> cases h

theorem lowestAddress_least {l : List (Fin 256 × Context)} {x : Fin 256 × Context} (h : lowestAddress l = some x) :
    ∀ y ∈ l, x.2.address ≤ y.2.address := by
  induction l generalizing x with
  | nil => cases h
  | cons z l ih =>
    unfold lowestAddress at h
    cases rest : lowestAddress l with
    | none =>
      rw [rest] at h
      cases h
      rw [lowestAddress_none rest]
      intro y mem
      rw [List.mem_singleton.1 mem]
    | some w =>
      rw [rest] at h
      dsimp only at h
      split at h <;> next order =>
        cases h
        intro y mem
        rcases List.mem_cons.1 mem with rfl | mem
        · omega
        · have := ih rest y mem
          omega

/-- A context that an idle chain may read back (R136). -/
def State.mayRead (s : State) (ch : Fin 4) (i : Fin 256) : Prop :=
  (s.ctx i).life = .live ∧ (s.ctx i).chain = ch ∧ (s.ctx i).verify = .due ∧ (s.ctx i).latched ≠ none ∧
    i ∉ (s.chain ch).pushQueue ∧ (s.chain ch).latchPending = none ∧ 2 ≤ (s.chain ch).framesSinceLatch

theorem State.mem_ready {s : State} {ch : Fin 4} (idle : (s.chain ch).flight = .none) {x : Fin 256 × Context} :
    (x ∈ s.contexts.enum.filter fun x => (s.chain ch).readbackReady ch x.1 x.2) ↔
      s.ctx x.1 = x.2 ∧ s.mayRead ch x.1 := by
  rw [List.mem_filter, Table.mem_enum]
  refine and_congr_right fun own => ?_
  have own : s.ctx x.1 = x.2 := own
  unfold State.mayRead Chain.readbackReady Chain.flying Context.liveOn Context.ofChain
  rw [idle, own]
  simp [Option.isSome_iff_ne_none, and_assoc]

theorem State.nextReadback_none {s : State} {ch : Fin 4} (idle : (s.chain ch).flight = .none)
    (h : s.nextReadback ch = none) (i : Fin 256) : ¬s.mayRead ch i := by
  intro may
  have mem := (State.mem_ready idle (x := (i, s.ctx i))).2 ⟨rfl, may⟩
  unfold State.nextReadback at h
  dsimp only at h
  split at h
  · cases h
  · rw [lowestAddress_none (Option.map_eq_none_iff.1 h)] at mem
    cases mem

/-- The context that is read back next: the first above the readback position, or else the first of all (R136). -/
theorem State.nextReadback_first {s : State} {ch : Fin 4} (idle : (s.chain ch).flight = .none) {i : Fin 256}
    (h : s.nextReadback ch = some i) : s.mayRead ch i ∧ ∀ j, s.mayRead ch j →
      ((s.chain ch).readbackPosition < (s.ctx i).address ∧
        ((s.chain ch).readbackPosition < (s.ctx j).address → (s.ctx i).address ≤ (s.ctx j).address)) ∨
      ((s.ctx j).address ≤ (s.chain ch).readbackPosition ∧ (s.ctx i).address ≤ (s.ctx j).address) := by
  unfold State.nextReadback at h
  dsimp only at h
  split at h
  · next x first =>
    cases h
    obtain ⟨mem, above⟩ := List.mem_filter.1 (lowestAddress_mem first)
    obtain ⟨own, may⟩ := (State.mem_ready idle).1 mem
    rw [decide_eq_true_eq] at above
    refine ⟨may, fun j mayJ => .inl ⟨by rwa [own], fun aboveJ => ?_⟩⟩
    rw [own]
    exact lowestAddress_least first (j, s.ctx j)
      (List.mem_filter.2 ⟨(State.mem_ready idle).2 ⟨rfl, mayJ⟩, decide_eq_true aboveJ⟩)
  · next above =>
    obtain ⟨x, first, rfl⟩ := Option.map_eq_some_iff.1 h
    obtain ⟨own, may⟩ := (State.mem_ready idle).1 (lowestAddress_mem first)
    refine ⟨may, fun j mayJ => .inr ?_⟩
    have mem := (State.mem_ready idle (x := (j, s.ctx j))).2 ⟨rfl, mayJ⟩
    have below := List.filter_eq_nil_iff.1 (lowestAddress_none above) _ mem
    rw [decide_eq_true_eq] at below
    rw [own]
    exact ⟨not_lt.1 below, lowestAddress_least first _ mem⟩

/-! ## The arbiter's order (R115) -/

theorem State.arbitrate_chooses {s : State} {ch : Fin 4} (idle : (s.chain ch).state = .idle) {c : Choice}
    (h : s.choice ch = some c) : s.arbitrate ch = s.start ch c := by
  unfold State.arbitrate
  rw [idle, h]

theorem State.arbitrate_nothing {s : State} {ch : Fin 4} (h : s.choice ch = none) : s.arbitrate ch = s := by
  refine (s.arbitrate_eq ch).resolve_right ?_
  rintro ⟨_, c, some, _⟩
  rw [h] at some
  cases some

theorem Chain.latchOverdue_of {k : Chain} {p : LatchPending} (pending : k.latchPending = some p) :
    k.latchOverdue = p.overdue := by
  unfold Chain.latchOverdue
  rw [pending]

theorem Chain.latchOverdue_false {k : Chain} (h : ∀ p, k.latchPending = some p → p.overdue = false) :
    k.latchOverdue = false := by
  unfold Chain.latchOverdue
  split
  · next p pending => exact h p pending
  · rfl

/-- What a chain with neither a roll nor a probe to do chooses: from the overdue LATCH on (R115). -/
def State.laterChoice (s : State) (ch : Fin 4) : Option Choice :=
  if (s.chain ch).latchOverdue then some .latch
  else
    match (s.chain ch).overduePoll with
    | some e => some (.poll e.ctx)
    | none =>
      match (s.chain ch).pushQueue with
      | i :: _ => some (.push i)
      | [] =>
        if (s.chain ch).latchPending.isSome then some .latch
        else
          match s.nextReadback ch with
          | some i => some (.readback i)
          | none => (s.chain ch).duePoll.map fun e => .poll e.ctx

theorem State.choice_probe {s : State} {ch : Fin 4} (roll : (s.chain ch).roll = none) {i : Fin 256}
    {rest : List (Fin 256)} (probes : (s.chain ch).probeQueue = i :: rest) : s.choice ch = some (.probe i) := by
  unfold State.choice
  dsimp only
  rw [roll, probes]
  rfl

theorem State.choice_later {s : State} {ch : Fin 4} (roll : (s.chain ch).roll = none)
    (probes : (s.chain ch).probeQueue = []) : s.choice ch = s.laterChoice ch := by
  unfold State.choice
  dsimp only
  rw [roll, probes]
  rfl

/-- The transaction that a chain starts for a context (R102). -/
def State.transactionFor (s : State) (ch : Fin 4) (kind : WorkKind) (i : Fin 256) (payload : Option TermSet) : Flight :=
  .transaction
    { kind := kind, ctx := i, generation := (s.ctx i).generation, address := (s.ctx i).address, payload := payload
      attempts := 1, phase := .toBegin, settings := (s.chain ch).config.recorded }

theorem State.start_probe {s : State} {ch : Fin 4} {i : Fin 256} {rest : List (Fin 256)}
    (probes : (s.chain ch).probeQueue = i :: rest) : s.start ch (.probe i) = s.modChain ch fun k =>
      { k with state := .busy, flight := s.transactionFor ch .probe i none, probeQueue := rest } := by
  simp only [State.start, State.startTransaction]
  rw [State.modChain_modChain]
  refine State.modChain_congr ?_
  simp only [Function.comp, probes, List.tail_cons]
  rfl

theorem State.start_push {s : State} {ch : Fin 4} {i : Fin 256} {rest : List (Fin 256)}
    (pushes : (s.chain ch).pushQueue = i :: rest) : s.start ch (.push i) = s.modChain ch fun k =>
      { k with state := .busy, flight := s.transactionFor ch .push i (s.ctx i).applied, pushQueue := rest } := by
  simp only [State.start, State.startTransaction]
  rw [State.modChain_modChain]
  refine State.modChain_congr ?_
  simp only [Function.comp, pushes, List.tail_cons]
  rfl

theorem State.start_poll (s : State) (ch : Fin 4) (i : Fin 256) : s.start ch (.poll i) = s.modChain ch fun k =>
    { k with
      state := .busy, flight := s.transactionFor ch .poll i none
      pollList := k.pollList.map fun x => if x.ctx = i then { x with inFlight := true } else x } := by
  simp only [State.start, State.startTransaction]
  rw [State.modChain_modChain]
  exact State.modChain_congr rfl

theorem State.start_readback (s : State) (ch : Fin 4) (i : Fin 256) : s.start ch (.readback i) =
    (s.setCtx i { s.ctx i with verify := .reading }).modChain ch fun k =>
      { k with
        state := .busy, flight := s.transactionFor ch .readback i none, readbackPosition := (s.ctx i).address } := by
  have own : (s.modCtx i fun c => { c with verify := .reading }).ctx i =
      (s.ctx i).touched { s.ctx i with verify := .reading } := State.modCtx_ctx_same _ _ _
  rw [Context.touched_eq] at own
  simp only [State.start, State.startTransaction, State.modChain_ctx]
  rw [own, State.modChain_modChain]
  exact State.modChain_congr rfl

/-- Settles O49. -/
theorem arbiterOrder : Obligations.ArbiterOrder := by
  intro s ch k overdue due ready started polling latching
  refine ⟨State.arbitrate_busy, fun idle flight => ⟨fun r roll => ?_, fun roll => ⟨fun i rest probes => ?_,
    fun probes => ?_⟩⟩⟩
  · rw [State.arbitrate_roll idle (Option.isSome_iff_exists.2 ⟨r, roll⟩)]
    simp only [State.start]
    refine State.modChain_congr ?_
    rw [show (s.chain ch).roll = some r from roll]
    rfl
  · exact (State.arbitrate_chooses idle (State.choice_probe roll probes)).trans (State.start_probe probes)
  have later : s.choice ch = s.laterChoice ch := State.choice_later roll probes
  unfold State.laterChoice at later
  refine ⟨fun p pending late => ?_, fun early => ?_⟩
  · refine State.arbitrate_chooses idle (later.trans (if_pos ?_))
    rw [Chain.latchOverdue_of pending, late]
  rw [Chain.latchOverdue_false early, if_neg Bool.false_ne_true] at later
  refine ⟨fun e first => ?_, fun none => ?_⟩
  · rw [show (s.chain ch).overduePoll = some e from first] at later
    exact (State.arbitrate_chooses idle later).trans (s.start_poll ch e.ctx)
  rw [show (s.chain ch).overduePoll = .none from none] at later
  dsimp only at later
  refine ⟨fun i rest pushes => ?_, fun pushes => ?_⟩
  · rw [show (s.chain ch).pushQueue = i :: rest from pushes] at later
    exact (State.arbitrate_chooses idle later).trans (State.start_push pushes)
  rw [show (s.chain ch).pushQueue = [] from pushes] at later
  dsimp only at later
  refine ⟨fun pending => ?_, fun quiet => ?_⟩
  · exact State.arbitrate_chooses idle (later.trans (if_pos (Option.isSome_iff_ne_none.2 pending)))
  rw [if_neg (by rw [show (s.chain ch).latchPending = .none from quiet]; decide)] at later
  refine ⟨fun some => ?_, fun nothing => ?_⟩
  · cases next : s.nextReadback ch with
    | none =>
      obtain ⟨i, may⟩ := some
      exact absurd may (State.nextReadback_none flight next i)
    | some i =>
      rw [next] at later
      obtain ⟨may, first⟩ := State.nextReadback_first flight next
      exact ⟨i, may, first, (State.arbitrate_chooses idle later).trans (s.start_readback ch i)⟩
  · cases next : s.nextReadback ch with
    | some i => exact absurd (State.nextReadback_first flight next).1 (nothing i)
    | none =>
      rw [next] at later
      refine ⟨fun e first => ?_, fun none => ?_⟩
      · refine (State.arbitrate_chooses idle (later.trans ?_)).trans (s.start_poll ch e.ctx)
        rw [show (s.chain ch).duePoll = .some e from first]
        rfl
      · refine State.arbitrate_nothing (later.trans ?_)
        rw [show (s.chain ch).duePoll = .none from none]
        rfl

end Sys2Proof.Machine
end

section
/-! The slots of a roll and the comparison of a completed one (R43, R109, R144 to R152, R155). -/

namespace Sys2Proof.Machine

/-! ## The slots of a roll (R144 to R146, R155) -/

/-- A chain whose roll is over; a roll that was requested meanwhile waits (R109). -/
def Chain.rolled (again : Bool) (k : Chain) : Chain :=
  { k with
    state := .idle
    roll :=
      if again then
        some
          { begun := false, attempts := 0, retryLimit := 0, serials := [], phase := .toBegin, ending := false
            again := false }
      else none }

theorem State.leaveRoll_eq (s : State) (ch : Fin 4) (r : Roll) :
    s.leaveRoll ch r = (s.modChain ch (Chain.rolled r.again)).arbitrate ch := rfl

theorem State.answerRoll_again {r : Roll} (again : r.again = true) (s : State) (ch : Fin 4) (data : List Byte) :
    s.answerRoll ch r data = s := if_pos again

theorem State.answerRoll_answersHeld {r : Roll} (once : r.again = false) (s : State) (ch : Fin 4) (data : List Byte) :
    s.answersHeld (s.answerRoll ch r data) ch .rollCall .ok data := by
  have decided : s.answerRoll ch r data = s.decideSweepOrRoll ch .rollCall .ok data :=
    if_neg (by rw [once]; exact Bool.false_ne_true)
  rw [decided]
  exact s.decideSweepOrRoll_answersHeld ch .rollCall .ok data

/-- Settles O51. -/
theorem rollSlots : Obligations.RollSlots := by
  intro s ch r bytes quiet rolling roll slot gone
  have inSlot : (s.chain ch).rollIn .slot = some r := Chain.rollIn_of rolling roll slot
  refine ⟨fun ending => ⟨congrArg Host.Outcome.next ?_, congrArg Host.Outcome.next ?_⟩, fun goes => ?_⟩
  · unfold rollSlotAnswerStep
    rw [inSlot]
    dsimp only
    split
    · exact if_pos ending
    · exact if_pos ending
  · unfold rollSlotCloseStep
    rw [inSlot]
    exact if_pos ending
  have goes' : ¬r.ending = true := by simp [goes]
  refine ⟨fun serial heard => ⟨fun few => congrArg Host.Outcome.next ?_, fun last => congrArg Host.Outcome.next ?_⟩,
    congrArg Host.Outcome.next ?_, fun garbled => ⟨fun left => congrArg Host.Outcome.next ?_, fun spent => ?_⟩⟩
  · unfold rollSlotAnswerStep
    rw [inSlot, heard]
    dsimp only
    rw [if_neg goes', if_pos (by rw [List.length_append, List.length_singleton]; omega)]
    rfl
  · unfold rollSlotAnswerStep
    rw [inSlot, heard]
    dsimp only
    rw [if_neg goes', if_neg (by rw [List.length_append, List.length_singleton]; omega)]
  · unfold rollSlotCloseStep
    rw [inSlot]
  · unfold rollSlotAnswerStep
    rw [inSlot]
    dsimp only
    split
    · next serial heard => exact absurd heard (garbled serial)
    · exact (if_neg goes').trans (if_pos left)
  · refine ⟨s.answerRoll ch r (State.rollData .abandoned r.attempts 0 RollCounts.zero),
      congrArg Host.Outcome.next ?_, fun again => State.answerRoll_again again _ _ _, fun once => ?_⟩
    · unfold rollSlotAnswerStep
      rw [inSlot]
      dsimp only
      split
      · next serial heard => exact absurd heard (garbled serial)
      · exact (if_neg goes').trans (if_neg (by omega))
    · have data : State.rollData .abandoned r.attempts 0 RollCounts.zero =
          bytes8 2 ++ bytes8 r.attempts ++ [0, 0, 0, 0, 0, 0] := by
        simp only [State.rollData, List.append_assoc]
        rfl
      rw [← data]
      exact State.answerRoll_answersHeld once s ch _

/-! ## What one position of a comparison leaves (R43, R148) -/

/-- A ROLL_CALL card that is held stays held. -/
def State.keepsRollCards (s t : State) : Prop :=
  ∀ ch h, (s.entries ch).sweepOrRoll = some h → h.kind = .rollCall → (t.entries ch).sweepOrRoll = some h

theorem State.keepsRollCards_of_table {s t : State} (h : t.intake.longCards = s.intake.longCards) :
    s.keepsRollCards t := by
  intro ch card held _
  unfold State.entries at *
  rw [h]
  exact held

theorem State.keepsRollCards_trans {s t u : State} (first : s.keepsRollCards t) (second : t.keepsRollCards u) :
    s.keepsRollCards u := fun ch h held kind => second ch h (first ch h held kind) kind

theorem State.answersHeld_verify {s t : State} {ch : Fin 4} {code : ResultCode} {data : List Byte}
    (h : s.answersHeld t ch .verify code data) : t.contexts = s.contexts ∧ s.keepsRollCards t := by
  obtain ⟨other, answers⟩ := h
  cases held : (s.entries ch).sweepOrRoll with
  | none =>
    have same : t = s := other fun card is => by
      rw [held] at is
      cases is
    rw [same]
    exact ⟨rfl, fun _ _ is _ => is⟩
  | some card =>
    by_cases verify : card.kind = .verify
    · obtain ⟨entries, rest⟩ := answers card held verify
      refine ⟨by rw [rest], fun j kept is kind => ?_⟩
      rw [entries j]
      by_cases own : j = ch
      · subst own
        have same := Option.some.inj (held.symm.trans is)
        rw [← same, verify] at kind
        cases kind
      · rw [if_neg own]
        exact is
    · have same : t = s := other fun card' is => by
        rw [held] at is
        cases is
        exact verify
      rw [same]
      exact ⟨rfl, fun _ _ is _ => is⟩

theorem State.sweepTested_keeps {s t : State} {ch : Fin 4} (h : s.sweepTested t ch) :
    t.contexts = s.contexts ∧ s.keepsRollCards t := by
  have still {t : State} (same : t = s) : t.contexts = s.contexts ∧ s.keepsRollCards t := by
    rw [same]
    exact ⟨rfl, fun _ _ is _ => is⟩
  obtain ⟨waits, ends⟩ := h
  by_cases waiting : ∃ i, (s.ctx i).chain = ch ∧ ((s.ctx i).verify = .due ∨ (s.ctx i).verify = .reading)
  · exact still (waits waiting)
  · obtain ⟨noSweep, sweep⟩ := ends waiting
    cases record : (s.chain ch).sweep with
    | none => exact still (noSweep record)
    | some r =>
      obtain ⟨contexts, cards⟩ := State.answersHeld_verify (sweep r record)
      exact ⟨contexts, cards⟩

/-- A context that enters a life state is the only one that changes. -/
theorem State.entersLife_keeps {s t : State} {i : Fin 256} {c : Context} (h : s.entersLife t i c) :
    (∀ j, t.ctx j = if j = i then c else s.ctx j) ∧ s.keepsRollCards t := by
  obtain ⟨x, contexts, -, -, rest, tested⟩ := h
  obtain ⟨same, cards⟩ := State.sweepTested_keeps tested
  refine ⟨fun j => (State.ctx_congr same j).trans (contexts j),
    State.keepsRollCards_trans (State.keepsRollCards_of_table ?_) cards⟩
  rw [rest]

/-- What a finding leaves of the context that holds the position (R43). -/
def Context.outcome (c d : Context) (heard : Option Word) : Prop :=
  match heard with
  | none => d.life = .faulted ∧ d.faultReason = .missing
  | some w =>
    if w = c.serial then
      d.life = .live ∧ (c.life = .live → d = c) ∧
        (c.life ≠ .live → d.applied = some c.target ∧ d.failCount = 0 ∧ d.mismatchCount = 0)
    else d.life = .unmatched

/-- Who the context is, and where. -/
def Context.sameTile (c d : Context) : Prop :=
  d.generation = c.generation ∧ d.serial = c.serial ∧ d.chain = c.chain ∧ d.address = c.address ∧
    (d.life = .absent ↔ c.life = .absent)

theorem Context.sameTile.refl (c : Context) : c.sameTile c := ⟨rfl, rfl, rfl, rfl, Iff.rfl⟩

/-- `t` is `s` but for the holder of a position, which has got its finding. -/
def State.comparedAt (s t : State) (ch : Fin 4) (a : Fin 64) (heard : Option Word) : Prop :=
  (∀ i, (s.ctx i).sameTile (t.ctx i)) ∧ (∀ i, (s.ctx i).holds ch a = true → (s.ctx i).outcome (t.ctx i) heard) ∧
    (∀ i, ¬(s.ctx i).holds ch a = true → t.ctx i = s.ctx i) ∧ s.keepsRollCards t

theorem Context.holds_iff {c : Context} {ch : Fin 4} {a : Fin 64} :
    c.holds ch a = true ↔ c.life ≠ .absent ∧ c.chain = ch ∧ c.address = a := by
  simp [Context.holds, Context.ofChain, and_assoc]

theorem Context.sameTile.holds {c d : Context} (h : c.sameTile d) (ch : Fin 4) (a : Fin 64) :
    d.holds ch a = c.holds ch a := by
  obtain ⟨-, -, chain, address, life⟩ := h
  refine Bool.eq_iff_iff.2 ?_
  rw [Context.holds_iff, Context.holds_iff, chain, address, ne_eq, ne_eq, life]

/-- Only the holder of the position has changed, and it is the same tile. -/
theorem State.comparedAt_of {s t : State} (lawful : s.positionsLawful) {ch : Fin 4} {a : Fin 64} {heard : Option Word}
    {i : Fin 256} (holder : (s.ctx i).holds ch a = true) {c : Context}
    (contexts : ∀ j, t.ctx j = if j = i then c else s.ctx j) (same : (s.ctx i).sameTile c)
    (outcome : (s.ctx i).outcome c heard) (cards : s.keepsRollCards t) : s.comparedAt t ch a heard := by
  refine ⟨fun j => ?_, fun j holds => ?_, fun j free => ?_, cards⟩
  · rw [contexts]
    split_ifs with own
    · rw [own]
      exact same
    · exact Context.sameTile.refl _
  · have own : j = i := by
      by_contra other
      obtain ⟨lifeJ, chainJ, addressJ⟩ := Context.holds_iff.1 holds
      obtain ⟨lifeI, chainI, addressI⟩ := Context.holds_iff.1 holder
      exact lawful j i other lifeJ lifeI ⟨chainJ.trans chainI.symm, addressJ.trans addressI.symm⟩
    rw [contexts, if_pos own, own]
    exact outcome
  · rw [contexts, if_neg fun own : j = i => free (by rw [own]; exact holder)]

theorem State.raisePart_keepsRollCards (s : State) (k : PartKind) (ch : Fin 4) (a : Fin 64) (serial value : Word) :
    s.keepsRollCards (s.raisePart k ch a serial value) := State.keepsRollCards_of_table (by simp)

theorem State.notice_keepsRollCards (s : State) (k : Cause) : s.keepsRollCards (State.notice k s) :=
  State.keepsRollCards_of_table (by simp)

theorem State.comparesPosition_at {s t : State} (lawful : s.positionsLawful) {ch : Fin 4} {found : Nat} {a : Fin 64}
    {heard : Option Word} (h : s.comparesPosition t ch found a heard) : s.comparedAt t ch a heard := by
  obtain ⟨held, free⟩ := h
  by_cases holder : ∃ i, (s.ctx i).holds ch a = true
  · obtain ⟨i, holds⟩ := holder
    have present := (Context.holds_iff.1 holds).1
    obtain ⟨ownLive, ownElse, otherStays, otherMoves, noneStays, noneMoves⟩ := held i (Context.holds_iff.1 holds)
    have still (same : t = s) (outcome : (s.ctx i).outcome (s.ctx i) heard) : s.comparedAt t ch a heard := by
      refine State.comparedAt_of lawful holds (c := s.ctx i) (fun j => ?_) (Context.sameTile.refl _) outcome ?_
      · rw [same]
        split_ifs with own
        · rw [own]
        · rfl
      · rw [same]
        exact fun _ _ is _ => is
    cases heard with
    | none =>
      by_cases faulted : (s.ctx i).life = .faulted
      · obtain ⟨v, rest, contexts, raised⟩ := noneStays rfl faulted
        refine State.comparedAt_of lawful holds
          (c := (s.ctx i).becoming { s.ctx i with faultReason := .missing }) (fun j => ?_) ?_ ?_ ?_
        · rw [raised, State.raisePart_ctx, contexts]
          split_ifs with own
          · rw [own]
          · rfl
        · exact ⟨rfl, rfl, rfl, rfl, Iff.rfl⟩
        · exact ⟨faulted, rfl⟩
        · rw [raised]
          refine State.keepsRollCards_trans (State.keepsRollCards_of_table ?_) (v.raisePart_keepsRollCards _ _ _ _ _)
          rw [rest]
      · obtain ⟨v, enters, raised⟩ := noneMoves rfl faulted
        obtain ⟨contexts, cards⟩ := State.entersLife_keeps enters
        refine State.comparedAt_of lawful holds (c := (s.ctx i).enteringFaulted .missing) (fun j => ?_) ?_ ?_ ?_
        · rw [raised, State.notice_ctx, State.raisePart_ctx, contexts]
        · exact ⟨rfl, rfl, rfl, rfl, iff_of_false nofun present⟩
        · exact ⟨rfl, rfl⟩
        · rw [raised]
          exact State.keepsRollCards_trans cards
            (State.keepsRollCards_trans (v.raisePart_keepsRollCards _ _ _ _ _) (State.notice_keepsRollCards _ _))
    | some w =>
      by_cases own : w = (s.ctx i).serial
      · by_cases live : (s.ctx i).life = .live
        · refine still (ownLive (congrArg some own) live) ?_
          exact (if_pos own).mpr ⟨live, fun _ => rfl, fun other => absurd live other⟩
        · obtain ⟨contexts, cards⟩ := State.entersLife_keeps (ownElse (congrArg some own) live)
          refine State.comparedAt_of lawful holds contexts ⟨rfl, rfl, rfl, rfl, iff_of_false nofun present⟩ ?_ cards
          exact (if_pos own).mpr ⟨rfl, fun is => absurd is live, fun _ => ⟨rfl, rfl, rfl⟩⟩
      · by_cases unmatched : (s.ctx i).life = .unmatched
        · exact still (otherStays w rfl own unmatched) ((if_neg own).mpr unmatched)
        · obtain ⟨v, enters, raised⟩ := otherMoves w rfl own unmatched
          obtain ⟨contexts, cards⟩ := State.entersLife_keeps enters
          refine State.comparedAt_of lawful holds (c := (s.ctx i).enteringUnmatched) (fun j => ?_) ?_ ?_ ?_
          · rw [raised, State.notice_ctx, State.raisePart_ctx, contexts]
          · exact ⟨rfl, rfl, rfl, rfl, iff_of_false nofun present⟩
          · exact (if_neg own).mpr rfl
          · rw [raised]
            exact State.keepsRollCards_trans cards
              (State.keepsRollCards_trans (v.raisePart_keepsRollCards _ _ _ _ _) (State.notice_keepsRollCards _ _))
  · have nobody : ∀ i, ¬(s.ctx i).holds ch a = true := fun i holds => holder ⟨i, holds⟩
    obtain ⟨silent, unknown⟩ := free fun i holds => nobody i (Context.holds_iff.2 holds)
    have kept (contexts : ∀ i, t.ctx i = s.ctx i) (cards : s.keepsRollCards t) : s.comparedAt t ch a heard :=
      ⟨fun i => by rw [contexts]; exact Context.sameTile.refl _, fun i holds => absurd holds (nobody i),
        fun i _ => contexts i, cards⟩
    cases heard with
    | none =>
      rw [silent rfl]
      exact ⟨fun i => Context.sameTile.refl _, fun i holds => absurd holds (nobody i), fun i _ => rfl,
        fun _ _ is _ => is⟩
    | some w =>
      obtain ⟨known, stranger⟩ := unknown w rfl
      cases lowest : s.knownAs w with
      | none =>
        have raised := stranger fun i => s.knownAs_none w lowest i
        refine kept (fun i => ?_) ?_ <;> rw [raised]
        · exact s.raisePart_ctx _ _ _ _ _ i
        · exact s.raisePart_keepsRollCards _ _ _ _ _
      | some k =>
        obtain ⟨is, first⟩ := s.knownAs_some w k lowest
        have raised := known k is first
        refine kept (fun i => ?_) ?_ <;> rw [raised]
        · exact s.raisePart_ctx _ _ _ _ _ i
        · exact s.raisePart_keepsRollCards _ _ _ _ _

/-! ## The comparison of all positions (R148) -/

theorem State.positionsLawful_of_same {s t : State} (h : ∀ i, (s.ctx i).sameTile (t.ctx i)) (lawful : s.positionsLawful) :
    t.positionsLawful := by
  intro i j other lifeI lifeJ ⟨chain, address⟩
  obtain ⟨-, -, chainI, addressI, absentI⟩ := h i
  obtain ⟨-, -, chainJ, addressJ, absentJ⟩ := h j
  refine lawful i j other (fun a => lifeI (absentI.2 a)) (fun a => lifeJ (absentJ.2 a)) ⟨?_, ?_⟩
  · rw [← chainI, ← chainJ, chain]
  · rw [← addressI, ← addressJ, address]

theorem Context.sameTile.trans {c d e : Context} (h : c.sameTile d) (k : d.sameTile e) : c.sameTile e := by
  obtain ⟨g, s, c, a, l⟩ := h
  obtain ⟨g', s', c', a', l'⟩ := k
  exact ⟨g'.trans g, s'.trans s, c'.trans c, a'.trans a, l'.trans l⟩

/-- A context that holds a position of chain `ch` in a list. -/
def Context.holdsIn (ch : Fin 4) (l : List (Fin 64)) (c : Context) : Prop := ∃ a ∈ l, c.holds ch a = true

/-- `t` is `s` but for the holders of some positions, each of which has got its finding. -/
def State.comparedAll (s t : State) (ch : Fin 4) (serials : List Word) (l : List (Fin 64)) : Prop :=
  (∀ i, (s.ctx i).sameTile (t.ctx i)) ∧
    (∀ i, ∀ a ∈ l, (s.ctx i).holds ch a = true → (s.ctx i).outcome (t.ctx i) (heardAt serials a)) ∧
    (∀ i, ¬(s.ctx i).holdsIn ch l → t.ctx i = s.ctx i) ∧ s.keepsRollCards t

theorem Context.holds_unique {c : Context} {ch : Fin 4} {a b : Fin 64} (ha : c.holds ch a = true)
    (hb : c.holds ch b = true) : a = b :=
  (Context.holds_iff.1 ha).2.2.symm.trans (Context.holds_iff.1 hb).2.2

/-- A position more: the finding of its holder stands, for no later position is that context's (R148). -/
theorem State.comparedAll_cons {s t u : State} {ch : Fin 4} {serials : List Word} {a : Fin 64} {l : List (Fin 64)}
    (fresh : a ∉ l) (first : s.comparedAt t ch a (heardAt serials a)) (rest : t.comparedAll u ch serials l) :
    s.comparedAll u ch serials (a :: l) := by
  obtain ⟨same, outcome, others, cards⟩ := first
  obtain ⟨same', outcome', others', cards'⟩ := rest
  have placed (i : Fin 256) (b : Fin 64) : (t.ctx i).holds ch b = (s.ctx i).holds ch b := (same i).holds ch b
  refine ⟨fun i => (same i).trans (same' i), fun i b mem holds => ?_, fun i free => ?_,
    State.keepsRollCards_trans cards cards'⟩
  · rcases List.mem_cons.1 mem with rfl | mem
    · have later : ¬(t.ctx i).holdsIn ch l := by
        rintro ⟨c, inL, holds'⟩
        rw [placed] at holds'
        exact fresh (Context.holds_unique holds holds' ▸ inL)
      rw [others' i later]
      exact outcome i holds
    · have untouched : t.ctx i = s.ctx i := by
        refine others i fun atA => fresh ?_
        rw [Context.holds_unique atA holds]
        exact mem
      have found := outcome' i b mem (by rw [placed]; exact holds)
      rw [untouched] at found
      exact found
  · have notA : ¬(s.ctx i).holds ch a = true := fun holds => free ⟨a, List.mem_cons_self, holds⟩
    rw [others' i ?_, others i notA]
    rintro ⟨b, mem, holds⟩
    rw [placed] at holds
    exact free ⟨b, List.mem_cons_of_mem _ mem, holds⟩

/-! ## The counts of a comparison (R150) -/

/-- How many contexts hold position `a` and are of the kind `p` for what was heard there. -/
def State.met (s : State) (ch : Fin 4) (serials : List Word) (p : Context → Option Word → Bool) (a : Fin 64) : Nat :=
  (List.finRange 256).countP fun i => (s.ctx i).holds ch a && p (s.ctx i) (heardAt serials a)

/-- A tile has been heard at a position that no context holds. -/
def State.strange (s : State) (ch : Fin 4) (serials : List Word) (a : Fin 64) : Bool :=
  (heardAt serials a).isSome && (List.finRange 256).all fun i => !(s.ctx i).holds ch a

/-- The context's own serial was heard. -/
def Context.hearsOwn (c : Context) (w : Option Word) : Bool := decide (w = some c.serial)

/-- Its own serial was heard of a context that is not LIVE. -/
def Context.recovers (c : Context) (w : Option Word) : Bool :=
  decide (w = some c.serial) && !decide (c.life = .live)

/-- Another serial was heard. -/
def Context.hearsOther (c : Context) (w : Option Word) : Bool := w.isSome && !decide (w = some c.serial)

/-- Nothing was heard. -/
def Context.hearsNone (_ : Context) (w : Option Word) : Bool := w.isNone

/-- The counts with those of some positions added. -/
def State.countsOf (s : State) (ch : Fin 4) (serials : List Word) (l : List (Fin 64)) (n : RollCounts) : RollCounts :=
  { matched := n.matched + (l.map (s.met ch serials Context.hearsOwn)).sum
    recovered := n.recovered + (l.map (s.met ch serials Context.recovers)).sum
    unmatched := n.unmatched + (l.map (s.met ch serials Context.hearsOther)).sum
    missing := n.missing + (l.map (s.met ch serials Context.hearsNone)).sum
    unknown := n.unknown + l.countP (s.strange ch serials) }

theorem State.met_nobody {s : State} {ch : Fin 4} {a : Fin 64} (nobody : ∀ i, (s.ctx i).holds ch a = false)
    (serials : List Word) (p : Context → Option Word → Bool) : s.met ch serials p a = 0 := by
  refine List.countP_eq_zero.2 fun i _ => ?_
  rw [nobody i]
  exact Bool.false_ne_true

theorem State.met_holder {s : State} (lawful : s.positionsLawful) {ch : Fin 4} {a : Fin 64} {k : Fin 256}
    (holder : (s.ctx k).holds ch a = true) (serials : List Word) (p : Context → Option Word → Bool) :
    s.met ch serials p a = if p (s.ctx k) (heardAt serials a) then 1 else 0 := by
  have only (i : Fin 256) : (s.ctx i).holds ch a = decide (i = k) := by
    refine Bool.eq_iff_iff.2 ⟨fun holds => decide_eq_true ?_, fun own => ?_⟩
    · by_contra other
      obtain ⟨lifeI, chainI, addressI⟩ := Context.holds_iff.1 holds
      obtain ⟨lifeK, chainK, addressK⟩ := Context.holds_iff.1 holder
      exact lawful i k other lifeI lifeK ⟨chainI.trans chainK.symm, addressI.trans addressK.symm⟩
    · rw [of_decide_eq_true own]
      exact holder
  unfold State.met
  split_ifs with kind
  · have own : (List.finRange 256).countP (fun i => (s.ctx i).holds ch a && p (s.ctx i) (heardAt serials a)) =
        (List.finRange 256).count k := by
      refine List.countP_congr fun i _ => ?_
      rw [only, Bool.and_eq_true, decide_eq_true_eq, beq_iff_eq]
      exact ⟨fun both => both.1, fun own => ⟨own, by rw [own]; exact kind⟩⟩
    rw [own]
    exact List.count_eq_one_of_mem (List.nodup_finRange 256) (List.mem_finRange k)
  · refine List.countP_eq_zero.2 fun i _ both => kind ?_
    rw [only, Bool.and_eq_true, decide_eq_true_eq] at both
    rw [← both.1]
    exact both.2

theorem State.holds_holder {s : State} {ch : Fin 4} {a : Fin 64} {k : Fin 256} (h : s.holder ch a = some k) :
    (s.ctx k).holds ch a = true := Context.holds_iff.2 (s.holder_some ch a k h)

/-- What one position adds to the counts (R150). -/
theorem State.comparePosition_counts {s : State} (lawful : s.positionsLawful) (ch : Fin 4) (serials : List Word)
    (n : RollCounts) (a : Fin 64) :
    (State.comparePosition ch serials (s, n) a).2 = s.countsOf ch serials [a] n := by
  unfold State.comparePosition State.countsOf
  have heard : serials[a.val - 1]? = heardAt serials a := rfl
  simp only [List.map_singleton, List.sum_singleton, List.countP_singleton]
  rw [heard]
  cases holder : s.holder ch a with
  | some k =>
    have holds := State.holds_holder holder
    have known : s.strange ch serials a = false := by
      unfold State.strange
      rw [Bool.and_eq_false_iff]
      refine .inr (List.all_eq_false.2 ⟨k, List.mem_finRange k, ?_⟩)
      rw [holds]
      decide
    simp only [State.met_holder lawful holds, known]
    generalize heardAt serials a = w
    generalize s.ctx k = c
    cases w with
    | none => simp [Context.finding, RollCounts.count, Context.hearsOwn, Context.recovers, Context.hearsOther,
        Context.hearsNone]
    | some w =>
      by_cases own : w = c.serial
      · by_cases live : c.life = .live <;>
          simp [Context.finding, RollCounts.count, Context.hearsOwn, Context.recovers, Context.hearsOther,
            Context.hearsNone, own, live]
      · simp [Context.finding, RollCounts.count, Context.hearsOwn, Context.recovers, Context.hearsOther,
          Context.hearsNone, own]
  | none =>
    have nobody : ∀ i, (s.ctx i).holds ch a = false := fun i => by
      rw [Bool.eq_false_iff]
      exact fun holds => s.holder_none ch a holder i (Context.holds_iff.1 holds)
    have strange : s.strange ch serials a = (heardAt serials a).isSome := by
      unfold State.strange
      rw [List.all_eq_true.2 fun i _ => by rw [nobody i]; rfl, Bool.and_true]
    simp only [State.met_nobody nobody, strange]
    cases heardAt serials a <;> rfl

/-- A position that has been compared changes nothing of what the others count. -/
theorem State.countsOf_congr {s t : State} {ch : Fin 4} {serials : List Word} {a : Fin 64} {w : Option Word}
    (h : s.comparedAt t ch a w) {l : List (Fin 64)} (fresh : a ∉ l) (n : RollCounts) :
    t.countsOf ch serials l n = s.countsOf ch serials l n := by
  obtain ⟨same, -, others, -⟩ := h
  have met (p : Context → Option Word → Bool) : l.map (t.met ch serials p) = l.map (s.met ch serials p) := by
    refine List.map_congr_left fun b mem => List.countP_congr fun i _ => ?_
    rw [(same i).holds ch b]
    by_cases holds : (s.ctx i).holds ch b = true
    · rw [others i fun atA => fresh (by rw [Context.holds_unique atA holds]; exact mem)]
    · rw [Bool.eq_false_iff.2 holds]
      simp only [Bool.false_and]
  have strange : l.countP (t.strange ch serials) = l.countP (s.strange ch serials) := by
    refine List.countP_congr fun b _ => ?_
    unfold State.strange
    simp only [fun i => (same i).holds ch b]
  unfold State.countsOf
  rw [met, met, met, met, strange]

theorem State.countsOf_cons (s : State) (ch : Fin 4) (serials : List Word) (a : Fin 64) (l : List (Fin 64))
    (n : RollCounts) : s.countsOf ch serials l (s.countsOf ch serials [a] n) = s.countsOf ch serials (a :: l) n := by
  unfold State.countsOf
  simp only [List.map_cons, List.map_nil, List.sum_cons, List.sum_nil, List.countP_cons, List.countP_nil]
  rw [RollCounts.mk.injEq]
  omega

/-- The comparison of some positions, one after another: what it does, and what it counts (R148, R150). -/
theorem State.foldPositions {ch : Fin 4} {serials : List Word} {l : List (Fin 64)} (nodup : l.Nodup) {s : State}
    (lawful : s.positionsLawful) (n : RollCounts) :
    State.compares ch serials l s (l.foldl (State.comparePosition ch serials) (s, n)).1 ∧
      s.comparedAll (l.foldl (State.comparePosition ch serials) (s, n)).1 ch serials l ∧
      (l.foldl (State.comparePosition ch serials) (s, n)).2 = s.countsOf ch serials l n := by
  induction l generalizing s n with
  | nil =>
    exact ⟨rfl, ⟨fun i => Context.sameTile.refl _, nofun, fun i _ => rfl, fun _ _ is _ => is⟩, rfl⟩
  | cons a l ih =>
    obtain ⟨fresh, nodup⟩ := List.nodup_cons.1 nodup
    have compares := s.comparePosition_compares lawful ch serials n a
    have counts := State.comparePosition_counts lawful ch serials n a
    rw [List.foldl_cons]
    generalize State.comparePosition ch serials (s, n) a = x at compares counts ⊢
    obtain ⟨t, m⟩ := x
    have at_ := State.comparesPosition_at lawful compares
    obtain ⟨rest, all, sum⟩ := ih nodup (State.positionsLawful_of_same at_.1 lawful) m
    refine ⟨⟨t, compares, rest⟩, State.comparedAll_cons fresh at_ all, ?_⟩
    rw [sum, State.countsOf_congr at_ fresh, show m = s.countsOf ch serials [a] n from counts, State.countsOf_cons]

/-! ## The counts of all positions, in the terms of section 8.5 -/

theorem countP_or_fresh {α β : Type} [DecidableEq β] (f : α → β) (q : α → Bool) {b : β} {l : List β} (fresh : b ∉ l)
    (xs : List α) : xs.countP (fun i => q i && decide (f i ∈ b :: l)) =
      xs.countP (fun i => q i && decide (f i = b)) + xs.countP fun i => q i && decide (f i ∈ l) := by
  induction xs with
  | nil => rfl
  | cons x xs ih =>
    rw [List.countP_cons, List.countP_cons, List.countP_cons, ih]
    by_cases here : f x = b
    · have off : f x ∉ l := here ▸ fresh
      cases q x
      · simp
      · simp [here, fresh]
        omega
    · cases q x
      · simp
      · by_cases mem : f x ∈ l
        · simp [here, mem]
          omega
        · simp [here, mem]

/-- A count at each place of a list is a count over all those places. -/
theorem sum_countP_places {α β : Type} [DecidableEq β] (f : α → β) (q : α → Bool) (xs : List α) {l : List β}
    (nodup : l.Nodup) : (l.map fun b => xs.countP fun i => q i && decide (f i = b)).sum =
      xs.countP fun i => q i && decide (f i ∈ l) := by
  induction l with
  | nil =>
    refine (List.countP_eq_zero.2 fun i _ => ?_).symm
    simp
  | cons b l ih =>
    obtain ⟨fresh, nodup⟩ := List.nodup_cons.1 nodup
    rw [List.map_cons, List.sum_cons, ih nodup, countP_or_fresh f q fresh]

theorem mem_positions {a : Fin 64} : a ∈ State.positions ↔ a ≠ 0 := by
  revert a
  decide

theorem positions_nodup : State.positions.Nodup := by decide

/-- The contexts at the positions 1 to 63 of a chain, of one kind for what was heard at their addresses. -/
def State.rollCount (s : State) (ch : Fin 4) (serials : List Word) (p : Context → Option Word → Bool) : Nat :=
  ((List.finRange 256).filter fun i =>
    decide ((s.ctx i).life ≠ .absent ∧ (s.ctx i).chain = ch ∧ (s.ctx i).address ≠ 0) &&
      p (s.ctx i) (heardAt serials (s.ctx i).address)).length

theorem State.sum_met (s : State) (ch : Fin 4) (serials : List Word) (p : Context → Option Word → Bool) :
    (State.positions.map (s.met ch serials p)).sum = s.rollCount ch serials p := by
  have met (a : Fin 64) : s.met ch serials p a = (List.finRange 256).countP fun i =>
      (decide ((s.ctx i).life ≠ .absent ∧ (s.ctx i).chain = ch) && p (s.ctx i) (heardAt serials (s.ctx i).address)) &&
        decide ((s.ctx i).address = a) := by
    refine List.countP_congr fun i _ => ?_
    rw [Bool.and_eq_true, Context.holds_iff, Bool.and_eq_true, Bool.and_eq_true, decide_eq_true_eq, decide_eq_true_eq]
    constructor
    · rintro ⟨⟨life, chain, rfl⟩, kind⟩
      exact ⟨⟨⟨life, chain⟩, kind⟩, rfl⟩
    · rintro ⟨⟨⟨life, chain⟩, kind⟩, rfl⟩
      exact ⟨⟨life, chain, rfl⟩, kind⟩
  rw [List.map_congr_left fun a _ => met a, sum_countP_places _ _ _ positions_nodup]
  unfold State.rollCount
  rw [← List.countP_eq_length_filter]
  refine List.countP_congr fun i _ => ?_
  simp only [mem_positions, Bool.and_eq_true, decide_eq_true_eq]
  tauto

/-- Each position at which a tile was heard counts once: for its holder's own serial, for another, or as unknown. -/
theorem State.met_heard {s : State} (lawful : s.positionsLawful) (ch : Fin 4) (serials : List Word) (a : Fin 64) :
    s.met ch serials Context.hearsOwn a + s.met ch serials Context.hearsOther a +
      (if s.strange ch serials a then 1 else 0) = if (heardAt serials a).isSome then 1 else 0 := by
  by_cases holder : ∃ k, (s.ctx k).holds ch a = true
  · obtain ⟨k, holds⟩ := holder
    have known : s.strange ch serials a = false := by
      unfold State.strange
      rw [Bool.and_eq_false_iff]
      refine .inr (List.all_eq_false.2 ⟨k, List.mem_finRange k, ?_⟩)
      rw [holds]
      decide
    rw [State.met_holder lawful holds, State.met_holder lawful holds, known]
    cases heardAt serials a with
    | none => rfl
    | some w => by_cases own : w = (s.ctx k).serial <;> simp [Context.hearsOwn, Context.hearsOther, own]
  · have nobody : ∀ i, (s.ctx i).holds ch a = false := fun i => Bool.eq_false_iff.2 fun holds => holder ⟨i, holds⟩
    have strange : s.strange ch serials a = (heardAt serials a).isSome := by
      unfold State.strange
      rw [List.all_eq_true.2 fun i _ => by rw [nobody i]; rfl, Bool.and_true]
    rw [State.met_nobody nobody, State.met_nobody nobody, strange, Nat.zero_add]

theorem State.sum_heard {s : State} (lawful : s.positionsLawful) (ch : Fin 4) (serials : List Word)
    (l : List (Fin 64)) : (l.map (s.met ch serials Context.hearsOwn)).sum +
      (l.map (s.met ch serials Context.hearsOther)).sum + l.countP (s.strange ch serials) =
        l.countP fun a => (heardAt serials a).isSome := by
  induction l with
  | nil => rfl
  | cons a l ih =>
    have here := s.met_heard lawful ch serials a
    rw [List.map_cons, List.map_cons, List.sum_cons, List.sum_cons, List.countP_cons, List.countP_cons, ← ih, ← here]
    omega

theorem countP_below : ∀ n : Fin 64, State.positions.countP (fun a => decide (a.val - 1 < n.val)) = n.val := by
  decide +kernel

theorem countP_heard {serials : List Word} (h : serials.length ≤ 63) :
    State.positions.countP (fun a => (heardAt serials a).isSome) = serials.length := by
  refine Eq.trans (List.countP_congr fun a _ => ?_) (countP_below ⟨serials.length, by omega⟩)
  unfold heardAt
  rw [decide_eq_true_eq]
  simp

/-- The positions at which a tile was heard that no context holds. -/
theorem State.count_strange (s : State) (ch : Fin 4) (serials : List Word) (P : Fin 64 → Bool)
    (h : ∀ a, a ≠ 0 → (P a = true ↔ ∃ i, (s.ctx i).holds ch a = true)) :
    State.positions.countP (s.strange ch serials) = ((List.finRange 64).filter fun a =>
      !decide (a = 0) && (heardAt serials a).isSome && !P a).length := by
  have all : List.finRange 64 = 0 :: State.positions := by decide
  rw [all, ← List.countP_eq_length_filter, List.countP_cons_of_neg (by simp)]
  refine List.countP_congr fun a mem => ?_
  have above := mem_positions.1 mem
  unfold State.strange
  have free : ((List.finRange 256).all fun i => !(s.ctx i).holds ch a) = !P a := by
    refine Bool.eq_iff_iff.2 ?_
    rw [List.all_eq_true, Bool.not_eq_true', Bool.eq_false_iff, ne_eq, h a above]
    simp
  rw [free]
  simp [above]

/-! ## A completed roll (R148, R152) -/

theorem State.completeRoll_eq {r : Roll} (goes : r.ending = false) (s : State) (ch : Fin 4) (e : RollEnd) :
    s.completeRoll ch r e =
      ((s.compareRoll ch r.serials).1.answerRoll ch r
        (State.rollData e r.attempts r.serials.length (s.compareRoll ch r.serials).2)).leaveRoll ch r :=
  if_neg (by rw [goes]; exact Bool.false_ne_true)

/-- Settles O52. -/
theorem rollCompletes : Obligations.RollCompletes := by
  intro s ch r e lawful goes holds contexts heard here matched recovered unmatched missing unknown
  obtain ⟨compares, ⟨same, outcome, others, cards⟩, counts⟩ :=
    State.foldPositions (ch := ch) (serials := r.serials) positions_nodup lawful RollCounts.zero
  have spell (p : Context → Option Word → Bool) :
      (State.positions.map (s.met ch r.serials p)).sum = contexts fun i => here i && p (s.ctx i) (heard i) := by
    rw [State.sum_met]
    refine congrArg List.length (List.filter_congr fun i _ => ?_)
    refine congrArg (· && p (s.ctx i) (heard i)) (decide_eq_decide.2 ?_)
    exact ⟨fun ⟨l, c, a⟩ => ⟨l, c, rfl, a⟩, fun ⟨l, c, _, a⟩ => ⟨l, c, a⟩⟩
  have isMatched : (State.positions.map (s.met ch r.serials Context.hearsOwn)).sum = matched := spell _
  have isRecovered : (State.positions.map (s.met ch r.serials Context.recovers)).sum = recovered := by
    rw [spell]
    refine congrArg List.length (List.filter_congr fun i _ => ?_)
    rw [Bool.and_assoc]
    rfl
  have isUnmatched : (State.positions.map (s.met ch r.serials Context.hearsOther)).sum = unmatched := by
    rw [spell]
    refine congrArg List.length (List.filter_congr fun i _ => ?_)
    rw [Bool.and_assoc]
    rfl
  have isMissing : (State.positions.map (s.met ch r.serials Context.hearsNone)).sum = missing := spell _
  have isUnknown : State.positions.countP (s.strange ch r.serials) = unknown := by
    refine s.count_strange ch r.serials (fun a => decide (∃ i, holds i a)) fun a above => ?_
    rw [decide_eq_true_eq]
    refine exists_congr fun i => ?_
    rw [Context.holds_iff]
    exact ⟨fun ⟨l, c, p, _⟩ => ⟨l, c, p⟩, fun ⟨l, c, p⟩ => ⟨l, c, p, above⟩⟩
  have tally : (s.compareRoll ch r.serials).2 = ⟨matched, recovered, unmatched, missing, unknown⟩ := by
    rw [← isMatched, ← isRecovered, ← isUnmatched, ← isMissing, ← isUnknown]
    refine counts.trans ?_
    unfold State.countsOf RollCounts.zero
    simp only [Nat.zero_add]
  have data : State.rollData e r.attempts r.serials.length (s.compareRoll ch r.serials).2 =
      bytes8 e.number ++ bytes8 r.attempts ++ bytes8 r.serials.length ++ bytes8 matched ++ bytes8 recovered ++
        bytes8 unmatched ++ bytes8 missing ++ bytes8 unknown := by
    rw [tally, State.rollData, RollEnd.code_number]
  have shown (i : Fin 256) : (((s.compareRoll ch r.serials).1.answerRoll ch r
      (State.rollData e r.attempts r.serials.length (s.compareRoll ch r.serials).2)).ctx i) =
        (s.compareRoll ch r.serials).1.ctx i := State.ctx_congr (State.answerRoll_tables _ _ _ _).1 i
  refine ⟨(s.compareRoll ch r.serials).1, (s.compareRoll ch r.serials).1.answerRoll ch r
      (State.rollData e r.attempts r.serials.length (s.compareRoll ch r.serials).2), compares,
    fun again => State.answerRoll_again again _ _ _, fun once => ?_, fun h is kind => cards ch h is kind,
    State.completeRoll_eq goes s ch e, fun short => ?_, fun i off => ?_, fun i life chain address => ?_⟩
  · rw [← data]
    exact State.answerRoll_answersHeld once _ ch _
  · rw [← isMatched, ← isUnmatched, ← isUnknown, State.sum_heard lawful, countP_heard short]
  · rw [shown]
    refine others i ?_
    rintro ⟨a, -, at_⟩
    obtain ⟨life, chain, -⟩ := Context.holds_iff.1 at_
    exact off.elim life fun other => other chain
  · rw [shown]
    obtain ⟨generation, serial, -⟩ := same i
    exact ⟨generation, serial,
      outcome i _ (mem_positions.2 address) (Context.holds_iff.2 ⟨life, chain, rfl⟩)⟩

end Sys2Proof.Machine
end

section
/-! Reports, their records, and the two logs (R156, R157, R160 to R165). -/

namespace Sys2Proof.Machine

/-! ## Where a report goes (R157, R160 to R162) -/

theorem State.raisePart_eq (s : State) (k : PartKind) (ch : Fin 4) (a : Fin 64) (serial value : Word) :
    s.raisePart k ch a serial value = s.writeReport .alert
      { tick := s.tick, kind := k.number, chain := ch, address := a, source := 0xFF, rolled := false
        serial := serial, value := value } := by
  unfold State.raisePart State.partReport
  rw [PartKind.code_number]

theorem State.canLog_iff {s : State} :
    s.canLog = true ↔ s.regs.run = true ∧ s.intake.halted = false ∧ s.logs.ready = true := by
  unfold State.canLog
  rw [Bool.and_eq_true, Bool.and_eq_true, Bool.not_eq_true', and_assoc]

theorem State.writeReport_unlogged {s : State} (h : s.canLog = false) (d : Destination) (r : Report) :
    s.writeReport d r = s.countUnlogged := if_neg (by rw [h]; exact Bool.false_ne_true)

theorem State.writeReport_alert {s : State} (h : s.canLog = true) (r : Report) :
    s.writeReport .alert r = s.logAlert r := if_pos h

theorem State.writeReport_general {s : State} (h : s.canLog = true) (r : Report) :
    s.writeReport .general r = s.logGeneral r := if_pos h

theorem State.unreadAlerts_eq (s : State) :
    s.unreadAlerts = (s.logs.alertWrite.val + 32 - s.logs.alertCopy.val) % 32 := by
  unfold State.unreadAlerts
  rw [Fin.val_sub]
  have := s.logs.alertCopy.isLt
  omega

/-- A record of sixteen bytes has been written at `o`, and the rest is as it was (section 10.2.4). -/
theorem Memory.read_record (m : Memory) (o : Nat) (r : Report) (a : Nat) :
    Memory.read (m.writeBytes o r.bytes) a =
      if o ≤ a ∧ a < o + 16 then layoutByte r.rows (a - o) else m.read a := by
  rw [Memory.read_writeBytes, Report.bytes_length, Report.bytes_layout]

/-- An alert that finds room and whose write ends well is in the alert log (R161). -/
theorem State.logAlert_written {s : State} (good : s.goodAccesses 1 = 1) (room : s.unreadAlerts < 31) (r : Report) :
    s.logAlert r =
      { s.accessed 1 with
        area := s.area.writeBytes (s.areaBase + 0x0D00 + 16 * s.logs.alertWrite.val) r.bytes
        logs := { s.logs with alertWrite := s.logs.alertWrite + 1 }
        regs := { s.regs with noticeRaw := s.regs.noticeRaw ||| 2 } } := by
  have runs : ¬s.intake.halted = true := by simp [State.not_halted (by decide) good]
  unfold State.logAlert
  rw [if_pos room]
  dsimp only
  rw [State.areaWrite_good good, State.accessed_good good, State.alertSlot, ← Nat.add_assoc]
  exact if_neg runs

/-- Settles O54. -/
theorem reportsAreLogged : Obligations.ReportsAreLogged := by
  refine ⟨State.raisePart_eq, fun s r d => ?_⟩
  intro unread
  have unreads : s.unreadAlerts = unread := s.unreadAlerts_eq
  refine ⟨fun off => ?_, fun run ready good few => ?_, fun run ready runs all => ?_, fun run ready runs bad few => ?_⟩
  · refine State.writeReport_unlogged (Bool.eq_false_iff.2 fun can => ?_) d r
    obtain ⟨run, runs, ready⟩ := State.canLog_iff.1 can
    rw [run, runs, ready] at off
    exact off.elim nofun fun later => later.elim nofun nofun
  · have runs : s.intake.halted = false := State.not_halted (by decide) good
    rw [State.writeReport_alert (State.canLog_iff.2 ⟨run, runs, ready⟩), State.logAlert_written good (by omega)]
    exact ⟨_, rfl, fun a => Memory.read_record s.area _ r a, rfl⟩
  · have can := State.canLog_iff.2 ⟨run, runs, ready⟩
    intro t
    have general : s.logGeneral { r with rolled := true } = t := (State.writeReport_general can _).symm
    rw [State.writeReport_alert can]
    unfold State.logAlert
    rw [if_neg (by omega)]
    dsimp only
    rw [general]
    refine ⟨fun written => ?_, fun failed => if_pos failed⟩
    rw [if_neg (by simp [written])]
    rfl
  · rw [State.writeReport_alert (State.canLog_iff.2 ⟨run, runs, ready⟩)]
    unfold State.logAlert
    rw [if_pos (by omega)]
    dsimp only
    rw [State.areaWrite_bad runs bad]
    exact if_pos (show s.busFaulted.intake.halted = true from rfl)

/-! ## The steps of a general log write (R163, R164) -/

/-- The oldest index after the release: the copy of the host's index, where it has moved within the valid records. -/
def Logs.afterRelease (l : Logs) : Fin 512 :=
  if decide (l.generalCopy ≠ l.released) && decide ((l.generalCopy - l.oldest).val ≤ (l.generalWrite - l.oldest).val)
  then l.generalCopy else l.oldest

/-- The ring holds 511 valid records after the release. -/
def Logs.full (l : Logs) : Bool := decide ((l.generalWrite - l.afterRelease).val = 511)

/-- The logs after the first two steps: release, and room. -/
def Logs.settled (l : Logs) : Logs :=
  { l with
    released := l.generalCopy, oldest := if l.full then l.afterRelease + 1 else l.afterRelease
    overwrites := if l.full then countUp 65535 l.overwrites else l.overwrites }

/-- The notices after the first two steps. -/
def State.settledNotices (s : State) : BitVec 7 := if s.logs.full then s.regs.noticeRaw ||| 4 else s.regs.noticeRaw

theorem State.releaseGeneral_eq (s : State) : s.releaseGeneral =
    { s with logs := { s.logs with released := s.logs.generalCopy, oldest := s.logs.afterRelease } } := by
  unfold State.releaseGeneral Logs.afterRelease
  by_cases still : s.logs.generalCopy = s.logs.released
  · rw [if_pos still, decide_eq_false (not_not.2 still), Bool.false_and, if_neg Bool.false_ne_true, still]
  · rw [if_neg still, decide_eq_true (p := s.logs.generalCopy ≠ s.logs.released) still, Bool.true_and]
    simp only [decide_eq_true_eq]
    rfl

theorem State.settled_eq (s : State) : s.releaseGeneral.makeRoom =
    { s with logs := s.logs.settled, regs := { s.regs with noticeRaw := s.settledNotices } } := by
  have valid : s.releaseGeneral.validRecords = (s.logs.generalWrite - s.logs.afterRelease).val := by
    rw [State.releaseGeneral_eq]
    rfl
  unfold State.makeRoom State.settledNotices Logs.settled Logs.full
  rw [valid, State.releaseGeneral_eq]
  by_cases full : (s.logs.generalWrite - s.logs.afterRelease).val = 511
  · simp only [if_pos full, decide_eq_true full, if_true]
    rfl
  · simp only [if_neg full, decide_eq_false full, Bool.false_eq_true, if_false]

/-- There is room for a record: the ring never fills to the write index (R163). -/
theorem Logs.settled_room (l : Logs) : l.settled.oldest ≠ l.generalWrite + 1 := by
  unfold Logs.settled Logs.full
  generalize l.afterRelease = oldest
  generalize l.generalWrite = write
  dsimp only
  by_cases full : (write - oldest).val = 511
  · rw [if_pos (decide_eq_true full)]
    intro same
    rw [add_right_cancel same, sub_self] at full
    cases full
  · rw [if_neg (by simpa using full)]
    rintro rfl
    refine full ?_
    rw [sub_add_cancel_left]
    decide

/-- Settles O55. -/
theorem generalLogWrites : Obligations.GeneralLogWrites := by
  intro s r run ready runs l moved within oldest full notices settled
  have can := State.canLog_iff.2 ⟨run, runs, ready⟩
  have settles : s.releaseGeneral.makeRoom =
      { s with logs := settled, regs := { s.regs with noticeRaw := notices } } := s.settled_eq
  rw [State.writeReport_general can]
  unfold State.logGeneral
  dsimp only
  rw [settles]
  refine ⟨fun good => ⟨_, rfl, ?_⟩, fun bad => ?_⟩
  · have good' : ({ s with logs := settled, regs := { s.regs with noticeRaw := notices } } : State).goodAccesses 1 = 1 :=
      good
    rw [State.areaWrite_good good', State.accessed_good good', State.accessed_good good,
      if_neg (show ¬s.intake.halted = true by simp [runs])]
    refine ⟨rfl, fun a => ?_, l.settled_room, rfl⟩
    exact (Memory.read_record s.area _ r a).trans (by rw [State.generalSlot, ← Nat.add_assoc]; rfl)
  · have bad' : ({ s with logs := settled, regs := { s.regs with noticeRaw := notices } } : State).goodAccesses 1 = 0 :=
      bad
    rw [State.areaWrite_bad (by exact runs) bad']
    exact if_pos (show s.busFaulted.intake.halted = true from rfl)

end Sys2Proof.Machine
end

section
/-! The walk of the request board, and the first two steps of a scan (R167 to R170). -/

namespace Sys2Proof.Machine

/-! ## The fields of a card (section 10.2) -/

theorem Walk.params_eq (w : Walk) (k : Nat) : w.param8 k = (w.card.params.getD k 0).toNat ∧
    w.param16 k = w.param8 k + 256 * w.param8 (k + 1) ∧ w.param32 k = w.param16 k + 65536 * w.param16 (k + 2) :=
  ⟨rfl, rfl, rfl⟩

theorem bytes_little_endian (n : Nat) : bytes8 n = [leByte n 0] ∧ bytes16 n = [leByte n 0, leByte n 1] ∧
    bytes32 n = [leByte n 0, leByte n 1, leByte n 2, leByte n 3] := by
  simp [bytes8, bytes16, bytes32, leByte, Nat.div_div_eq_div_mul]

/-! ## The walk (R168) -/

theorem State.pendingTable_get (s : State) (g : Fin 8) : s.pendingTable.get g = (s.group g).pending :=
  List.getElem_map _

/-- The state in which the card at the cursor has been read, and the cursor has advanced (R168). -/
def State.pastCard (s : State) : State :=
  let h := s.accessed 1
  { h with intake := { h.intake with cursor := s.intake.cursor + 1 } }

theorem State.takeCard_posted {s : State} {c : Card} (posted : c.state = 1) (left : Nat) (solved : Bool) :
    s.takeCard c left solved =
      let s1 := s.modIntake fun k => { k with cursor := k.cursor + 1 }
      if c.version = 1 then
        match Request.ofCode c.kind.toNat with
        | none => (s1.refuseCard c .badKind).scanTo (State.walkPhase left solved)
        | some r =>
          let w : Walk :=
            { card := c, request := r, takenTick := s1.tick, flags := s1.pendingTable, longCards := s1.intake.longCards
              left := left, solved := solved, ending := false, restart := false, rescan := false }
          s1.modIntake fun k => { k with walk := some w, scan := none }
      else (s1.refuseCard c .badVersion).scanTo (State.walkPhase left solved) := if_pos posted

/-- Settles O13. -/
theorem scanTakesOrRefusesAPostedCard : Obligations.ScanTakesOrRefusesAPostedCard := by
  refine ⟨Walk.params_eq, bytes_little_endian, fun s n solved runs board => ?_⟩
  have reads : s.scanAccess = s.readCard n solved := by
    unfold State.scanAccess
    rw [board]
  intro h u refused
  have past (good : s.goodAccesses 1 = 1) : (h.modIntake fun k => { k with cursor := k.cursor + 1 }) = u := by
    have kept : h.intake = s.intake := by
      rw [show h = s.accessed 1 from rfl, State.accessed_good good]
    unfold State.modIntake
    rw [kept]
    exact congrArg (fun i : Intake => { h with intake := { i with cursor := s.intake.cursor + 1 } }) kept.symm
  have refuses (code : ResultCode) (e : s.scanAccess =
      (u.refuseCard s.cardAtCursor code).scanTo (State.walkPhase n solved)) : refused code :=
    ⟨_, u.refuseCard_completes s.cardAtCursor code, e⟩
  refine ⟨fun bad => ?_, fun good other => ?_, fun good posted => ⟨fun r version kind => ?_, fun version => ?_,
    fun version kind => ?_⟩⟩
  · rw [reads, State.readCard_bad runs bad]
  · rw [reads, State.readCard_good good]
    have halted : h.intake.halted = false := by
      rw [show h = s.accessed 1 from rfl, State.accessed_good good]
      exact runs
    exact (if_neg other).trans (State.scanTo_running halted _)
  all_goals rw [State.readCard_good good, State.takeCard_posted posted] at reads
  all_goals dsimp only at reads
  all_goals rw [past good] at reads
  · have known := (Request.ofCode_iff _ _).2 kind
    rw [if_pos version, known] at reads
    refine ⟨u.pendingTable, fun g => ?_, reads.trans ?_⟩
    · rw [State.pendingTable_get]
      have kept : u.groups = s.groups := (State.accessed_tables s 1).2.1
      rw [State.group_congr kept]
    · have tick : u.tick = s.tick := by
        unfold State.tick
        rw [show u.clock = s.clock from (State.accessed_tables s 1).2.2.2.2]
      have cards : u.intake.longCards = s.intake.longCards := by
        show (s.accessed 1).intake.longCards = _
        rw [State.accessed_good good]
      rw [← tick, ← cards]
      rfl
  · rw [if_neg version] at reads
    exact refuses .badVersion reads
  · rw [if_pos version, Request.ofCode_none _ kind] at reads
    exact refuses .badKind reads

/-! ## The completions that wait, in ascending card index (R170) -/

/-- A list in ascending order begins with all that it has of its least index. -/
theorem filter_least {l : List Completion} (sorted : l.Pairwise fun c d => c.index ≤ d.index) {n : Fin 32}
    (least : ∀ c ∈ l, n ≤ c.index) :
    (l.filter fun c => decide (c.index = n)) ++ (l.filter fun c => !decide (c.index = n)) = l := by
  induction l with
  | nil => rfl
  | cons c l ih =>
    obtain ⟨first, sorted⟩ := List.pairwise_cons.1 sorted
    by_cases here : c.index = n
    · rw [List.filter_cons_of_pos (by simpa using here), List.filter_cons_of_neg (by simpa using here), List.cons_append,
        ih sorted fun d mem => least d (List.mem_cons_of_mem _ mem)]
    · have above : ∀ d ∈ c :: l, ¬d.index = n := by
        intro d mem same
        rcases List.mem_cons.1 mem with rfl | mem
        · exact here same
        · exact here (le_antisymm (same ▸ first d mem) (least c List.mem_cons_self))
      rw [List.filter_eq_nil_iff.2 fun d mem => by simpa using above d mem,
        List.filter_eq_self.2 fun d mem => by simpa using above d mem, List.nil_append]

/-- A list in ascending order of index is what it has of each index, one index after another. -/
theorem flatMap_filter_index {ns : List (Fin 32)} (ascending : ns.Pairwise (· < ·)) {l : List Completion}
    (sorted : l.Pairwise fun c d => c.index ≤ d.index) (all : ∀ c ∈ l, c.index ∈ ns) :
    (ns.flatMap fun n => l.filter fun c => decide (c.index = n)) = l := by
  induction ns generalizing l with
  | nil =>
    cases l with
    | nil => rfl
    | cons c l => exact absurd (all c List.mem_cons_self) List.not_mem_nil
  | cons n ns ih =>
    obtain ⟨first, ascending⟩ := List.pairwise_cons.1 ascending
    have least : ∀ c ∈ l, n ≤ c.index := fun c mem => by
      rcases List.mem_cons.1 (all c mem) with same | later
      · exact same.ge
      · exact (first _ later).le
    have rest := ih ascending (sorted.filter fun c => !decide (c.index = n)) fun c mem => by
      obtain ⟨mem, other⟩ := List.mem_filter.1 mem
      exact (List.mem_cons.1 (all c mem)).resolve_left (by simpa using other)
    have same : (ns.flatMap fun m => l.filter fun c => decide (c.index = m)) =
        ns.flatMap fun m => (l.filter fun c => !decide (c.index = n)).filter fun c => decide (c.index = m) := by
      refine List.flatMap_congr fun m mem => ?_
      rw [List.filter_filter]
      refine List.filter_congr fun c _ => ?_
      by_cases at_ : c.index = m
      · have off : ¬m = n := fun same => absurd (first m mem) (same ▸ lt_irrefl _)
        simp [at_, off]
      · simp [at_]
    rw [List.flatMap_cons, same, rest, filter_least sorted least]

theorem State.completionsInOrder_eq {s : State} {order : List Completion}
    (sorted : order.Pairwise fun c d => c.index ≤ d.index)
    (same : ∀ n, (order.filter fun c => decide (c.index = n)) =
      s.intake.completions.filter fun c => decide (c.index = n)) : s.completionsInOrder = order := by
  unfold State.completionsInOrder
  simp only [← same]
  exact flatMap_filter_index (List.pairwise_lt_finRange 32) sorted fun c _ => List.mem_finRange _

/-! ## Completions written one after another (R169, R170) -/

theorem State.writeCompletion_halted {s : State} (h : s.intake.halted = true) (c : Completion) :
    s.writeCompletion c = s := by
  unfold State.writeCompletion
  rw [State.areaWrites_halted h]
  exact if_neg (by simp [h])

theorem State.deliversAll_halted {s : State} (h : s.intake.halted = true) (order : List Completion) :
    State.deliversAll order s s := by
  induction order with
  | nil => rfl
  | cons c order ih =>
    have writes := s.writeCompletion_writesCompletion c
    rw [State.writeCompletion_halted h] at writes
    refine ⟨s, writes, ?_⟩
    rw [if_pos h]
    exact ih

/-- The completion has been written, and has left the list if all its writes ended well (R169, R170). -/
theorem State.delivered_written (s : State) (c : Completion) :
    ((s.areaWrites (State.completionWrites c)).delivered c) =
      if (s.writeCompletion c).intake.halted then s.writeCompletion c
      else { s.writeCompletion c with
        intake := { (s.writeCompletion c).intake with
          completions := (s.writeCompletion c).intake.completions.erase c } } := by
  unfold State.writeCompletion
  generalize s.areaWrites (State.completionWrites c) = t
  have halted : (t.completionWritten c).intake.halted = t.intake.halted := by
    unfold State.completionWritten
    split <;> rfl
  rw [halted]
  unfold State.delivered
  by_cases h : t.intake.halted = true
  · rw [if_pos h, if_pos h]
    unfold State.completionWritten
    rw [if_neg (by simp [h])]
  · rw [if_neg h, if_neg h]
    rfl

theorem State.delivered_ended {s : State} (h : s.intake.scan = none) (ws : List AreaWrite) (c : Completion) :
    ((s.areaWrites ws).delivered c).intake.scan = none := by
  have ended : (s.areaWrites ws).intake.scan = none := by
    rw [State.areaWrites_eq]
    unfold State.accessed
    split_ifs
    · exact h
    · exact h
    · rfl
  unfold State.delivered State.completionWritten
  split_ifs <;> exact ended

theorem State.scanAt_self {s : State} {p : Option ScanPhase} (h : s.intake.scan = p) : s.scanAt p = s := by
  subst h
  rfl

/-- The second step of a scan, access after access: each completion in turn, and then the walk (R167, R170). -/
theorem State.completions_delivered (order : List Completion) : ∀ z : State, ∃ u n,
    State.deliversAll order (z.scanAt none) u ∧
      State.scanAccess^[n] (z.scanTo (State.completionsPhase order)) = u.scanTo (.board 32 false) := by
  induction order with
  | nil => exact fun z => ⟨z.scanAt none, 0, rfl, rfl⟩
  | cons c order ih =>
    intro z
    by_cases h : z.intake.halted = true
    · refine ⟨z.scanAt none, 0, State.deliversAll_halted (by exact h) _, ?_⟩
      rw [Function.iterate_zero, State.scanTo_eq, State.scanTo_eq, if_pos h]
      exact (congrArg (State.scanAt _) (if_pos h)).symm
    · have written := (z.scanAt none).delivered_written c
      have ended := State.delivered_ended (show (z.scanAt none).intake.scan = none from rfl)
        (State.completionWrites c) c
      obtain ⟨u, n, delivers, comes⟩ := ih (((z.scanAt none).areaWrites (State.completionWrites c)).delivered c)
      rw [State.scanAt_self ended] at delivers
      rw [written] at delivers
      have stands : z.scanTo (State.completionsPhase (c :: order)) =
          z.scanAt (some (.completions (c :: order) (State.completionWrites c))) :=
        State.scanTo_running (Bool.eq_false_iff.2 h) _
      obtain ⟨m, writes⟩ := State.completions_iterate _
        (s := z.scanAt (some (.completions (c :: order) (State.completionWrites c)))) rfl
      refine ⟨u, n + m, ⟨_, (z.scanAt none).writeCompletion_writesCompletion c, delivers⟩, ?_⟩
      rw [Function.iterate_add_apply, stands, writes, ← comes, State.delivered_scanTo, State.delivered_scanTo]
      rfl

theorem State.accessed_works {s : State} (works : s.areaWorks) (k : Nat) : s.accessed k = s := by
  unfold State.accessed
  rw [if_neg (by simp [works.1]), if_pos (s.goodAccesses_works works k), works.2.2]
  exact congrArg (fun f => { s with link := { s.link with failAfter := f } }) works.2.2.symm

/-- A working area is still one after a completion, which has left the list. -/
theorem State.writesCompletion_works {s t : State} (works : s.areaWorks) {c : Completion} (h : s.writesCompletion t c) :
    t.areaWorks ∧ t.intake = s.intake := by
  obtain ⟨rest, -⟩ := h
  rw [State.accessed_works works] at rest
  rw [rest]
  exact ⟨works, rfl⟩

/-- When every access ends well, the completions written have all left the list (R170). -/
theorem State.deliversAll_works {order : List Completion} : ∀ {s t : State}, s.areaWorks →
    order.Perm s.intake.completions → State.deliversAll order s t →
      t.intake.completions = [] ∧ t.intake.longCards = s.intake.longCards ∧ t.intake.halted = false := by
  induction order with
  | nil =>
    rintro s t works all rfl
    exact ⟨all.nil_eq.symm, rfl, works.1⟩
  | cons c order ih =>
    rintro s t works all ⟨u, writes, rest⟩
    obtain ⟨works', intake⟩ := State.writesCompletion_works works writes
    rw [if_neg (by simp [works'.1]), intake] at rest
    have later := ih (by exact ⟨works.1, works'.2⟩) (by exact (List.cons_perm_iff_perm_erase.1 all).2) rest
    exact later

/-- Settles O14. -/
theorem scanWritesWaitingCompletions : Obligations.ScanWritesWaitingCompletions := by
  intro s runs
  refine ⟨fun begins order perm sorted same => ?_, fun c rest w ws stands => ?_⟩
  · have inOrder : s.completionsInOrder = order := State.completionsInOrder_eq sorted same
    refine ⟨State.hostWords_bad begins runs, fun good => ?_⟩
    have first := State.hostWords_good begins good
    rw [inOrder] at first
    refine ⟨?_, ?_, ?_⟩
    · rintro rfl
      exact first
    · rintro c rest rfl
      exact ⟨State.completionWrites c, rfl, first⟩
    · obtain ⟨u, n, delivers, comes⟩ := State.completions_delivered order (s.withHostWords.accessed 1)
      have running : (s.withHostWords.accessed 1).intake.halted = false := by
        rw [State.accessed_good (s := s.withHostWords) good]
        exact runs
      refine ⟨u, n + 1, delivers, ?_, fun works => ?_⟩
      · rw [Function.iterate_succ_apply, first, ← State.scanTo_running running, comes]
        rfl
      · rw [State.accessed_works (s := s.withHostWords) works] at delivers
        exact State.deliversAll_works (s := s.withHostWords.scanAt none) works perm delivers
  · intro written
    have part : s.scanAccess = s.writeCompletionPart c rest w ws := by
      unfold State.scanAccess
      rw [stands]
    refine ⟨fun bad => ?_, fun good more => ?_, fun good last => ⟨State.completionsPhase rest, ?_, ?_, ?_⟩⟩
    · rw [part, State.writeCompletionPart_bad runs bad]
    · rw [part, State.writeCompletionPart_good good]
      exact if_neg more
    · rintro rfl
      rfl
    · rintro d later rfl
      exact ⟨State.completionWrites d, rfl, rfl⟩
    · rw [part, State.writeCompletionPart_good good]
      exact if_pos last

end Sys2Proof.Machine
end

section
/-! The last step of a scan: the status block and the mirror (R46, R171, R172). -/

namespace Sys2Proof.Machine

/-! ## What the writes of the last step leave -/

/-- Mirror records, one after another: each leaves its context's bytes in its place (section 10.2.5). -/
theorem State.read_mirrors (s : State) (L : List (Fin 256)) (m : Memory) (a : Nat) :
    Memory.read (L.foldl (fun m j => m.writeBytes (s.areaBase + State.mirrorOffset j) (s.ctx j).mirrorBytes) m) a =
      if a < s.areaBase then m.read a
      else if 0x7000 ≤ a - s.areaBase ∧ a - s.areaBase < 0xF000 ∧
          Fin.ofNat 256 ((a - s.areaBase - 0x7000) / 128) ∈ L then
        (s.ctx (Fin.ofNat 256 ((a - s.areaBase - 0x7000) / 128))).mirrorBytes.getD ((a - s.areaBase - 0x7000) % 128) 0
      else m.read a := by
  induction L generalizing m with
  | nil => simp
  | cons i L ih =>
    rw [List.foldl_cons, ih, Memory.read_writeBytes, Context.mirrorBytes_length]
    unfold State.mirrorOffset
    generalize s.areaBase = b
    by_cases below : a < b
    · rw [if_pos below, if_pos below, if_neg (by omega)]
    rw [if_neg below, if_neg below]
    obtain ⟨o, rfl⟩ : ∃ o, a = b + o := ⟨a - b, by omega⟩
    rw [Nat.add_sub_cancel_left]
    by_cases region : 0x7000 ≤ o ∧ o < 0xF000
    · obtain ⟨low, high⟩ := region
      have number : (Fin.ofNat 256 ((o - 0x7000) / 128)).val = (o - 0x7000) / 128 := by
        rw [Fin.val_ofNat]
        omega
      generalize Fin.ofNat 256 ((o - 0x7000) / 128) = j at number
      by_cases later : j ∈ L
      · simp only [low, high, later, List.mem_cons_of_mem i later, true_and, if_true]
      · by_cases own : j = i
        · subst own
          have place : b + o - (b + (0x7000 + 128 * j.val)) = (o - 0x7000) % 128 := by omega
          rw [if_neg (fun all => later all.2.2), if_pos (by omega), place]
          simp only [low, high, List.mem_cons_self, true_and, if_true]
        · have off : ¬i.val = (o - 0x7000) / 128 := fun same => own (Fin.ext (number.trans same.symm))
          rw [if_neg (fun all => later all.2.2), if_neg (by omega),
            if_neg (fun all => (List.mem_cons.1 all.2.2).elim own later)]
    · have := i.isLt
      rw [if_neg (fun all => region ⟨all.1, all.2.1⟩), if_neg (by omega),
        if_neg (fun all => region ⟨all.1, all.2.1⟩)]

/-- The first `g` of the four writes of a status block: the count, the tick, the body and the count again (R171). -/
theorem read_status {count tick body : List Byte} (c : count.length = 4) (k : tick.length = 4) (l : body.length = 180)
    (b g : Nat) (m : Memory) (a : Nat) :
    Memory.read ((([(0x04, count), (0x00, tick), (0x08, body), (0xBC, count)] : List AreaWrite).take g).foldl
      (fun m w => m.writeBytes (b + w.1) w.2) m) a =
      if a < b then m.read a
      else if a - b < 0x04 ∧ 2 ≤ g then tick.getD (a - b) 0
      else if (0x04 ≤ a - b ∧ a - b < 0x08) ∧ 1 ≤ g then count.getD (a - b - 0x04) 0
      else if (0x08 ≤ a - b ∧ a - b < 0xBC) ∧ 3 ≤ g then body.getD (a - b - 0x08) 0
      else if (0xBC ≤ a - b ∧ a - b < 0xC0) ∧ 4 ≤ g then count.getD (a - b - 0xBC) 0
      else m.read a := by
  by_cases below : a < b
  · rw [if_pos below]
    rcases g with _ | _ | _ | _ | g <;>
      simp only [List.take_succ_cons, List.take_zero, List.take_nil, List.foldl_cons, List.foldl_nil,
        Memory.read_writeBytes, c, k, l] <;>
      repeat rw [if_neg (by omega)]
  · obtain ⟨o, rfl⟩ : ∃ o, a = b + o := ⟨a - b, by omega⟩
    rw [if_neg below]
    have sub (n : Nat) : b + o - (b + n) = o - n := by omega
    rcases g with _ | _ | _ | _ | g <;>
      simp only [List.take_succ_cons, List.take_zero, List.take_nil, List.foldl_cons, List.foldl_nil,
        Memory.read_writeBytes, c, k, l, sub, Nat.add_sub_cancel_left, Nat.add_le_add_iff_left, Nat.add_assoc,
        Nat.add_lt_add_iff_left, Nat.add_zero] <;>
      split_ifs <;> first | with_reducible rfl | omega

/-! ## The last step, access after access (R171) -/

/-- The part with the scan counted. -/
def State.counted (s : State) : State := s.modIntake fun k => { k with scanCount := k.scanCount + 1 }

/-- What the first `g` writes of a scan's last step leave in the area (R171). -/
theorem State.read_shown (s : State) (g a : Nat) :
    Memory.read ((s.mirroredBy g).foldl (fun m i => m.writeBytes (s.areaBase + State.mirrorOffset i) (s.ctx i).mirrorBytes)
      ((s.counted.statusWrites.take g).foldl (fun m w => m.writeBytes (s.areaBase + w.1) w.2) s.area)) a =
        s.scannedByte g a := by
  have status := read_status (count := bytes32 (s.intake.scanCount + 1).toNat) (bytes32_length _)
    (bytes32_length s.tick.toNat) s.statusBody_length s.areaBase g s.area a
  have writes : s.counted.statusWrites = [(0x04, bytes32 (s.intake.scanCount + 1).toNat), (0x00, bytes32 s.tick.toNat),
    (0x08, s.statusBody), (0xBC, bytes32 (s.intake.scanCount + 1).toNat)] := rfl
  rw [State.read_mirrors, State.scannedByte_eq, writes, status]
  dsimp only
  by_cases below : a < s.areaBase
  · simp only [below, if_true]
  · simp only [below, if_false]
    by_cases region : 0x7000 ≤ a - s.areaBase
    · simp only [show ¬a - s.areaBase < 0x04 by omega, show ¬a - s.areaBase < 0x08 by omega,
        show ¬a - s.areaBase < 0xBC by omega, show ¬a - s.areaBase < 0xC0 by omega, and_false, false_and, if_false]
    · simp only [region, false_and, if_false]

theorem State.accessed_counted (s : State) (k : Nat) :
    s.counted.accessed k = { s.accessed k with
      intake := { (s.accessed k).intake with scanCount := s.intake.scanCount + 1 } } := by
  have good : s.counted.goodAccesses k = s.goodAccesses k := rfl
  have halted : s.counted.intake.halted = s.intake.halted := rfl
  unfold State.accessed
  rw [good, halted]
  split_ifs <;> rfl

/-- Accesses that all end well, as the part accounts for them (R172). -/
theorem State.accessed_open {s : State} {k : Nat} (runs : s.intake.halted = false) (good : s.goodAccesses k = k) :
    s.accessed k = { s with link := { s.link with failAfter := s.link.failAfter.map (· - k) } } := by
  unfold State.accessed
  rw [if_neg (by simp [runs]), if_pos good]

/-- The last step of a scan with nothing between its accesses comes to a part that shows itself (R46, R171). -/
theorem State.copy_shows {s : State} (runs : s.intake.halted = false) (copy : s.intake.scan = some .copy) :
    ∃ t, s.comesTo t ∧ s.showsItself t := by
  obtain ⟨n, comes⟩ := State.copy_iterate copy
  have writes : (s.counted.areaWrites s.counted.statusWrites) = { s.counted.accessed 4 with
      area := (s.counted.statusWrites.take (s.goodAccesses 4)).foldl
        (fun m w => m.writeBytes (s.areaBase + w.1) w.2) s.area } := s.counted.areaWrites_eq _
  change State.scanAccess^[n] s = (s.counted.areaWrites s.counted.statusWrites).scanTo _ at comes
  rw [writes] at comes
  obtain ⟨more, fewer⟩ := s.goodAccesses_add 4 s.dirtyIds.length (by decide)
  by_cases all : s.goodAccesses 4 = 4
  · have open_ := State.accessed_open (s := s.counted) runs all
    rw [all] at comes
    generalize whole : (s.counted.statusWrites.take 4).foldl
      (fun m w => m.writeBytes (s.areaBase + w.1) w.2) s.area = m at comes
    rw [State.scanTo_running (by rw [open_]; exact runs)] at comes
    obtain ⟨t, ends, rest, contexts, area⟩ := State.mirror_comesTo s.dirtyIds
      (s := ({ s.counted.accessed 4 with area := m } : State).scanAt (some (.mirror (List.finRange 256))))
      (by rw [open_]; exact runs) (List.nodup_finRange 256) rfl (by rw [open_]; rfl)
    have account := s.counted.accessed_add 4 s.dirtyIds.length (by decide) all t.contexts m t.area
      (some (.mirror (List.finRange 256))) none
    have left : (({ s.counted.accessed 4 with area := m } : State).scanAt
        (some (.mirror (List.finRange 256)))).goodAccesses s.dirtyIds.length =
          s.goodAccesses (4 + s.dirtyIds.length) - 4 := by
      rw [← more all, Nat.add_sub_cancel]
      have uncounted : (s.counted.accessed 4).goodAccesses s.dirtyIds.length =
          (s.accessed 4).goodAccesses s.dirtyIds.length := by
        rw [State.accessed_counted]
        rfl
      exact uncounted
    have four : 4 ≤ s.goodAccesses (4 + s.dirtyIds.length) := by
      rw [← more all]
      omega
    rw [left] at contexts area
    refine ⟨t, State.comesTo_iterate n (by rw [comes]; exact ends), ?_, fun i => ?_, fun a => ?_⟩
    · refine rest.trans (account.trans ?_)
      rw [State.accessed_counted]
    · rw [contexts, open_]
      rfl
    · rw [← State.read_shown, List.take_of_length_le (show s.counted.statusWrites.length ≤ _ from four)]
      have exactly : s.counted.statusWrites.take 4 = s.counted.statusWrites := List.take_of_length_le (by exact le_rfl)
      rw [exactly] at whole
      rw [whole, area, open_]
      rfl
  · have stops : s.goodAccesses (4 + s.dirtyIds.length) = s.goodAccesses 4 := fewer all
    have few := s.goodAccesses_le 4
    have faulted (k : Nat) (bad : s.goodAccesses k ≠ k) : s.accessed k = s.busFaulted := by
      unfold State.accessed
      rw [if_neg (by simp [runs]), if_neg bad]
    have nobody : s.mirroredBy (s.goodAccesses 4) = [] := by
      unfold State.mirroredBy
      rw [show s.goodAccesses 4 - 4 = 0 by omega, List.take_zero]
    have shown := s.read_shown (s.goodAccesses 4)
    rw [nobody] at shown
    rw [State.accessed_counted, faulted 4 all] at comes
    refine ⟨_, State.comesTo_iterate n (by rw [comes]; exact State.comesTo_none rfl), ?_, fun i => ?_, fun a => ?_⟩
    · rw [faulted _ (by omega)]
      rfl
    · rw [stops, nobody, decide_eq_false List.not_mem_nil, Bool.not_false, Bool.and_true]
      rfl
    · rw [stops]
      exact shown a

/-- What a part shows of itself does not depend on where its scan stands. -/
theorem State.showsItself_scanAt {s t : State} {p : Option ScanPhase} (h : (s.scanAt p).showsItself t) :
    s.showsItself t := by
  obtain ⟨rest, contexts, area⟩ := h
  refine ⟨rest.trans ?_, contexts, area⟩
  have ended := s.accessed_scanAt p none s.contexts t.contexts t.area (4 + s.dirtyIds.length)
  exact congrArg (fun u : State => { u with intake := { u.intake with scanCount := s.intake.scanCount + 1 } }) ended

/-- A scan that finds nothing to deliver and no POSTED card comes to its last step with two reads (R167). -/
theorem State.quiet_scan {s : State} (readable : s.readable 2) (empty : s.intake.completions = [])
    (noCard : s.cardAtCursor.state ≠ 1) :
    ∃ t, (s.scanAt (some .hostWords)).comesTo t ∧ (s.withHostWords.accessed 2).showsItself t := by
  obtain ⟨runs, -, two⟩ := readable
  have one : s.goodAccesses 1 = 1 := by
    rcases s.goodAccesses_one with bad | good
    · have stops : s.goodAccesses 2 = s.goodAccesses 1 := (s.goodAccesses_add 1 1 (by decide)).2 (by rw [bad]; decide)
      rw [two, bad] at stops
      cases stops
    · exact good
  have step1 : (s.scanAt (some .hostWords)).scanAccess = (s.withHostWords.accessed 1).scanAt (some (.board 32 false)) := by
    have noneWait : (s.scanAt (some .hostWords)).completionsInOrder = [] := by
      unfold State.completionsInOrder
      rw [show (s.scanAt (some .hostWords)).intake.completions = [] from empty]
      simp
    rw [State.hostWords_good rfl (by exact one), noneWait, State.accessed_good (by exact one),
      State.accessed_good (by exact one)]
    rfl
  have step2 : ((s.withHostWords.accessed 1).scanAt (some (.board 32 false))).scanAccess =
      (s.withHostWords.accessed 2).scanAt (some .copy) := by
    have again : ((s.withHostWords.accessed 1).scanAt (some (.board 32 false))).goodAccesses 1 = 1 := by
      have sum := (s.withHostWords.goodAccesses_add 1 1 (by decide)).1 one
      have total : s.withHostWords.goodAccesses (1 + 1) = 2 := two
      rw [total] at sum
      exact Nat.succ.inj sum
    have reads : ((s.withHostWords.accessed 1).scanAt (some (.board 32 false))).scanAccess =
        ((s.withHostWords.accessed 1).scanAt (some (.board 32 false))).readCard 31 false := rfl
    have card : ((s.withHostWords.accessed 1).scanAt (some (.board 32 false))).cardAtCursor = s.cardAtCursor := by
      rw [State.accessed_good (by exact one)]
      rfl
    rw [reads, State.readCard_good again, card]
    unfold State.takeCard
    rw [if_neg noCard, State.accessed_good again, State.accessed_good (by exact one),
      State.accessed_open (s := s.withHostWords) runs two]
    refine (State.scanTo_running (by exact runs) _).trans ?_
    have twice : (s.link.failAfter.map (· - 1)).map (· - 1) = s.link.failAfter.map (· - 2) := by
      rw [Option.map_map]
      rfl
    exact congrArg (fun f => ({ s.withHostWords with link := { s.link with failAfter := f } } : State).scanAt
      (some .copy)) twice
  obtain ⟨t, comes, shows⟩ := State.copy_shows (s := (s.withHostWords.accessed 2).scanAt (some .copy))
    (by rw [State.accessed_open (s := s.withHostWords) runs two]; exact runs) rfl
  refine ⟨t, State.comesTo_iterate 2 ?_, State.showsItself_scanAt shows⟩
  have both : State.scanAccess^[2] (s.scanAt (some .hostWords)) = (s.withHostWords.accessed 2).scanAt (some .copy) := by
    rw [Function.iterate_succ_apply, Function.iterate_one, step1, step2]
  rw [both]
  exact comes

/-- The bytes of the status block, one after another (section 10.2.1). -/
theorem State.status_getElem? (s : State) {k : Nat} (h : k < 192) :
    (bytes32 s.tick.toNat ++ bytes32 (s.intake.scanCount + 1).toNat ++ s.statusBody ++
      bytes32 (s.intake.scanCount + 1).toNat)[k]? = some (layoutByte s.statusRows k) := by
  rw [← State.statusBody_layout, List.getD_eq_getElem?_getD, List.getElem?_eq_getElem]
  · rfl
  · simp only [List.length_append, bytes32_length, s.statusBody_length]
    omega

/-- Settles O12. -/
theorem quietScanShowsThePart : Obligations.QuietScanShowsThePart := by
  refine ⟨fun s runs => ⟨fun copy => ⟨State.copy_shows runs copy, fun good => ?_⟩, fun w ws status => ?_,
    fun rest mirror => ⟨fun clean => ?_, ?_⟩⟩, fun s readable empty noCard => State.quiet_scan readable empty noCard⟩
  · refine ⟨bytes32 (s.intake.scanCount + 1).toNat, bytes32 s.tick.toNat, s.statusBody, bytes32_length _,
      bytes32_length _, s.statusBody_length, fun k h => ⟨?_, ?_, ?_⟩, fun k h => ?_, ?_⟩
    · rw [← s.status_getElem? (by omega), List.append_assoc, List.append_assoc,
        List.getElem?_append_right (by rw [bytes32_length]; omega), List.getElem?_append_left (by
          rw [bytes32_length, bytes32_length]; omega), bytes32_length, Nat.add_sub_cancel_left]
    · rw [← s.status_getElem? (by omega), List.getElem?_append_right (by
        simp only [List.length_append, bytes32_length, s.statusBody_length]; omega)]
      simp only [List.length_append, bytes32_length, s.statusBody_length, Nat.add_sub_cancel_left]
    · rw [← s.status_getElem? (by omega), List.append_assoc, List.append_assoc,
        List.getElem?_append_left (by rw [bytes32_length]; omega)]
    · rw [← s.status_getElem? (by omega), List.append_assoc,
        List.getElem?_append_right (by simp only [List.length_append, bytes32_length]; omega),
        List.getElem?_append_left (by simp only [List.length_append, bytes32_length, s.statusBody_length]; omega)]
      simp only [List.length_append, bytes32_length, Nat.add_sub_cancel_left]
    · have copies : s.scanAccess = s.copyStatus := by
        unfold State.scanAccess
        rw [copy]
      rw [copies, State.copyStatus_good good]
  · have part : s.scanAccess = s.writeStatusPart w ws := by
      unfold State.scanAccess
      rw [status]
    refine ⟨fun bad => ?_, fun good => ?_⟩
    · rw [part, State.writeStatusPart_bad runs bad]
    · rw [part, State.writeStatusPart_good good]
  · have part : s.scanAccess = s.mirrorPart rest := by
      unfold State.scanAccess
      rw [mirror]
    rw [part, State.mirrorPart_clean clean]
  · rintro before i later rfl clean dirty
    have part : s.scanAccess = s.mirrorPart (before ++ i :: later) := by
      unfold State.scanAccess
      rw [mirror]
    refine ⟨fun bad => ?_, fun good => ⟨_, part.trans (State.mirrorPart_good clean dirty good),
      fun j => s.setDirty_ctx i j false, fun a => ?_, rfl⟩⟩
    · rw [part, State.mirrorPart_bad runs clean dirty bad]
    · refine (Memory.read_writeBytes _ _ _ _).trans ?_
      rw [Context.mirrorBytes_length, Context.mirrorBytes_layout, State.mirrorOffset, ← Nat.add_assoc]

end Sys2Proof.Machine
end

section
/-! A bus error at any area access (R172): of a command, of a scan, and of a solve that ends. -/

namespace Sys2Proof.Machine

/-! ## The access that fails -/

/-- A command that is no bus error does what it performs. -/
theorem exec_own (c : Instr) (s : State) : exec c.within s = .next (perform c s) := by
  induction c with
  | areaBusError n during ih => exact ih
  | _ => rfl

theorem State.goodAccesses_down {s : State} (fails : s.link.up = false ∨ s.link.failAfter = some 0) (k : Nat) :
    s.goodAccesses k = 0 := by
  unfold State.goodAccesses
  split_ifs with off
  · rfl
  · rw [fails.resolve_left fun down => off (.inr down)]
    exact Nat.zero_min k

theorem State.goodAccesses_next {s : State} (runs : s.intake.halted = false) (up : s.link.up = true)
    (later : s.link.failAfter ≠ some 0) : s.goodAccesses 1 = 1 := by
  unfold State.goodAccesses
  rw [if_neg (by simp [runs, up])]
  cases fail : s.link.failAfter with
  | none => rfl
  | some n =>
    have positive : n ≠ 0 := by
      rintro rfl
      exact later fail
    exact Nat.min_eq_right (by omega)

theorem State.areaRead_halted {s : State} (h : s.intake.halted = true) (off n : Nat) : s.areaRead off n = (none, s) := by
  rw [State.areaRead_eq, State.goodAccesses_halted h, State.accessed_halted h, if_neg (by decide)]

/-! ## Reports that cannot be written (R160, R165) -/

/-- `t` is `s` after a bus error in the log, as far as the area, the tables and the notices go. -/
def State.logFailed (s t : State) : Prop :=
  t.intake.halted = true ∧ t.regs.noticeRaw.getLsbD 5 = true ∧ t.area = s.area

theorem BitVec.getLsbD_area (n : BitVec 7) : (n ||| 32).getLsbD 5 = true := by
  rw [BitVec.getLsbD_or]
  exact Bool.or_true _

theorem State.areaWrite_logFailed {s : State} (runs : s.intake.halted = false) (bad : s.goodAccesses 1 = 0)
    (off : Nat) (bs : List Byte) : s.logFailed (s.areaWrite off bs) := by
  rw [State.areaWrite_bad runs bad]
  exact ⟨rfl, BitVec.getLsbD_area _, rfl⟩

theorem State.logGeneral_failed {s : State} (runs : s.intake.halted = false) (bad : s.goodAccesses 1 = 0) (r : Report) :
    s.logFailed (s.logGeneral r) := by
  unfold State.logGeneral
  dsimp only
  rw [State.settled_eq, State.areaWrite_bad (by exact runs) (by exact bad)]
  exact ⟨rfl, BitVec.getLsbD_area _, rfl⟩

theorem State.writeReport_failed {s : State} (can : s.canLog = true) (bad : s.goodAccesses 1 = 0) (r : Report) :
    s.logFailed (s.writeReport .alert r) := by
  have runs := (State.canLog_iff.1 can).2.1
  rw [State.writeReport_alert can]
  unfold State.logAlert
  dsimp only
  split_ifs with room written halted
  · exact State.areaWrite_logFailed runs bad _ _
  · exact absurd (State.areaWrite_logFailed runs bad _ _).1 written
  · exact State.logGeneral_failed runs bad _
  · exact absurd (State.logGeneral_failed runs bad _).1 halted

theorem State.foldReports_failed (rs : List Report) {s t : State} (h : s.logFailed t) :
    s.logFailed (rs.foldl (fun u r => u.writeReport .alert r) t) := by
  induction rs generalizing t with
  | nil => exact h
  | cons r rs ih =>
    refine ih ?_
    have off : t.canLog = false := by
      rw [Bool.eq_false_iff]
      intro can
      exact absurd (State.canLog_iff.1 can).2.1 (by rw [h.1]; decide)
    beta_reduce
    rw [State.writeReport_unlogged off]
    exact h

theorem State.raiseTogether_failed {s : State} (can : s.canLog = true) (bad : s.goodAccesses 1 = 0) {rs : List Report}
    (some : rs ≠ []) : s.logFailed (s.raiseTogether rs) := by
  obtain ⟨n, perm, taken⟩ := s.unordered_eq rs
  unfold State.raiseTogether
  dsimp only
  rw [taken]
  cases order : (s.unordered rs).1 with
  | nil =>
    rw [order] at perm
    exact absurd perm.nil_eq.symm some
  | cons r rest => exact State.foldReports_failed rest (State.writeReport_failed (s := { s with freeIndex := n }) can bad r)

/-! ## Solves that end with the link down -/

/-- The part with another account of its link. -/
def State.linked (s : State) (l : Link) : State := { s with link := l }

theorem State.writeMember_linked (s : State) (l : Link) (m : MemberResult) :
    (s.linked l).writeMember m = (s.writeMember m).linked l := by
  unfold State.writeMember
  rw [show (s.linked l).stillMember m = s.stillMember m from rfl]
  split_ifs <;> rfl

theorem State.writeSolve_linked (s : State) (l : Link) (v : Solve) :
    (s.linked l).writeSolve v = (s.writeSolve v).linked l := by
  have members : ((s.linked l).solveResults v).foldl State.writeMember (s.linked l) =
      ((s.solveResults v).foldl State.writeMember s).linked l :=
    List.foldl_hom (fun s : State => s.linked l) fun s m => State.writeMember_linked s l m
  unfold State.writeSolve
  dsimp only
  rw [members]
  rfl

/-! ## A scan that fails -/

/-- A working part whose access number `n` from now on is to fail. -/
def State.failing (s : State) (n : Nat) : State := s.linked { s.link with failAfter := some n }

theorem State.failing_good {s : State} (works : s.areaWorks) (n k : Nat) : (s.failing n).goodAccesses k = min n k := by
  unfold State.goodAccesses
  exact if_neg (by simp [State.failing, State.linked, works.1, works.2.1])

theorem State.completionsInOrder_empty {s : State} (empty : s.intake.completions = []) : s.completionsInOrder = [] := by
  unfold State.completionsInOrder
  rw [empty]
  simp

/-- Settles O15. -/
theorem busErrorHaltsTheIntake : Obligations.BusErrorHaltsTheIntake := by
  refine ⟨fun n c s => ⟨perform c (s.setFailAfter (some n)), rfl, exec_own c _⟩, fun s off n bs => ⟨fun halted => ?_,
    fun runs fails => ?_, fun runs up later => ?_⟩, fun s works => ?_, fun s v works run ready some => ?_⟩
  · exact ⟨State.areaWrite_halted halted off bs, State.areaRead_halted halted off n⟩
  · have bad := State.goodAccesses_down fails 1
    exact ⟨State.areaWrite_bad runs bad off bs, State.areaRead_bad runs bad off n⟩
  · have good := State.goodAccesses_next runs up later
    intro t
    rw [State.areaWrite_good good, State.areaRead_good good, State.accessed_good good]
    exact ⟨rfl, rfl⟩
  · intro scan
    have runs := works.1
    have idle : s.busFaulted.intake.scan = none := rfl
    refine ⟨⟨idle, 1, ?_⟩, fun empty => ⟨?_, fun noCard n => ?_⟩⟩
    · have bad : (scan 0).goodAccesses 1 = 0 := State.failing_good works 0 1
      exact State.hostWords_bad (s := scan 0) rfl runs bad
    · have good : (scan 1).goodAccesses 1 = 1 := State.failing_good works 1 1
      have reads := State.hostWords_good (s := scan 1) rfl good
      rw [State.completionsInOrder_empty (s := scan 1) empty, State.accessed_good (s := (scan 1).withHostWords) good] at reads
      refine ⟨rfl, 2, ?_⟩
      rw [Function.iterate_succ_apply, Function.iterate_one, reads]
      refine (State.readCard_bad (by exact runs) ?_ 31 false).trans rfl
      exact State.goodAccesses_down (.inr rfl) 1
    · have two : (s.failing (n + 2)).goodAccesses 2 = 2 := by
        rw [State.failing_good works]
        omega
      obtain ⟨t, comes, shows⟩ := State.quiet_scan (s := s.failing (n + 2)) ⟨runs, works.2.1, two⟩ empty noCard
      rw [State.accessed_open (s := (s.failing (n + 2)).withHostWords) runs two] at shows
      exact ⟨t, comes, shows⟩
  · intro t
    have written : ({ s with link := { s.link with failAfter := .some 0 } } : State).writeSolve v =
        (s.writeSolve v).failing 0 := by
      have kept : (s.writeSolve v).link = s.link := by simp
      unfold State.failing
      rw [kept]
      exact State.writeSolve_linked s _ v
    have raised : t = ((s.writeSolve v).failing 0).raiseTogether (s.solveReports v) := by
      have reports : [v].flatMap ({ s with link := { s.link with failAfter := .some 0 } } : State).solveReports =
          s.solveReports v := List.flatMap_singleton _ _
      rw [← written, ← reports]
      rfl
    have kept := s.writeSolve_keeps v
    have failed := State.raiseTogether_failed (s := (s.writeSolve v).failing 0) (rs := s.solveReports v)
      (State.canLog_iff.2 ⟨by simpa [State.failing, State.linked] using run,
        by simpa [State.failing, State.linked] using works.1, by simpa [State.failing, State.linked] using ready⟩)
      (State.goodAccesses_down (.inr rfl) 1) some
    obtain ⟨halted, notice, area⟩ := failed
    rw [← raised] at halted notice area
    refine ⟨halted, notice, area.trans (by simp [State.failing, State.linked]), ?_, ?_, fun u mem => ?_⟩
    · rw [raised]
      simp [State.failing, State.linked]
    · rw [raised]
      simp [State.failing, State.linked]
    · rw [State.endSolves_solves] at mem
      simpa using (List.mem_filter.1 mem).2

end Sys2Proof.Machine
end

section
/-! After a card the scan goes on, and a restart that waited is taken (R166 to R168, R175). -/

namespace Sys2Proof.Machine

/-! ## What a scan may write (R166) -/

/-- A write of this length at this offset stays within the status block, the cards or the mirror (R166). -/
def shownRoom (off len : Nat) : Prop :=
  off + len ≤ 0xC0 ∨ (0x100 ≤ off ∧ off + len ≤ 0x900) ∨ (0x7000 ≤ off ∧ off + len ≤ 0xF000)

/-- `t` has the area of `s`, but for the regions that a scan writes, and all of it where the link is down. -/
def State.writesShown (s t : State) : Prop :=
  (t.areaBase = s.areaBase ∧ t.link.up = s.link.up) ∧ (∀ a, ¬s.inScanRegions a → t.area.read a = s.area.read a) ∧
    (s.link.up = false → t.area = s.area)

theorem State.areaBase_congr {s t : State} (lo : t.regs.areaLo = s.regs.areaLo) (hi : t.regs.areaHi = s.regs.areaHi) :
    t.areaBase = s.areaBase := by
  unfold State.areaBase
  rw [lo, hi]

theorem State.writesShown_of_area {s t : State} (lo : t.regs.areaLo = s.regs.areaLo)
    (hi : t.regs.areaHi = s.regs.areaHi) (up : t.link.up = s.link.up) (area : t.area = s.area) : s.writesShown t :=
  ⟨⟨State.areaBase_congr lo hi, up⟩, fun a _ => by rw [area], fun _ => area⟩

theorem State.writesShown_trans {s t u : State} (h : s.writesShown t) (k : t.writesShown u) : s.writesShown u := by
  obtain ⟨⟨base, up⟩, reads, down⟩ := h
  obtain ⟨⟨base', up'⟩, reads', down'⟩ := k
  refine ⟨⟨base'.trans base, up'.trans up⟩, fun a outside => ?_, fun off => ?_⟩
  · have same : ¬t.inScanRegions a := by
      unfold State.inScanRegions
      rw [base]
      exact outside
    rw [reads' a same, reads a outside]
  · rw [down' (up.trans off), down off]

theorem State.areaWrite_writesShown (s : State) {off : Nat} {bs : List Byte} (room : shownRoom off bs.length) :
    s.writesShown (s.areaWrite off bs) := by
  refine ⟨⟨State.areaBase_congr (by simp) (by simp), by simp⟩, fun a outside => ?_, fun off => ?_⟩
  · rw [State.areaWrite_eq]
    dsimp only
    split_ifs
    · refine Memory.read_writeBytes_outside _ _ _ _ ?_
      unfold shownRoom at room
      unfold State.inScanRegions at outside
      omega
    · rfl
  · rw [State.areaWrite_eq, State.goodAccesses_down (.inl off)]
    simp only [Nat.zero_ne_one, if_false]

theorem State.areaWrites_writesShown (ws : List AreaWrite) (s : State) (room : ∀ w ∈ ws, shownRoom w.1 w.2.length) :
    s.writesShown (s.areaWrites ws) := by
  induction ws generalizing s with
  | nil => exact State.writesShown_of_area rfl rfl rfl rfl
  | cons w ws ih =>
    rw [State.areaWrites_cons]
    exact State.writesShown_trans (s.areaWrite_writesShown (room w List.mem_cons_self))
      (ih _ fun v mem => room v (List.mem_cons_of_mem _ mem))

theorem State.completionWrites_room (c : Completion) : ∀ w ∈ State.completionWrites c, shownRoom w.1 w.2.length := by
  have card := c.index.isLt
  have data : (padTo 16 c.data).length = 16 := by simp [padTo, zeros]
  simp only [State.completionWrites, List.forall_mem_cons, data, State.cardOffset, shownRoom, bytes8_length,
    bytes16_length, bytes32_length, List.not_mem_nil, false_imp_iff, implies_true, and_true]
  omega

theorem State.refuseCard_writesShown (s : State) (c : Card) (code : ResultCode) : s.writesShown (s.refuseCard c code) := by
  have written (u : State) (d : Completion) : u.writesShown (u.completionWritten d) := by
    unfold State.completionWritten
    split_ifs
    · exact State.writesShown_of_area rfl rfl rfl rfl
    · exact State.writesShown_of_area rfl rfl rfl rfl
  exact State.writesShown_trans (s.areaWrites_writesShown _ (State.completionWrites_room _)) (written _ _)

theorem State.scanTo_writesShown (s : State) (p : ScanPhase) : s.writesShown (s.scanTo p) :=
  State.writesShown_of_area rfl rfl rfl rfl

/-! ## One access of a scan that is past its first two steps -/

/-- The writes of the status block that are still to be made stay in it. -/
def State.statusInside (s : State) : Prop :=
  ∀ ws, s.intake.scan = some (.status ws) → ∀ w ∈ ws, w.1 + w.2.length ≤ 0xC0

theorem State.statusInside_of {s : State} {p : Option ScanPhase} (stands : s.intake.scan = p)
    (other : ∀ ws, p ≠ some (.status ws)) : s.statusInside :=
  fun ws status => absurd (stands.symm.trans status) (other ws)

theorem State.scanTo_statusInside (s : State) {p : ScanPhase}
    (inside : ∀ ws, p = .status ws → ∀ w ∈ ws, w.1 + w.2.length ≤ 0xC0) : (s.scanTo p).statusInside := by
  intro ws status
  rw [State.scanTo_eq] at status
  split_ifs at status with halted
  · cases status
  · exact inside ws (Option.some.inj status)

theorem State.scanTo_apart (s : State) {p : ScanPhase} (other : ∀ ws, p ≠ .status ws) : (s.scanTo p).statusInside :=
  s.scanTo_statusInside fun ws status => absurd status (other ws)

theorem walkPhase_apart (left : Nat) (solved : Bool) (ws : List AreaWrite) :
    State.walkPhase left solved ≠ .status ws := by
  unfold State.walkPhase
  split_ifs <;> exact ScanPhase.noConfusion

theorem State.readCard_shown (s : State) (left : Nat) (solved : Bool) :
    s.writesShown (s.readCard left solved) ∧ (s.readCard left solved).statusInside := by
  have reads {u : State} {bs : Option (List Byte)} (e : s.areaRead (State.cardOffset s.intake.cursor) 64 = (bs, u)) :
      s.writesShown u := by
    have u_eq : (s.areaRead (State.cardOffset s.intake.cursor) 64).2 = u := by rw [e]
    rw [← u_eq]
    exact State.writesShown_of_area (by simp) (by simp) (by simp) (by simp)
  unfold State.readCard
  split
  · next u e => exact ⟨State.writesShown_trans (reads e) (State.writesShown_of_area rfl rfl rfl rfl),
      State.statusInside_of rfl nofun⟩
  · next bs u e =>
    refine (fun h => ⟨State.writesShown_trans (reads e) h.1, h.2⟩ : _ ∧ _ → _) ?_
    unfold State.takeCard
    dsimp only
    have refused (code : ResultCode) (c : Card) (v : State) (same : u.writesShown v) :
        u.writesShown ((v.refuseCard c code).scanTo (State.walkPhase left solved)) ∧
          ((v.refuseCard c code).scanTo (State.walkPhase left solved)).statusInside :=
      ⟨State.writesShown_trans same
          (State.writesShown_trans (v.refuseCard_writesShown c code) (State.scanTo_writesShown _ _)),
        State.scanTo_apart _ (walkPhase_apart left solved)⟩
    split_ifs
    · split
      · exact refused _ _ _ (State.writesShown_of_area rfl rfl rfl rfl)
      · exact ⟨State.writesShown_of_area rfl rfl rfl rfl, State.statusInside_of rfl nofun⟩
    · exact refused _ _ _ (State.writesShown_of_area rfl rfl rfl rfl)
    · exact ⟨State.scanTo_writesShown _ _, State.scanTo_apart _ nofun⟩

theorem State.writeStatusPart_shown (s : State) {w : AreaWrite} {ws : List AreaWrite}
    (inside : ∀ v ∈ w :: ws, v.1 + v.2.length ≤ 0xC0) :
    s.writesShown (s.writeStatusPart w ws) ∧ (s.writeStatusPart w ws).statusInside := by
  obtain ⟨first, rest⟩ := List.forall_mem_cons.1 inside
  refine ⟨State.writesShown_trans (s.areaWrite_writesShown (.inl first)) (State.scanTo_writesShown _ _),
    State.scanTo_statusInside _ fun vs status => ?_⟩
  split_ifs at status
  cases status
  exact rest

theorem State.statusWrites_inside (s : State) : ∀ w ∈ s.statusWrites, w.1 + w.2.length ≤ 0xC0 := by
  simp only [State.statusWrites, List.forall_mem_cons, bytes32_length, s.statusBody_length, List.not_mem_nil,
    false_imp_iff, implies_true, and_true]
  omega

theorem State.writeMirror_writesShown (s : State) (i : Fin 256) : s.writesShown (s.writeMirror i) := by
  have room : shownRoom (State.mirrorOffset i) (s.ctx i).mirrorBytes.length := by
    have := i.isLt
    rw [Context.mirrorBytes_length]
    unfold State.mirrorOffset shownRoom
    omega
  have write := State.writesShown_trans (State.writesShown_of_area (s := s) (t := s.setDirty i false) rfl rfl rfl rfl)
    ((s.setDirty i false).areaWrite_writesShown room)
  unfold State.writeMirror
  dsimp only
  split_ifs
  · exact State.writesShown_trans write (State.writesShown_of_area rfl rfl rfl rfl)
  · exact write
  · exact State.writesShown_of_area rfl rfl rfl rfl

/-- An access of a scan past its first two steps writes only what a scan shows (R166). -/
theorem State.scanAccess_shown {s : State} (past : s.pastDelivery) (inside : s.statusInside) :
    s.writesShown s.scanAccess ∧ s.scanAccess.statusInside := by
  have moves {p : ScanPhase} (other : ∀ ws, p ≠ .status ws) : s.writesShown (s.scanTo p) ∧ (s.scanTo p).statusInside :=
    ⟨s.scanTo_writesShown p, s.scanTo_apart other⟩
  unfold State.scanAccess
  split
  case h_1 => exact ⟨State.writesShown_of_area rfl rfl rfl rfl, inside⟩
  case h_2 stands => exact absurd rfl (past _ stands).1
  case h_3 stands => exact absurd rfl ((past _ stands).2 _ _)
  case h_4 => exact moves nofun
  case h_5 => exact moves nofun
  case h_6 => exact s.readCard_shown _ _
  case h_7 =>
    have counted : s.writesShown s.counted := State.writesShown_of_area rfl rfl rfl rfl
    obtain ⟨shown, inside⟩ := s.counted.writeStatusPart_shown s.counted.statusWrites_inside
    exact ⟨State.writesShown_trans counted shown, inside⟩
  case h_8 stands => exact s.writeStatusPart_shown (inside _ stands)
  case h_9 => exact moves nofun
  case h_10 rest _ =>
    unfold State.mirrorPart
    split
    · exact ⟨State.writesShown_of_area rfl rfl rfl rfl, State.statusInside_of rfl nofun⟩
    · exact ⟨State.writesShown_trans (s.writeMirror_writesShown _) (State.scanTo_writesShown _ _),
        State.scanTo_apart _ nofun⟩

/-! ## The scan after a card -/

/-- `t` is `s` with nothing changed but the intake unit's walk, the area, the notices and the contexts (R167). -/
def State.scanMoves (s t : State) : Prop :=
  t = { s with
    contexts := t.contexts, area := t.area
    intake := { s.intake with
      cursor := t.intake.cursor, halted := t.intake.halted, scanTimer := t.intake.scanTimer
      walk := t.intake.walk, scan := t.intake.scan, follow := t.intake.follow, scanCount := t.intake.scanCount }
    regs := { s.regs with noticeRaw := t.regs.noticeRaw }
    link := { s.link with failAfter := t.link.failAfter }, freeIndex := t.freeIndex }

theorem State.scanMoves_trans {s t u : State} (h : s.scanMoves t) (k : t.scanMoves u) : s.scanMoves u := by
  unfold State.scanMoves at h k ⊢
  rw [h] at k
  exact k

theorem State.scanAccess_scanMoves {s : State} (past : s.pastDelivery) : s.scanMoves s.scanAccess := by
  obtain ⟨logs, completions, -⟩ := State.scanAccess_past past
  have kept := s.scanAccess_keeps
  unfold State.scanMoves
  generalize s.scanAccess = t at logs completions kept
  obtain ⟨pending, solves, clock, groups, service, staleness, pages, ramp, chains, filters, free, lo, hi, run, mask, up,
    longCards⟩ := kept
  dsimp only
  rw [← pending, ← solves, ← clock, ← groups, ← service, ← staleness, ← pages, ← ramp, ← chains, ← filters, ← lo, ← hi,
    ← run, ← mask, ← up, ← longCards, ← logs, ← completions]

/-- What a scan does from where it stands, past its first two steps (R166, R167). -/
def State.scansOn (s t : State) : Prop := s.writesShown t ∧ s.scanMoves t

theorem State.advanceScan_scansOn (n : Nat) {s : State} (past : s.pastDelivery) (inside : s.statusInside) :
    s.scansOn (State.advanceScan n s) := by
  induction n generalizing s with
  | zero => exact ⟨State.writesShown_of_area rfl rfl rfl rfl, rfl⟩
  | succ n ih =>
    obtain ⟨shown, inside'⟩ := State.scanAccess_shown past inside
    obtain ⟨shown', moves'⟩ := ih (State.scanAccess_past past).2.2 inside'
    exact ⟨State.writesShown_trans shown shown', State.scanMoves_trans (State.scanAccess_scanMoves past) moves'⟩

theorem Walk.solves_eq (w : Walk) : w.solves = decide (w.request = .solve ∨ w.request = .loadCurve ∨
    w.request = .adopt ∨ w.request = .retire ∨ w.request = .setGroup) := by
  unfold Walk.solves
  cases w.request <;> rfl

theorem State.afterCard_stops {s : State} {w : Walk} (alone : w.restart = false)
    (ended : w.ending = true ∨ s.intake.halted = true ∨ s.regs.run = false) : s.afterCard w = s := by
  unfold State.afterCard
  rw [if_neg (by simp [alone]), if_pos]
  rcases ended with h | h | h <;> simp [h]

theorem State.afterCard_goesOn {s : State} {w : Walk} (alone : w.restart = false) (goes : w.ending = false)
    (runs : s.intake.halted = false) (on : s.regs.run = true) :
    s.afterCard w = (s.scanAt (some (State.walkPhase w.left (w.solved || w.solves)))).goOn := by
  unfold State.afterCard
  rw [if_neg (by simp [alone]), if_neg (by simp [goes, runs, on])]
  rfl

theorem State.afterCard_scansOn {s : State} {w : Walk} (alone : w.restart = false) :
    s.scansOn (s.afterCard w) ∧ s.cleansOnly (s.afterCard w) := by
  by_cases ended : w.ending = true ∨ s.intake.halted = true ∨ s.regs.run = false
  · rw [State.afterCard_stops alone ended]
    exact ⟨⟨State.writesShown_of_area rfl rfl rfl rfl, rfl⟩, State.cleansOnly_of_contexts rfl⟩
  · simp only [not_or, Bool.not_eq_true, Bool.not_eq_false] at ended
    obtain ⟨goes, runs, on⟩ := ended
    rw [State.afterCard_goesOn alone goes runs on]
    refine ⟨?_, State.goOn_cleansOnly _⟩
    have apart := walkPhase_apart w.left (w.solved || w.solves)
    have past : State.walkPhase w.left (w.solved || w.solves) ≠ .hostWords ∧
        ∀ cs ws, State.walkPhase w.left (w.solved || w.solves) ≠ .completions cs ws := by
      unfold State.walkPhase
      split_ifs <;> exact ⟨nofun, nofun⟩
    generalize State.walkPhase w.left (w.solved || w.solves) = p at apart past
    refine State.advanceScan_scansOn (s := { s.scanAt (some p) with freeIndex := s.freeIndex + 1 }) _ ?_ ?_
    · rintro q ⟨⟩
      exact past
    · exact State.statusInside_of rfl fun ws status => apart ws (Option.some.inj status)

/-! ## The restart that waited (R175) -/

theorem State.chainsRestarted_keeps (s : State) :
    s.chainsRestarted.intake = s.intake ∧ s.chainsRestarted.regs = s.regs := by
  rw [← State.chainRestarts_eq]
  constructor <;> simp

theorem State.afterCard_restart {s : State} {w : Walk} (waits : w.restart = true) :
    s.afterCard w = if w.rescan then s.chainsRestarted.intakeRestart.requestScan else s.chainsRestarted.intakeRestart := by
  unfold State.afterCard
  rw [if_pos waits, State.chainRestarts_eq]

theorem State.intakeRestart_run (s : State) : s.intakeRestart.regs.run = s.regs.run := by simp

/-- Settles O16. -/
theorem afterCardTheScanGoesOn : Obligations.AfterCardTheScanGoesOn := by
  intro s w
  refine ⟨fun alone => ⟨⟨_, rfl, ?_⟩, State.afterCard_stops alone, fun goes runs on => ?_⟩, fun waits => ?_⟩
  · obtain ⟨⟨⟨-, reads, down⟩, moves⟩, cleans⟩ := State.afterCard_scansOn (s := s) alone
    refine ⟨fun i => ?_, reads, fun off => ?_, moves⟩
    · obtain ⟨d, e, was⟩ := cleans i
      rw [e]
      exact ⟨rfl, was⟩
    · rcases off with halted | off
      · rw [State.afterCard_stops alone (.inr (.inl halted))]
      · exact down off
  · rw [State.afterCard_goesOn alone goes runs on, Walk.solves_eq]
    exact State.goOn_goesOn _
  · have account := State.afterCard_restart (s := s) waits
    obtain ⟨intake, regs⟩ := s.chainsRestarted_keeps
    generalize s.chainsRestarted = b at account intake regs
    have restarts := b.intakeRestart_eq
    have run := b.intakeRestart_run
    rw [intake, regs] at restarts
    rw [regs] at run
    refine ⟨b.intakeRestart, fun settled => ?_, fun on stopped => ?_, fun once => ?_, fun again => ?_⟩
    · rw [restarts, if_neg]
      rintro ⟨on, stopped⟩
      rcases settled with off | timer
      · exact Bool.false_ne_true (off.symm.trans on)
      · simp [stopped] at timer
    · rw [restarts, if_pos ⟨on, stopped⟩]
      exact exec_scan_same (s := b.intakeRestarted.startScanTimer) ((congrArg Registers.run regs).trans on)
    · rw [account, if_neg (by simp [once])]
    · rw [account, if_pos again]
      exact exec_scan_same run

end Sys2Proof.Machine
end

section
/-! The frame monitor, and what one frame event does to contexts, groups, chains and push queues (R80 to R88, R95,
R132). -/

namespace Sys2Proof.Machine

/-! ## A context that is stepped or read back -/

/-- `d` is `c` with its applied set and its verify state changed, which has made it dirty (R46). -/
def Context.shifted (c d : Context) : Prop :=
  d = { c with
    applied := d.applied, verify := d.verify
    dirty := c.dirty || !decide (d.applied = c.applied ∧ d.verify = c.verify) }

theorem Context.shifted_refl (c : Context) : c.shifted c := by
  unfold Context.shifted
  simp

theorem Context.shifted_trans {c d e : Context} (h : c.shifted d) (k : d.shifted e)
    (applied : e.applied = c.applied → d.applied = c.applied) (verify : e.verify = c.verify → d.verify = c.verify) :
    c.shifted e := by
  unfold Context.shifted at *
  have dirty : (c.dirty || !decide (d.applied = c.applied ∧ d.verify = c.verify) ||
      !decide (e.applied = d.applied ∧ e.verify = d.verify)) =
        (c.dirty || !decide (e.applied = c.applied ∧ e.verify = c.verify)) := by
    by_cases same : e.applied = c.applied ∧ e.verify = c.verify
    · obtain ⟨a, v⟩ := same
      simp [a, v, applied a, verify v]
    · by_cases first : d.applied = c.applied ∧ d.verify = c.verify
      · obtain ⟨a, v⟩ := first
        simp [a, v]
      · simp [same, first]
  rw [h] at k
  refine k.trans ?_
  dsimp only
  rw [dirty]

theorem Context.shifted_becoming {c d : Context} (h : c.shifted d) :
    d = c.becoming { c with applied := d.applied, verify := d.verify } := by
  refine Eq.trans h ?_
  have alike : c.shownAlike { c with applied := d.applied, verify := d.verify } ↔
      d.applied = c.applied ∧ d.verify = c.verify := by
    unfold Context.shownAlike
    simp [eq_comm]
  unfold Context.becoming
  simp only [alike]

theorem Context.touched_shifted (c : Context) {a : Option TermSet} {v : Verify} :
    c.shifted (c.touched { c with applied := a, verify := v }) := by
  have becomes := Context.becoming_eq c { c with applied := a, verify := v }
  have alike : c.shownAlike { c with applied := a, verify := v } ↔ a = c.applied ∧ v = c.verify := by
    unfold Context.shownAlike
    simp [eq_comm]
  rw [← becomes]
  unfold Context.shifted Context.becoming
  simp only [alike]

/-! ## The arbiters and the counts (R114, R132) -/

/-- A context's verify state has been left, or the arbiter of its chain, which was IDLE, reads it back (R137). -/
def State.readsBack (s t : State) (i : Fin 256) : Prop :=
  (t.ctx i).verify = (s.ctx i).verify ∨
    (s.chain (s.ctx i).chain).state = .idle ∧ (s.ctx i).verify = .due ∧ (t.ctx i).verify = .reading

/-- A chain's arbiter has taken nothing off its push queue, or, the chain being IDLE before and no longer, its first
entry at most. -/
def State.sends (s t : State) (ch : Fin 4) : Prop :=
  ∃ sent ≤ 1, sent ≤ (s.chain ch).pushQueue.length ∧ (t.chain ch).pushQueue = (s.chain ch).pushQueue.drop sent ∧
    (sent = 0 ∨ (s.chain ch).state = .idle ∧ (t.chain ch).state ≠ .idle)

/-- `t` is `s` after counts of a frame event and choices of arbiters, as far as contexts and chains go. -/
def State.chooses (s t : State) : Prop :=
  (∀ i, (s.ctx i).shifted (t.ctx i) ∧ (t.ctx i).applied = (s.ctx i).applied ∧ s.readsBack t i) ∧
  ∀ ch, ((s.chain ch).state ≠ .idle →
    t.chain ch = { s.chain ch with framesSinceLatch := (t.chain ch).framesSinceLatch }) ∧ s.sends t ch

theorem State.chooses_refl (s : State) : s.chooses s :=
  ⟨fun i => ⟨(s.ctx i).shifted_refl, rfl, .inl rfl⟩, fun _ =>
    ⟨fun _ => rfl, 0, Nat.zero_le 1, Nat.zero_le _, rfl, .inl rfl⟩⟩

theorem State.chooses_of_tables {s t : State} (contexts : t.contexts = s.contexts) (chains : t.chains = s.chains) :
    s.chooses t := by
  obtain ⟨own, rest⟩ := s.chooses_refl
  refine ⟨fun i => ?_, fun ch => ?_⟩
  · unfold State.readsBack
    rw [State.ctx_congr contexts i]
    exact own i
  · unfold State.sends
    rw [State.chain_congr chains ch]
    exact rest ch

theorem Context.shifted_own {c d : Context} (h : c.shifted d) : d.group = c.group ∧ d.chain = c.chain := by
  rw [h]
  exact ⟨rfl, rfl⟩

theorem State.chooses_idle {s t : State} (h : s.chooses t) {ch : Fin 4} (idle : (t.chain ch).state = .idle) :
    (s.chain ch).state = .idle := by
  by_contra busy
  rw [(h.2 ch).1 busy] at idle
  exact busy idle

theorem State.readsBack_unread {s t : State} {i : Fin 256} (h : s.readsBack t i) {v : Verify}
    (later : v = (t.ctx i).verify ∨ (t.ctx i).verify = .due ∧ v = .reading) (back : v = (s.ctx i).verify) :
    (t.ctx i).verify = (s.ctx i).verify := by
  rcases h with same | ⟨-, due, reading⟩
  · exact same
  · rw [reading] at later
    rcases later with rfl | ⟨impossible, -⟩
    · exact reading.trans back
    · cases impossible

theorem State.chooses_trans {s t u : State} (h : s.chooses t) (k : t.chooses u) : s.chooses u := by
  refine ⟨fun i => ?_, fun ch => ?_⟩
  · obtain ⟨shift, applied, reads⟩ := h.1 i
    obtain ⟨shift', applied', reads'⟩ := k.1 i
    refine ⟨Context.shifted_trans shift shift' (fun _ => applied)
      (State.readsBack_unread reads (reads'.imp id fun read => read.2)), applied'.trans applied, ?_⟩
    rcases reads' with same | ⟨idle, due, reading⟩
    · exact reads.imp (same.trans ·) fun ⟨idle, due, reading⟩ => ⟨idle, due, same.trans reading⟩
    · rcases reads with kept | ⟨-, -, reading'⟩
      · rw [(Context.shifted_own shift).2] at idle
        exact .inr ⟨State.chooses_idle h idle, kept ▸ due, reading⟩
      · rw [reading'] at due
        cases due
  · obtain ⟨busy, n, few, room, queue, why⟩ := h.2 ch
    obtain ⟨busy', m, few', room', queue', why'⟩ := k.2 ch
    refine ⟨fun works => ?_, ?_⟩
    · have first := busy works
      have second := busy' (by rw [first]; exact works)
      rw [first] at second
      exact second
    · rcases why with rfl | ⟨idle, begun⟩
      · rw [List.drop_zero] at queue
        rw [queue] at room' queue'
        exact ⟨m, few', room', queue', why'.imp id fun ⟨idle, begun⟩ => ⟨State.chooses_idle h idle, begun⟩⟩
      · have none : m = 0 := why'.resolve_right fun ⟨idle', _⟩ => begun idle'
        subst none
        rw [List.drop_zero] at queue'
        exact ⟨n, few, room, queue'.trans queue, .inr ⟨idle, fun idle' => begun (State.chooses_idle k idle')⟩⟩

theorem State.chooses_foldl {α : Type} {f : State → α → State} (h : ∀ (s : State) a, s.chooses (f s a)) (l : List α)
    (s : State) : s.chooses (l.foldl f s) := by
  induction l generalizing s with
  | nil => exact s.chooses_refl
  | cons a l ih => exact State.chooses_trans (h s a) (ih (f s a))

theorem State.nextReadback_ready {s : State} {ch : Fin 4} {i : Fin 256} (h : s.nextReadback ch = some i) :
    (s.chain ch).readbackReady ch i (s.ctx i) = true := by
  have ready {x : Fin 256 × Context}
      (mem : x ∈ s.contexts.enum.filter fun x => (s.chain ch).readbackReady ch x.1 x.2) :
      (s.chain ch).readbackReady ch x.1 (s.ctx x.1) = true := by
    obtain ⟨own, ready⟩ := List.mem_filter.1 mem
    rw [show s.ctx x.1 = x.2 from (Table.mem_enum _ _).1 own]
    exact ready
  unfold State.nextReadback at h
  dsimp only at h
  split at h
  · next x first =>
    cases h
    exact ready (List.mem_filter.1 (lowestAddress_mem first)).1
  · obtain ⟨x, first, rfl⟩ := Option.map_eq_some_iff.1 h
    exact ready (lowestAddress_mem first)

theorem State.nextReadback_due {s : State} {ch : Fin 4} {i : Fin 256} (h : s.nextReadback ch = some i) :
    (s.ctx i).verify = .due := by
  have ready := State.nextReadback_ready h
  unfold Chain.readbackReady at ready
  simp only [Bool.and_eq_true, decide_eq_true_eq] at ready
  tauto

theorem List.tail_eq_drop_min {α : Type} (l : List α) : l.tail = l.drop (min 1 l.length) := by
  cases l with
  | nil => rfl
  | cons a l => simp

/-- A choice leaves the push queue, or takes its first entry (R115, R127). -/
theorem State.start_pushQueue (s : State) (ch : Fin 4) (c : Choice) :
    ((s.start ch c).chain ch).pushQueue = (s.chain ch).pushQueue ∨
      ((s.start ch c).chain ch).pushQueue = (s.chain ch).pushQueue.tail := by
  cases c with
  | push i => exact .inr (by simp [State.start, State.startTransaction])
  | _ => exact .inl (by simp [State.start, State.startTransaction])

theorem State.arbitrate_chooses_for (s : State) (ch : Fin 4) : s.chooses (s.arbitrate ch) := by
  rcases s.arbitrate_eq ch with same | ⟨idle, c, chosen, started⟩
  · rw [same]
    exact s.chooses_refl
  · rw [started]
    refine ⟨fun i => ?_, fun j => ?_⟩
    · unfold State.readsBack
      rw [State.start_ctx]
      split_ifs with read
      · subst read
        have next := State.choice_readback chosen
        refine ⟨Context.touched_shifted (s.ctx i), ?_, .inr ⟨?_, State.nextReadback_due next, ?_⟩⟩
        · rw [Context.touched_eq]
        · rw [s.nextReadback_on next]
          exact idle
        · rw [Context.touched_eq]
      · exact ⟨(s.ctx i).shifted_refl, rfl, .inl rfl⟩
    · unfold State.sends
      by_cases own : ch = j
      · subst own
        refine ⟨fun busy => absurd idle busy, ?_⟩
        rcases s.start_pushQueue ch c with kept | taken
        · exact ⟨0, Nat.zero_le 1, Nat.zero_le _, kept, .inl rfl⟩
        · exact ⟨min 1 (s.chain ch).pushQueue.length, Nat.min_le_left _ _, Nat.min_le_right _ _,
            taken.trans (List.tail_eq_drop_min _), .inr ⟨idle, s.start_not_idle ch c⟩⟩
      · rw [State.start_chain_other s own]
        exact ⟨fun _ => rfl, 0, Nat.zero_le 1, Nat.zero_le _, rfl, .inl rfl⟩

theorem State.countFrame_chooses (s : State) (ch : Fin 4) : s.chooses (s.countFrame ch) := by
  refine ⟨fun i => ⟨(s.ctx i).shifted_refl, rfl, .inl rfl⟩, fun j => ?_⟩
  unfold State.sends State.countFrame
  rw [State.modChain_chain_at]
  split_ifs <;> exact ⟨fun _ => rfl, 0, Nat.zero_le 1, Nat.zero_le _, rfl, .inl rfl⟩

theorem State.takeCounts_chooses (s : State) (chs : List (Fin 4)) : s.chooses (s.takeCounts chs) :=
  State.chooses_foldl (fun s ch => State.chooses_trans (s.countFrame_chooses ch) (State.arbitrate_chooses_for _ ch)) chs s

/-! ## The frame counts (R132) -/

theorem State.arbitrate_frames (s : State) (ch j : Fin 4) :
    ((s.arbitrate ch).chain j).framesSinceLatch = (s.chain j).framesSinceLatch := by
  rcases s.arbitrate_eq ch with same | ⟨-, c, -, started⟩
  · rw [same]
  · rw [started]
    by_cases own : ch = j
    · subst own
      cases c <;> simp [State.start, State.startTransaction]
    · rw [State.start_chain_other s own]

theorem State.arbitrateAll_frames (s : State) (j : Fin 4) :
    (s.arbitrateAll.chain j).framesSinceLatch = (s.chain j).framesSinceLatch := by
  have all (l : List (Fin 4)) (s : State) :
      ((l.foldl State.arbitrate s).chain j).framesSinceLatch = (s.chain j).framesSinceLatch := by
    induction l generalizing s with
    | nil => rfl
    | cons ch l ih => rw [List.foldl_cons, ih, State.arbitrate_frames]
  exact all _ s

/-- Each chain of a list counts the frame event once (R132). -/
theorem State.takeCounts_frames {chs : List (Fin 4)} (once : chs.Nodup) (s : State) (j : Fin 4) :
    ((s.takeCounts chs).chain j).framesSinceLatch =
      if j ∈ chs then countUp 255 (s.chain j).framesSinceLatch else (s.chain j).framesSinceLatch := by
  induction chs generalizing s with
  | nil => rfl
  | cons ch chs ih =>
    obtain ⟨first, once⟩ := List.nodup_cons.1 once
    refine (ih once ((s.countFrame ch).arbitrate ch)).trans ?_
    rw [State.arbitrate_frames, State.countFrame, State.modChain_chain_at]
    by_cases own : j = ch
    · subst own
      simp [first]
    · simp [own]

/-! ## The beats (R86 to R88) -/

/-- A beat of the group changes the applied set of the context. -/
def State.movedBy (s : State) (g : Fin 8) (i : Fin 256) : Bool :=
  (s.ctx i).beatsIn g && !decide ((s.ctx i).beaten s.ramp.mode (s.group g).slew = (s.ctx i).applied)

/-- The part with another table of contexts. -/
def State.withContexts (s : State) (c : Table Context 256) : State := { s with contexts := c }

theorem State.beatActs_eq (s : State) (g : Fin 8) : s.beatActs g =
    ((List.finRange 256).filter (s.movedBy g)).foldl State.enqueuePush
      (s.withContexts (s.contexts.map fun c =>
        if c.beatsIn g then c.touched { c with applied := c.beaten s.ramp.mode (s.group g).slew } else c)) := by
  unfold State.beatActs
  dsimp only
  rw [Table.enum_eq_ofFn, List.ofFn_eq_map, List.filter_map, List.foldl_map]
  rfl

theorem State.enqueuePush_chain (s : State) (i : Fin 256) (j : Fin 4) : (s.enqueuePush i).chain j =
    { s.chain j with
      pushQueue := if (s.ctx i).chain = j ∧ i ∉ (s.chain j).pushQueue then (s.chain j).pushQueue ++ [i]
        else (s.chain j).pushQueue } := by
  unfold State.enqueuePush
  rw [State.modChain_chain]
  split_ifs <;> simp_all

/-- Pushes of contexts, each once, join the queue of their chain in their order, but for those that wait there
already. -/
theorem State.foldPush_chain {l : List (Fin 256)} (once : l.Nodup) (s : State) (ch : Fin 4) :
    (l.foldl State.enqueuePush s).chain ch = { s.chain ch with
      pushQueue := (s.chain ch).pushQueue ++
        l.filter fun i => decide ((s.ctx i).chain = ch ∧ i ∉ (s.chain ch).pushQueue) } := by
  induction l generalizing s with
  | nil => simp
  | cons i l ih =>
    obtain ⟨first, once⟩ := List.nodup_cons.1 once
    have rest : (l.filter fun j => decide (((s.enqueuePush i).ctx j).chain = ch ∧
        j ∉ ((s.enqueuePush i).chain ch).pushQueue)) =
          l.filter fun j => decide ((s.ctx j).chain = ch ∧ j ∉ (s.chain ch).pushQueue) := by
      refine List.filter_congr fun j mem => ?_
      have other : j ≠ i := fun same => first (same ▸ mem)
      rw [State.enqueuePush_ctx, State.enqueuePush_queue]
      split_ifs <;> simp [other]
    rw [List.foldl_cons, ih once, rest, State.enqueuePush_chain]
    by_cases joins : (s.ctx i).chain = ch ∧ i ∉ (s.chain ch).pushQueue
    · rw [if_pos joins, List.filter_cons_of_pos (by simpa using joins), List.append_assoc]
      rfl
    · rw [if_neg joins, List.filter_cons_of_neg (by simpa using joins)]

/-- `joined` are the contexts that join the push queue of chain `ch` at the beats of these groups: those of one group in
ascending order, and all whose applied set a beat changes, but for those that wait there already (R88). -/
def State.joins (s : State) (gs : List (Fin 8)) (ch : Fin 4) (joined : List (Fin 256)) : Prop :=
  (∀ g, (joined.filter fun i => decide ((s.ctx i).group = g)).Pairwise (· < ·)) ∧
  (∀ i ∈ joined, (s.ctx i).group ∈ gs) ∧
  ∀ i, i ∈ (s.chain ch).pushQueue ++ joined ↔
    i ∈ (s.chain ch).pushQueue ∨ (s.ctx i).chain = ch ∧ ∃ g ∈ gs, s.movedBy g i = true

theorem State.movedBy_group {s : State} {g : Fin 8} {i : Fin 256} (h : s.movedBy g i = true) : (s.ctx i).group = g := by
  simp only [State.movedBy, Context.beatsIn, Bool.and_eq_true, decide_eq_true_eq] at h
  exact h.1.1

theorem State.beatActs_joins (s : State) (g : Fin 8) (ch : Fin 4) : ∃ joined,
    (s.beatActs g).chain ch = { s.chain ch with pushQueue := (s.chain ch).pushQueue ++ joined } ∧
      s.joins [g] ch joined := by
  have once : ((List.finRange 256).filter (s.movedBy g)).Nodup := (List.nodup_finRange 256).filter _
  have ascending : ((List.finRange 256).filter (s.movedBy g)).Pairwise (· < ·) :=
    (List.pairwise_lt_finRange 256).filter _
  have moves (i : Fin 256) : i ∈ (List.finRange 256).filter (s.movedBy g) ↔ s.movedBy g i = true := by
    simp
  have chains (i : Fin 256) : ((s.withContexts (s.contexts.map fun c =>
      if c.beatsIn g then c.touched { c with applied := c.beaten s.ramp.mode (s.group g).slew } else c)).ctx i).chain =
        (s.ctx i).chain := by
    refine (congrArg Context.chain (Table.get_map _ _ _)).trans ?_
    rw [show s.contexts.get i = s.ctx i from rfl]
    split_ifs
    · rw [Context.touched_eq]
    · rfl
  have queues := State.foldPush_chain once (s.withContexts (s.contexts.map fun c =>
    if c.beatsIn g then c.touched { c with applied := c.beaten s.ramp.mode (s.group g).slew } else c)) ch
  rw [← State.beatActs_eq] at queues
  simp only [chains] at queues
  refine ⟨_, queues, fun h => (ascending.filter _).filter _, fun i mem => ?_, fun i => ?_⟩
  · obtain ⟨moved, -⟩ := List.mem_filter.1 mem
    rw [State.movedBy_group ((moves i).1 moved)]
    exact List.mem_singleton_self g
  · rw [List.mem_append, List.mem_filter, moves, decide_eq_true_eq]
    have queue : (s.withContexts (s.contexts.map fun c => if c.beatsIn g then
        c.touched { c with applied := c.beaten s.ramp.mode (s.group g).slew } else c)).chain ch = s.chain ch := rfl
    rw [queue]
    simp only [List.mem_singleton, exists_eq_left]
    tauto

/-- The beats of several groups, each once, are the beats of the first and of the others. -/
theorem State.foldBeats_joins {gs : List (Fin 8)} (once : gs.Nodup) (s : State) (ch : Fin 4) : ∃ joined,
    (gs.foldl State.beatActs s).chain ch = { s.chain ch with pushQueue := (s.chain ch).pushQueue ++ joined } ∧
      s.joins gs ch joined := by
  induction gs generalizing s with
  | nil => exact ⟨[], by simp, fun g => List.Pairwise.nil, nofun, fun i => by simp⟩
  | cons g gs ih =>
    obtain ⟨first, once⟩ := List.nodup_cons.1 once
    obtain ⟨joined, queue, order, own, members⟩ := s.beatActs_joins g ch
    obtain ⟨later, queue', order', own', members'⟩ := ih once (s.beatActs g)
    have groups (i : Fin 256) : ((s.beatActs g).ctx i).group = (s.ctx i).group := (s.beatActs_ctx_keeps g i).2
    have moves {h : Fin 8} (mem : h ∈ gs) (i : Fin 256) : (s.beatActs g).movedBy h i = s.movedBy h i := by
      unfold State.movedBy
      by_cases other : (s.ctx i).group = g
      · have off : (s.ctx i).group ≠ h := fun same => first (other.symm.trans same ▸ mem)
        have off' : ((s.beatActs g).ctx i).group ≠ h := by rwa [groups]
        simp [Context.beatsIn, off, off']
      · rw [s.beatActs_ctx_other other, State.beatActs_ramp, State.beatActs_group]
    have chains (i : Fin 256) : ((s.beatActs g).ctx i).chain = (s.ctx i).chain := by
      rw [State.beatActs_ctx]
      split_ifs
      · rw [Context.touched_eq]
      · rfl
    rw [queue] at queue' members'
    simp only [groups] at order' own'
    refine ⟨joined ++ later, ?_, fun h => ?_, fun i mem => ?_, fun i => ?_⟩
    · rw [List.foldl_cons, queue', List.append_assoc]
    · rw [List.filter_append]
      by_cases here : h = g
      · have none : later.filter (fun i => decide ((s.ctx i).group = h)) = [] :=
          List.filter_eq_nil_iff.2 fun i mem same => first (here ▸ of_decide_eq_true same ▸ own' i mem)
        rw [none, List.append_nil]
        exact order h
      · have none : joined.filter (fun i => decide ((s.ctx i).group = h)) = [] :=
          List.filter_eq_nil_iff.2 fun i mem same =>
            here ((of_decide_eq_true same).symm.trans (List.mem_singleton.1 (own i mem)))
        rw [none, List.nil_append]
        exact order' h
    · rcases List.mem_append.1 mem with mem | mem
      · exact List.mem_cons.2 (.inl (List.mem_singleton.1 (own i mem)))
      · exact List.mem_cons_of_mem _ (own' i mem)
    · rw [← List.append_assoc]
      refine (members' i).trans ?_
      rw [chains]
      have later : (∃ h ∈ gs, (s.beatActs g).movedBy h i = true) ↔ ∃ h ∈ gs, s.movedBy h i = true :=
        exists_congr fun h => and_congr_right fun mem => by rw [moves mem]
      rw [later, show (i ∈ (s.chain ch).pushQueue ++ joined) ↔ _ from members i]
      simp only [List.mem_cons, List.not_mem_nil, or_false, exists_eq_left, exists_eq_or_imp]
      tauto

/-- A beat changes the applied set of a context, and that of no other, when it moves it. -/
theorem State.foldBeats_ctx {gs : List (Fin 8)} (once : gs.Nodup) (s : State) (i : Fin 256) :
    (s.ctx i).shifted ((gs.foldl State.beatActs s).ctx i) ∧
      ((gs.foldl State.beatActs s).ctx i).verify = (s.ctx i).verify ∧
      (((gs.foldl State.beatActs s).ctx i).applied ≠ (s.ctx i).applied ↔ ∃ g ∈ gs, s.movedBy g i = true) := by
  induction gs generalizing s with
  | nil => exact ⟨(s.ctx i).shifted_refl, rfl, by simp⟩
  | cons g gs ih =>
    obtain ⟨first, once⟩ := List.nodup_cons.1 once
    rw [List.foldl_cons]
    by_cases own : (s.ctx i).group = g
    · have rest : (gs.foldl State.beatActs (s.beatActs g)).ctx i = (s.beatActs g).ctx i :=
        State.foldBeats_ctx_other gs _ i (by rwa [(s.beatActs_ctx_keeps g i).2, own])
      have alone : (∃ h ∈ g :: gs, s.movedBy h i = true) ↔ s.movedBy g i = true := by
        refine ⟨fun ⟨h, _, moved⟩ => ?_, fun moved => ⟨g, List.mem_cons_self, moved⟩⟩
        rwa [← own.symm.trans (State.movedBy_group moved)] at moved
      rw [rest, State.beatActs_ctx, alone, State.movedBy]
      split_ifs with acts
      · refine ⟨Context.touched_shifted (s.ctx i), ?_, ?_⟩
        · rw [Context.touched_eq]
        · rw [Context.touched_eq]
          simp [acts]
      · exact ⟨(s.ctx i).shifted_refl, rfl, by simp [acts]⟩
    · have same := s.beatActs_ctx_other own
      obtain ⟨shift, verify, moves⟩ := ih once (s.beatActs g)
      have others : (∃ h ∈ g :: gs, s.movedBy h i = true) ↔ ∃ h ∈ gs, (s.beatActs g).movedBy h i = true := by
        have alike (h : Fin 8) : (s.beatActs g).movedBy h i = s.movedBy h i := by
          unfold State.movedBy
          rw [same, State.beatActs_ramp, State.beatActs_group]
        simp only [alike, List.mem_cons, exists_eq_or_imp]
        exact ⟨fun moved => moved.resolve_left fun here => own (State.movedBy_group here), .inr⟩
      rw [same] at shift verify moves
      exact ⟨shift, verify, moves.trans others.symm⟩

/-! ## A frame event (R85) -/

/-- `t` is `s` with the frame event counted by the groups (R86). -/
def State.groupsCounted (s t : State) : Prop :=
  t.contexts = s.contexts ∧ t.chains = s.chains ∧ t.groups = s.countBeats.groups

/-- A frame event is counted by the groups, and, chain by chain, by each chain before or after the beats (R85, R86,
R132). -/
theorem State.frameEvent_stages (s : State) : ∃ (u : State) (gs : List (Fin 8)) (early late : List (Fin 4)),
    s.groupsCounted u ∧ gs.Nodup ∧ (early ++ late).Perm (List.finRange 4) ∧
      s.frameEvent = ((u.takeCounts early).takeBeats gs).takeCounts late := by
  obtain ⟨n, perm, e⟩ := s.unordered_eq s.acting
  have once := perm.nodup_iff.2 s.acting_nodup
  have counted : s.groupsCounted (s.unordered s.acting).2.countBeats := by
    rw [e]
    exact ⟨rfl, rfl, rfl⟩
  unfold State.frameEvent
  dsimp only
  generalize (s.unordered s.acting).1 = gs at once ⊢
  generalize (s.unordered s.acting).2.countBeats = u at counted ⊢
  split_ifs
  · exact ⟨{ u with freeIndex := u.freeIndex + 1 }, gs, _, _, counted, once,
      List.filter_append_perm (fun ch : Fin 4 => (Config.freeOrder u.freeIndex).testBit ch.val) _, rfl⟩
  · exact ⟨u, gs, [], List.finRange 4, counted, once, List.Perm.refl _, rfl⟩

theorem State.foldBeats_groups (gs : List (Fin 8)) (s : State) : (gs.foldl State.beatActs s).groups = s.groups := by
  induction gs generalizing s with
  | nil => rfl
  | cons g gs ih => exact (ih _).trans (State.foldPushes_keeps _ _).2.1

theorem State.takeCounts_groups (chs : List (Fin 4)) (s : State) : (s.takeCounts chs).groups = s.groups := by
  induction chs generalizing s with
  | nil => rfl
  | cons ch chs ih => exact (ih _).trans (by simp [State.countFrame])

/-- What one frame event does, the beats standing between the counts and choices before and after them. -/
theorem State.frameEvent_between (s : State) : ∃ (u v : State) (gs : List (Fin 8)),
    s.chooses u ∧ gs.Nodup ∧ v = gs.foldl State.beatActs u ∧ v.chooses s.frameEvent ∧
      (∀ ch, (s.frameEvent.chain ch).framesSinceLatch = countUp 255 (s.chain ch).framesSinceLatch) ∧
      s.frameEvent.groups = s.countBeats.groups := by
  obtain ⟨u, gs, early, late, ⟨contexts, chains, groups⟩, once, perm, e⟩ := s.frameEvent_stages
  have nodup := perm.nodup_iff.2 (List.nodup_finRange 4)
  obtain ⟨onceEarly, onceLate, apart⟩ := List.nodup_append.1 nodup
  refine ⟨u.takeCounts early, _, gs, State.chooses_trans (State.chooses_of_tables contexts chains)
    (u.takeCounts_chooses early), once, rfl, ?_, fun ch => ?_, ?_⟩
  · rw [e]
    exact State.chooses_trans (State.chooses_foldl State.arbitrate_chooses_for _ _) (State.takeCounts_chooses _ _)
  · have counted := State.takeCounts_frames onceEarly u ch
    have beaten (v : State) : ((v.takeBeats gs).chain ch).framesSinceLatch = (v.chain ch).framesSinceLatch := by
      obtain ⟨joined, queue, -⟩ := State.foldBeats_joins once v ch
      refine (State.arbitrateAll_frames _ ch).trans ?_
      rw [queue]
    have one : ch ∈ early ∨ ch ∈ late := List.mem_append.1 (perm.mem_iff.2 (List.mem_finRange ch))
    rw [e, State.takeCounts_frames onceLate, beaten, counted, State.chain_congr chains]
    by_cases first : ch ∈ early
    · have notLater : ch ∉ late := fun later => apart ch first ch later rfl
      rw [if_neg notLater, if_pos first]
    · rw [if_pos (one.resolve_left first), if_neg first]
  · have all (v : State) : v.arbitrateAll.groups = v.groups := by simp
    rw [e, State.takeCounts_groups, State.takeBeats, all, State.foldBeats_groups, State.takeCounts_groups, groups]

/-- What the frame event leaves of a push queue, and what joins it (R88, R114). -/
theorem State.pushQueue_between {s u v t : State} {gs : List (Fin 8)} (before : s.chooses u) (once : gs.Nodup)
    (beats : v = gs.foldl State.beatActs u) (after : v.chooses t) (ch : Fin 4) :
    ∃ (joined : List (Fin 256)) (sent : Nat),
      (t.chain ch).pushQueue = ((s.chain ch).pushQueue ++ joined).drop sent ∧
      (∀ g, (joined.filter fun i => decide ((s.ctx i).group = g)).Pairwise (· < ·)) ∧
      (∀ i, i ∈ (s.chain ch).pushQueue ++ joined ↔
        i ∈ (s.chain ch).pushQueue ∨ (s.ctx i).chain = ch ∧ (t.ctx i).applied ≠ (s.ctx i).applied) ∧
      sent ≤ 1 ∧ ((s.chain ch).state ≠ .idle → sent = 0) := by
  obtain ⟨joined, queue, order, -, members⟩ := State.foldBeats_joins once u ch
  rw [← beats] at queue
  obtain ⟨-, n, few, room, sends, why⟩ := before.2 ch
  obtain ⟨-, m, few', room', sends', why'⟩ := after.2 ch
  have state : (v.chain ch).state = (u.chain ch).state := by rw [queue]
  have own (i : Fin 256) := Context.shifted_own (before.1 i).1
  have changed (i : Fin 256) : (t.ctx i).applied ≠ (s.ctx i).applied ↔ ∃ g ∈ gs, u.movedBy g i = true := by
    rw [(after.1 i).2.1, ← (before.1 i).2.1, beats]
    exact (State.foldBeats_ctx once u i).2.2
  refine ⟨joined, n + m, ?_, fun g => ?_, fun i => ?_, ?_, fun busy => ?_⟩
  · rw [sends', queue, sends, ← List.drop_drop, List.drop_append_of_le_length room]
  · have same : (fun i => decide ((s.ctx i).group = g)) = fun i => decide ((u.ctx i).group = g) :=
      funext fun i => by rw [(own i).1]
    rw [same]
    exact order g
  · have step := members i
    rw [sends, (own i).2] at step
    rw [changed]
    have kept : i ∈ (s.chain ch).pushQueue.drop n → i ∈ (s.chain ch).pushQueue := List.mem_of_mem_drop
    by_cases waits : i ∈ (s.chain ch).pushQueue
    · simp only [List.mem_append, waits, true_or]
    · simpa only [List.mem_append, waits, mt kept waits, false_or] using step
  · rcases why with rfl | ⟨-, begun⟩
    · omega
    · have none : m = 0 := why'.resolve_right fun ⟨idle, _⟩ => begun (state ▸ idle)
      omega
  · have none : n = 0 := why.resolve_right fun ⟨idle, _⟩ => busy idle
    have none' : m = 0 := why'.resolve_right fun ⟨idle, _⟩ => busy (State.chooses_idle before (state ▸ idle))
    rw [none, none']

/-- What a frame event does (R85 to R88, R114, R132). -/
theorem State.frameEvent_afterFrameEvent (s : State) : s.afterFrameEvent s.frameEvent := by
  obtain ⟨u, v, gs, before, once, beats, after, frames, groups⟩ := s.frameEvent_between
  have beaten (i : Fin 256) := State.foldBeats_ctx once u i
  rw [← beats] at beaten
  have reads (i : Fin 256) : s.readsBack s.frameEvent i := by
    obtain ⟨shift, -, read⟩ := before.1 i
    obtain ⟨shift', same, -⟩ := beaten i
    obtain ⟨-, -, read'⟩ := after.1 i
    rcases read' with same' | ⟨idle, due, reading⟩
    · exact read.imp (fun kept => (same'.trans same).trans kept) fun ⟨idle, due, reading⟩ =>
        ⟨idle, due, (same'.trans same).trans reading⟩
    · rw [same] at due
      rcases read with kept | ⟨-, -, reading'⟩
      · obtain ⟨joined, queue, -⟩ := State.foldBeats_joins once u (s.ctx i).chain
        rw [← beats] at queue
        rw [(Context.shifted_own shift').2, (Context.shifted_own shift).2, queue] at idle
        exact .inr ⟨State.chooses_idle before idle, kept ▸ due, reading⟩
      · rw [reading'] at due
        cases due
  refine ⟨fun g => ?_, fun i => Context.shifted_becoming ?_, fun i a steps known => ?_,
    fun i still => State.frameEvent_applied_other still, reads, frames, fun ch busy => ?_, s.frameEvent_chosen,
    State.pushQueue_between before once beats after, s.frameEvent_tablesOnly⟩
  · rw [State.group_congr groups]
    exact Table.get_map _ _ _
  · obtain ⟨shift, kept, read⟩ := before.1 i
    obtain ⟨shift', same, -⟩ := beaten i
    obtain ⟨shift'', kept', read'⟩ := after.1 i
    have beats := Context.shifted_trans shift shift' (fun _ => kept) fun back => same.symm.trans back
    refine Context.shifted_trans beats shift'' (fun back => kept'.symm.trans back) fun back => same.trans ?_
    refine State.readsBack_unread read ?_ back
    rw [← same]
    exact read'.imp id fun read => read.2
  · rw [State.frameEvent_applied steps]
    unfold Context.beaten State.steppedSet
    rw [known]
    cases s.ramp.mode <;> rfl
  · obtain ⟨joined, queue, -⟩ := State.foldBeats_joins once u ch
    rw [← beats] at queue
    have first := (before.2 ch).1 busy
    have second := (after.2 ch).1 (by rw [queue, first]; exact busy)
    rw [queue, first] at second
    rw [second]

/-! ## The frame monitor (R80 to R82, R95) -/

theorem State.regains_iff (period gap : Nat) :
    State.regains period gap = true ↔ period ≤ 2 * gap ∧ 2 * gap ≤ 3 * period := by
  unfold State.regains
  rw [Bool.and_eq_true, decide_eq_true_eq, decide_eq_true_eq]

theorem exec_frameEdge_regained {s : State} (regained : s.ramp.frameState = .regained) :
    exec .frameEdge s = .next (s.modRamp fun r => { r with lossTimer := lossTimerFor r.period }).frameEvent := by
  have edge : exec .frameEdge s = .next (frameEdgeStep s) := rfl
  rw [edge, frameEdgeStep, regained]

theorem exec_frameEdge_first {s : State} (lost : s.ramp.frameState = .lost) (none : s.ramp.candidate = none) :
    exec .frameEdge s = .next (s.modRamp fun r => { r with candidate := some s.clock }) := by
  have edge : exec .frameEdge s = .next (frameEdgeStep s) := rfl
  rw [edge, frameEdgeStep, lost, none]

theorem exec_frameEdge_next {s : State} {c : Nat} (lost : s.ramp.frameState = .lost) (known : s.ramp.candidate = some c) :
    exec .frameEdge s = .next
      (if State.regains s.ramp.period ((s.clock - c) / 10) then s.regain.frameEvent
        else s.modRamp fun r => { r with candidate := some s.clock }) := by
  have edge : exec .frameEdge s = .next (frameEdgeStep s) := rfl
  rw [edge, frameEdgeStep, lost, known, show (10 : Nat) = Config.frameUnitMicros from rfl]

theorem exec_lossTimerExpiry (s : State) : exec .lossTimerExpiry s = .next (lossTimerExpiryStep s) := rfl

theorem exec_substituteTimerExpiry (s : State) :
    exec .substituteTimerExpiry s = .next (substituteTimerExpiryStep s) := rfl

/-- Settles O30: each edge and each timer by what it finds, and the frame events by what one does. -/
theorem frameMonitor : Obligations.FrameMonitor := by
  intro s
  refine ⟨fun regained => ⟨_, exec_frameEdge_regained regained, State.frameEvent_afterFrameEvent _⟩,
    fun lost none => exec_frameEdge_first lost none, fun c lost known => ⟨fun spaced => ?_, fun apart => ?_⟩,
    fun running => ?_, fun stopped => ?_, fun running => ?_, fun stopped => ?_, fun a => rfl⟩
  · refine ⟨s.regain.frameEvent, ?_, State.frameEvent_afterFrameEvent _⟩
    rw [exec_frameEdge_next lost known, if_pos ((State.regains_iff _ _).2 spaced)]
  · rw [exec_frameEdge_next lost known, if_neg fun regains => apart ((State.regains_iff _ _).1 regains)]
    rfl
  · rw [exec_lossTimerExpiry, lossTimerExpiryStep, if_pos running]
    rfl
  · rw [exec_lossTimerExpiry, lossTimerExpiryStep, if_neg (by simp [stopped])]
  · refine ⟨_, ?_, State.frameEvent_afterFrameEvent _⟩
    rw [exec_substituteTimerExpiry, substituteTimerExpiryStep, if_pos running]
    rfl
  · rw [exec_substituteTimerExpiry, substituteTimerExpiryStep, if_neg (by simp [stopped])]

end Sys2Proof.Machine
end
